-- ==== Sys2Proof/Word.lean ====
section
/-! DEFINITION. The words of the machine: a 64-bit register, a 32-bit instruction word, a byte (R3), and their plainest arithmetic. -/

namespace Sys2Proof

/-- A 64-bit register value. -/
abbrev Word := BitVec 64

/-- One 32-bit instruction word (R55). -/
abbrev IWord := BitVec 32

/-- One byte. -/
abbrev Byte := BitVec 8

end Sys2Proof
end

