-- ==== Sys2Proof/Syntax.lean ====
section
/-! DEFINITION. The instructions and steps of the Eunum 940: one constructor per row of the opcode table. Register fields of a class
narrower than the 6-bit field hold a number of that class (R58), so a number outside it cannot be written; conditions between
fields stand in WellFormed. A literal word (R63) is an operand. Memory offsets are in bytes, already scaled (R67, R68). -/

namespace Sys2Proof

/-- x0–x31 (R58). -/
abbrev XReg := Fin 32
/-- a0–a15 (R58). -/
abbrev AReg := Fin 16
/-- n0–n7 (R58). -/
abbrev NReg := Fin 8
/-- p0–p7 (R58). -/
abbrev PReg := Fin 8
/-- k0–k7 (R58). -/
abbrev KReg := Fin 8
/-- v0–v31 (R58). -/
abbrev VReg := Fin 32
/-- m0–m7, relative to the ring head (R58, R219). -/
abbrev MReg := Fin 8
/-- bd0–bd16 (R58). -/
abbrev BdReg := Fin 17
/-- A scoreboard slot sb0–sb15 (R88). -/
abbrev Slot := Fin 16

/-- An operand that names an x- or an a-register (R100). -/
inductive Reg where
  | x (i : XReg)
  | a (i : AReg)
deriving DecidableEq, Repr

/-- An operand of MOV: an x-, an a- or a port register (R109). -/
inductive RegN where
  | x (i : XReg)
  | a (i : AReg)
  | n (i : NReg)
deriving DecidableEq, Repr

/-- A second source operand: a register, or the literal word of the 96-bit form (R63). -/
inductive Src where
  | reg (r : Reg)
  | lit (w : BitVec 32)
deriving DecidableEq, Repr

/-- A second source operand of an instruction that takes x-registers only (R100). -/
inductive XSrc where
  | reg (i : XReg)
  | lit (w : BitVec 32)
deriving DecidableEq, Repr

/-- A second source operand of a vector instruction: a v-register, or the literal in every lane (R137). -/
inductive VSrc where
  | reg (i : VReg)
  | lit (w : BitVec 32)
deriving DecidableEq, Repr

/-- The conditions of CMP.cc (R107). -/
inductive Cond where
  | eq | ne | lt | le | gt | ge | ltu | leu | gtu | geu
deriving DecidableEq, Repr

/-- The conditions of FCMP.cc and VCMP (R125, R145). -/
inductive FCond where
  | eq | ne | lt | le | gt | ge | un | ord
deriving DecidableEq, Repr

/-- The formats of FCMP (R125). -/
inductive SFmt where
  | f32 | f16 | bf16
deriving DecidableEq, Repr

/-- The element formats (R37); format code 7 is reserved and has no constructor. -/
inductive Fmt where
  | f32 | f16 | bf16 | e4m3 | e5m2 | t8 | t6 | si8 | ui8 | si16 | ui16 | si32 | ui32 | si64 | ui64
deriving DecidableEq, Repr

/-- The memory scopes (R28); codes 6 and 7 are reserved and have no constructor. -/
inductive Scope where
  | core | clu | die | dev | pod | sys
deriving DecidableEq, Repr

/-- The second word's guard, set slot and wait mask (R60). -/
structure Mods where
  gp : PReg
  gn : Bool
  sen : Bool
  sslot : Slot
  wmask : BitVec 16
deriving DecidableEq, Repr

/-- One rank of a collective on another device: what its collective record, command and source hold (R267), and whether its context has been
killed or its job cancelled (R268). -/
structure Peer where
  cmd : Nat
  group : Nat
  seq : Nat
  count : Nat
  nranks : Nat
  root : Nat
  fmt : Nat
  op : Nat
  rank : Nat
  gone : Bool
  data : List (BitVec 32)
deriving DecidableEq, Repr

/-- A unit that can suffer an uncorrectable error (R131, R375, R380). -/
inductive DevUnit where
  | core (core : Nat)
  | cluster (clu : Nat)
  | laneGroup (clu group : Nat)
  | slice (die slice : Nat)
deriving DecidableEq, Repr

/-- The atomic operations (R187). -/
inductive AmoOp where
  | add | fadd | min | max | and | or | xor | swap
deriving DecidableEq, Repr

/-- What a request from another device asks: an access at a home slice (R387), or, of a launch that was submitted here, the next chunk for the
team with a number that has gone to that device, and how many cores have live control contexts of that team: none once it has ended (R27, R35). -/
inductive RemoteReq where
  | read (n : Nat)
  | write (v : List Byte)
  | amo (n : Nat) (op : AmoOp) (v : Nat)
  | cas (n : Nat) (old new : Nat)
  | dnext (launch team : Nat)
  | controls (launch team cores : Nat)
deriving DecidableEq, Repr

/-- A firmware stage as the boot ROM finds it (R389). -/
structure Stage where
  image : List Byte
  key : BitVec 384
  signature : List Byte
  version : Nat
deriving DecidableEq, Repr

/-- What training finds at a bring-up (R391): the failed units, stacks, pool ports and Criras ports, the width of the host link, the IDE key that
Weward sets (R382), whether the device has a Criras partner (R30), and its number in the pod (R92). -/
structure Training where
  units : List DevUnit
  badStacks : List Nat
  ports : List Nat
  planes : List Nat
  width : Nat
  ide : Option (BitVec 256)
  pods : Bool
  num : Nat
deriving DecidableEq, Repr, Inhabited

/-- The instructions, then the steps that engines, tables, the dispatcher, the umpire, Weward, the host and the fabric make. -/
inductive Instr where
  /-- ADD (R102). Adds two registers and writes the low 64 bits. -/
  | add (d : Reg) (a : Reg) (b : Src)
  /-- SUB (R102). Subtracts s2 from s1, wrapping modulo 2^64. -/
  | sub (d : Reg) (a : Reg) (b : Src)
  /-- MUL (R102). Writes the low 64 bits of the product. -/
  | mul (d : Reg) (a : Reg) (b : Src)
  /-- MULH (R102). Writes the high 64 bits of the signed product. -/
  | mulh (d : Reg) (a : Reg) (b : Src)
  /-- MULHU (R102). Writes the high 64 bits of the unsigned product. -/
  | mulhu (d : Reg) (a : Reg) (b : Src)
  /-- DIV (R103). Signed division truncating toward zero, with the fixed borderline results. -/
  | div (d : Reg) (a : Reg) (b : Src)
  /-- DIVU (R103). Unsigned division, with all ones on division by zero. -/
  | divu (d : Reg) (a : Reg) (b : Src)
  /-- REM (R103). Signed remainder, which takes the sign of the dividend. -/
  | rem (d : Reg) (a : Reg) (b : Src)
  /-- REMU (R103). Unsigned remainder. -/
  | remu (d : Reg) (a : Reg) (b : Src)
  /-- AND (R102). Bitwise and of two registers. -/
  | and (d : Reg) (a : Reg) (b : Src)
  /-- OR (R102). Bitwise or of two registers. -/
  | or (d : Reg) (a : Reg) (b : Src)
  /-- XOR (R102). Bitwise exclusive or of two registers. -/
  | xor (d : Reg) (a : Reg) (b : Src)
  /-- ANDN (R102). Writes s1 and not s2. -/
  | andn (d : Reg) (a : Reg) (b : Src)
  /-- SHL (R102). Shifts left by the low six bits of s2. -/
  | shl (d : Reg) (a : Reg) (b : Src)
  /-- SHR (R102). Shifts right logically by the low six bits of s2. -/
  | shr (d : Reg) (a : Reg) (b : Src)
  /-- SAR (R102). Shifts right arithmetically. -/
  | sar (d : Reg) (a : Reg) (b : Src)
  /-- ROL (R102). Rotates left. -/
  | rol (d : Reg) (a : Reg) (b : Src)
  /-- ROR (R102). Rotates right. -/
  | ror (d : Reg) (a : Reg) (b : Src)
  /-- MIN (R102). Signed minimum. -/
  | min (d : Reg) (a : Reg) (b : Src)
  /-- MAX (R102). Signed maximum. -/
  | max (d : Reg) (a : Reg) (b : Src)
  /-- MINU (R102). Unsigned minimum. -/
  | minu (d : Reg) (a : Reg) (b : Src)
  /-- MAXU (R102). Unsigned maximum. -/
  | maxu (d : Reg) (a : Reg) (b : Src)
  /-- ADD_RI (R102). Adds a sign-extended 12-bit immediate. -/
  | addI (d : Reg) (a : Reg) (imm : BitVec 44)
  /-- MUL_RI (R102). Multiplies by an immediate. -/
  | mulI (d : Reg) (a : Reg) (imm : BitVec 44)
  /-- AND_RI (R102). Ands with an immediate. -/
  | andI (d : Reg) (a : Reg) (imm : BitVec 44)
  /-- OR_RI (R102). Ors with an immediate. -/
  | orI (d : Reg) (a : Reg) (imm : BitVec 44)
  /-- XOR_RI (R102). Exclusive-ors with an immediate. -/
  | xorI (d : Reg) (a : Reg) (imm : BitVec 44)
  /-- SHL_RI (R102). Shifts left by an immediate of 0 to 63. -/
  | shlI (d : Reg) (a : Reg) (n : BitVec 6)
  /-- SHR_RI (R102). Shifts right logically by an immediate. -/
  | shrI (d : Reg) (a : Reg) (n : BitVec 6)
  /-- SAR_RI (R102). Shifts right arithmetically by an immediate. -/
  | sarI (d : Reg) (a : Reg) (n : BitVec 6)
  /-- ROL_RI (R102). Rotates left by an immediate. -/
  | rolI (d : Reg) (a : Reg) (n : BitVec 6)
  /-- ROR_RI (R102). Rotates right by an immediate. -/
  | rorI (d : Reg) (a : Reg) (n : BitVec 6)
  /-- LI (R110). Loads a sign-extended immediate. -/
  | li (d : Reg) (imm : BitVec 44)
  /-- BEXT (R105). Extracts a bit field sign-extended. -/
  | bext (d : Reg) (a : Reg) (w : BitVec 6) (pos : BitVec 6)
  /-- BEXTU (R105). Extracts a bit field zero-extended. -/
  | bextu (d : Reg) (a : Reg) (w : BitVec 6) (pos : BitVec 6)
  /-- BINS (R105). Inserts the low bits of s1 into a field of d. -/
  | bins (d : Reg) (a : Reg) (w : BitVec 6) (pos : BitVec 6)
  /-- MOV (R109). Moves a value between x, a and port registers, sending or taking a port word where a port is named. -/
  | mov (d : RegN) (a : RegN)
  /-- POPC (R106). Counts the one bits. -/
  | popc (d : Reg) (a : Reg)
  /-- CLZ (R106). Counts the leading zero bits. -/
  | clz (d : Reg) (a : Reg)
  /-- CTZ (R106). Counts the trailing zero bits. -/
  | ctz (d : Reg) (a : Reg)
  /-- BREV (R106). Reverses the bit order. -/
  | brev (d : Reg) (a : Reg)
  /-- ABS (R106). Writes the absolute value. -/
  | abs (d : Reg) (a : Reg)
  /-- SEXT_8 (R106). Sign-extends from 8 bits. -/
  | sext8 (d : Reg) (a : Reg)
  /-- SEXT_16 (R106). Sign-extends from 16 bits. -/
  | sext16 (d : Reg) (a : Reg)
  /-- SEXT_32 (R106). Sign-extends from 32 bits. -/
  | sext32 (d : Reg) (a : Reg)
  /-- ZEXT_8 (R106). Zero-extends from 8 bits. -/
  | zext8 (d : Reg) (a : Reg)
  /-- ZEXT_16 (R106). Zero-extends from 16 bits. -/
  | zext16 (d : Reg) (a : Reg)
  /-- ZEXT_32 (R106). Zero-extends from 32 bits. -/
  | zext32 (d : Reg) (a : Reg)
  /-- ATX (R109). Moves an a-register to an x-register through the load-data queue. -/
  | atx (d : XReg) (a : AReg)
  /-- RDTIME (R121). Reads the global timestamp. -/
  | rdtime (d : XReg)
  /-- CMP (R107). Compares two x-registers by condition cc into a predicate. -/
  | cmp (cc : Cond) (d : PReg) (a : XReg) (b : XSrc)
  /-- PAND (R108). Ands two predicates. -/
  | pand (d : PReg) (a : PReg) (b : PReg)
  /-- POR (R108). Ors two predicates. -/
  | por (d : PReg) (a : PReg) (b : PReg)
  /-- PNOT (R108). Negates a predicate. -/
  | pnot (d : PReg) (a : PReg)
  /-- SEL (R108). Selects s1 or s2 by a predicate. -/
  | sel (d : Reg) (p : PReg) (a : Reg) (b : Reg)
  /-- FCMP (R125). Compares two floats by condition cc into a predicate, setting nv by the table. -/
  | fcmp (cc : FCond) (fmt : SFmt) (d : PReg) (a : XReg) (b : XSrc)
  /-- FCVT (R127). Converts between any two element formats by R50 and R51. -/
  | fcvt (dst : Fmt) (src : Fmt) (d : XReg) (a : XReg)
  /-- LEA (R111). Writes s1 plus s2 shifted left by 0 to 7. -/
  | lea (d : Reg) (a : Reg) (b : Src) (sh : BitVec 3)
  /-- FSHL (R104). Funnel-shifts a 128-bit pair left. -/
  | fshl (d : Reg) (a : Reg) (b : Src) (n : BitVec 6)
  /-- FSHR (R104). Funnel-shifts a 128-bit pair right. -/
  | fshr (d : Reg) (a : Reg) (b : Src) (n : BitVec 6)
  /-- CRR (R121). Reads a control or identity register after the access checks. -/
  | crr (d : XReg) (r : BitVec 12)
  /-- CRW (R121). Writes a control register after the access and field checks, with the timing of R98. -/
  | crw (r : BitVec 12) (a : XReg)
  /-- WAIT (R117). Holds the access stream until every masked slot is zero. -/
  | wait (mask : BitVec 16)
  /-- TRAP (R120). Freezes the core with the trap fault and a trap code. -/
  | trap (code : BitVec 12)
  /-- HINT (R119). Executes as NOP with a performance-only hint. -/
  | hint (code : BitVec 6) (d : BitVec 6) (a : BitVec 6) (b : BitVec 6)
  /-- NOP (R118). Changes only the program counter. -/
  | nop
  /-- FADD_F32 (R123). IEEE addition in FP32. -/
  | faddF32 (d : XReg) (a : XReg) (b : XSrc)
  /-- FSUB_F32 (R123). IEEE subtraction in FP32. -/
  | fsubF32 (d : XReg) (a : XReg) (b : XSrc)
  /-- FMUL_F32 (R123). IEEE multiplication in FP32. -/
  | fmulF32 (d : XReg) (a : XReg) (b : XSrc)
  /-- FDIV_F32 (R123). IEEE division in FP32. -/
  | fdivF32 (d : XReg) (a : XReg) (b : XSrc)
  /-- FMIN_F32 (R124). minimumNumber in FP32. -/
  | fminF32 (d : XReg) (a : XReg) (b : XSrc)
  /-- FMAX_F32 (R124). maximumNumber in FP32. -/
  | fmaxF32 (d : XReg) (a : XReg) (b : XSrc)
  /-- FSQRT_F32 (R123). Square root in FP32. -/
  | fsqrtF32 (d : XReg) (a : XReg)
  /-- FABS_F32 (R124). Clears the sign in FP32. -/
  | fabsF32 (d : XReg) (a : XReg)
  /-- FNEG_F32 (R124). Inverts the sign in FP32. -/
  | fnegF32 (d : XReg) (a : XReg)
  /-- FCLASS_F32 (R126). Classifies an FP32 encoding. -/
  | fclassF32 (d : XReg) (a : XReg)
  /-- FSIN_F32 (R128). Sine in FP32. -/
  | fsinF32 (d : XReg) (a : XReg)
  /-- FCOS_F32 (R128). Cosine in FP32. -/
  | fcosF32 (d : XReg) (a : XReg)
  /-- FEXP2_F32 (R128). Base-2 exponential in FP32. -/
  | fexp2F32 (d : XReg) (a : XReg)
  /-- FLOG2_F32 (R128). Base-2 logarithm in FP32. -/
  | flog2F32 (d : XReg) (a : XReg)
  /-- FRCP_F32 (R128). Reciprocal in FP32. -/
  | frcpF32 (d : XReg) (a : XReg)
  /-- FRSQ_F32 (R128). Reciprocal square root in FP32. -/
  | frsqF32 (d : XReg) (a : XReg)
  /-- FFMA_F32 (R123). Fused multiply-add into d in FP32. -/
  | ffmaF32 (d : XReg) (a : XReg) (b : XSrc)
  /-- FADD_F16 (R123). IEEE addition in FP16. -/
  | faddF16 (d : XReg) (a : XReg) (b : XSrc)
  /-- FSUB_F16 (R123). IEEE subtraction in FP16. -/
  | fsubF16 (d : XReg) (a : XReg) (b : XSrc)
  /-- FMUL_F16 (R123). IEEE multiplication in FP16. -/
  | fmulF16 (d : XReg) (a : XReg) (b : XSrc)
  /-- FDIV_F16 (R123). IEEE division in FP16. -/
  | fdivF16 (d : XReg) (a : XReg) (b : XSrc)
  /-- FMIN_F16 (R124). minimumNumber in FP16. -/
  | fminF16 (d : XReg) (a : XReg) (b : XSrc)
  /-- FMAX_F16 (R124). maximumNumber in FP16. -/
  | fmaxF16 (d : XReg) (a : XReg) (b : XSrc)
  /-- FSQRT_F16 (R123). Square root in FP16. -/
  | fsqrtF16 (d : XReg) (a : XReg)
  /-- FABS_F16 (R124). Clears the sign in FP16. -/
  | fabsF16 (d : XReg) (a : XReg)
  /-- FNEG_F16 (R124). Inverts the sign in FP16. -/
  | fnegF16 (d : XReg) (a : XReg)
  /-- FCLASS_F16 (R126). Classifies an FP16 encoding. -/
  | fclassF16 (d : XReg) (a : XReg)
  /-- FSIN_F16 (R128). Sine in FP16. -/
  | fsinF16 (d : XReg) (a : XReg)
  /-- FCOS_F16 (R128). Cosine in FP16. -/
  | fcosF16 (d : XReg) (a : XReg)
  /-- FEXP2_F16 (R128). Base-2 exponential in FP16. -/
  | fexp2F16 (d : XReg) (a : XReg)
  /-- FLOG2_F16 (R128). Base-2 logarithm in FP16. -/
  | flog2F16 (d : XReg) (a : XReg)
  /-- FRCP_F16 (R128). Reciprocal in FP16. -/
  | frcpF16 (d : XReg) (a : XReg)
  /-- FRSQ_F16 (R128). Reciprocal square root in FP16. -/
  | frsqF16 (d : XReg) (a : XReg)
  /-- FFMA_F16 (R123). Fused multiply-add into d in FP16. -/
  | ffmaF16 (d : XReg) (a : XReg) (b : XSrc)
  /-- FADD_BF16 (R123). Addition in BF16 with flushing by R41. -/
  | faddBF16 (d : XReg) (a : XReg) (b : XSrc)
  /-- FSUB_BF16 (R123). Subtraction in BF16. -/
  | fsubBF16 (d : XReg) (a : XReg) (b : XSrc)
  /-- FMUL_BF16 (R123). Multiplication in BF16. -/
  | fmulBF16 (d : XReg) (a : XReg) (b : XSrc)
  /-- FDIV_BF16 (R123). Division in BF16. -/
  | fdivBF16 (d : XReg) (a : XReg) (b : XSrc)
  /-- FMIN_BF16 (R124). minimumNumber in BF16. -/
  | fminBF16 (d : XReg) (a : XReg) (b : XSrc)
  /-- FMAX_BF16 (R124). maximumNumber in BF16. -/
  | fmaxBF16 (d : XReg) (a : XReg) (b : XSrc)
  /-- FSQRT_BF16 (R123). Square root in BF16. -/
  | fsqrtBF16 (d : XReg) (a : XReg)
  /-- FABS_BF16 (R124). Clears the sign in BF16, flushing a subnormal first. -/
  | fabsBF16 (d : XReg) (a : XReg)
  /-- FNEG_BF16 (R124). Inverts the sign in BF16, flushing a subnormal first. -/
  | fnegBF16 (d : XReg) (a : XReg)
  /-- FCLASS_BF16 (R126). Classifies a BF16 encoding without flushing. -/
  | fclassBF16 (d : XReg) (a : XReg)
  /-- FSIN_BF16 (R128). Sine in BF16. -/
  | fsinBF16 (d : XReg) (a : XReg)
  /-- FCOS_BF16 (R128). Cosine in BF16. -/
  | fcosBF16 (d : XReg) (a : XReg)
  /-- FEXP2_BF16 (R128). Base-2 exponential in BF16. -/
  | fexp2BF16 (d : XReg) (a : XReg)
  /-- FLOG2_BF16 (R128). Base-2 logarithm in BF16. -/
  | flog2BF16 (d : XReg) (a : XReg)
  /-- FRCP_BF16 (R128). Reciprocal in BF16. -/
  | frcpBF16 (d : XReg) (a : XReg)
  /-- FRSQ_BF16 (R128). Reciprocal square root in BF16. -/
  | frsqBF16 (d : XReg) (a : XReg)
  /-- FFMA_BF16 (R123). Fused multiply-add into d in BF16. -/
  | ffmaBF16 (d : XReg) (a : XReg) (b : XSrc)
  /-- LD_S8 (R179). Loads a sign-extended byte at the owning L1 slice. -/
  | ldS8 (slot : Slot) (off : BitVec 32) (base : AReg) (d : Reg)
  /-- LD_U8 (R179). Loads a zero-extended byte. -/
  | ldU8 (slot : Slot) (off : BitVec 32) (base : AReg) (d : Reg)
  /-- LD_S16 (R179). Loads a sign-extended halfword. -/
  | ldS16 (slot : Slot) (off : BitVec 32) (base : AReg) (d : Reg)
  /-- LD_U16 (R179). Loads a zero-extended halfword. -/
  | ldU16 (slot : Slot) (off : BitVec 32) (base : AReg) (d : Reg)
  /-- LD_S32 (R179). Loads a sign-extended word. -/
  | ldS32 (slot : Slot) (off : BitVec 32) (base : AReg) (d : Reg)
  /-- LD_U32 (R179). Loads a zero-extended word. -/
  | ldU32 (slot : Slot) (off : BitVec 32) (base : AReg) (d : Reg)
  /-- LD_64 (R179). Loads a doubleword, filling from L2 on a miss. -/
  | ld64 (slot : Slot) (off : BitVec 32) (base : AReg) (d : Reg)
  /-- ST_8 (R179). Stores a byte into the owning L1 slice. -/
  | st8 (slot : Slot) (off : BitVec 32) (base : AReg) (v : Reg)
  /-- ST_16 (R179). Stores a halfword. -/
  | st16 (slot : Slot) (off : BitVec 32) (base : AReg) (v : Reg)
  /-- ST_32 (R179). Stores a word. -/
  | st32 (slot : Slot) (off : BitVec 32) (base : AReg) (v : Reg)
  /-- ST_64 (R179). Stores a doubleword. -/
  | st64 (slot : Slot) (off : BitVec 32) (base : AReg) (v : Reg)
  /-- LDL_8 (R179). Loads a byte from the local store. -/
  | ldl8 (slot : Slot) (off : BitVec 32) (base : AReg) (d : Reg)
  /-- LDL_16 (R179). Loads a halfword from the local store. -/
  | ldl16 (slot : Slot) (off : BitVec 32) (base : AReg) (d : Reg)
  /-- LDL_32 (R179). Loads a word from the local store. -/
  | ldl32 (slot : Slot) (off : BitVec 32) (base : AReg) (d : Reg)
  /-- LDL_64 (R179). Loads a doubleword from the local store. -/
  | ldl64 (slot : Slot) (off : BitVec 32) (base : AReg) (d : Reg)
  /-- STL_8 (R179). Stores a byte to the local store. -/
  | stl8 (slot : Slot) (off : BitVec 32) (base : AReg) (v : Reg)
  /-- STL_16 (R179). Stores a halfword to the local store. -/
  | stl16 (slot : Slot) (off : BitVec 32) (base : AReg) (v : Reg)
  /-- STL_32 (R179). Stores a word to the local store. -/
  | stl32 (slot : Slot) (off : BitVec 32) (base : AReg) (v : Reg)
  /-- STL_64 (R179). Stores a doubleword to the local store. -/
  | stl64 (slot : Slot) (off : BitVec 32) (base : AReg) (v : Reg)
  /-- LDFE_C (R185). Waits for a full granule, then reads it and sets it empty in one step. -/
  | ldfeC (slot : Slot) (off : BitVec 32) (base : AReg) (d : Reg)
  /-- LDFE_K (R185). Waits for a full granule and reads it, keeping the bit. -/
  | ldfeK (slot : Slot) (off : BitVec 32) (base : AReg) (d : Reg)
  /-- STFE (R185). Writes 8 bytes and sets the granule full. -/
  | stfe (slot : Slot) (off : BitVec 32) (base : AReg) (v : Reg)
  /-- FEMARK_E (R186). Sets a run of granules empty. -/
  | femarkE (slot : Slot) (off : BitVec 32) (base : AReg) (n : Reg)
  /-- FEMARK_F (R186). Sets a run of granules full, releasing waiting LDFEs. -/
  | femarkF (slot : Slot) (off : BitVec 32) (base : AReg) (n : Reg)
  /-- PREF (R191). Prefetches a line into L1 and L2 or into L2 only. -/
  | pref (slot : Slot) (off : BitVec 32) (base : AReg) (l2 : Bool)
  /-- FENCE (R184). Performs a release and the version steps of an acquire at its scope. -/
  | fence (slot : Slot) (scope : Scope)
  /-- CZFENCE (R192). Joins the compressed and uncompressed views over a range. -/
  | czfence (slot : Slot) (off : BitVec 32) (base : AReg) (len : Reg)
  /-- CBLOAD (R193). Checks and installs a codebook version. -/
  | cbload (slot : Slot) (off : BitVec 32) (base : AReg) (d : Reg)
  /-- CZSTAT (R194). Reads a block's compression map status. -/
  | czstat (slot : Slot) (off : BitVec 32) (base : AReg) (d : Reg)
  /-- J (R113). Jumps to a base register plus a scaled offset. -/
  | j (off : BitVec 8) (base : AReg)
  /-- RET (R114). Returns to the address in a14. -/
  | ret
  /-- B (R112). Branches on a predicate, using the predictor. -/
  | b (off : BitVec 20) (neg : Bool) (p : PReg)
  /-- BP (R112). Branches on a predicate, predicted taken. -/
  | bp (off : BitVec 20) (neg : Bool) (p : PReg)
  /-- CALL (R114). Writes the return address to a14 and branches. -/
  | call (off : BitVec 20)
  /-- LOOP (R115). Decrements a(8+j) and branches while it is non-zero. -/
  | loop (off : BitVec 20) (j : BitVec 3)
  /-- LONG_FORM (R62). A 64- or 96-bit wrapper that adds a guard, a set slot and a wait mask to a 32-bit instruction. -/
  | longForm (m : Mods)
  /-- VADD (R139). Adds the active lanes. -/
  | vadd (m : KReg) (fmt : Fmt) (d : VReg) (a : VReg) (b : VSrc)
  /-- VSUB (R139). Subtracts the active lanes. -/
  | vsub (m : KReg) (fmt : Fmt) (d : VReg) (a : VReg) (b : VSrc)
  /-- VMUL (R139). Multiplies the active lanes. -/
  | vmul (m : KReg) (fmt : Fmt) (d : VReg) (a : VReg) (b : VSrc)
  /-- VFMA (R139). Fused multiply-add per lane. -/
  | vfma (m : KReg) (fmt : Fmt) (d : VReg) (a : VReg) (b : VSrc)
  /-- VDIV (R139). Divides the active lanes. -/
  | vdiv (m : KReg) (fmt : Fmt) (d : VReg) (a : VReg) (b : VSrc)
  /-- VSQRT (R139). Square root per lane. -/
  | vsqrt (m : KReg) (fmt : Fmt) (d : VReg) (a : VReg)
  /-- VMIN (R139). Minimum per lane. -/
  | vmin (m : KReg) (fmt : Fmt) (d : VReg) (a : VReg) (b : VSrc)
  /-- VMAX (R139). Maximum per lane. -/
  | vmax (m : KReg) (fmt : Fmt) (d : VReg) (a : VReg) (b : VSrc)
  /-- VAND (R139). Bitwise and per lane. -/
  | vand (m : KReg) (fmt : Fmt) (d : VReg) (a : VReg) (b : VSrc)
  /-- VOR (R139). Bitwise or per lane. -/
  | vor (m : KReg) (fmt : Fmt) (d : VReg) (a : VReg) (b : VSrc)
  /-- VXOR (R139). Bitwise exclusive or per lane. -/
  | vxor (m : KReg) (fmt : Fmt) (d : VReg) (a : VReg) (b : VSrc)
  /-- VSHL (R141). Shifts lanes left by a whole-lane count. -/
  | vshl (m : KReg) (fmt : Fmt) (d : VReg) (a : VReg) (b : VSrc)
  /-- VSHR (R141). Shifts lanes right by a whole-lane count. -/
  | vshr (m : KReg) (fmt : Fmt) (d : VReg) (a : VReg) (b : VSrc)
  /-- VFSH (R141). Funnel-shifts per lane. -/
  | vfsh (m : KReg) (fmt : Fmt) (d : VReg) (a : VReg) (b : VSrc)
  /-- VBEXT (R141). Extracts a bit field per lane. -/
  | vbext (m : KReg) (fmt : Fmt) (d : VReg) (a : VReg) (b : VSrc)
  /-- VPOPC (R139). Counts the ones per lane. -/
  | vpopc (m : KReg) (fmt : Fmt) (d : VReg) (a : VReg)
  /-- VCLZ (R139). Counts the leading zeros per lane. -/
  | vclz (m : KReg) (fmt : Fmt) (d : VReg) (a : VReg)
  /-- VSEL (R142). Selects lanes by a mask. -/
  | vsel (k : KReg) (d : VReg) (a : VReg) (b : VSrc)
  /-- VBCAST (R142). Broadcasts an x-register into the active lanes. -/
  | vbcast (m : KReg) (d : VReg) (a : XReg)
  /-- VEXTR (R142). Extracts one lane into an x-register. -/
  | vextr (d : XReg) (a : VReg) (b : XSrc)
  /-- VINS (R142). Inserts an x-register into one lane. -/
  | vins (d : VReg) (a : XReg) (b : XSrc)
  /-- VNEIGH (R150). Publishes edge lanes and reads the partner's lanes across the core boundary. -/
  | vneigh (m : KReg) (d : VReg) (a : VReg) (p : PReg) (dist : BitVec 3)
  /-- VLUT (R143). Looks up bytes in a 64-byte table. -/
  | vlut (m : KReg) (d : VReg) (a : VReg) (b : VSrc)
  /-- VPERM (R143). Gathers lanes within one register. -/
  | vperm (m : KReg) (d : VReg) (a : VReg) (b : VSrc)
  /-- VSFN_SIN (R139). Sine per lane. -/
  | vsfnSin (m : KReg) (fmt : Fmt) (d : VReg) (a : VReg)
  /-- VSFN_COS (R139). Cosine per lane. -/
  | vsfnCos (m : KReg) (fmt : Fmt) (d : VReg) (a : VReg)
  /-- VSFN_EXP2 (R139). Base-2 exponential per lane. -/
  | vsfnExp2 (m : KReg) (fmt : Fmt) (d : VReg) (a : VReg)
  /-- VSFN_LOG2 (R139). Base-2 logarithm per lane. -/
  | vsfnLog2 (m : KReg) (fmt : Fmt) (d : VReg) (a : VReg)
  /-- VSFN_RCP (R139). Reciprocal per lane. -/
  | vsfnRcp (m : KReg) (fmt : Fmt) (d : VReg) (a : VReg)
  /-- VSFN_RSQ (R139). Reciprocal square root per lane. -/
  | vsfnRsq (m : KReg) (fmt : Fmt) (d : VReg) (a : VReg)
  /-- VCMP (R145). Compares lanes into a k-register. -/
  | vcmp (m : KReg) (fmt : Fmt) (cc : FCond) (d : KReg) (a : VReg) (b : VSrc)
  /-- VCVT (R144). Converts the active lanes between formats. -/
  | vcvt (m : KReg) (dst : Fmt) (src : Fmt) (d : VReg) (a : VReg)
  /-- VRED_ADD (R147). Adds the lanes by a pairwise tree. -/
  | vredAdd (m : KReg) (fmt : Fmt) (d : XReg) (a : VReg)
  /-- VRED_MIN (R147). Minimum of the lanes by a pairwise tree. -/
  | vredMin (m : KReg) (fmt : Fmt) (d : XReg) (a : VReg)
  /-- VRED_MAX (R147). Maximum of the lanes by a pairwise tree. -/
  | vredMax (m : KReg) (fmt : Fmt) (d : XReg) (a : VReg)
  /-- VRED_AND (R147). And of the lanes by a pairwise tree. -/
  | vredAnd (m : KReg) (fmt : Fmt) (d : XReg) (a : VReg)
  /-- VRED_OR (R147). Or of the lanes by a pairwise tree. -/
  | vredOr (m : KReg) (fmt : Fmt) (d : XReg) (a : VReg)
  /-- VRED_XOR (R147). Exclusive or of the lanes by a pairwise tree. -/
  | vredXor (m : KReg) (fmt : Fmt) (d : XReg) (a : VReg)
  /-- VSCAN_ADD (R148). Inclusive running sum in lane order. -/
  | vscanAdd (m : KReg) (fmt : Fmt) (d : VReg) (a : VReg)
  /-- VSCAN_MIN (R148). Inclusive running minimum in lane order. -/
  | vscanMin (m : KReg) (fmt : Fmt) (d : VReg) (a : VReg)
  /-- VSCAN_MAX (R148). Inclusive running maximum in lane order. -/
  | vscanMax (m : KReg) (fmt : Fmt) (d : VReg) (a : VReg)
  /-- VSCAN_AND (R148). Inclusive running and in lane order. -/
  | vscanAnd (m : KReg) (fmt : Fmt) (d : VReg) (a : VReg)
  /-- VSCAN_OR (R148). Inclusive running or in lane order. -/
  | vscanOr (m : KReg) (fmt : Fmt) (d : VReg) (a : VReg)
  /-- VSCAN_XOR (R148). Inclusive running exclusive or in lane order. -/
  | vscanXor (m : KReg) (fmt : Fmt) (d : VReg) (a : VReg)
  /-- KOP_AND (R146). Ands two masks. -/
  | kopAnd (d : KReg) (a : KReg) (b : KReg)
  /-- KOP_OR (R146). Ors two masks. -/
  | kopOr (d : KReg) (a : KReg) (b : KReg)
  /-- KOP_XOR (R146). Exclusive-ors two masks. -/
  | kopXor (d : KReg) (a : KReg) (b : KReg)
  /-- KOP_ANDN (R146). Writes s1 and not s2 over masks. -/
  | kopAndn (d : KReg) (a : KReg) (b : KReg)
  /-- KOP_NOT (R146). Negates a mask. -/
  | kopNot (d : KReg) (a : KReg)
  /-- KPOPC (R146). Counts the ones of a mask below G. -/
  | kpopc (d : XReg) (a : KReg)
  /-- VCLAIM (R130). Grows or shrinks the lane grant without waiting for lanes. -/
  | vclaim (d : XReg) (q : BitVec 12)
  /-- VREL (R132). Releases every lane group. -/
  | vrel
  /-- VLD (R152). Loads contiguous elements into the active lanes. -/
  | vld (m : KReg) (fmt : Fmt) (slot : Slot) (off : BitVec 8) (base : AReg) (d : VReg)
  /-- VST (R152). Stores the active lanes contiguously. -/
  | vst (m : KReg) (fmt : Fmt) (slot : Slot) (off : BitVec 8) (base : AReg) (d : VReg)
  /-- VLDX (R152). Gathers elements by an index vector. -/
  | vldx (m : KReg) (fmt : Fmt) (slot : Slot) (idx : VReg) (base : AReg) (d : VReg)
  /-- VSTX (R152). Scatters elements by an index vector. -/
  | vstx (m : KReg) (fmt : Fmt) (slot : Slot) (idx : VReg) (base : AReg) (d : VReg)
  /-- LDA (R183). Acquire load at a scope, with writebacks and version steps. -/
  | lda (size : BitVec 2) (scope : Scope) (slot : Slot) (off : BitVec 8) (base : AReg) (d : Reg)
  /-- STRL (R182). Release store at a scope, publishing the released writes first. -/
  | strl (size : BitVec 2) (scope : Scope) (slot : Slot) (off : BitVec 8) (base : AReg) (v : Reg)
  /-- AMO_32_ADD (R189). Atomic 32-bit add at the scope's execution point. -/
  | amo32Add (scope : Scope) (slot : Slot) (off : BitVec 8) (base : AReg) (d : XReg)
  /-- AMO_32_FADD (R189). Atomic FP32 add, rounding to nearest-even. -/
  | amo32Fadd (scope : Scope) (slot : Slot) (off : BitVec 8) (base : AReg) (d : XReg)
  /-- AMO_32_MIN (R189). Atomic 32-bit signed minimum. -/
  | amo32Min (scope : Scope) (slot : Slot) (off : BitVec 8) (base : AReg) (d : XReg)
  /-- AMO_32_MAX (R189). Atomic 32-bit signed maximum. -/
  | amo32Max (scope : Scope) (slot : Slot) (off : BitVec 8) (base : AReg) (d : XReg)
  /-- AMO_32_AND (R189). Atomic 32-bit and. -/
  | amo32And (scope : Scope) (slot : Slot) (off : BitVec 8) (base : AReg) (d : XReg)
  /-- AMO_32_OR (R189). Atomic 32-bit or. -/
  | amo32Or (scope : Scope) (slot : Slot) (off : BitVec 8) (base : AReg) (d : XReg)
  /-- AMO_32_XOR (R189). Atomic 32-bit exclusive or. -/
  | amo32Xor (scope : Scope) (slot : Slot) (off : BitVec 8) (base : AReg) (d : XReg)
  /-- AMO_32_SWAP (R189). Atomic 32-bit swap. -/
  | amo32Swap (scope : Scope) (slot : Slot) (off : BitVec 8) (base : AReg) (d : XReg)
  /-- AMO_64_ADD (R189). Atomic 64-bit add. -/
  | amo64Add (scope : Scope) (slot : Slot) (off : BitVec 8) (base : AReg) (d : XReg)
  /-- AMO_64_MIN (R189). Atomic 64-bit signed minimum. -/
  | amo64Min (scope : Scope) (slot : Slot) (off : BitVec 8) (base : AReg) (d : XReg)
  /-- AMO_64_MAX (R189). Atomic 64-bit signed maximum. -/
  | amo64Max (scope : Scope) (slot : Slot) (off : BitVec 8) (base : AReg) (d : XReg)
  /-- AMO_64_AND (R189). Atomic 64-bit and. -/
  | amo64And (scope : Scope) (slot : Slot) (off : BitVec 8) (base : AReg) (d : XReg)
  /-- AMO_64_OR (R189). Atomic 64-bit or. -/
  | amo64Or (scope : Scope) (slot : Slot) (off : BitVec 8) (base : AReg) (d : XReg)
  /-- AMO_64_XOR (R189). Atomic 64-bit exclusive or. -/
  | amo64Xor (scope : Scope) (slot : Slot) (off : BitVec 8) (base : AReg) (d : XReg)
  /-- AMO_64_SWAP (R189). Atomic 64-bit swap. -/
  | amo64Swap (scope : Scope) (slot : Slot) (off : BitVec 8) (base : AReg) (d : XReg)
  /-- CAS (R189). Compare-and-swap at the scope's execution point. -/
  | cas (is64 : Bool) (scope : Scope) (slot : Slot) (off : BitVec 8) (base : AReg) (j : Fin 15)
  /-- MMA_NEW (R235). Opens and zeroes a head slot and accumulates A times B over nk k-steps. -/
  | mmaNew (la : Bool) (lb : Bool) (d : XReg) (a : AReg) (b : AReg)
  /-- MMA_ACC (R235). Accumulates A times B into the head slot. -/
  | mmaAcc (la : Bool) (lb : Bool) (d : XReg) (a : AReg) (b : AReg)
  /-- MGANG_NEW (R235). Joins a huddle for a joint multiply into a new head slot. -/
  | mgangNew (la : Bool) (lb : Bool) (d : XReg) (a : AReg) (b : AReg)
  /-- MGANG_ACC (R235). Joins a huddle for a joint accumulate into the head slot. -/
  | mgangAcc (la : Bool) (lb : Bool) (d : XReg) (a : AReg) (b : AReg)
  /-- MZERO (R236). Zeroes a named ring slot once its earlier jobs have completed. -/
  | mzero (d : MReg)
  /-- MEPI (R240). Drains the tail slot through the epilogue to memory. -/
  | mepi (d : XReg) (a : AReg) (b : AReg)
  /-- MWAIT (R237). Waits for the context's earlier matrix jobs and their flags. -/
  | mwait
  /-- MPRIO (R238). Sets the context's matrix priority. -/
  | mprio (a : XReg)
  /-- CHBOND (R248). Writes a bond register. -/
  | chbond (d : BdReg) (a : XReg)
  /-- CHLOAD (R242). Reads, checks and installs a chain descriptor. -/
  | chload (a : AReg)
  /-- CHRUN (R249). Queues a chain run from a step to END. -/
  | chrun (d : XReg) (a : AReg) (b : AReg)
  /-- CHSTEP (R249). Queues a run of one step. -/
  | chstep (d : XReg) (a : AReg) (b : AReg)
  /-- CHWAIT (R250). Waits for the latest run and writes its status. -/
  | chwait (d : XReg)
  /-- ENQ (R257). Submits an engine command to the cluster job queue, or refuses it. -/
  | enq (d : XReg) (j : Fin 7) (b : AReg)
  /-- JPOLL (R258). Writes a job's current state word. -/
  | jpoll (d : XReg) (a : XReg)
  /-- JWAIT (R258). Waits for a job to reach a terminal state. -/
  | jwait (d : XReg) (a : XReg)
  /-- JCANCEL (R259). Cancels a job according to its state. -/
  | jcancel (d : XReg) (a : XReg)
  /-- PCFG (R270). Binds or unbinds a port register after earlier sends complete. -/
  | pcfg (d : NReg) (a : XReg)
  /-- PTRY (R270). Takes a port word, waiting at most cr.ptmo cycles. -/
  | ptry (d : Reg) (a : NReg) (p : PReg)
  /-- PTRYS (R270). Sends a port word, waiting at most cr.ptmo cycles. -/
  | ptrys (d : NReg) (a : Reg) (p : PReg)
  /-- RQRES (R272). Reserves a ring slot. -/
  | rqres (d : XReg) (a : AReg) (p : PReg)
  /-- RQPUB (R272). Releases and publishes a ring slot, advancing the publish frontier. -/
  | rqpub (a : AReg) (b : XReg)
  /-- RQTAKE (R272). Takes the next published slot with acquire version steps. -/
  | rqtake (d : XReg) (a : AReg) (p : PReg)
  /-- RQDONE (R272). Marks a taken slot done. -/
  | rqdone (a : AReg) (b : XReg)
  /-- DQBIND (R279). Binds a delta queue's stage program and arrangement. -/
  | dqbind (d : XReg) (a : AReg) (b : XReg)
  /-- DQPUSH (R279). Appends a delta record to an input slot. -/
  | dqpush (d : XReg) (a : AReg) (b : AReg)
  /-- DQPOP (R279). Consumes up to 64 consolidated records into the local store. -/
  | dqpop (d : XReg) (a : AReg) (b : AReg)
  /-- DQCONS (R279). Makes a consolidation point. -/
  | dqcons (a : AReg)
  /-- DQARR (R280). Adds a record's multiplicity into the arrangement. -/
  | dqarr (d : XReg) (a : AReg) (b : AReg)
  /-- DQLOOK (R280). Reads the arrangement's sums for a key up to a time. -/
  | dqlook (d : XReg) (a : AReg) (b : AReg)
  /-- DQADV (R279). Raises an input-slot frontier. -/
  | dqadv (d : XReg) (a : AReg) (b : XReg)
  /-- DQFRONT (R279). Writes the queue's output frontier. -/
  | dqfront (d : XReg) (a : AReg)
  /-- DQWAIT (R279). Waits until a time is complete at the queue. -/
  | dqwait (a : AReg) (b : XReg)
  /-- SRFENCE (R265). Drops shape-record cache entries. -/
  | srfence (a : Option AReg)
  /-- BAR (R281). Arrives at and waits for a barrier generation. -/
  | bar (scope : Scope)
  /-- BARA (R282). Releases at its scope and arrives, returning the generation. -/
  | bara (scope : Scope) (d : XReg)
  /-- BARW (R282). Waits for a generation, then takes acquire version steps. -/
  | barw (scope : Scope) (a : XReg)
  /-- FRESUME (R293). Accepts a fault token and starts the replay of its entry. -/
  | fresume (d : XReg) (a : XReg)
  /-- PTFENCE (R294). Publishes and drops translations and lines of a range. -/
  | ptfence (a : AReg) (b : XReg)
  /-- RECBEG (R307). Opens or joins a recording region. -/
  | recbeg (d : XReg) (a : XReg) (b : AReg)
  /-- RECEND (R308). Leaves a recording region. -/
  | recend (a : XReg)
  /-- RPLBEG (R307). Joins a recorded region's replay iteration. -/
  | rplbeg (d : XReg) (a : XReg)
  /-- RPLEND (R308). Leaves a replay iteration. -/
  | rplend (a : XReg)
  /-- RERECORD (R309). Sets rr so that the next iteration records. -/
  | rerecord (a : XReg)
  /-- RERECORD_FREE (R309). With the free flag, waits for no members and frees the region. -/
  | rerecordFree (a : XReg)
  /-- RECSTAT (R310). Writes a region's status and counts. -/
  | recstat (d : XReg) (a : XReg)
  /-- EGOPEN (R317). Binds or unbinds a heap. -/
  | egopen (d : XReg) (a : XReg) (b : AReg)
  /-- EGINS (R319). Inserts a term, allocating a class if its key is absent. -/
  | egins (d : XReg) (a : AReg)
  /-- EGMRG (R320). Assigns a merge sequence and sends its UNION. -/
  | egmrg (d : XReg) (a : XReg) (b : XReg)
  /-- EGFIND (R321). Returns a class's root. -/
  | egfind (d : XReg) (a : XReg)
  /-- EGSAME (R321). Tests two classes for a common root. -/
  | egsame (d : PReg) (a : XReg) (b : XReg)
  /-- EGSYNC (R320). Waits until merges up to a sequence are closed. -/
  | egsync (a : XReg)
  /-- EGNODE (R321). Writes a node record with canonical children. -/
  | egnode (d : XReg) (a : XReg) (b : AReg)
  /-- EGCLASS (R321). Returns the next member node of a class. -/
  | egclass (d : XReg) (a : XReg) (b : XReg)
  /-- EGMATCH (R324). Opens a pattern match in the heap controller. -/
  | egmatch (d : XReg) (a : AReg)
  /-- EGNEXT (R328). Takes the next binding record or closes the match. -/
  | egnext (d : XReg) (a : AReg)
  /-- EGCHK (R330). Canonicalises a binding record's ids. -/
  | egchk (d : XReg) (a : AReg)
  /-- EGCOST (R331). Records the heap's cost source. -/
  | egcost (d : XReg) (a : AReg) (b : XReg)
  /-- EGEXTR (R332). Holds the anchor, waits for closure and extracts the cheapest node of each class. -/
  | egextr (d : XReg) (a : AReg)
  /-- LAUNCH (R339). Checks a launch card and appends it to the die's launch queue. -/
  | launch (d : XReg) (a : AReg)
  /-- DNEXT (R340). Draws the next chunk from the deal counter. -/
  | dnext (d : XReg)
  /-- HSTART (R341). Starts a helper context. -/
  | hstart (d : XReg) (a : XReg) (b : AReg)
  /-- HEXIT (R342). Ends the issuing context after its slots and helpers drain. -/
  | hexit (a : XReg)
  /-- HJOIN (R343). Waits for a helper to end and reads its exit value. -/
  | hjoin (d : XReg) (a : XReg)
  /-- GFUSE (R344). Asks to form a gang of 2, 4 or 8. -/
  | gfuse (d : PReg) (a : XReg)
  /-- GSPLIT (R345). Dissolves the gang. -/
  | gsplit
  /-- TKNEW (R347). Initialises a TCB as WAITING and held. -/
  | tknew (d : XReg) (a : AReg)
  /-- TKDEP (R348). Adds a predecessor edge to a successor task. -/
  | tkdep (d : XReg) (a : AReg) (b : AReg)
  /-- TKREL (R349). Releases the hold and readies the task at count 0. -/
  | tkrel (d : XReg) (a : AReg)
  /-- TKDONE (R350). Retires a running task and decrements its successors. -/
  | tkdone (d : XReg) (a : AReg) (b : AReg)
  /-- FTNEW (R352). Allocates a future entry. -/
  | ftnew (d : XReg) (a : AReg) (b : XReg)
  /-- FTSET_READY (R353). Sets a future READY with a value and releases its waiters. -/
  | ftsetReady (d : XReg) (a : AReg) (j : Fin 15)
  /-- FTSET_POISON (R353). Sets a future POISON and releases its waiters. -/
  | ftsetPoison (d : XReg) (a : AReg) (j : Fin 15)
  /-- FTSET_FREE (R353). Frees a READY or POISON future entry. -/
  | ftsetFree (d : XReg) (a : AReg) (j : Fin 15)
  /-- FTGET (R354). Waits for a future and reads its value with acquire steps. -/
  | ftget (d : XReg) (a : AReg) (p : PReg)
  /-- YIELD (R355). Writes the context reference and gives up issue. -/
  | yieldRef (d : XReg)
  /-- PARK (R356). Parks until a WAKE or a timeout. -/
  | park (d : XReg) (a : XReg)
  /-- WAKE (R356). Sets a context's wake bit or unparks it. -/
  | wake (d : XReg) (a : XReg)
  /-- CTRD_TIMESTAMP (R363). Reads the global timestamp. -/
  | ctrdTimestamp (d : XReg) (a : XReg)
  /-- CTRD_SLOT (R363). Reads a scoreboard slot count. -/
  | ctrdSlot (d : XReg) (a : XReg)
  /-- CTRD_VC (R363). Reads the cluster's die-scope version. -/
  | ctrdVc (d : XReg) (a : XReg)
  /-- CTRD_VD (R363). Reads the die's device-scope version. -/
  | ctrdVd (d : XReg) (a : XReg)
  /-- CTRD_NEIGHBOUR (R363). Reads the neighbour count. -/
  | ctrdNeighbour (d : XReg) (a : XReg)
  /-- PMRD (R363). Reads a performance counter. -/
  | pmrd (d : XReg) (a : XReg)
  /-- UPRET (R370). Ends a handler and reinstates a parked stream state. -/
  | upret (a : XReg)
  /-- UPRET_CONTINUE (R370). With bit 8 set, ends a handler without reinstatement. -/
  | upretContinue (a : XReg)
  /-- FRAISE_UPCALL (R371). Raises a soft upcall of a given code. -/
  | fraiseUpcall (a : XReg) (b : XReg)
  /-- FRAISE_FREEZE (R371). Raises a soft freeze of a given code. -/
  | fraiseFreeze (a : XReg) (b : XReg)
  /-- SCOREBOARD_DECREMENT (R89). An instruction's effect is performed and its slot count falls. -/
  | scoreboardDecrement (f : Nat) (id : Nat)
  /-- PUSH_ARRIVAL (R204). A push reaches a consumer L1 slice and is dropped or filled with pushed set. -/
  | pushArrival (n : Nat)
  /-- SWEEPER_VISIT (R201). A slice's periodic sweep drops lines eight or more versions old. -/
  | sweeperVisit (l2 : Bool) (cu : Nat) (slice : Nat)
  /-- HEAT_SAMPLE (R359). The sampler reaches 0, adds 1 to the frame's heat counter and reloads. -/
  | heatSample (die : Nat) (slice : Nat) (frame : Nat)
  /-- HEAT_DECAY_EPOCH (R360). At an epoch each home slice halves the counters of its frames. -/
  | heatDecayEpoch (die : Nat) (slice : Nat)
  /-- LS_PORT_PASSOVER (R162). A local-store port source passed over for 64 cycles takes the next cycle. -/
  | lsPortPassover (core : Nat) (source : Nat)
  /-- DISPATCH_PASSOVER (R335). A queue head passed over for 65,536 cycles is placed alone. -/
  | dispatchPassover (die : Nat)
  /-- HINT_PAUSE_END (R119). The up to 32-cycle pause of hint 0 ends. -/
  | hintPauseEnd (f : Nat)
  /-- DISPATCH_STEP (R335). Every 8 cycles the dispatcher places the first fitting launch team or ready task. -/
  | dispatchStep (die : Nat)
  /-- FREE_SLOT_ADVERT (R34). A die's count of free team slots arrives from another die or device. -/
  | freeSlotAdvert (die : Nat) (fromDie : Nat) (slots : Nat)
  /-- TEAM_MIGRATION (R35). An overloaded die moves a migratable team to another die or device. -/
  | teamMigration (team : Nat) (die : Nat)
  /-- GANG_FORM (R344). The last GFUSE of the group arrives and the gang forms. -/
  | gangForm (core : Nat) (size : Nat)
  /-- PORT_WORD_DELIVERY (R270). A waiting send places its word in the destination's receive buffer. -/
  | portWordDelivery (f : Nat)
  /-- PTRY_TIMEOUT (R270). cr.ptmo expires and PTRY writes false. -/
  | ptryTimeout (f : Nat)
  /-- PTRYS_TIMEOUT (R270). cr.ptmo expires and PTRYS sends nothing. -/
  | ptrysTimeout (f : Nat)
  /-- VNEIGH_TIMEOUT (R150). cr.xltmo expires and VNEIGH falls back. -/
  | vneighTimeout (f : Nat)
  /-- PARK_TIMEOUT (R356). The PARK limit expires and PARK writes 1. -/
  | parkTimeout (f : Nat)
  /-- RING_HOLE (R273). pubf has not advanced for cr.ringhole cycles and the owner receives the upcall. -/
  | ringHole (n : Nat)
  /-- WATCHDOG (R374). A wait passes wdlim and the context freezes with code 0x26. -/
  | watchdog (f : Nat)
  /-- MATRIX_JOB_ACCEPT (R220). A matrix instruction leaves its stall, samples its registers and binds to a slot. -/
  | matrixJobAccept (f : Nat)
  /-- KSTEP_BOUNDARY (R228). A k-step ends and the slice chooses the job to run next. -/
  | kstepBoundary (core : Nat)
  /-- HUDDLE_OPEN (R230). All participants have accepted and the joint job starts or aborts. -/
  | huddleOpen (clu : Nat) (tag : Nat)
  /-- EPILOGUE_DRAIN (R240). MEPI's jobs have completed and the epilogue engine writes the tile. -/
  | epilogueDrain (core : Nat)
  /-- CHAIN_RUN_START (R249). The chain engine begins a queued run and samples its state. -/
  | chainRunStart (clu : Nat)
  /-- LOAD (R246). Chain step: loads the input vector into the boundary. -/
  | chainLoad (clu : Nat)
  /-- ABSORB (R246). Chain step: contracts one core into the boundary. -/
  | chainAbsorb (clu : Nat)
  /-- EMIT (R246). Chain step: writes the boundary to the output. -/
  | chainEmit (clu : Nat)
  /-- PERM (R246). Chain step: moves one axis. -/
  | chainPerm (clu : Nat)
  /-- END (R246). Chain step: ends the run. -/
  | chainEnd (clu : Nat)
  /-- JOB_START (R253). The copy unit starts the highest-priority eligible queued job. -/
  | jobStart (clu : Nat)
  /-- COPY (R260). Copy engine command moving bytes in ascending order. -/
  | copyJob (clu : Nat) (q : Nat)
  /-- FILL (R260). Copy engine command repeating a 64-bit pattern. -/
  | fillJob (clu : Nat) (q : Nat)
  /-- GATHER (R263). Tensor copy from the shaped tensor to the dense side. -/
  | gatherJob (clu : Nat) (q : Nat)
  /-- SCATTER (R263). Tensor copy from the dense side into the shaped tensor. -/
  | scatterJob (clu : Nat) (q : Nat)
  /-- POST (R266). Transform engine command posting a chunk into a ring. -/
  | postJob (clu : Nat) (q : Nat)
  /-- ALL_REDUCE (R268). Collective reducing every rank's source into every destination. -/
  | allReduce (clu : Nat) (q : Nat)
  /-- ALL_GATHER (R267). Collective placing each rank's block into every destination. -/
  | allGather (clu : Nat) (q : Nat)
  /-- REDUCE_SCATTER (R267). Collective reducing block r into rank r's destination. -/
  | reduceScatter (clu : Nat) (q : Nat)
  /-- BROADCAST (R267). Collective copying the root's source to every rank. -/
  | broadcast (clu : Nat) (q : Nat)
  /-- COLLECTIVE_START (R267). Every rank's job has started; the ranks are checked and the collective begins. -/
  | collectiveStart (clu : Nat) (q : Nat) (peers : List Peer)
  /-- JOB_COMPLETION (R203). An engine job finishes, publishes at its scope and becomes DONE. -/
  | jobCompletion (clu : Nat) (q : Nat)
  /-- INVOCATION_CREATE (R277). A bound queue creates a stage invocation for its least pending time. -/
  | invocationCreate (n : Nat)
  /-- UNION (R318). Restoration message that joins two roots at the owner of the higher root. -/
  | heapUnion (h : Nat)
  /-- ADOPT (R318). Restoration message that adds size and splices parent lists at the new root. -/
  | heapAdopt (h : Nat)
  /-- REHASH (R318). Restoration message that re-keys a parent node and may send a level k+1 UNION. -/
  | heapRehash (h : Nat)
  /-- MATCHER_DELIVER (R327). The heap controller forms and queues bindings as room allows. -/
  | matcherDeliver (f : Nat)
  /-- REPLAY_ATTEMPT (R291). A held access replays; a repeat fault raises a new upcall or escalates. -/
  | replayAttempt (die : Nat) (slice : Nat) (entry : Nat)
  /-- RESUME_NOTICE (R369). A replay performs every held access of a parked context, raising code 0x13. -/
  | resumeNotice (die : Nat) (slice : Nat) (entry : Nat)
  /-- UPCALL_DELIVERY (R367). A deliverable upcall parks the stream state and starts the handler. -/
  | upcallDelivery (f : Nat)
  /-- COLLECTOR_COPY (R174). The log collector copies live blocks from the tail to the head. -/
  | collectorCopy (asid : Nat)
  /-- SECTOR_FREE (R174). Every slice and port has confirmed, so old sectors are freed. -/
  | sectorFree (asid : Nat)
  /-- MOVE_DOORBELL (R295). A write of a move request to a die's doorbell queues a page move or refuses it. -/
  | moveDoorbell (die : Nat) (addr : BitVec 48)
  /-- FRAME_MOVE (R296). A kind 0 move blocks, recalls, streams and redirects a frame. -/
  | frameMove (die : Nat)
  /-- COPY_WHILE_WRITABLE (R297). A kind 1 move copies a writable frame in passes, then switches it. -/
  | copyWhileWritable (die : Nat)
  /-- DEBUG_RESUME (R373). The resume bit restarts every remaining frame from apc and epc. -/
  | debugResume (core : Nat)
  /-- DEBUG_FENCE (R380). The fence bit fences the unit and starts the degraded-operation steps. -/
  | debugFence (core : Nat)
  /-- DEBUG_KILL_FRAME (R379). Kills the selected frame's context. -/
  | debugKillFrame (core : Nat)
  /-- DEBUG_KILL_CORE (R379). Kills every context of the core. -/
  | debugKillCore (core : Nat)
  /-- DEBUG_PC_WRITE (R373). Writing apc or epc sets the next addresses and empties the frame's queues. -/
  | debugPcWrite (core : Nat) (epc : Bool) (v : Word)
  /-- DEBUG_LSDATA_ACCESS (R373). An access of lsdata reads or writes the local store and advances lsaddr. -/
  | debugLsdataAccess (core : Nat) (v : Option Word)
  /-- DEVICE_REGISTER_WRITE (R157). A supervisor write to a device register that has no behaviour of its own. -/
  | deviceRegisterWrite (pa : BitVec 48) (v : Word)
  /-- PREEMPT_SCHEDULE (R377). Weward writes the switch timestamp T to every die of the partition. -/
  | preemptSchedule (t : Word) (next : Nat)
  /-- PARTITION_HALT (R377). At T every unit stops and the dugout exchange begins. -/
  | partitionHalt
  /-- PARTITION_RESUME (R377). The exchange completes; spill buffers are re-injected and resume is broadcast. -/
  | partitionResume
  /-- FREEZE_SIGNAL (R381). Weward's freeze signal stops every clock and shifts out the scan chains. -/
  | freezeSignal
  /-- THERMAL_TRIP (R393). A die passes its thermal limit and Weward freezes the device. -/
  | thermalTrip (die : Nat)
  /-- POWER_CAP_SET (R392). The host sets a lower power cap, which Weward enforces with idle cycles. -/
  | powerCapSet (watts : Nat)
  /-- BRING_UP (R391). After power is good the device runs boot, training and release in order. -/
  | bringUp
  /-- FUNCTION_LEVEL_RESET (R382). Resets the host link's function state only. -/
  | functionLevelReset
  /-- ATTESTATION_REQUEST (R390). An SPDM request returns a signed attestation report. -/
  | attestationRequest (nonce : BitVec 256)
  /-- HOST_WRITE (R383). A host write to device memory is applied at the home after a recall. -/
  | hostWrite (pa : BitVec 48) (v : List Byte)
  /-- HOST_READ (R383). A host read returns the home value after a recall. -/
  | hostRead (pa : BitVec 48) (n : Nat)
  /-- HOST_SNOOP (R384). A host snoop is answered at the home after masked bytes are written back. -/
  | hostSnoop (pa : BitVec 48)
  /-- POOL_LINK_FAIL (R386). A pool port's link fails and its segments are refused. -/
  | poolLinkFail (port : Nat)
  /-- CRIRAS_PLANE_FAIL (R388). A port or plane fails and its traffic moves to the next plane. -/
  | crirasPlaneFail (plane : Nat)
  /-- UNASSIGNED_ENCODING (R69). Fetching a 32-bit word with an unassigned major or fn, or the word 0x0000_0000, raises the illegal-instruction fault. -/
  | unassignedEncoding (w : BitVec 32)
  /-- CORRECTED_SOFT_ERROR (R361). A corrected soft error in stacked memory or SRAM adds 1 to its die's soft-error event. -/
  | correctedSoftError (die : Nat)
  /-- POISONED_LINE (R169). An uncorrectable memory error, or poisoning that CXL reports, poisons a line. -/
  | poisonedLine (pa : BitVec 48)
  /-- UNIT_UNCORRECTABLE_ERROR (R375). A core, lane group or slice suffers an uncorrectable error, which freezes the core or gang and leads to the unit being fenced. -/
  | unitUncorrectableError (u : DevUnit)
  /-- REMOTE_HOME_REQUEST (R387). A request from another device over Criras for a line homed on this device arrives at its home slice and is serialised there. -/
  | remoteHomeRequest (pa : BitVec 48) (r : RemoteReq)
  /-- POOL_AGENT_WRITE (R170). Another agent of the pool writes a pool frame that this device maps. -/
  | poolAgentWrite (pa : BitVec 48) (v : List Byte)
  /-- SUPPLY_REMOVAL (R393). Weward removes the module supplies in reverse order of their sequencing. -/
  | supplyRemoval
deriving DecidableEq, Repr

end Sys2Proof
end

