-- ==== Sys2Proof/WellFormed.lean ====
section
/-! DEFINITION. The conditions between fields that the types of Syntax do not already exclude. A term that breaks one has no encoding,
and the words that would spell it raise the illegal-instruction fault (R69). -/

namespace Sys2Proof

/-- The register is an x-register. -/
def Reg.isX : Reg → Bool
  | .x _ => true
  | .a _ => false

/-- The operand is not an a-register. -/
def Src.notA : Src → Bool
  | .reg r => r.isX
  | .lit _ => true

/-- R65, R100: an instruction that writes an x-register runs in the execute stream and names no a-register as a source. -/
def streamOk (d a : Reg) : Bool := !d.isX || a.isX

/-- R65, R100 for two sources. -/
def streamOk2 (d a : Reg) (b : Src) : Bool := !d.isX || (a.isX && b.notA)

/-- R109: MOV with an x destination and an a source is illegal. -/
def movOk : RegN → RegN → Bool
  | .x _, .a _ => false
  | _, _ => true

/-- R105: the field lies inside the register; `w` is width − 1. -/
def fieldOk (w pos : BitVec 6) : Bool := decide (pos.toNat + w.toNat + 1 ≤ 64)

/-- R61: gp = 0 with gn = 1 is reserved, and sslot is 0 without sen. -/
def Mods.wellFormed (m : Mods) : Bool := !(m.gp == 0 && m.gn) && (m.sen || m.sslot == 0)

/-- No guard, no slot, no wait: what a 32-bit instruction behaves as (R60). -/
def Mods.none : Mods := { gp := 0, gn := false, sen := false, sslot := 0, wmask := 0 }

/-- The float formats of scalar and vector arithmetic, codes 0 to 2. -/
def Fmt.isFloat3 : Fmt → Bool
  | .f32 | .f16 | .bf16 => true
  | _ => false

/-- Codes 8 to 13. -/
def Fmt.isInt32 : Fmt → Bool
  | .si8 | .ui8 | .si16 | .ui16 | .si32 | .ui32 => true
  | _ => false

/-- Codes 8 to 15. -/
def Fmt.isInt : Fmt → Bool
  | .si64 | .ui64 => true
  | f => f.isInt32

/-- R136, VCVT: codes 0 to 6 and 8 to 13. -/
def Fmt.vcvtOk : Fmt → Bool
  | .si64 | .ui64 => false
  | _ => true

/-- R136, vector accesses: codes 0 to 5 and 8 to 13. -/
def Fmt.vmemOk : Fmt → Bool
  | .t6 | .si64 | .ui64 => false
  | _ => true

/-- R145: cc 6 and 7 with an integer format are illegal. -/
def vcmpOk (fmt : Fmt) (cc : FCond) : Bool :=
  (fmt.isFloat3 || fmt.isInt32) && !(fmt.isInt && (cc == .un || cc == .ord))

/-- R130: a multiple of 16 from 16 to 256. -/
def vclaimOk (q : BitVec 12) : Bool := decide (q.toNat % 16 = 0 ∧ 16 ≤ q.toNat ∧ q.toNat ≤ 256)

/-- R112: pred = 0 with neg = 1 is illegal. -/
def branchOk (neg : Bool) (p : PReg) : Bool := !(neg && p == 0)

/-- The steps that no instruction word spells: the wrapper of R62 and the steps of other agents. -/
def Instr.coded : Instr → Bool
  | .longForm _ => false
  | .scoreboardDecrement _ _ => false
  | .pushArrival _ => false
  | .sweeperVisit _ _ _ => false
  | .heatSample _ _ _ => false
  | .heatDecayEpoch _ _ => false
  | .lsPortPassover _ _ => false
  | .dispatchPassover _ => false
  | .hintPauseEnd _ => false
  | .dispatchStep _ => false
  | .freeSlotAdvert _ _ _ => false
  | .teamMigration _ _ => false
  | .gangForm _ _ => false
  | .portWordDelivery _ => false
  | .ptryTimeout _ => false
  | .ptrysTimeout _ => false
  | .vneighTimeout _ => false
  | .parkTimeout _ => false
  | .ringHole _ => false
  | .watchdog _ => false
  | .matrixJobAccept _ => false
  | .kstepBoundary _ => false
  | .huddleOpen _ _ => false
  | .epilogueDrain _ => false
  | .chainRunStart _ => false
  | .chainLoad _ => false
  | .chainAbsorb _ => false
  | .chainEmit _ => false
  | .chainPerm _ => false
  | .chainEnd _ => false
  | .jobStart _ => false
  | .copyJob _ _ => false
  | .fillJob _ _ => false
  | .gatherJob _ _ => false
  | .scatterJob _ _ => false
  | .postJob _ _ => false
  | .allReduce _ _ => false
  | .allGather _ _ => false
  | .reduceScatter _ _ => false
  | .broadcast _ _ => false
  | .collectiveStart _ _ _ => false
  | .jobCompletion _ _ => false
  | .invocationCreate _ => false
  | .heapUnion _ => false
  | .heapAdopt _ => false
  | .heapRehash _ => false
  | .matcherDeliver _ => false
  | .replayAttempt _ _ _ => false
  | .resumeNotice _ _ _ => false
  | .upcallDelivery _ => false
  | .collectorCopy _ => false
  | .sectorFree _ => false
  | .moveDoorbell _ _ => false
  | .frameMove _ => false
  | .copyWhileWritable _ => false
  | .debugResume _ => false
  | .debugFence _ => false
  | .debugKillFrame _ => false
  | .debugKillCore _ => false
  | .debugPcWrite _ _ _ => false
  | .debugLsdataAccess _ _ => false
  | .deviceRegisterWrite _ _ => false
  | .preemptSchedule _ _ => false
  | .partitionHalt => false
  | .partitionResume => false
  | .freezeSignal => false
  | .thermalTrip _ => false
  | .powerCapSet _ => false
  | .bringUp => false
  | .functionLevelReset => false
  | .attestationRequest _ => false
  | .hostWrite _ _ => false
  | .hostRead _ _ => false
  | .hostSnoop _ => false
  | .poolLinkFail _ => false
  | .crirasPlaneFail _ => false
  | .unassignedEncoding _ => false
  | .correctedSoftError _ => false
  | .poisonedLine _ => false
  | .unitUncorrectableError _ => false
  | .remoteHomeRequest _ _ => false
  | .poolAgentWrite _ _ => false
  | .supplyRemoval => false
  | _ => true

/-- The conditions between fields (R65, R100, R105, R109, R112, R130, R136, R145). -/
def Instr.wellFormed : Instr → Bool
  | .add rd ra rb => streamOk2 rd ra rb
  | .sub rd ra rb => streamOk2 rd ra rb
  | .mul rd ra rb => streamOk2 rd ra rb
  | .mulh rd ra rb => streamOk2 rd ra rb
  | .mulhu rd ra rb => streamOk2 rd ra rb
  | .div rd ra rb => streamOk2 rd ra rb
  | .divu rd ra rb => streamOk2 rd ra rb
  | .rem rd ra rb => streamOk2 rd ra rb
  | .remu rd ra rb => streamOk2 rd ra rb
  | .and rd ra rb => streamOk2 rd ra rb
  | .or rd ra rb => streamOk2 rd ra rb
  | .xor rd ra rb => streamOk2 rd ra rb
  | .andn rd ra rb => streamOk2 rd ra rb
  | .shl rd ra rb => streamOk2 rd ra rb
  | .shr rd ra rb => streamOk2 rd ra rb
  | .sar rd ra rb => streamOk2 rd ra rb
  | .rol rd ra rb => streamOk2 rd ra rb
  | .ror rd ra rb => streamOk2 rd ra rb
  | .min rd ra rb => streamOk2 rd ra rb
  | .max rd ra rb => streamOk2 rd ra rb
  | .minu rd ra rb => streamOk2 rd ra rb
  | .maxu rd ra rb => streamOk2 rd ra rb
  | .lea rd ra rb _ => streamOk2 rd ra rb
  | .fshl rd ra rb _ => streamOk2 rd ra rb
  | .fshr rd ra rb _ => streamOk2 rd ra rb
  | .addI rd ra _ => streamOk rd ra
  | .mulI rd ra _ => streamOk rd ra
  | .andI rd ra _ => streamOk rd ra
  | .orI rd ra _ => streamOk rd ra
  | .xorI rd ra _ => streamOk rd ra
  | .shlI rd ra _ => streamOk rd ra
  | .shrI rd ra _ => streamOk rd ra
  | .sarI rd ra _ => streamOk rd ra
  | .rolI rd ra _ => streamOk rd ra
  | .rorI rd ra _ => streamOk rd ra
  | .popc rd ra => streamOk rd ra
  | .clz rd ra => streamOk rd ra
  | .ctz rd ra => streamOk rd ra
  | .brev rd ra => streamOk rd ra
  | .abs rd ra => streamOk rd ra
  | .sext8 rd ra => streamOk rd ra
  | .sext16 rd ra => streamOk rd ra
  | .sext32 rd ra => streamOk rd ra
  | .zext8 rd ra => streamOk rd ra
  | .zext16 rd ra => streamOk rd ra
  | .zext32 rd ra => streamOk rd ra
  | .bext rd ra w pos => streamOk rd ra && fieldOk w pos
  | .bextu rd ra w pos => streamOk rd ra && fieldOk w pos
  | .bins rd ra w pos => streamOk rd ra && fieldOk w pos
  | .mov rd ra => movOk rd ra
  | .sel rd _ ra rb => streamOk2 rd ra (.reg rb)
  | .b _ neg p => branchOk neg p
  | .bp _ neg p => branchOk neg p
  | .vclaim _ q => vclaimOk q
  | .vadd _ fmt _ _ _ => fmt.isFloat3 || fmt.isInt32
  | .vfma _ fmt _ _ _ => fmt.isFloat3 || fmt.isInt32
  | .vmax _ fmt _ _ _ => fmt.isFloat3 || fmt.isInt32
  | .vmin _ fmt _ _ _ => fmt.isFloat3 || fmt.isInt32
  | .vmul _ fmt _ _ _ => fmt.isFloat3 || fmt.isInt32
  | .vredAdd _ fmt _ _ => fmt.isFloat3 || fmt.isInt32
  | .vredMax _ fmt _ _ => fmt.isFloat3 || fmt.isInt32
  | .vredMin _ fmt _ _ => fmt.isFloat3 || fmt.isInt32
  | .vscanAdd _ fmt _ _ => fmt.isFloat3 || fmt.isInt32
  | .vscanMax _ fmt _ _ => fmt.isFloat3 || fmt.isInt32
  | .vscanMin _ fmt _ _ => fmt.isFloat3 || fmt.isInt32
  | .vsub _ fmt _ _ _ => fmt.isFloat3 || fmt.isInt32
  | .vdiv _ fmt _ _ _ => fmt.isFloat3
  | .vsfnCos _ fmt _ _ => fmt.isFloat3
  | .vsfnExp2 _ fmt _ _ => fmt.isFloat3
  | .vsfnLog2 _ fmt _ _ => fmt.isFloat3
  | .vsfnRcp _ fmt _ _ => fmt.isFloat3
  | .vsfnRsq _ fmt _ _ => fmt.isFloat3
  | .vsfnSin _ fmt _ _ => fmt.isFloat3
  | .vsqrt _ fmt _ _ => fmt.isFloat3
  | .vand _ fmt _ _ _ => fmt.isInt32
  | .vbext _ fmt _ _ _ => fmt.isInt32
  | .vclz _ fmt _ _ => fmt.isInt32
  | .vfsh _ fmt _ _ _ => fmt.isInt32
  | .vor _ fmt _ _ _ => fmt.isInt32
  | .vpopc _ fmt _ _ => fmt.isInt32
  | .vredAnd _ fmt _ _ => fmt.isInt32
  | .vredOr _ fmt _ _ => fmt.isInt32
  | .vredXor _ fmt _ _ => fmt.isInt32
  | .vscanAnd _ fmt _ _ => fmt.isInt32
  | .vscanOr _ fmt _ _ => fmt.isInt32
  | .vscanXor _ fmt _ _ => fmt.isInt32
  | .vshl _ fmt _ _ _ => fmt.isInt32
  | .vshr _ fmt _ _ _ => fmt.isInt32
  | .vxor _ fmt _ _ _ => fmt.isInt32
  | .vld _ fmt _ _ _ _ => fmt.vmemOk
  | .vldx _ fmt _ _ _ _ => fmt.vmemOk
  | .vst _ fmt _ _ _ _ => fmt.vmemOk
  | .vstx _ fmt _ _ _ _ => fmt.vmemOk
  | .vcmp _ fmt cc _ _ _ => vcmpOk fmt cc
  | .vcvt _ dst src _ _ => dst.vcvtOk && src.vcvtOk
  | .longForm m => m.wellFormed
  | _ => true

/-- R61: the M layouts and FENCE carry their slot in the first word, and the B and J layouts set none, so sen must be 0 there. -/
def Instr.senOk : Instr → Bool
  | .ldS8 _ _ _ _ => false
  | .ldU8 _ _ _ _ => false
  | .ldS16 _ _ _ _ => false
  | .ldU16 _ _ _ _ => false
  | .ldS32 _ _ _ _ => false
  | .ldU32 _ _ _ _ => false
  | .ld64 _ _ _ _ => false
  | .st8 _ _ _ _ => false
  | .st16 _ _ _ _ => false
  | .st32 _ _ _ _ => false
  | .st64 _ _ _ _ => false
  | .ldl8 _ _ _ _ => false
  | .ldl16 _ _ _ _ => false
  | .ldl32 _ _ _ _ => false
  | .ldl64 _ _ _ _ => false
  | .stl8 _ _ _ _ => false
  | .stl16 _ _ _ _ => false
  | .stl32 _ _ _ _ => false
  | .stl64 _ _ _ _ => false
  | .ldfeC _ _ _ _ => false
  | .ldfeK _ _ _ _ => false
  | .stfe _ _ _ _ => false
  | .femarkE _ _ _ _ => false
  | .femarkF _ _ _ _ => false
  | .pref _ _ _ _ => false
  | .fence _ _ => false
  | .czfence _ _ _ _ => false
  | .cbload _ _ _ _ => false
  | .czstat _ _ _ _ => false
  | .j _ _ => false
  | .b _ _ _ => false
  | .bp _ _ _ => false
  | .call _ => false
  | .loop _ _ => false
  | .vld _ _ _ _ _ _ => false
  | .vst _ _ _ _ _ _ => false
  | .vldx _ _ _ _ _ _ => false
  | .vstx _ _ _ _ _ _ => false
  | .lda _ _ _ _ _ _ => false
  | .strl _ _ _ _ _ _ => false
  | .amo32Add _ _ _ _ _ => false
  | .amo32Fadd _ _ _ _ _ => false
  | .amo32Min _ _ _ _ _ => false
  | .amo32Max _ _ _ _ _ => false
  | .amo32And _ _ _ _ _ => false
  | .amo32Or _ _ _ _ _ => false
  | .amo32Xor _ _ _ _ _ => false
  | .amo32Swap _ _ _ _ _ => false
  | .amo64Add _ _ _ _ _ => false
  | .amo64Min _ _ _ _ _ => false
  | .amo64Max _ _ _ _ _ => false
  | .amo64And _ _ _ _ _ => false
  | .amo64Or _ _ _ _ _ => false
  | .amo64Xor _ _ _ _ _ => false
  | .amo64Swap _ _ _ _ _ => false
  | .cas _ _ _ _ _ _ => false
  | _ => true

/-- A hint ignores its second word whole (R72). -/
def Instr.isHint : Instr → Bool
  | .hint _ _ _ _ => true
  | _ => false

/-- The modifiers an instruction may carry (R61, R72). -/
def Instr.modsOk (i : Instr) (m : Mods) : Bool :=
  m.wellFormed && (!m.sen || i.senOk) && (!i.isHint || m == Mods.none)

end Sys2Proof
end

