-- ==== Sys2Proof/Decode.lean ====
section
/-! DEFINITION. The decoder, total on any words and bytes, and the encoder (R55 to R72). Every rejection has a name.
From the native majors on the definitions are marked noncomputable: Lean's compiled code has no object tag above 244, and Instr has
one constructor for each of the 397 rows. The kernel evaluates them all. -/

namespace Sys2Proof

/-- Why words are no instruction (R69); each is the illegal-instruction fault when the instruction would begin. -/
inductive DecodeError where
  /-- The word 0x0000_0000 (R56). -/
  | zeroWord
  /-- Fewer words than the length class of the first word asks for. -/
  | short
  /-- An unassigned major or function (R66, R67, R68). -/
  | unassigned
  /-- A field that must be zero is not, or a field holds a reserved value. -/
  | reservedField
  /-- A register field value outside the operand's class (R58). -/
  | regClass
  /-- A literal where none is assigned (R63). -/
  | literal
  /-- A condition between fields, of WellFormed. -/
  | combination
deriving DecidableEq, Repr

/-- What decoding yields: the modifiers of the second word, the instruction, and its length in bytes. -/
structure Decoded where
  mods : Mods
  instr : Instr
  len : Nat
deriving DecidableEq, Repr

/-- Bits lo to lo + n − 1. -/
def fld (w lo n : Nat) : Nat := w / 2 ^ lo % 2 ^ n

/-- Accept only if the condition holds. -/
def need (c : Bool) (e : DecodeError) : Except DecodeError Unit := if c then .ok () else .error e

/-! Fields of the first word after its low eight bits (R57). -/

/-- [13:8]. -/
def rd (hi : Nat) : Nat := hi % 64
/-- [19:14]. -/
def ra (hi : Nat) : Nat := hi / 64 % 64
/-- [25:20]. -/
def rb (hi : Nat) : Nat := hi / 4096 % 64
/-- [31:26]. -/
def rfn (hi : Nat) : Nat := hi / 262144 % 64
/-- The 12-bit immediate [31:20]. -/
def rimm (hi : Nat) : Nat := hi / 4096 % 4096
/-- The offset of an M layout, [27:20]. -/
def moff (hi : Nat) : Nat := hi / 4096 % 256
/-- The slot of an M layout, [31:28]. -/
def mslot (hi : Nat) : Nat := hi / 1048576 % 16

/-! Register fields (R58). -/

/-- Read a field of class XReg. -/
def xreg (n : Nat) : Except DecodeError XReg :=
  if h : n < 32 then .ok ⟨n, h⟩ else .error .regClass

/-- Read a field of class PReg. -/
def preg (n : Nat) : Except DecodeError PReg :=
  if h : n < 8 then .ok ⟨n, h⟩ else .error .regClass

/-- Read a field of class KReg. -/
def kreg (n : Nat) : Except DecodeError KReg :=
  if h : n < 8 then .ok ⟨n, h⟩ else .error .regClass

/-- Read a field of class MReg. -/
def mreg (n : Nat) : Except DecodeError MReg :=
  if h : n < 8 then .ok ⟨n, h⟩ else .error .regClass

/-- Read a field of class VReg. -/
def vreg (n : Nat) : Except DecodeError VReg :=
  if h : n < 32 then .ok ⟨n, h⟩ else .error .regClass

/-- Read a field of class BdReg. -/
def bdreg (n : Nat) : Except DecodeError BdReg :=
  if h : n < 17 then .ok ⟨n, h⟩ else .error .regClass

/-- 32 to 47 name a0 to a15. -/
def areg (n : Nat) : Except DecodeError AReg :=
  if h : 32 ≤ n ∧ n < 48 then .ok ⟨n - 32, by omega⟩ else .error .regClass

/-- 48 to 55 name n0 to n7. -/
def nreg (n : Nat) : Except DecodeError NReg :=
  if h : 48 ≤ n ∧ n < 56 then .ok ⟨n - 48, by omega⟩ else .error .regClass

/-- An x- or a-register. -/
def reg (n : Nat) : Except DecodeError Reg :=
  if n < 32 then do return .x (← xreg n) else do return .a (← areg n)

/-- An x-, a- or n-register. -/
def regN (n : Nat) : Except DecodeError RegN :=
  if n < 32 then do return .x (← xreg n) else if n < 48 then do return .a (← areg n) else do return .n (← nreg n)

/-- The field value of an x- or a-register. -/
def Reg.code : Reg → Nat
  | .x i => i.val
  | .a i => i.val + 32

/-- The field value of an x-, a- or n-register. -/
def RegN.code : RegN → Nat
  | .x i => i.val
  | .a i => i.val + 32
  | .n i => i.val + 48

/-- The second source of an RR layout; with a literal, s2 must be 0 (R63). -/
def src (n : Nat) : Option Nat → Except DecodeError Src
  | none => do return .reg (← reg n)
  | some w => do need (n == 0) .reservedField; return .lit (.ofNat 32 w)

/-- The second source where only x-registers are accepted. -/
def xsrc (n : Nat) : Option Nat → Except DecodeError XSrc
  | none => do return .reg (← xreg n)
  | some w => do need (n == 0) .reservedField; return .lit (.ofNat 32 w)

/-- The second source of a vector instruction (R137). -/
def vsrc (n : Nat) : Option Nat → Except DecodeError VSrc
  | none => do return .reg (← vreg n)
  | some w => do need (n == 0) .reservedField; return .lit (.ofNat 32 w)

/-- The field value of a second source: 0 with a literal. -/
def Src.code : Src → Nat
  | .reg r => r.code
  | .lit _ => 0
/-- The literal word, if any. -/
def Src.litW : Src → Option Nat
  | .reg _ => none
  | .lit w => some w.toNat
/-- The field value of a second source: 0 with a literal. -/
def XSrc.code : XSrc → Nat
  | .reg r => r.val
  | .lit _ => 0
/-- The literal word, if any. -/
def XSrc.litW : XSrc → Option Nat
  | .reg _ => none
  | .lit w => some w.toNat
/-- The field value of a second source: 0 with a literal. -/
def VSrc.code : VSrc → Nat
  | .reg r => r.val
  | .lit _ => 0
/-- The literal word, if any. -/
def VSrc.litW : VSrc → Option Nat
  | .reg _ => none
  | .lit w => some w.toNat

/-- ENQ's command word: x(4j), j = 1 to 7; the operand holds j − 1 (R68). -/
def cmdReg (n : Nat) : Except DecodeError (Fin 7) :=
  if h : n % 4 = 0 ∧ 4 ≤ n ∧ n ≤ 28 then .ok ⟨n / 4 - 1, by omega⟩ else .error .regClass

/-- x(2j), j = 1 to 15; the operand holds j − 1 (R68, R353). -/
def evenReg (n : Nat) : Except DecodeError (Fin 15) :=
  if h : n % 2 = 0 ∧ 2 ≤ n ∧ n ≤ 30 then .ok ⟨n / 2 - 1, by omega⟩ else .error .regClass

/-- The element formats (R37). -/
def fmtOf (n : Nat) : Except DecodeError Fmt :=
  match n with
  | 0 => .ok .f32
  | 1 => .ok .f16
  | 2 => .ok .bf16
  | 3 => .ok .e4m3
  | 4 => .ok .e5m2
  | 5 => .ok .t8
  | 6 => .ok .t6
  | 8 => .ok .si8
  | 9 => .ok .ui8
  | 10 => .ok .si16
  | 11 => .ok .ui16
  | 12 => .ok .si32
  | 13 => .ok .ui32
  | 14 => .ok .si64
  | 15 => .ok .ui64
  | _ => .error .reservedField

/-- The code of Fmt. -/
def Fmt.code : Fmt → Nat
  | .f32 => 0
  | .f16 => 1
  | .bf16 => 2
  | .e4m3 => 3
  | .e5m2 => 4
  | .t8 => 5
  | .t6 => 6
  | .si8 => 8
  | .ui8 => 9
  | .si16 => 10
  | .ui16 => 11
  | .si32 => 12
  | .ui32 => 13
  | .si64 => 14
  | .ui64 => 15

/-- The conditions of CMP (R66). -/
def condOf (n : Nat) : Except DecodeError Cond :=
  match n with
  | 0 => .ok .eq
  | 1 => .ok .ne
  | 2 => .ok .lt
  | 3 => .ok .le
  | 4 => .ok .gt
  | 5 => .ok .ge
  | 6 => .ok .ltu
  | 7 => .ok .leu
  | 8 => .ok .gtu
  | 9 => .ok .geu
  | _ => .error .unassigned

/-- The code of Cond. -/
def Cond.code : Cond → Nat
  | .eq => 0
  | .ne => 1
  | .lt => 2
  | .le => 3
  | .gt => 4
  | .ge => 5
  | .ltu => 6
  | .leu => 7
  | .gtu => 8
  | .geu => 9

/-- The conditions of FCMP and VCMP (R66). -/
def fcondOf (n : Nat) : Except DecodeError FCond :=
  match n with
  | 0 => .ok .eq
  | 1 => .ok .ne
  | 2 => .ok .lt
  | 3 => .ok .le
  | 4 => .ok .gt
  | 5 => .ok .ge
  | 6 => .ok .un
  | 7 => .ok .ord
  | _ => .error .unassigned

/-- The code of FCond. -/
def FCond.code : FCond → Nat
  | .eq => 0
  | .ne => 1
  | .lt => 2
  | .le => 3
  | .gt => 4
  | .ge => 5
  | .un => 6
  | .ord => 7

/-- The formats of FCMP (R66). -/
def sfmtOf (n : Nat) : Except DecodeError SFmt :=
  match n with
  | 0 => .ok .f32
  | 1 => .ok .f16
  | 2 => .ok .bf16
  | _ => .error .unassigned

/-- The code of SFmt. -/
def SFmt.code : SFmt → Nat
  | .f32 => 0
  | .f16 => 1
  | .bf16 => 2

/-- The memory scopes (R28). -/
def scopeOf (n : Nat) : Except DecodeError Scope :=
  match n with
  | 0 => .ok .core
  | 1 => .ok .clu
  | 2 => .ok .die
  | 3 => .ok .dev
  | 4 => .ok .pod
  | 5 => .ok .sys
  | _ => .error .reservedField

/-- The code of Scope. -/
def Scope.code : Scope → Nat
  | .core => 0
  | .clu => 1
  | .die => 2
  | .dev => 3
  | .pod => 4
  | .sys => 5

/-- fn of class 00 major 0x00 (R66). -/
def aluOf (fn : Nat) : Except DecodeError (Reg → Reg → Src → Instr) :=
  match fn with
  | 0 => .ok .add
  | 1 => .ok .sub
  | 2 => .ok .mul
  | 3 => .ok .mulh
  | 4 => .ok .mulhu
  | 5 => .ok .div
  | 6 => .ok .divu
  | 7 => .ok .rem
  | 8 => .ok .remu
  | 9 => .ok .and
  | 10 => .ok .or
  | 11 => .ok .xor
  | 12 => .ok .andn
  | 13 => .ok .shl
  | 14 => .ok .shr
  | 15 => .ok .sar
  | 16 => .ok .rol
  | 17 => .ok .ror
  | 18 => .ok .min
  | 19 => .ok .max
  | 20 => .ok .minu
  | 21 => .ok .maxu
  | _ => .error .unassigned

/-- fn 1 to 11 of class 00 major 0x01 (R66). -/
def oneOf (fn : Nat) : Except DecodeError (Reg → Reg → Instr) :=
  match fn with
  | 1 => .ok .popc
  | 2 => .ok .clz
  | 3 => .ok .ctz
  | 4 => .ok .brev
  | 5 => .ok .abs
  | 6 => .ok .sext8
  | 7 => .ok .sext16
  | 8 => .ok .sext32
  | 9 => .ok .zext8
  | 10 => .ok .zext16
  | 11 => .ok .zext32
  | _ => .error .unassigned

/-- Two-source functions of major 0x05 (R66). -/
def float2F32 (fn : Nat) : Except DecodeError (XReg → XReg → XSrc → Instr) :=
  match fn with
  | 0 => .ok .faddF32
  | 1 => .ok .fsubF32
  | 2 => .ok .fmulF32
  | 3 => .ok .fdivF32
  | 4 => .ok .fminF32
  | 5 => .ok .fmaxF32
  | 16 => .ok .ffmaF32
  | _ => .error .unassigned

/-- One-source functions of major 0x05 (R66). -/
def float1F32 (fn : Nat) : Except DecodeError (XReg → XReg → Instr) :=
  match fn with
  | 6 => .ok .fsqrtF32
  | 7 => .ok .fabsF32
  | 8 => .ok .fnegF32
  | 9 => .ok .fclassF32
  | 10 => .ok .fsinF32
  | 11 => .ok .fcosF32
  | 12 => .ok .fexp2F32
  | 13 => .ok .flog2F32
  | 14 => .ok .frcpF32
  | 15 => .ok .frsqF32
  | _ => .error .unassigned

/-- Two-source functions of major 0x0D (R66). -/
def float2F16 (fn : Nat) : Except DecodeError (XReg → XReg → XSrc → Instr) :=
  match fn with
  | 0 => .ok .faddF16
  | 1 => .ok .fsubF16
  | 2 => .ok .fmulF16
  | 3 => .ok .fdivF16
  | 4 => .ok .fminF16
  | 5 => .ok .fmaxF16
  | 16 => .ok .ffmaF16
  | _ => .error .unassigned

/-- One-source functions of major 0x0D (R66). -/
def float1F16 (fn : Nat) : Except DecodeError (XReg → XReg → Instr) :=
  match fn with
  | 6 => .ok .fsqrtF16
  | 7 => .ok .fabsF16
  | 8 => .ok .fnegF16
  | 9 => .ok .fclassF16
  | 10 => .ok .fsinF16
  | 11 => .ok .fcosF16
  | 12 => .ok .fexp2F16
  | 13 => .ok .flog2F16
  | 14 => .ok .frcpF16
  | 15 => .ok .frsqF16
  | _ => .error .unassigned

/-- Two-source functions of major 0x0E (R66). -/
def float2BF16 (fn : Nat) : Except DecodeError (XReg → XReg → XSrc → Instr) :=
  match fn with
  | 0 => .ok .faddBF16
  | 1 => .ok .fsubBF16
  | 2 => .ok .fmulBF16
  | 3 => .ok .fdivBF16
  | 4 => .ok .fminBF16
  | 5 => .ok .fmaxBF16
  | 16 => .ok .ffmaBF16
  | _ => .error .unassigned

/-- One-source functions of major 0x0E (R66). -/
def float1BF16 (fn : Nat) : Except DecodeError (XReg → XReg → Instr) :=
  match fn with
  | 6 => .ok .fsqrtBF16
  | 7 => .ok .fabsBF16
  | 8 => .ok .fnegBF16
  | 9 => .ok .fclassBF16
  | 10 => .ok .fsinBF16
  | 11 => .ok .fcosBF16
  | 12 => .ok .fexp2BF16
  | 13 => .ok .flog2BF16
  | 14 => .ok .frcpBF16
  | 15 => .ok .frsqBF16
  | _ => .error .unassigned

/-- RI majors that take any immediate (R66). -/
def riOf (fn : Nat) : Except DecodeError (Reg → Reg → BitVec 44 → Instr) :=
  match fn with
  | 16 => .ok .addI
  | 17 => .ok .mulI
  | 18 => .ok .andI
  | 19 => .ok .orI
  | 20 => .ok .xorI
  | _ => .error .unassigned

/-- RI shift and rotate majors (R66). -/
def riShiftOf (fn : Nat) : Except DecodeError (Reg → Reg → BitVec 6 → Instr) :=
  match fn with
  | 21 => .ok .shlI
  | 22 => .ok .shrI
  | 23 => .ok .sarI
  | 24 => .ok .rolI
  | 25 => .ok .rorI
  | _ => .error .unassigned

/-- RI bit-field majors (R66). -/
def riFieldOf (fn : Nat) : Except DecodeError (Reg → Reg → BitVec 6 → BitVec 6 → Instr) :=
  match fn with
  | 27 => .ok .bext
  | 28 => .ok .bextu
  | 29 => .ok .bins
  | _ => .error .unassigned

/-- The M majors of class 01 whose data field names an x- or a-register, with their offset scale (R67). -/
def memOf (fn : Nat) : Except DecodeError ((Slot → BitVec 32 → AReg → Reg → Instr) × Nat) :=
  match fn with
  | 0 => .ok (.ldS8, 1)
  | 1 => .ok (.ldU8, 1)
  | 2 => .ok (.ldS16, 2)
  | 3 => .ok (.ldU16, 2)
  | 4 => .ok (.ldS32, 4)
  | 5 => .ok (.ldU32, 4)
  | 6 => .ok (.ld64, 8)
  | 8 => .ok (.st8, 1)
  | 9 => .ok (.st16, 2)
  | 10 => .ok (.st32, 4)
  | 11 => .ok (.st64, 8)
  | 12 => .ok (.ldl8, 1)
  | 13 => .ok (.ldl16, 2)
  | 14 => .ok (.ldl32, 4)
  | 15 => .ok (.ldl64, 8)
  | 16 => .ok (.stl8, 1)
  | 17 => .ok (.stl16, 2)
  | 18 => .ok (.stl32, 4)
  | 19 => .ok (.stl64, 8)
  | 20 => .ok (.ldfeC, 8)
  | 21 => .ok (.ldfeK, 8)
  | 22 => .ok (.stfe, 8)
  | 23 => .ok (.femarkE, 16)
  | 24 => .ok (.femarkF, 16)
  | 27 => .ok (.czfence, 4096)
  | 28 => .ok (.cbload, 64)
  | 29 => .ok (.czstat, 4096)
  | _ => .error .unassigned

/-- Two-source functions of native major 0x00 (R139). -/
def vec2Of (fn : Nat) : Except DecodeError (KReg → Fmt → VReg → VReg → VSrc → Instr) :=
  match fn with
  | 0 => .ok .vadd
  | 1 => .ok .vsub
  | 2 => .ok .vmul
  | 3 => .ok .vfma
  | 4 => .ok .vdiv
  | 6 => .ok .vmin
  | 7 => .ok .vmax
  | 8 => .ok .vand
  | 9 => .ok .vor
  | 10 => .ok .vxor
  | 11 => .ok .vshl
  | 12 => .ok .vshr
  | 13 => .ok .vfsh
  | 14 => .ok .vbext
  | _ => .error .unassigned

/-- One-source functions of native major 0x00 (R139). -/
def vec1Of (fn : Nat) : Except DecodeError (KReg → Fmt → VReg → VReg → Instr) :=
  match fn with
  | 5 => .ok .vsqrt
  | 15 => .ok .vpopc
  | 16 => .ok .vclz
  | _ => .error .unassigned

/-- fn of native major 0x01 (R68). -/
def vsfnOf (fn : Nat) : Except DecodeError (KReg → Fmt → VReg → VReg → Instr) :=
  match fn with
  | 0 => .ok .vsfnSin
  | 1 => .ok .vsfnCos
  | 2 => .ok .vsfnExp2
  | 3 => .ok .vsfnLog2
  | 4 => .ok .vsfnRcp
  | 5 => .ok .vsfnRsq
  | _ => .error .unassigned

/-- fn of native major 0x04 (R147). -/
def vredOf (fn : Nat) : Except DecodeError (KReg → Fmt → XReg → VReg → Instr) :=
  match fn with
  | 0 => .ok .vredAdd
  | 1 => .ok .vredMin
  | 2 => .ok .vredMax
  | 3 => .ok .vredAnd
  | 4 => .ok .vredOr
  | 5 => .ok .vredXor
  | _ => .error .unassigned

/-- fn of native major 0x05 (R148). -/
def vscanOf (fn : Nat) : Except DecodeError (KReg → Fmt → VReg → VReg → Instr) :=
  match fn with
  | 0 => .ok .vscanAdd
  | 1 => .ok .vscanMin
  | 2 => .ok .vscanMax
  | 3 => .ok .vscanAnd
  | 4 => .ok .vscanOr
  | 5 => .ok .vscanXor
  | _ => .error .unassigned

/-- Native majors 0x09 and 0x0A (R152). -/
def vmemOf (fn : Nat) : Except DecodeError (KReg → Fmt → Slot → BitVec 8 → AReg → VReg → Instr) :=
  match fn with
  | 9 => .ok .vld
  | 10 => .ok .vst
  | _ => .error .unassigned

/-- Native majors 0x0B and 0x0C (R152). -/
def vmemXOf (fn : Nat) : Except DecodeError (KReg → Fmt → Slot → VReg → AReg → VReg → Instr) :=
  match fn with
  | 11 => .ok .vldx
  | 12 => .ok .vstx
  | _ => .error .unassigned

/-- op of AMO.32 (R68). -/
def amo32Of (fn : Nat) : Except DecodeError (Scope → Slot → BitVec 8 → AReg → XReg → Instr) :=
  match fn with
  | 0 => .ok .amo32Add
  | 1 => .ok .amo32Fadd
  | 2 => .ok .amo32Min
  | 3 => .ok .amo32Max
  | 4 => .ok .amo32And
  | 5 => .ok .amo32Or
  | 6 => .ok .amo32Xor
  | 7 => .ok .amo32Swap
  | _ => .error .unassigned

/-- op of AMO.64; .fadd is illegal (R68). -/
def amo64Of (fn : Nat) : Except DecodeError (Scope → Slot → BitVec 8 → AReg → XReg → Instr) :=
  match fn with
  | 0 => .ok .amo64Add
  | 2 => .ok .amo64Min
  | 3 => .ok .amo64Max
  | 4 => .ok .amo64And
  | 5 => .ok .amo64Or
  | 6 => .ok .amo64Xor
  | 7 => .ok .amo64Swap
  | _ => .error .unassigned

/-- fn 0 to 3 of native major 0x18 (R235). -/
def mmaOf (fn : Nat) : Except DecodeError (Bool → Bool → XReg → AReg → AReg → Instr) :=
  match fn with
  | 0 => .ok .mmaNew
  | 1 => .ok .mmaAcc
  | 2 => .ok .mgangNew
  | 3 => .ok .mgangAcc
  | _ => .error .unassigned

/-- A slot number. -/
def slotOf (n : Nat) : Slot := ⟨n % 16, by omega⟩

/-- A flag bit. -/
def bit (n k : Nat) : Bool := n / 2 ^ k % 2 == 1

/-- The value of a flag bit. -/
def Bool.code (c : Bool) : Nat := if c then 1 else 0

/-- SExt(12, imm), or SExt(44, imm ‖ literal) with a literal (R63). -/
def immOf (hi : Nat) : Option Nat → BitVec 44
  | none => (BitVec.ofNat 12 (rimm hi)).signExtend 44
  | some w => BitVec.ofNat 44 (rimm hi * 2 ^ 32 + w)

/-- The shift amount of an RI form: 0 to 63 (R66, R102). -/
def shiftOf (hi : Nat) (lit : Option Nat) : Except DecodeError (BitVec 6) := do
  let n := (immOf hi lit).toNat
  need (decide (n < 64)) .reservedField
  return .ofNat 6 n

/-- The byte offset of a class 01 access: the scaled 8-bit offset, or the literal, unscaled (R57, R63). -/
def offOf (hi scale : Nat) : Option Nat → Except DecodeError (BitVec 32)
  | none => .ok ((BitVec.ofNat 8 (moff hi)).signExtend 32 * BitVec.ofNat 32 scale)
  | some w => do need (moff hi == 0) .reservedField; return .ofNat 32 w

/-- Decode the fields of a class 00 word (R66), with the literal of its long form if any. -/
def decodeBase0 (maj hi : Nat) (lit : Option Nat) : Except DecodeError Instr :=
  match maj with
  | 0x00 => do return (← aluOf (rfn hi)) (← reg (rd hi)) (← reg (ra hi)) (← src (rb hi) lit)
  | 0x01 => do
    need lit.isNone .literal
    need (rb hi == 0) .reservedField
    match rfn hi with
    | 0 => do return .mov (← regN (rd hi)) (← regN (ra hi))
    | 12 => do return .atx (← xreg (rd hi)) (← areg (ra hi))
    | 13 => do need (ra hi == 0) .reservedField; return .rdtime (← xreg (rd hi))
    | f => do return (← oneOf f) (← reg (rd hi)) (← reg (ra hi))
  | 0x02 => do return .cmp (← condOf (rfn hi)) (← preg (rd hi)) (← xreg (ra hi)) (← xsrc (rb hi) lit)
  | 0x03 => do
    need lit.isNone .literal
    match rfn hi with
    | 0 => do return .pand (← preg (rd hi)) (← preg (ra hi)) (← preg (rb hi))
    | 1 => do return .por (← preg (rd hi)) (← preg (ra hi)) (← preg (rb hi))
    | 2 => do need (rb hi == 0) .reservedField; return .pnot (← preg (rd hi)) (← preg (ra hi))
    | _ => .error .unassigned
  | 0x04 => do
    need lit.isNone .literal
    return .sel (← reg (rd hi)) (← preg (rfn hi)) (← reg (ra hi)) (← reg (rb hi))
  | 0x05 =>
    if 6 ≤ rfn hi ∧ rfn hi ≤ 15 then do
      need lit.isNone .literal
      need (rb hi == 0) .reservedField
      return (← float1F32 (rfn hi)) (← xreg (rd hi)) (← xreg (ra hi))
    else do return (← float2F32 (rfn hi)) (← xreg (rd hi)) (← xreg (ra hi)) (← xsrc (rb hi) lit)
  | 0x0D =>
    if 6 ≤ rfn hi ∧ rfn hi ≤ 15 then do
      need lit.isNone .literal
      need (rb hi == 0) .reservedField
      return (← float1F16 (rfn hi)) (← xreg (rd hi)) (← xreg (ra hi))
    else do return (← float2F16 (rfn hi)) (← xreg (rd hi)) (← xreg (ra hi)) (← xsrc (rb hi) lit)
  | 0x0E =>
    if 6 ≤ rfn hi ∧ rfn hi ≤ 15 then do
      need lit.isNone .literal
      need (rb hi == 0) .reservedField
      return (← float1BF16 (rfn hi)) (← xreg (rd hi)) (← xreg (ra hi))
    else do return (← float2BF16 (rfn hi)) (← xreg (rd hi)) (← xreg (ra hi)) (← xsrc (rb hi) lit)
  | 0x06 => do
    return .fcmp (← fcondOf (rfn hi % 8)) (← sfmtOf (rfn hi / 8)) (← preg (rd hi)) (← xreg (ra hi)) (← xsrc (rb hi) lit)
  | 0x07 => do
    need lit.isNone .literal
    need (decide (rfn hi < 16 ∧ rb hi < 16)) .reservedField
    return .fcvt (← fmtOf (rfn hi)) (← fmtOf (rb hi)) (← xreg (rd hi)) (← xreg (ra hi))
  | 0x08 => do
    need (decide (rfn hi < 8)) .reservedField
    return .lea (← reg (rd hi)) (← reg (ra hi)) (← src (rb hi) lit) (.ofNat 3 (rfn hi))
  | 0x09 => do return .fshl (← reg (rd hi)) (← reg (ra hi)) (← src (rb hi) lit) (.ofNat 6 (rfn hi))
  | 0x0A => do return .fshr (← reg (rd hi)) (← reg (ra hi)) (← src (rb hi) lit) (.ofNat 6 (rfn hi))
  | 0x0B => do
    need lit.isNone .literal
    need (rfn hi == 0) .reservedField
    return .crr (← xreg (rd hi)) (.ofNat 12 (hi / 64 % 4096))
  | 0x0C => do
    need lit.isNone .literal
    need (rfn hi == 0) .reservedField
    return .crw (.ofNat 12 (hi / 64 % 4096)) (← xreg (rd hi))
  | 0x1A => do
    need (ra hi == 0) .reservedField
    return .li (← reg (rd hi)) (immOf hi lit)
  | 0x3C => do
    need lit.isNone .literal
    need (decide (hi < 65536)) .reservedField
    return .wait (.ofNat 16 hi)
  | 0x3D => do
    need lit.isNone .literal
    need (rd hi == 0 && ra hi == 0) .reservedField
    return .trap (.ofNat 12 (rimm hi))
  | 0x3E => .ok (.hint (.ofNat 6 (rfn hi)) (.ofNat 6 (rd hi)) (.ofNat 6 (ra hi)) (.ofNat 6 (rb hi)))
  | 0x3F => do
    need lit.isNone .literal
    need (hi == 0) .reservedField
    return .nop
  | m =>
    if m < 0x10 then .error .unassigned
    else if m < 0x15 then do return (← riOf m) (← reg (rd hi)) (← reg (ra hi)) (immOf hi lit)
    else if m < 0x1A then do return (← riShiftOf m) (← reg (rd hi)) (← reg (ra hi)) (← shiftOf hi lit)
    else do
      let f ← riFieldOf m
      need (lit == none || lit == some 0) .literal
      return f (← reg (rd hi)) (← reg (ra hi)) (.ofNat 6 (rfn hi)) (.ofNat 6 (rb hi))

/-- Decode the fields of a class 01 word (R67), with the literal of its long form if any. -/
def decodeBase1 (maj hi : Nat) (lit : Option Nat) : Except DecodeError Instr :=
  match maj with
  | 0x19 => do
    let off ← offOf hi 64 lit
    need (decide (rd hi < 2)) .reservedField
    return .pref (slotOf (mslot hi)) off (← areg (ra hi)) (rd hi == 1)
  | 0x1A => do
    need lit.isNone .literal
    need (hi % 4096 == 0 && hi / 32768 % 32 == 0) .reservedField
    return .fence (slotOf (mslot hi)) (← scopeOf (hi / 4096 % 8))
  | 0x20 => do
    need lit.isNone .literal
    need (rd hi == 0 && mslot hi == 0) .reservedField
    return .j (.ofNat 8 (moff hi)) (← areg (ra hi))
  | 0x21 => do
    need lit.isNone .literal
    need (hi == 0) .reservedField
    return .ret
  | 0x30 => do
    need lit.isNone .literal
    return .b (.ofNat 20 (hi / 16)) (bit hi 3) (← preg (hi % 8))
  | 0x31 => do
    need lit.isNone .literal
    return .bp (.ofNat 20 (hi / 16)) (bit hi 3) (← preg (hi % 8))
  | 0x32 => do
    need lit.isNone .literal
    need (hi % 16 == 0) .reservedField
    return .call (.ofNat 20 (hi / 16))
  | 0x33 => do
    need lit.isNone .literal
    need (hi % 16 / 8 == 0) .reservedField
    return .loop (.ofNat 20 (hi / 16)) (.ofNat 3 (hi % 8))
  | m => do
    let f ← memOf m
    return f.1 (slotOf (mslot hi)) (← offOf hi f.2 lit) (← areg (ra hi)) (← reg (rd hi))

/-- The lane mask, ext[31:29], of a seven-bit ext. -/
def extMask (ext : Nat) : KReg := ⟨ext / 16 % 8, by omega⟩

/-- The vector instructions, native majors 0x00 to 0x0C (R68, R137). -/
def decodeVector (maj hi ext : Nat) (lit : Option Nat) : Except DecodeError Instr :=
  match maj with
  | 0x00 => do
    let f ← fmtOf (ext % 16)
    match rfn hi with
    | 5 | 15 | 16 => do
      need lit.isNone .literal
      need (rb hi == 0) .reservedField
      return (← vec1Of (rfn hi)) (extMask ext) f (← vreg (rd hi)) (← vreg (ra hi))
    | 17 => do
      need (f == .f32) .reservedField
      return .vsel (extMask ext) (← vreg (rd hi)) (← vreg (ra hi)) (← vsrc (rb hi) lit)
    | 18 => do
      need lit.isNone .literal
      need (f == .f32 && rb hi == 0) .reservedField
      return .vbcast (extMask ext) (← vreg (rd hi)) (← xreg (ra hi))
    | 19 => do
      need (ext == 0) .reservedField
      return .vextr (← xreg (rd hi)) (← vreg (ra hi)) (← xsrc (rb hi) lit)
    | 20 => do
      need (ext == 0) .reservedField
      return .vins (← vreg (rd hi)) (← xreg (ra hi)) (← xsrc (rb hi) lit)
    | 21 => do
      need lit.isNone .literal
      need (f == .f32) .reservedField
      return .vneigh (extMask ext) (← vreg (rd hi)) (← vreg (ra hi)) (← preg (rb hi / 8)) (.ofNat 3 (rb hi % 8))
    | 22 => do
      need (f == .ui8) .reservedField
      return .vlut (extMask ext) (← vreg (rd hi)) (← vreg (ra hi)) (← vsrc (rb hi) lit)
    | 23 => do
      need (f == .f32) .reservedField
      return .vperm (extMask ext) (← vreg (rd hi)) (← vreg (ra hi)) (← vsrc (rb hi) lit)
    | n => do return (← vec2Of n) (extMask ext) f (← vreg (rd hi)) (← vreg (ra hi)) (← vsrc (rb hi) lit)
  | 0x01 => do
    need lit.isNone .literal
    need (rb hi == 0) .reservedField
    return (← vsfnOf (rfn hi)) (extMask ext) (← fmtOf (ext % 16)) (← vreg (rd hi)) (← vreg (ra hi))
  | 0x02 => do
    return .vcmp (extMask ext) (← fmtOf (ext % 16)) (← fcondOf (rfn hi)) (← kreg (rd hi)) (← vreg (ra hi)) (← vsrc (rb hi) lit)
  | 0x03 => do
    need lit.isNone .literal
    need (decide (rfn hi < 16) && rb hi == 0) .reservedField
    return .vcvt (extMask ext) (← fmtOf (rfn hi)) (← fmtOf (ext % 16)) (← vreg (rd hi)) (← vreg (ra hi))
  | 0x04 => do
    need lit.isNone .literal
    need (rb hi == 0) .reservedField
    return (← vredOf (rfn hi)) (extMask ext) (← fmtOf (ext % 16)) (← xreg (rd hi)) (← vreg (ra hi))
  | 0x05 => do
    need lit.isNone .literal
    need (rb hi == 0) .reservedField
    return (← vscanOf (rfn hi)) (extMask ext) (← fmtOf (ext % 16)) (← vreg (rd hi)) (← vreg (ra hi))
  | 0x06 => do
    need lit.isNone .literal
    need (ext == 0) .reservedField
    match rfn hi with
    | 0 => do return .kopAnd (← kreg (rd hi)) (← kreg (ra hi)) (← kreg (rb hi))
    | 1 => do return .kopOr (← kreg (rd hi)) (← kreg (ra hi)) (← kreg (rb hi))
    | 2 => do return .kopXor (← kreg (rd hi)) (← kreg (ra hi)) (← kreg (rb hi))
    | 3 => do return .kopAndn (← kreg (rd hi)) (← kreg (ra hi)) (← kreg (rb hi))
    | 4 => do need (rb hi == 0) .reservedField; return .kopNot (← kreg (rd hi)) (← kreg (ra hi))
    | 5 => do need (rb hi == 0) .reservedField; return .kpopc (← xreg (rd hi)) (← kreg (ra hi))
    | _ => .error .unassigned
  | 0x07 => do
    need lit.isNone .literal
    need (ext == 0 && ra hi == 0) .reservedField
    return .vclaim (← xreg (rd hi)) (.ofNat 12 (rimm hi))
  | 0x08 => do
    need lit.isNone .literal
    need (ext == 0 && hi == 0) .reservedField
    return .vrel
  | 0x09 | 0x0A => do
    need lit.isNone .literal
    return (← vmemOf maj) (extMask ext) (← fmtOf (ext % 16)) (slotOf (mslot hi)) (.ofNat 8 (moff hi)) (← areg (ra hi))
      (← vreg (rd hi))
  | _ => do
    need lit.isNone .literal
    let f ← vmemXOf maj
    need (decide (moff hi < 32)) .reservedField
    return f (extMask ext) (← fmtOf (ext % 16)) (slotOf (mslot hi)) (← vreg (moff hi)) (← areg (ra hi)) (← vreg (rd hi))

/-- The native majors from 0x10 on whose word 1 holds an ext field, or none (R68). -/
noncomputable def decodeNative (maj hi ext : Nat) : Except DecodeError Instr :=
  match maj with
  | 0x10 => do
    need (decide (ext < 32)) .reservedField
    return .lda (.ofNat 2 (ext / 8)) (← scopeOf (ext % 8)) (slotOf (mslot hi)) (.ofNat 8 (moff hi)) (← areg (ra hi)) (← reg (rd hi))
  | 0x11 => do
    need (decide (ext < 32)) .reservedField
    return .strl (.ofNat 2 (ext / 8)) (← scopeOf (ext % 8)) (slotOf (mslot hi)) (.ofNat 8 (moff hi)) (← areg (ra hi)) (← reg (rd hi))
  | 0x12 => do
    return (← amo32Of (ext / 8)) (← scopeOf (ext % 8)) (slotOf (mslot hi)) (.ofNat 8 (moff hi)) (← areg (ra hi)) (← xreg (rd hi))
  | 0x13 => do
    return (← amo64Of (ext / 8)) (← scopeOf (ext % 8)) (slotOf (mslot hi)) (.ofNat 8 (moff hi)) (← areg (ra hi)) (← xreg (rd hi))
  | 0x14 => do
    need (ext / 8 == 2 || ext / 8 == 3) .reservedField
    return .cas (ext / 8 == 3) (← scopeOf (ext % 8)) (slotOf (mslot hi)) (.ofNat 8 (moff hi)) (← areg (ra hi)) (← evenReg (rd hi))
  | 0x24 =>
    match rfn hi with
    | 0 => do
      need (ext == 0 && rd hi == 0 && rb hi == 0) .reservedField
      if ra hi = 0 then return .srfence none else return .srfence (some (← areg (ra hi)))
    | 1 => do
      need (decide (ext < 8) && hi % 262144 == 0) .reservedField
      return .bar (← scopeOf ext)
    | 2 => do
      need (decide (ext < 8) && ra hi == 0 && rb hi == 0) .reservedField
      return .bara (← scopeOf ext) (← xreg (rd hi))
    | 3 => do
      need (decide (ext < 8) && rd hi == 0 && rb hi == 0) .reservedField
      return .barw (← scopeOf ext) (← xreg (ra hi))
    | _ => .error .unassigned
  | 0x18 =>
    if rfn hi < 4 then do
      need (decide (ext < 4)) .reservedField
      return (← mmaOf (rfn hi)) (bit ext 1) (bit ext 0) (← xreg (rd hi)) (← areg (ra hi)) (← areg (rb hi))
    else do
      need (ext == 0) .reservedField
      match rfn hi with
      | 4 => do need (ra hi == 0 && rb hi == 0) .reservedField; return .mzero (← mreg (rd hi))
      | 5 => do return .mepi (← xreg (rd hi)) (← areg (ra hi)) (← areg (rb hi))
      | 6 => do need (rd hi == 0 && ra hi == 0 && rb hi == 0) .reservedField; return .mwait 
      | 7 => do need (rd hi == 0 && rb hi == 0) .reservedField; return .mprio (← xreg (ra hi))
      | _ => .error .unassigned
  | 0x1E => do
    need (ext == 0) .reservedField
    match rfn hi with
    | 0 => do need (rb hi == 0) .reservedField; return .chbond (← bdreg (rd hi)) (← xreg (ra hi))
    | 1 => do need (rd hi == 0 && rb hi == 0) .reservedField; return .chload (← areg (ra hi))
    | 2 => do return .chrun (← xreg (rd hi)) (← areg (ra hi)) (← areg (rb hi))
    | 3 => do return .chstep (← xreg (rd hi)) (← areg (ra hi)) (← areg (rb hi))
    | 4 => do need (ra hi == 0 && rb hi == 0) .reservedField; return .chwait (← xreg (rd hi))
    | _ => .error .unassigned
  | 0x20 => do
    need (ext == 0) .reservedField
    match rfn hi with
    | 0 => do return .enq (← xreg (rd hi)) (← cmdReg (ra hi)) (← areg (rb hi))
    | 1 => do need (rb hi == 0) .reservedField; return .jpoll (← xreg (rd hi)) (← xreg (ra hi))
    | 2 => do need (rb hi == 0) .reservedField; return .jwait (← xreg (rd hi)) (← xreg (ra hi))
    | 3 => do need (rb hi == 0) .reservedField; return .jcancel (← xreg (rd hi)) (← xreg (ra hi))
    | _ => .error .unassigned
  | 0x21 => do
    need (ext == 0) .reservedField
    match rfn hi with
    | 0 => do need (rb hi == 0) .reservedField; return .pcfg (← nreg (rd hi)) (← xreg (ra hi))
    | 1 => do return .ptry (← reg (rd hi)) (← nreg (ra hi)) (← preg (rb hi))
    | 2 => do return .ptrys (← nreg (rd hi)) (← reg (ra hi)) (← preg (rb hi))
    | _ => .error .unassigned
  | 0x22 => do
    need (ext == 0) .reservedField
    match rfn hi with
    | 0 => do return .rqres (← xreg (rd hi)) (← areg (ra hi)) (← preg (rb hi))
    | 1 => do need (rd hi == 0) .reservedField; return .rqpub (← areg (ra hi)) (← xreg (rb hi))
    | 2 => do return .rqtake (← xreg (rd hi)) (← areg (ra hi)) (← preg (rb hi))
    | 3 => do need (rd hi == 0) .reservedField; return .rqdone (← areg (ra hi)) (← xreg (rb hi))
    | _ => .error .unassigned
  | 0x23 => do
    need (ext == 0) .reservedField
    match rfn hi with
    | 0 => do return .dqbind (← xreg (rd hi)) (← areg (ra hi)) (← xreg (rb hi))
    | 1 => do return .dqpush (← xreg (rd hi)) (← areg (ra hi)) (← areg (rb hi))
    | 2 => do return .dqpop (← xreg (rd hi)) (← areg (ra hi)) (← areg (rb hi))
    | 3 => do need (rd hi == 0 && rb hi == 0) .reservedField; return .dqcons (← areg (ra hi))
    | 4 => do return .dqarr (← xreg (rd hi)) (← areg (ra hi)) (← areg (rb hi))
    | 5 => do return .dqlook (← xreg (rd hi)) (← areg (ra hi)) (← areg (rb hi))
    | 6 => do return .dqadv (← xreg (rd hi)) (← areg (ra hi)) (← xreg (rb hi))
    | 7 => do need (rb hi == 0) .reservedField; return .dqfront (← xreg (rd hi)) (← areg (ra hi))
    | 8 => do need (rd hi == 0) .reservedField; return .dqwait (← areg (ra hi)) (← xreg (rb hi))
    | _ => .error .unassigned
  | 0x25 => do
    need (ext == 0) .reservedField
    match rfn hi with
    | 0 => do need (rb hi == 0) .reservedField; return .fresume (← xreg (rd hi)) (← xreg (ra hi))
    | 1 => do need (rd hi == 0) .reservedField; return .ptfence (← areg (ra hi)) (← xreg (rb hi))
    | 2 => do return .recbeg (← xreg (rd hi)) (← xreg (ra hi)) (← areg (rb hi))
    | 3 => do need (rd hi == 0 && rb hi == 0) .reservedField; return .recend (← xreg (ra hi))
    | 4 => do need (rb hi == 0) .reservedField; return .rplbeg (← xreg (rd hi)) (← xreg (ra hi))
    | 5 => do need (rd hi == 0 && rb hi == 0) .reservedField; return .rplend (← xreg (ra hi))
    | 6 => do need (rd hi == 0 && rb hi == 0) .reservedField; return .rerecord (← xreg (ra hi))
    | 7 => do need (rb hi == 0) .reservedField; return .recstat (← xreg (rd hi)) (← xreg (ra hi))
    | _ => .error .unassigned
  | 0x26 => do
    need (ext == 0) .reservedField
    match rfn hi with
    | 0 => do return .egopen (← xreg (rd hi)) (← xreg (ra hi)) (← areg (rb hi))
    | 1 => do need (rb hi == 0) .reservedField; return .egins (← xreg (rd hi)) (← areg (ra hi))
    | 2 => do return .egmrg (← xreg (rd hi)) (← xreg (ra hi)) (← xreg (rb hi))
    | 3 => do need (rb hi == 0) .reservedField; return .egfind (← xreg (rd hi)) (← xreg (ra hi))
    | 4 => do return .egsame (← preg (rd hi)) (← xreg (ra hi)) (← xreg (rb hi))
    | 5 => do need (rd hi == 0 && rb hi == 0) .reservedField; return .egsync (← xreg (ra hi))
    | 6 => do return .egnode (← xreg (rd hi)) (← xreg (ra hi)) (← areg (rb hi))
    | 7 => do return .egclass (← xreg (rd hi)) (← xreg (ra hi)) (← xreg (rb hi))
    | 8 => do need (rb hi == 0) .reservedField; return .egmatch (← xreg (rd hi)) (← areg (ra hi))
    | 9 => do need (rb hi == 0) .reservedField; return .egnext (← xreg (rd hi)) (← areg (ra hi))
    | 10 => do need (rb hi == 0) .reservedField; return .egchk (← xreg (rd hi)) (← areg (ra hi))
    | 11 => do return .egcost (← xreg (rd hi)) (← areg (ra hi)) (← xreg (rb hi))
    | 12 => do need (rb hi == 0) .reservedField; return .egextr (← xreg (rd hi)) (← areg (ra hi))
    | _ => .error .unassigned
  | 0x27 => do
    need (ext == 0) .reservedField
    match rfn hi with
    | 0 => do need (rb hi == 0) .reservedField; return .launch (← xreg (rd hi)) (← areg (ra hi))
    | 1 => do need (ra hi == 0 && rb hi == 0) .reservedField; return .dnext (← xreg (rd hi))
    | 2 => do return .hstart (← xreg (rd hi)) (← xreg (ra hi)) (← areg (rb hi))
    | 3 => do need (rd hi == 0 && rb hi == 0) .reservedField; return .hexit (← xreg (ra hi))
    | 4 => do need (rb hi == 0) .reservedField; return .hjoin (← xreg (rd hi)) (← xreg (ra hi))
    | 5 => do need (rb hi == 0) .reservedField; return .gfuse (← preg (rd hi)) (← xreg (ra hi))
    | 6 => do need (rd hi == 0 && ra hi == 0 && rb hi == 0) .reservedField; return .gsplit 
    | 7 => do need (rb hi == 0) .reservedField; return .tknew (← xreg (rd hi)) (← areg (ra hi))
    | 8 => do return .tkdep (← xreg (rd hi)) (← areg (ra hi)) (← areg (rb hi))
    | 9 => do need (rb hi == 0) .reservedField; return .tkrel (← xreg (rd hi)) (← areg (ra hi))
    | 10 => do return .tkdone (← xreg (rd hi)) (← areg (ra hi)) (← areg (rb hi))
    | 11 => do return .ftnew (← xreg (rd hi)) (← areg (ra hi)) (← xreg (rb hi))
    | 12 => do return .ftsetReady (← xreg (rd hi)) (← areg (ra hi)) (← evenReg (rb hi))
    | 13 => do return .ftget (← xreg (rd hi)) (← areg (ra hi)) (← preg (rb hi))
    | 14 => do need (ra hi == 0 && rb hi == 0) .reservedField; return .yieldRef (← xreg (rd hi))
    | 15 => do need (rb hi == 0) .reservedField; return .park (← xreg (rd hi)) (← xreg (ra hi))
    | 16 => do need (rb hi == 0) .reservedField; return .wake (← xreg (rd hi)) (← xreg (ra hi))
    | _ => .error .unassigned
  | 0x28 => do
    need (ext == 0) .reservedField
    match rfn hi with
    | 0 => do need (rb hi == 0) .reservedField; return .ctrdTimestamp (← xreg (rd hi)) (← xreg (ra hi))
    | 1 => do need (rb hi == 0) .reservedField; return .pmrd (← xreg (rd hi)) (← xreg (ra hi))
    | _ => .error .unassigned
  | 0x29 => do
    need (ext == 0) .reservedField
    match rfn hi with
    | 0 => do need (rd hi == 0 && rb hi == 0) .reservedField; return .upret (← xreg (ra hi))
    | 1 => do need (rd hi == 0) .reservedField; return .fraiseUpcall (← xreg (ra hi)) (← xreg (rb hi))
    | _ => .error .unassigned
  | _ => .error .unassigned

/-- The second word's fields (R60): guard, set slot, wait mask. -/
def modsOf (w1 : Nat) : Mods :=
  { gp := ⟨w1 % 8, by omega⟩, gn := bit w1 3, sen := bit w1 8, sslot := slotOf (w1 / 16 % 16), wmask := .ofNat 16 (w1 / 512 % 65536) }

/-- The second word's ext field. -/
def extOf (w1 : Nat) : Nat := w1 / 33554432 % 128

/-- Decode the fields of a base word of either class. -/
def decodeBase (cls1 : Bool) (maj hi : Nat) (lit : Option Nat) : Except DecodeError Instr :=
  if cls1 then decodeBase1 maj hi lit else decodeBase0 maj hi lit

/-- Decode a long-class instruction: a long form (R62) or a native major (R68). -/
noncomputable def decodeLong (maj hi ext : Nat) (lit : Option Nat) : Except DecodeError Instr :=
  if maj = 0x3F then decodeBase (ext / 64 == 1) (ext % 64) hi lit
  else if maj < 0x10 then decodeVector maj hi ext lit
  else do
    let i ← decodeNative maj hi ext
    need lit.isNone .literal
    return i

/-- The checks between fields, then the answer. A hint ignores its second word (R72). -/
def finish (m : Mods) (len : Nat) (i : Instr) : Except DecodeError Decoded :=
  let m' := if i.isHint then Mods.none else m
  if i.wellFormed && i.modsOk m' then .ok { mods := m', instr := i, len := len } else .error .combination

/-- How many bytes the instruction has whose first word is w0 (R55). -/
def lengthOf (w0 : Nat) : Nat :=
  match w0 % 4 with
  | 2 => 8
  | 3 => 12
  | _ => 4

/-- Decode an instruction from its three words; a word beyond its length is not looked at (R55 to R72). -/
noncomputable def decodeWords (w0 w1 w2 : Nat) : Except DecodeError Decoded :=
  if w0 = 0 then .error .zeroWord else
  let maj := w0 / 4 % 64
  let hi := w0 / 256 % 16777216
  match w0 % 4 with
  | 0 => do finish Mods.none 4 (← decodeBase0 maj hi none)
  | 1 => do finish Mods.none 4 (← decodeBase1 maj hi none)
  | 2 => do finish (modsOf w1) 8 (← decodeLong maj hi (extOf w1) none)
  | _ => do finish (modsOf w1) 12 (← decodeLong maj hi (extOf w1) (some w2))

/-- A little-endian word from four bytes (R3); missing bytes read as zero. -/
def wordOfBytes : List Byte → Nat
  | [] => 0
  | c :: cs => c.toNat + 256 * wordOfBytes cs

/-- Decode the instruction at the head of a byte list. -/
noncomputable def decode (bs : List Byte) : Except DecodeError Decoded :=
  let w0 := wordOfBytes (bs.take 4)
  if bs.length < 4 ∨ bs.length < lengthOf w0 then .error .short
  else decodeWords w0 (wordOfBytes ((bs.drop 4).take 4)) (wordOfBytes ((bs.drop 8).take 4))

/-- The n little-endian bytes of a number. -/
def bytesOf : Nat → Nat → List Byte
  | 0, _ => []
  | n + 1, w => BitVec.ofNat 8 w :: bytesOf n (w / 256)

/-- The instruction my decoder reads from table bits w: 12 bytes are laid out, so every bit above nbits is 0. -/
noncomputable def decodeTableWord (nbits w : Nat) : Option Instr :=
  match decode (bytesOf 12 (w % 2 ^ nbits)) with
  | .ok d => some d.instr
  | .error _ => none

/-! The encoder. -/

/-- The layout an instruction is written in: a base word of class 00 or 01 with its literal, or a native word with ext and literal. -/
inductive Enc where
  | base (cls1 : Bool) (maj hi : Nat) (lit : Option Nat)
  | native (maj hi ext : Nat) (lit : Option Nat)
deriving DecidableEq, Repr

/-- The upper 24 bits of an RR layout. -/
def rr (fn s2 s1 d : Nat) : Nat := d + 64 * s1 + 4096 * s2 + 262144 * fn

/-- The upper 24 bits of an M layout. -/
def mm (slot off base data : Nat) : Nat := data + 64 * base + 4096 * off + 1048576 * slot

/-- A class 00 RI word: the short immediate where it fits, else the 44-bit form. -/
def riEnc (maj : Nat) (d a : Nat) (imm : BitVec 44) : Enc :=
  if (imm.truncate 12).signExtend 44 = imm then .base false maj (d + 64 * a + 4096 * (imm.toNat % 4096)) none
  else .base false maj (d + 64 * a + 4096 * (imm.toNat / 2 ^ 32)) (some (imm.toNat % 2 ^ 32))

/-- A class 01 M word: the scaled offset where it fits, else the literal. -/
def memEnc (maj scale : Nat) (slot : Slot) (off : BitVec 32) (base : AReg) (data : Nat) : Enc :=
  let q := (off.toInt / scale) % 256
  if (BitVec.ofInt 8 q).signExtend 32 * BitVec.ofNat 32 scale = off then
    .base true maj (mm slot.val q.toNat (base.val + 32) data) none
  else .base true maj (mm slot.val 0 (base.val + 32) data) (some off.toNat)

/-- ext of a vector instruction. -/
def vext (m : KReg) (f : Nat) : Nat := 16 * m.val + f

/-- The layout of an instruction that has one; the steps no word spells have none. -/
def Instr.enc : Instr → Option Enc
  | .add rd ra rb => some (.base false 0 (rr 0 rb.code ra.code rd.code) rb.litW)
  | .sub rd ra rb => some (.base false 0 (rr 1 rb.code ra.code rd.code) rb.litW)
  | .mul rd ra rb => some (.base false 0 (rr 2 rb.code ra.code rd.code) rb.litW)
  | .mulh rd ra rb => some (.base false 0 (rr 3 rb.code ra.code rd.code) rb.litW)
  | .mulhu rd ra rb => some (.base false 0 (rr 4 rb.code ra.code rd.code) rb.litW)
  | .div rd ra rb => some (.base false 0 (rr 5 rb.code ra.code rd.code) rb.litW)
  | .divu rd ra rb => some (.base false 0 (rr 6 rb.code ra.code rd.code) rb.litW)
  | .rem rd ra rb => some (.base false 0 (rr 7 rb.code ra.code rd.code) rb.litW)
  | .remu rd ra rb => some (.base false 0 (rr 8 rb.code ra.code rd.code) rb.litW)
  | .and rd ra rb => some (.base false 0 (rr 9 rb.code ra.code rd.code) rb.litW)
  | .or rd ra rb => some (.base false 0 (rr 10 rb.code ra.code rd.code) rb.litW)
  | .xor rd ra rb => some (.base false 0 (rr 11 rb.code ra.code rd.code) rb.litW)
  | .andn rd ra rb => some (.base false 0 (rr 12 rb.code ra.code rd.code) rb.litW)
  | .shl rd ra rb => some (.base false 0 (rr 13 rb.code ra.code rd.code) rb.litW)
  | .shr rd ra rb => some (.base false 0 (rr 14 rb.code ra.code rd.code) rb.litW)
  | .sar rd ra rb => some (.base false 0 (rr 15 rb.code ra.code rd.code) rb.litW)
  | .rol rd ra rb => some (.base false 0 (rr 16 rb.code ra.code rd.code) rb.litW)
  | .ror rd ra rb => some (.base false 0 (rr 17 rb.code ra.code rd.code) rb.litW)
  | .min rd ra rb => some (.base false 0 (rr 18 rb.code ra.code rd.code) rb.litW)
  | .max rd ra rb => some (.base false 0 (rr 19 rb.code ra.code rd.code) rb.litW)
  | .minu rd ra rb => some (.base false 0 (rr 20 rb.code ra.code rd.code) rb.litW)
  | .maxu rd ra rb => some (.base false 0 (rr 21 rb.code ra.code rd.code) rb.litW)
  | .addI rd ra imm => some (riEnc 16 rd.code ra.code imm)
  | .mulI rd ra imm => some (riEnc 17 rd.code ra.code imm)
  | .andI rd ra imm => some (riEnc 18 rd.code ra.code imm)
  | .orI rd ra imm => some (riEnc 19 rd.code ra.code imm)
  | .xorI rd ra imm => some (riEnc 20 rd.code ra.code imm)
  | .shlI rd ra n => some (.base false 21 (rr 0 n.toNat ra.code rd.code) none)
  | .shrI rd ra n => some (.base false 22 (rr 0 n.toNat ra.code rd.code) none)
  | .sarI rd ra n => some (.base false 23 (rr 0 n.toNat ra.code rd.code) none)
  | .rolI rd ra n => some (.base false 24 (rr 0 n.toNat ra.code rd.code) none)
  | .rorI rd ra n => some (.base false 25 (rr 0 n.toNat ra.code rd.code) none)
  | .li rd imm => some (riEnc 26 rd.code 0 imm)
  | .bext rd ra w pos => some (.base false 27 (rr w.toNat pos.toNat ra.code rd.code) none)
  | .bextu rd ra w pos => some (.base false 28 (rr w.toNat pos.toNat ra.code rd.code) none)
  | .bins rd ra w pos => some (.base false 29 (rr w.toNat pos.toNat ra.code rd.code) none)
  | .mov rd ra => some (.base false 1 (rr 0 0 ra.code rd.code) none)
  | .popc rd ra => some (.base false 1 (rr 1 0 ra.code rd.code) none)
  | .clz rd ra => some (.base false 1 (rr 2 0 ra.code rd.code) none)
  | .ctz rd ra => some (.base false 1 (rr 3 0 ra.code rd.code) none)
  | .brev rd ra => some (.base false 1 (rr 4 0 ra.code rd.code) none)
  | .abs rd ra => some (.base false 1 (rr 5 0 ra.code rd.code) none)
  | .sext8 rd ra => some (.base false 1 (rr 6 0 ra.code rd.code) none)
  | .sext16 rd ra => some (.base false 1 (rr 7 0 ra.code rd.code) none)
  | .sext32 rd ra => some (.base false 1 (rr 8 0 ra.code rd.code) none)
  | .zext8 rd ra => some (.base false 1 (rr 9 0 ra.code rd.code) none)
  | .zext16 rd ra => some (.base false 1 (rr 10 0 ra.code rd.code) none)
  | .zext32 rd ra => some (.base false 1 (rr 11 0 ra.code rd.code) none)
  | .atx rd ra => some (.base false 1 (rr 12 0 (ra.val + 32) rd.val) none)
  | .rdtime rd => some (.base false 1 (rr 13 0 0 rd.val) none)
  | .cmp cc rd ra rb => some (.base false 2 (rr cc.code rb.code ra.val rd.val) rb.litW)
  | .pand rd ra rb => some (.base false 3 (rr 0 rb.val ra.val rd.val) none)
  | .por rd ra rb => some (.base false 3 (rr 1 rb.val ra.val rd.val) none)
  | .pnot rd ra => some (.base false 3 (rr 2 0 ra.val rd.val) none)
  | .sel rd p ra rb => some (.base false 4 (rr p.val rb.code ra.code rd.code) none)
  | .fcmp cc f rd ra rb => some (.base false 6 (rr (cc.code + 8 * f.code) rb.code ra.val rd.val) rb.litW)
  | .fcvt dst srcf rd ra => some (.base false 7 (rr dst.code srcf.code ra.val rd.val) none)
  | .lea rd ra rb n => some (.base false 8 (rr n.toNat rb.code ra.code rd.code) rb.litW)
  | .fshl rd ra rb n => some (.base false 9 (rr n.toNat rb.code ra.code rd.code) rb.litW)
  | .fshr rd ra rb n => some (.base false 10 (rr n.toNat rb.code ra.code rd.code) rb.litW)
  | .crr rd r => some (.base false 11 (rd.val + 64 * r.toNat) none)
  | .crw r ra => some (.base false 12 (ra.val + 64 * r.toNat) none)
  | .wait w => some (.base false 60 w.toNat none)
  | .trap n => some (.base false 61 (4096 * n.toNat) none)
  | .hint n rd ra rb => some (.base false 62 (rr n.toNat rb.toNat ra.toNat rd.toNat) none)
  | .nop => some (.base false 63 0 none)
  | .faddF32 rd ra rb => some (.base false 5 (rr 0 rb.code ra.val rd.val) rb.litW)
  | .fsubF32 rd ra rb => some (.base false 5 (rr 1 rb.code ra.val rd.val) rb.litW)
  | .fmulF32 rd ra rb => some (.base false 5 (rr 2 rb.code ra.val rd.val) rb.litW)
  | .fdivF32 rd ra rb => some (.base false 5 (rr 3 rb.code ra.val rd.val) rb.litW)
  | .fminF32 rd ra rb => some (.base false 5 (rr 4 rb.code ra.val rd.val) rb.litW)
  | .fmaxF32 rd ra rb => some (.base false 5 (rr 5 rb.code ra.val rd.val) rb.litW)
  | .fsqrtF32 rd ra => some (.base false 5 (rr 6 0 ra.val rd.val) none)
  | .fabsF32 rd ra => some (.base false 5 (rr 7 0 ra.val rd.val) none)
  | .fnegF32 rd ra => some (.base false 5 (rr 8 0 ra.val rd.val) none)
  | .fclassF32 rd ra => some (.base false 5 (rr 9 0 ra.val rd.val) none)
  | .fsinF32 rd ra => some (.base false 5 (rr 10 0 ra.val rd.val) none)
  | .fcosF32 rd ra => some (.base false 5 (rr 11 0 ra.val rd.val) none)
  | .fexp2F32 rd ra => some (.base false 5 (rr 12 0 ra.val rd.val) none)
  | .flog2F32 rd ra => some (.base false 5 (rr 13 0 ra.val rd.val) none)
  | .frcpF32 rd ra => some (.base false 5 (rr 14 0 ra.val rd.val) none)
  | .frsqF32 rd ra => some (.base false 5 (rr 15 0 ra.val rd.val) none)
  | .ffmaF32 rd ra rb => some (.base false 5 (rr 16 rb.code ra.val rd.val) rb.litW)
  | .faddF16 rd ra rb => some (.base false 13 (rr 0 rb.code ra.val rd.val) rb.litW)
  | .fsubF16 rd ra rb => some (.base false 13 (rr 1 rb.code ra.val rd.val) rb.litW)
  | .fmulF16 rd ra rb => some (.base false 13 (rr 2 rb.code ra.val rd.val) rb.litW)
  | .fdivF16 rd ra rb => some (.base false 13 (rr 3 rb.code ra.val rd.val) rb.litW)
  | .fminF16 rd ra rb => some (.base false 13 (rr 4 rb.code ra.val rd.val) rb.litW)
  | .fmaxF16 rd ra rb => some (.base false 13 (rr 5 rb.code ra.val rd.val) rb.litW)
  | .fsqrtF16 rd ra => some (.base false 13 (rr 6 0 ra.val rd.val) none)
  | .fabsF16 rd ra => some (.base false 13 (rr 7 0 ra.val rd.val) none)
  | .fnegF16 rd ra => some (.base false 13 (rr 8 0 ra.val rd.val) none)
  | .fclassF16 rd ra => some (.base false 13 (rr 9 0 ra.val rd.val) none)
  | .fsinF16 rd ra => some (.base false 13 (rr 10 0 ra.val rd.val) none)
  | .fcosF16 rd ra => some (.base false 13 (rr 11 0 ra.val rd.val) none)
  | .fexp2F16 rd ra => some (.base false 13 (rr 12 0 ra.val rd.val) none)
  | .flog2F16 rd ra => some (.base false 13 (rr 13 0 ra.val rd.val) none)
  | .frcpF16 rd ra => some (.base false 13 (rr 14 0 ra.val rd.val) none)
  | .frsqF16 rd ra => some (.base false 13 (rr 15 0 ra.val rd.val) none)
  | .ffmaF16 rd ra rb => some (.base false 13 (rr 16 rb.code ra.val rd.val) rb.litW)
  | .faddBF16 rd ra rb => some (.base false 14 (rr 0 rb.code ra.val rd.val) rb.litW)
  | .fsubBF16 rd ra rb => some (.base false 14 (rr 1 rb.code ra.val rd.val) rb.litW)
  | .fmulBF16 rd ra rb => some (.base false 14 (rr 2 rb.code ra.val rd.val) rb.litW)
  | .fdivBF16 rd ra rb => some (.base false 14 (rr 3 rb.code ra.val rd.val) rb.litW)
  | .fminBF16 rd ra rb => some (.base false 14 (rr 4 rb.code ra.val rd.val) rb.litW)
  | .fmaxBF16 rd ra rb => some (.base false 14 (rr 5 rb.code ra.val rd.val) rb.litW)
  | .fsqrtBF16 rd ra => some (.base false 14 (rr 6 0 ra.val rd.val) none)
  | .fabsBF16 rd ra => some (.base false 14 (rr 7 0 ra.val rd.val) none)
  | .fnegBF16 rd ra => some (.base false 14 (rr 8 0 ra.val rd.val) none)
  | .fclassBF16 rd ra => some (.base false 14 (rr 9 0 ra.val rd.val) none)
  | .fsinBF16 rd ra => some (.base false 14 (rr 10 0 ra.val rd.val) none)
  | .fcosBF16 rd ra => some (.base false 14 (rr 11 0 ra.val rd.val) none)
  | .fexp2BF16 rd ra => some (.base false 14 (rr 12 0 ra.val rd.val) none)
  | .flog2BF16 rd ra => some (.base false 14 (rr 13 0 ra.val rd.val) none)
  | .frcpBF16 rd ra => some (.base false 14 (rr 14 0 ra.val rd.val) none)
  | .frsqBF16 rd ra => some (.base false 14 (rr 15 0 ra.val rd.val) none)
  | .ffmaBF16 rd ra rb => some (.base false 14 (rr 16 rb.code ra.val rd.val) rb.litW)
  | .ldS8 sl off ra rd => some (memEnc 0 1 sl off ra rd.code)
  | .ldU8 sl off ra rd => some (memEnc 1 1 sl off ra rd.code)
  | .ldS16 sl off ra rd => some (memEnc 2 2 sl off ra rd.code)
  | .ldU16 sl off ra rd => some (memEnc 3 2 sl off ra rd.code)
  | .ldS32 sl off ra rd => some (memEnc 4 4 sl off ra rd.code)
  | .ldU32 sl off ra rd => some (memEnc 5 4 sl off ra rd.code)
  | .ld64 sl off ra rd => some (memEnc 6 8 sl off ra rd.code)
  | .st8 sl off ra rd => some (memEnc 8 1 sl off ra rd.code)
  | .st16 sl off ra rd => some (memEnc 9 2 sl off ra rd.code)
  | .st32 sl off ra rd => some (memEnc 10 4 sl off ra rd.code)
  | .st64 sl off ra rd => some (memEnc 11 8 sl off ra rd.code)
  | .ldl8 sl off ra rd => some (memEnc 12 1 sl off ra rd.code)
  | .ldl16 sl off ra rd => some (memEnc 13 2 sl off ra rd.code)
  | .ldl32 sl off ra rd => some (memEnc 14 4 sl off ra rd.code)
  | .ldl64 sl off ra rd => some (memEnc 15 8 sl off ra rd.code)
  | .stl8 sl off ra rd => some (memEnc 16 1 sl off ra rd.code)
  | .stl16 sl off ra rd => some (memEnc 17 2 sl off ra rd.code)
  | .stl32 sl off ra rd => some (memEnc 18 4 sl off ra rd.code)
  | .stl64 sl off ra rd => some (memEnc 19 8 sl off ra rd.code)
  | .ldfeC sl off ra rd => some (memEnc 20 8 sl off ra rd.code)
  | .ldfeK sl off ra rd => some (memEnc 21 8 sl off ra rd.code)
  | .stfe sl off ra rd => some (memEnc 22 8 sl off ra rd.code)
  | .femarkE sl off ra rd => some (memEnc 23 16 sl off ra rd.code)
  | .femarkF sl off ra rd => some (memEnc 24 16 sl off ra rd.code)
  | .czfence sl off ra rd => some (memEnc 27 4096 sl off ra rd.code)
  | .cbload sl off ra rd => some (memEnc 28 64 sl off ra rd.code)
  | .czstat sl off ra rd => some (memEnc 29 4096 sl off ra rd.code)
  | .pref sl off ra l => some (memEnc 25 64 sl off ra (Bool.code l))
  | .fence sl sc => some (.base true 26 (mm sl.val sc.code 0 0) none)
  | .j off ra => some (.base true 32 (mm 0 off.toNat (ra.val + 32) 0) none)
  | .ret => some (.base true 33 0 none)
  | .b off ng p => some (.base true 48 (16 * off.toNat + 8 * Bool.code ng + p.val) none)
  | .bp off ng p => some (.base true 49 (16 * off.toNat + 8 * Bool.code ng + p.val) none)
  | .call off => some (.base true 50 (16 * off.toNat) none)
  | .loop off n => some (.base true 51 (16 * off.toNat + n.toNat) none)
  | .vadd m f rd ra rb => some (.native 0 (rr 0 rb.code ra.val rd.val) (vext m f.code) rb.litW)
  | .vsub m f rd ra rb => some (.native 0 (rr 1 rb.code ra.val rd.val) (vext m f.code) rb.litW)
  | .vmul m f rd ra rb => some (.native 0 (rr 2 rb.code ra.val rd.val) (vext m f.code) rb.litW)
  | .vfma m f rd ra rb => some (.native 0 (rr 3 rb.code ra.val rd.val) (vext m f.code) rb.litW)
  | .vdiv m f rd ra rb => some (.native 0 (rr 4 rb.code ra.val rd.val) (vext m f.code) rb.litW)
  | .vmin m f rd ra rb => some (.native 0 (rr 6 rb.code ra.val rd.val) (vext m f.code) rb.litW)
  | .vmax m f rd ra rb => some (.native 0 (rr 7 rb.code ra.val rd.val) (vext m f.code) rb.litW)
  | .vand m f rd ra rb => some (.native 0 (rr 8 rb.code ra.val rd.val) (vext m f.code) rb.litW)
  | .vor m f rd ra rb => some (.native 0 (rr 9 rb.code ra.val rd.val) (vext m f.code) rb.litW)
  | .vxor m f rd ra rb => some (.native 0 (rr 10 rb.code ra.val rd.val) (vext m f.code) rb.litW)
  | .vshl m f rd ra rb => some (.native 0 (rr 11 rb.code ra.val rd.val) (vext m f.code) rb.litW)
  | .vshr m f rd ra rb => some (.native 0 (rr 12 rb.code ra.val rd.val) (vext m f.code) rb.litW)
  | .vfsh m f rd ra rb => some (.native 0 (rr 13 rb.code ra.val rd.val) (vext m f.code) rb.litW)
  | .vbext m f rd ra rb => some (.native 0 (rr 14 rb.code ra.val rd.val) (vext m f.code) rb.litW)
  | .vsqrt m f rd ra => some (.native 0 (rr 5 0 ra.val rd.val) (vext m f.code) none)
  | .vpopc m f rd ra => some (.native 0 (rr 15 0 ra.val rd.val) (vext m f.code) none)
  | .vclz m f rd ra => some (.native 0 (rr 16 0 ra.val rd.val) (vext m f.code) none)
  | .vsel m rd ra rb => some (.native 0 (rr 17 rb.code ra.val rd.val) (vext m 0) rb.litW)
  | .vbcast m rd ra => some (.native 0 (rr 18 0 ra.val rd.val) (vext m 0) none)
  | .vextr rd ra rb => some (.native 0 (rr 19 rb.code ra.val rd.val) 0 rb.litW)
  | .vins rd ra rb => some (.native 0 (rr 20 rb.code ra.val rd.val) 0 rb.litW)
  | .vneigh m rd ra p n => some (.native 0 (rr 21 (8 * p.val + n.toNat) ra.val rd.val) (vext m 0) none)
  | .vlut m rd ra rb => some (.native 0 (rr 22 rb.code ra.val rd.val) (vext m 9) rb.litW)
  | .vperm m rd ra rb => some (.native 0 (rr 23 rb.code ra.val rd.val) (vext m 0) rb.litW)
  | .vsfnSin m f rd ra => some (.native 1 (rr 0 0 ra.val rd.val) (vext m f.code) none)
  | .vsfnCos m f rd ra => some (.native 1 (rr 1 0 ra.val rd.val) (vext m f.code) none)
  | .vsfnExp2 m f rd ra => some (.native 1 (rr 2 0 ra.val rd.val) (vext m f.code) none)
  | .vsfnLog2 m f rd ra => some (.native 1 (rr 3 0 ra.val rd.val) (vext m f.code) none)
  | .vsfnRcp m f rd ra => some (.native 1 (rr 4 0 ra.val rd.val) (vext m f.code) none)
  | .vsfnRsq m f rd ra => some (.native 1 (rr 5 0 ra.val rd.val) (vext m f.code) none)
  | .vcmp m f cc rd ra rb => some (.native 2 (rr cc.code rb.code ra.val rd.val) (vext m f.code) rb.litW)
  | .vcvt m dst srcf rd ra => some (.native 3 (rr dst.code 0 ra.val rd.val) (vext m srcf.code) none)
  | .vredAdd m f rd ra => some (.native 4 (rr 0 0 ra.val rd.val) (vext m f.code) none)
  | .vredMin m f rd ra => some (.native 4 (rr 1 0 ra.val rd.val) (vext m f.code) none)
  | .vredMax m f rd ra => some (.native 4 (rr 2 0 ra.val rd.val) (vext m f.code) none)
  | .vredAnd m f rd ra => some (.native 4 (rr 3 0 ra.val rd.val) (vext m f.code) none)
  | .vredOr m f rd ra => some (.native 4 (rr 4 0 ra.val rd.val) (vext m f.code) none)
  | .vredXor m f rd ra => some (.native 4 (rr 5 0 ra.val rd.val) (vext m f.code) none)
  | .vscanAdd m f rd ra => some (.native 5 (rr 0 0 ra.val rd.val) (vext m f.code) none)
  | .vscanMin m f rd ra => some (.native 5 (rr 1 0 ra.val rd.val) (vext m f.code) none)
  | .vscanMax m f rd ra => some (.native 5 (rr 2 0 ra.val rd.val) (vext m f.code) none)
  | .vscanAnd m f rd ra => some (.native 5 (rr 3 0 ra.val rd.val) (vext m f.code) none)
  | .vscanOr m f rd ra => some (.native 5 (rr 4 0 ra.val rd.val) (vext m f.code) none)
  | .vscanXor m f rd ra => some (.native 5 (rr 5 0 ra.val rd.val) (vext m f.code) none)
  | .kopAnd rd ra rb => some (.native 6 (rr 0 rb.val ra.val rd.val) 0 none)
  | .kopOr rd ra rb => some (.native 6 (rr 1 rb.val ra.val rd.val) 0 none)
  | .kopXor rd ra rb => some (.native 6 (rr 2 rb.val ra.val rd.val) 0 none)
  | .kopAndn rd ra rb => some (.native 6 (rr 3 rb.val ra.val rd.val) 0 none)
  | .kopNot rd ra => some (.native 6 (rr 4 0 ra.val rd.val) 0 none)
  | .kpopc rd ra => some (.native 6 (rr 5 0 ra.val rd.val) 0 none)
  | .vclaim rd q => some (.native 7 (rd.val + 4096 * q.toNat) 0 none)
  | .vrel => some (.native 8 0 0 none)
  | .vld m f sl off ra rd => some (.native 9 (mm sl.val off.toNat (ra.val + 32) rd.val) (vext m f.code) none)
  | .vst m f sl off ra rd => some (.native 10 (mm sl.val off.toNat (ra.val + 32) rd.val) (vext m f.code) none)
  | .vldx m f sl x ra rd => some (.native 11 (mm sl.val x.val (ra.val + 32) rd.val) (vext m f.code) none)
  | .vstx m f sl x ra rd => some (.native 12 (mm sl.val x.val (ra.val + 32) rd.val) (vext m f.code) none)
  | .lda sz sc sl off ra rd => some (.native 16 (mm sl.val off.toNat (ra.val + 32) rd.code) (8 * sz.toNat + sc.code) none)
  | .strl sz sc sl off ra rd => some (.native 17 (mm sl.val off.toNat (ra.val + 32) rd.code) (8 * sz.toNat + sc.code) none)
  | .amo32Add sc sl off ra rd => some (.native 18 (mm sl.val off.toNat (ra.val + 32) rd.val) (0 + sc.code) none)
  | .amo32Fadd sc sl off ra rd => some (.native 18 (mm sl.val off.toNat (ra.val + 32) rd.val) (8 + sc.code) none)
  | .amo32Min sc sl off ra rd => some (.native 18 (mm sl.val off.toNat (ra.val + 32) rd.val) (16 + sc.code) none)
  | .amo32Max sc sl off ra rd => some (.native 18 (mm sl.val off.toNat (ra.val + 32) rd.val) (24 + sc.code) none)
  | .amo32And sc sl off ra rd => some (.native 18 (mm sl.val off.toNat (ra.val + 32) rd.val) (32 + sc.code) none)
  | .amo32Or sc sl off ra rd => some (.native 18 (mm sl.val off.toNat (ra.val + 32) rd.val) (40 + sc.code) none)
  | .amo32Xor sc sl off ra rd => some (.native 18 (mm sl.val off.toNat (ra.val + 32) rd.val) (48 + sc.code) none)
  | .amo32Swap sc sl off ra rd => some (.native 18 (mm sl.val off.toNat (ra.val + 32) rd.val) (56 + sc.code) none)
  | .amo64Add sc sl off ra rd => some (.native 19 (mm sl.val off.toNat (ra.val + 32) rd.val) (0 + sc.code) none)
  | .amo64Min sc sl off ra rd => some (.native 19 (mm sl.val off.toNat (ra.val + 32) rd.val) (16 + sc.code) none)
  | .amo64Max sc sl off ra rd => some (.native 19 (mm sl.val off.toNat (ra.val + 32) rd.val) (24 + sc.code) none)
  | .amo64And sc sl off ra rd => some (.native 19 (mm sl.val off.toNat (ra.val + 32) rd.val) (32 + sc.code) none)
  | .amo64Or sc sl off ra rd => some (.native 19 (mm sl.val off.toNat (ra.val + 32) rd.val) (40 + sc.code) none)
  | .amo64Xor sc sl off ra rd => some (.native 19 (mm sl.val off.toNat (ra.val + 32) rd.val) (48 + sc.code) none)
  | .amo64Swap sc sl off ra rd => some (.native 19 (mm sl.val off.toNat (ra.val + 32) rd.val) (56 + sc.code) none)
  | .cas w sc sl off ra n => some (.native 20 (mm sl.val off.toNat (ra.val + 32) (2 * n.val + 2)) (8 * (2 + Bool.code w) + sc.code) none)
  | .mmaNew la lb rd ra rb => some (.native 24 (rr 0 (rb.val + 32) (ra.val + 32) rd.val) (2 * Bool.code la + Bool.code lb) none)
  | .mmaAcc la lb rd ra rb => some (.native 24 (rr 1 (rb.val + 32) (ra.val + 32) rd.val) (2 * Bool.code la + Bool.code lb) none)
  | .mgangNew la lb rd ra rb => some (.native 24 (rr 2 (rb.val + 32) (ra.val + 32) rd.val) (2 * Bool.code la + Bool.code lb) none)
  | .mgangAcc la lb rd ra rb => some (.native 24 (rr 3 (rb.val + 32) (ra.val + 32) rd.val) (2 * Bool.code la + Bool.code lb) none)
  | .srfence ra => some (.native 36 (rr 0 0 (match ra with | some r => r.val + 32 | none => 0) 0) 0 none)
  | .bar sc => some (.native 36 (rr 1 0 0 0) sc.code none)
  | .bara sc rd => some (.native 36 (rr 2 0 0 rd.val) sc.code none)
  | .barw sc ra => some (.native 36 (rr 3 0 ra.val 0) sc.code none)
  | .chbond rd ra => some (.native 30 (rr 0 0 ra.val rd.val) 0 none)
  | .chload ra => some (.native 30 (rr 1 0 (ra.val + 32) 0) 0 none)
  | .chrun rd ra rb => some (.native 30 (rr 2 (rb.val + 32) (ra.val + 32) rd.val) 0 none)
  | .chstep rd ra rb => some (.native 30 (rr 3 (rb.val + 32) (ra.val + 32) rd.val) 0 none)
  | .chwait rd => some (.native 30 (rr 4 0 0 rd.val) 0 none)
  | .pcfg rd ra => some (.native 33 (rr 0 0 ra.val (rd.val + 48)) 0 none)
  | .ptry rd ra rb => some (.native 33 (rr 1 rb.val (ra.val + 48) rd.code) 0 none)
  | .ptrys rd ra rb => some (.native 33 (rr 2 rb.val ra.code (rd.val + 48)) 0 none)
  | .rqres rd ra rb => some (.native 34 (rr 0 rb.val (ra.val + 32) rd.val) 0 none)
  | .rqpub ra rb => some (.native 34 (rr 1 rb.val (ra.val + 32) 0) 0 none)
  | .rqtake rd ra rb => some (.native 34 (rr 2 rb.val (ra.val + 32) rd.val) 0 none)
  | .rqdone ra rb => some (.native 34 (rr 3 rb.val (ra.val + 32) 0) 0 none)
  | .dqbind rd ra rb => some (.native 35 (rr 0 rb.val (ra.val + 32) rd.val) 0 none)
  | .dqpush rd ra rb => some (.native 35 (rr 1 (rb.val + 32) (ra.val + 32) rd.val) 0 none)
  | .dqpop rd ra rb => some (.native 35 (rr 2 (rb.val + 32) (ra.val + 32) rd.val) 0 none)
  | .dqcons ra => some (.native 35 (rr 3 0 (ra.val + 32) 0) 0 none)
  | .dqarr rd ra rb => some (.native 35 (rr 4 (rb.val + 32) (ra.val + 32) rd.val) 0 none)
  | .dqlook rd ra rb => some (.native 35 (rr 5 (rb.val + 32) (ra.val + 32) rd.val) 0 none)
  | .dqadv rd ra rb => some (.native 35 (rr 6 rb.val (ra.val + 32) rd.val) 0 none)
  | .dqfront rd ra => some (.native 35 (rr 7 0 (ra.val + 32) rd.val) 0 none)
  | .dqwait ra rb => some (.native 35 (rr 8 rb.val (ra.val + 32) 0) 0 none)
  | .fresume rd ra => some (.native 37 (rr 0 0 ra.val rd.val) 0 none)
  | .ptfence ra rb => some (.native 37 (rr 1 rb.val (ra.val + 32) 0) 0 none)
  | .recbeg rd ra rb => some (.native 37 (rr 2 (rb.val + 32) ra.val rd.val) 0 none)
  | .recend ra => some (.native 37 (rr 3 0 ra.val 0) 0 none)
  | .rplbeg rd ra => some (.native 37 (rr 4 0 ra.val rd.val) 0 none)
  | .rplend ra => some (.native 37 (rr 5 0 ra.val 0) 0 none)
  | .rerecord ra => some (.native 37 (rr 6 0 ra.val 0) 0 none)
  | .recstat rd ra => some (.native 37 (rr 7 0 ra.val rd.val) 0 none)
  | .egopen rd ra rb => some (.native 38 (rr 0 (rb.val + 32) ra.val rd.val) 0 none)
  | .egins rd ra => some (.native 38 (rr 1 0 (ra.val + 32) rd.val) 0 none)
  | .egmrg rd ra rb => some (.native 38 (rr 2 rb.val ra.val rd.val) 0 none)
  | .egfind rd ra => some (.native 38 (rr 3 0 ra.val rd.val) 0 none)
  | .egsame rd ra rb => some (.native 38 (rr 4 rb.val ra.val rd.val) 0 none)
  | .egsync ra => some (.native 38 (rr 5 0 ra.val 0) 0 none)
  | .egnode rd ra rb => some (.native 38 (rr 6 (rb.val + 32) ra.val rd.val) 0 none)
  | .egclass rd ra rb => some (.native 38 (rr 7 rb.val ra.val rd.val) 0 none)
  | .egmatch rd ra => some (.native 38 (rr 8 0 (ra.val + 32) rd.val) 0 none)
  | .egnext rd ra => some (.native 38 (rr 9 0 (ra.val + 32) rd.val) 0 none)
  | .egchk rd ra => some (.native 38 (rr 10 0 (ra.val + 32) rd.val) 0 none)
  | .egcost rd ra rb => some (.native 38 (rr 11 rb.val (ra.val + 32) rd.val) 0 none)
  | .egextr rd ra => some (.native 38 (rr 12 0 (ra.val + 32) rd.val) 0 none)
  | .launch rd ra => some (.native 39 (rr 0 0 (ra.val + 32) rd.val) 0 none)
  | .dnext rd => some (.native 39 (rr 1 0 0 rd.val) 0 none)
  | .hstart rd ra rb => some (.native 39 (rr 2 (rb.val + 32) ra.val rd.val) 0 none)
  | .hexit ra => some (.native 39 (rr 3 0 ra.val 0) 0 none)
  | .hjoin rd ra => some (.native 39 (rr 4 0 ra.val rd.val) 0 none)
  | .gfuse rd ra => some (.native 39 (rr 5 0 ra.val rd.val) 0 none)
  | .gsplit => some (.native 39 (rr 6 0 0 0) 0 none)
  | .tknew rd ra => some (.native 39 (rr 7 0 (ra.val + 32) rd.val) 0 none)
  | .tkdep rd ra rb => some (.native 39 (rr 8 (rb.val + 32) (ra.val + 32) rd.val) 0 none)
  | .tkrel rd ra => some (.native 39 (rr 9 0 (ra.val + 32) rd.val) 0 none)
  | .tkdone rd ra rb => some (.native 39 (rr 10 (rb.val + 32) (ra.val + 32) rd.val) 0 none)
  | .ftnew rd ra rb => some (.native 39 (rr 11 rb.val (ra.val + 32) rd.val) 0 none)
  | .ftsetReady rd ra n => some (.native 39 (rr 12 (2 * n.val + 2) (ra.val + 32) rd.val) 0 none)
  | .ftget rd ra rb => some (.native 39 (rr 13 rb.val (ra.val + 32) rd.val) 0 none)
  | .yieldRef rd => some (.native 39 (rr 14 0 0 rd.val) 0 none)
  | .park rd ra => some (.native 39 (rr 15 0 ra.val rd.val) 0 none)
  | .wake rd ra => some (.native 39 (rr 16 0 ra.val rd.val) 0 none)
  | .enq rd n rb => some (.native 32 (rr 0 (rb.val + 32) (4 * n.val + 4) rd.val) 0 none)
  | .jpoll rd ra => some (.native 32 (rr 1 0 ra.val rd.val) 0 none)
  | .jwait rd ra => some (.native 32 (rr 2 0 ra.val rd.val) 0 none)
  | .jcancel rd ra => some (.native 32 (rr 3 0 ra.val rd.val) 0 none)
  | .ctrdTimestamp rd ra => some (.native 40 (rr 0 0 ra.val rd.val) 0 none)
  | .pmrd rd ra => some (.native 40 (rr 1 0 ra.val rd.val) 0 none)
  | .upret ra => some (.native 41 (rr 0 0 ra.val 0) 0 none)
  | .fraiseUpcall ra rb => some (.native 41 (rr 1 rb.val ra.val 0) 0 none)
  | .mzero rd => some (.native 24 (rr 4 0 0 rd.val) 0 none)
  | .mepi rd ra rb => some (.native 24 (rr 5 (rb.val + 32) (ra.val + 32) rd.val) 0 none)
  | .mwait => some (.native 24 (rr 6 0 0 0) 0 none)
  | .mprio ra => some (.native 24 (rr 7 0 ra.val 0) 0 none)
  | .ftsetPoison rd ra n => some (.native 39 (rr 12 (2 * n.val + 2) (ra.val + 32) rd.val) 0 none)
  | .ftsetFree rd ra n => some (.native 39 (rr 12 (2 * n.val + 2) (ra.val + 32) rd.val) 0 none)
  | .rerecordFree ra => some (.native 37 (rr 6 0 ra.val 0) 0 none)
  | .ctrdSlot rd ra => some (.native 40 (rr 0 0 ra.val rd.val) 0 none)
  | .ctrdVc rd ra => some (.native 40 (rr 0 0 ra.val rd.val) 0 none)
  | .ctrdVd rd ra => some (.native 40 (rr 0 0 ra.val rd.val) 0 none)
  | .ctrdNeighbour rd ra => some (.native 40 (rr 0 0 ra.val rd.val) 0 none)
  | .upretContinue ra => some (.native 41 (rr 0 0 ra.val 0) 0 none)
  | .fraiseFreeze ra rb => some (.native 41 (rr 1 rb.val ra.val 0) 0 none)
  | .longForm _ => none
  | .scoreboardDecrement _ _ => none
  | .pushArrival _ => none
  | .sweeperVisit _ _ _ => none
  | .heatSample _ _ _ => none
  | .heatDecayEpoch _ _ => none
  | .lsPortPassover _ _ => none
  | .dispatchPassover _ => none
  | .hintPauseEnd _ => none
  | .dispatchStep _ => none
  | .freeSlotAdvert _ _ _ => none
  | .teamMigration _ _ => none
  | .gangForm _ _ => none
  | .portWordDelivery _ => none
  | .ptryTimeout _ => none
  | .ptrysTimeout _ => none
  | .vneighTimeout _ => none
  | .parkTimeout _ => none
  | .ringHole _ => none
  | .watchdog _ => none
  | .matrixJobAccept _ => none
  | .kstepBoundary _ => none
  | .huddleOpen _ _ => none
  | .epilogueDrain _ => none
  | .chainRunStart _ => none
  | .chainLoad _ => none
  | .chainAbsorb _ => none
  | .chainEmit _ => none
  | .chainPerm _ => none
  | .chainEnd _ => none
  | .jobStart _ => none
  | .copyJob _ _ => none
  | .fillJob _ _ => none
  | .gatherJob _ _ => none
  | .scatterJob _ _ => none
  | .postJob _ _ => none
  | .allReduce _ _ => none
  | .allGather _ _ => none
  | .reduceScatter _ _ => none
  | .broadcast _ _ => none
  | .collectiveStart _ _ _ => none
  | .jobCompletion _ _ => none
  | .invocationCreate _ => none
  | .heapUnion _ => none
  | .heapAdopt _ => none
  | .heapRehash _ => none
  | .matcherDeliver _ => none
  | .replayAttempt _ _ _ => none
  | .resumeNotice _ _ _ => none
  | .upcallDelivery _ => none
  | .collectorCopy _ => none
  | .sectorFree _ => none
  | .moveDoorbell _ _ => none
  | .frameMove _ => none
  | .copyWhileWritable _ => none
  | .debugResume _ => none
  | .debugFence _ => none
  | .debugKillFrame _ => none
  | .debugKillCore _ => none
  | .debugPcWrite _ _ _ => none
  | .debugLsdataAccess _ _ => none
  | .deviceRegisterWrite _ _ => none
  | .preemptSchedule _ _ => none
  | .partitionHalt => none
  | .partitionResume => none
  | .freezeSignal => none
  | .thermalTrip _ => none
  | .powerCapSet _ => none
  | .bringUp => none
  | .functionLevelReset => none
  | .attestationRequest _ => none
  | .hostWrite _ _ => none
  | .hostRead _ _ => none
  | .hostSnoop _ => none
  | .poolLinkFail _ => none
  | .crirasPlaneFail _ => none
  | .unassignedEncoding _ => none
  | .correctedSoftError _ => none
  | .poisonedLine _ => none
  | .unitUncorrectableError _ => none
  | .remoteHomeRequest _ _ => none
  | .poolAgentWrite _ _ => none
  | .supplyRemoval => none

/-- Rows that share their words stand for one instruction; the decoder answers the first row. -/
noncomputable def Instr.canon : Instr → Instr
  | .rerecordFree ra => .rerecord ra
  | .ftsetPoison rd ra n => .ftsetReady rd ra n
  | .ftsetFree rd ra n => .ftsetReady rd ra n
  | .ctrdSlot rd ra => .ctrdTimestamp rd ra
  | .ctrdVc rd ra => .ctrdTimestamp rd ra
  | .ctrdVd rd ra => .ctrdTimestamp rd ra
  | .ctrdNeighbour rd ra => .ctrdTimestamp rd ra
  | .upretContinue ra => .upret ra
  | .fraiseFreeze ra rb => .fraiseUpcall ra rb
  | i => i

/-- The second word, without its ext field. -/
def Mods.word (m : Mods) : Nat :=
  m.gp.val + 8 * Bool.code m.gn + 16 * m.sslot.val + 256 * Bool.code m.sen + 512 * m.wmask.toNat

/-- The words of a layout under modifiers: the 32-bit form only without modifiers and literal (R62), and not for the word 0, which is illegal
(R56): ADD x0, x0, x0 takes its long form. -/
def Enc.words (m : Mods) : Enc → List Nat
  | .base c maj hi none =>
    if m = Mods.none ∧ Bool.code c + 4 * maj + 256 * hi ≠ 0 then [Bool.code c + 4 * maj + 256 * hi]
    else [2 + 4 * 63 + 256 * hi, m.word + 33554432 * (64 * Bool.code c + maj)]
  | .base c maj hi (some w) => [3 + 4 * 63 + 256 * hi, m.word + 33554432 * (64 * Bool.code c + maj), w]
  | .native maj hi ext none => [2 + 4 * maj + 256 * hi, m.word + 33554432 * ext]
  | .native maj hi ext (some w) => [3 + 4 * maj + 256 * hi, m.word + 33554432 * ext, w]

/-- The words of a well-formed instruction under modifiers it may carry; none for a step no word spells. -/
def encode (m : Mods) (i : Instr) : Option (List Nat) := i.enc.map (Enc.words m)

/-- The bytes of words, little-endian (R3). -/
def bytesOfWords : List Nat → List Byte
  | [] => []
  | w :: ws => bytesOf 4 w ++ bytesOfWords ws

end Sys2Proof
end

