-- ==== Sys2Proof/Config.lean ====
section
/-! DEFINITION. What the implementation fixes, and the free values: opaque constants, so that a claim holds whatever they are. -/

namespace Sys2Proof.Config

/-- Compute dies (R9). -/
def dies : Nat := 4
/-- Clusters of a die (R9). -/
def clusPerDie : Nat := 16
/-- Cores of a cluster (R9). -/
def coresPerClu : Nat := 8
/-- Frames of a core (R16). -/
def framesPerCore : Nat := 11

/-- Free value (log 3): the contents of a v-register that the spec calls undefined (R130, R131, R132), fresh for each use. -/
opaque freeVec : Nat → BitVec 8192

/-- Free value (log 4): which of the results within the bound of R54 a special function gives; function, format code, operand. -/
opaque sfnPick : Nat → Nat → Nat → Nat

/-- Free value (log 5): an element of a slot whose huddle aborted (R233), fresh for each element. -/
opaque freeElem : Nat → BitVec 32

/-- Free value (log 6): a destination byte of an aborted collective (R268), fresh for each byte. -/
opaque freeByte : Nat → Byte

/-- Free value (log 7): the firmware stages, in load order (R389). -/
opaque firmware : List Stage

/-- Free value (log 7): the hash of a stage's public key that the fuses hold (R389). -/
opaque keyHash : BitVec 256

/-- SHA-256 (R9, R389, R390), which FIPS 180 defines and the spec does not: uninterpreted (log 7). -/
opaque sha256 : List Byte → BitVec 256

/-- Does an SLH-DSA-SHA2-192s signature verify, by public key, message and signature (R389)? FIPS 205 defines it: uninterpreted (log 7). -/
opaque slhVerify : BitVec 384 → List Byte → List Byte → Bool

/-- Free value (log 7): the private half of the device identity key (R390). -/
opaque identityKey : BitVec 768

/-- The SLH-DSA-SHA2-192s signature of a message under a private key (R390): uninterpreted (log 7). -/
opaque slhSign : BitVec 768 → List Byte → List Byte

/-- Free value (log 89): what training finds at a bring-up (R391), by a fresh number. -/
opaque training : Nat → Training

/-- Free value (log 22): is a B that the access stream meets predicted taken (R64)? By a fresh number. -/
opaque predict : Nat → Bool

/-- Free value (log 87): what the scan chains hold when Weward shifts them out (R381), by a fresh number. -/
opaque scanChain : Nat → List Byte

/-- Free value (log 8): the result of a heap read whose tables a program has stored into (R313), fresh for each use. -/
opaque heapUnspecified : Nat → Word

/-- Free value (log 19): the multiplicity DQLOOK writes for a sum outside SI32 (R280), fresh for each record. -/
opaque freeSum : Nat → BitVec 32

/-- Free value (log 14): what a device register to which the spec gives no contents reads as, fresh for each read. -/
opaque devRead : Nat → Word

/-- Free value (log 32): the bytes of an entry that a full hardware queue spills to its overflow area (R283), by a fresh number. -/
opaque spillEntry : Nat → BitVec 512

/-- Which control-block register a doubleword of the device-register range is (R283, R335, R380; the spec gives no addresses, log 64): its
kind and its unit. Kinds 0 and 1: base and length of a cluster's job-queue overflow area. 2 and 3: of a die's launch queues. 4 and 5: of its
ready queues. 6: a die's slice fence bits. -/
opaque ctlReg : Nat → Option (Nat × Nat)

/-- Free value (log 65): the radius to which Weward narrows a scope code so that no fenced unit is in an agent set (R30); by code and status word. -/
opaque fencedRadius : Nat → BitVec 64 → Nat

/-- Free value (log 66): the chunk that the dispatcher of another device deals to a team that came from it (R27, R35), by a fresh number. -/
opaque remoteDeal : Nat → BitVec 64

/-- Free value (log 21): a doubleword of a part of a die's dugout image in which the spec names what stands there and gives no layout (R378): a function of
just that content, and of the place in the part. -/
opaque packed : (α : Type) → α → Nat → BitVec 64

/-- Free value (log 73): whether Weward remaps a pool segment of a port that has failed at a halt, and to which port (R386); by a fresh number. -/
opaque remapPort : Nat → Nat → Option Nat

/-- Free value (log 20): another device of the pod holds an address space under the same asid (R36): device, asid. -/
opaque peerHolds : Nat → Nat → Bool

end Sys2Proof.Config
end

