-- ==== Sys2Proof/Machine/Flags.lean ====
section
/-! DEFINITION. Number formats, rounding and flags (R37 to R54, R123 to R128, R413), by exact arithmetic on integers scaled by a power of
two, narrowed once at the end. -/

namespace Sys2Proof.Machine

open Sys2Proof

/-! Flags, in the bit order of cr.fflags (R52). -/

/-- The seven flags. -/
abbrev Fl := BitVec 7
/-- Invalid. -/
def Fl.nv : Fl := 1
/-- Division by zero. -/
def Fl.dz : Fl := 2
/-- Overflow. -/
def Fl.of : Fl := 4
/-- Underflow. -/
def Fl.uf : Fl := 8
/-- Inexact. -/
def Fl.nx : Fl := 16
/-- Range. -/
def Fl.rg : Fl := 32
/-- Saturated. -/
def Fl.st : Fl := 64

/-- A flag if a condition holds. -/
def flIf (c : Bool) (f : Fl) : Fl := if c then f else 0

/-- A value with the flags that producing it raised. -/
structure FR where
  bits : Nat
  fl : Fl
deriving DecidableEq, Repr

/-! Rounding modes (R45, R52). -/

/-- The modes, and rounding to odd. -/
inductive Rm where
  | rne | rtz | rdn | rup | rmm | odd
deriving DecidableEq, Repr

/-- The mode of cr.fctl.rm; 5 to 7 cannot be written. -/
def rmOf (fctl : Word) : Rm :=
  match fctl.toNat % 8 with
  | 1 => .rtz
  | 2 => .rdn
  | 3 => .rup
  | 4 => .rmm
  | _ => .rne

/-- cr.fctl.sat. -/
def satOf (fctl : Word) : Bool := fctl.getLsbD 3

/-- cr.fctl.te. -/
def teOf (fctl : Word) : Fl := fctl.extractLsb' 4 7

/-! Exact values. -/

/-- A number, an infinity or a NaN; `fin neg m e` is (−1)^neg × m × 2^e, a signed zero when m = 0. -/
inductive Val where
  | nan (sig : Bool)
  | inf (neg : Bool)
  | fin (neg : Bool) (m : Nat) (e : Int)
deriving DecidableEq, Repr

/-- The sign of a value. -/
def Val.neg : Val → Bool
  | .nan _ => false
  | .inf n => n
  | .fin n _ _ => n

/-- A NaN. -/
def Val.isNan : Val → Bool
  | .nan _ => true
  | _ => false

/-- A signalling NaN. -/
def Val.isSig : Val → Bool
  | .nan s => s
  | _ => false

/-- A zero of either sign. -/
def Val.isZero : Val → Bool
  | .fin _ 0 _ => true
  | _ => false

/-- Change the sign of a number. -/
def Val.negate : Val → Val
  | .nan s => .nan s
  | .inf n => .inf (!n)
  | .fin n m e => .fin (!n) m e

/-- The integer m × 2^(e − q) of a finite value, signed, for q ≤ e. -/
def scaled (neg : Bool) (m : Nat) (e q : Int) : Int :=
  let k : Int := (m * 2 ^ (e - q).toNat : Nat)
  if neg then -k else k

/-- Compare two finite magnitudes with signs. -/
def cmpFin (n1 : Bool) (m1 : Nat) (e1 : Int) (n2 : Bool) (m2 : Nat) (e2 : Int) : Ordering :=
  let q := min e1 e2
  compare (scaled n1 m1 e1 q) (scaled n2 m2 e2 q)

/-- Compare two values that are no NaN; the zeros are equal. -/
def cmpVal : Val → Val → Ordering
  | .inf a, .inf b => if a = b then .eq else if a then .lt else .gt
  | .inf a, _ => if a then .lt else .gt
  | _, .inf b => if b then .gt else .lt
  | .fin a m e, .fin b n f => cmpFin a m e b n f
  | _, _ => .eq

/-! Formats (R37, R40, R42). -/

/-- The parameters of an IEEE-style format: exponent bits, fraction bits, bias, whether it has infinities. -/
structure FSpec where
  eb : Nat
  fb : Nat
  bias : Nat
  inf : Bool
deriving DecidableEq, Repr

/-- R40. -/
def fmtSpec : Fmt → Option FSpec
  | .f32 => some ⟨8, 23, 127, true⟩
  | .f16 => some ⟨5, 10, 15, true⟩
  | .bf16 => some ⟨8, 7, 127, true⟩
  | .e4m3 => some ⟨4, 3, 7, false⟩
  | .e5m2 => some ⟨5, 2, 15, true⟩
  | _ => none

/-- The width of an element in bits (R37). -/
def fmtBits : Fmt → Nat
  | .f32 | .si32 | .ui32 => 32
  | .f16 | .bf16 | .si16 | .ui16 => 16
  | .e4m3 | .e5m2 | .t8 | .si8 | .ui8 => 8
  | .t6 => 6
  | .si64 | .ui64 => 64

/-- Is the format an integer, and is it signed? -/
def fmtInt : Fmt → Option Bool
  | .si8 | .si16 | .si32 | .si64 => some true
  | .ui8 | .ui16 | .ui32 | .ui64 => some false
  | _ => none

/-- The default NaN (R40, R42). -/
def fmtNan : Fmt → Nat
  | .f32 => 0x7FC00000
  | .f16 => 0x7E00
  | .bf16 => 0x7FC0
  | .e4m3 => 0x7F
  | .e5m2 => 0x7E
  | .t8 => 0x80
  | .t6 => 0x20
  | _ => 0

/-- Length of the run of bits equal to `b` from bit `n − 1` down. -/
def runLen (b : Bool) (x : Nat) : Nat → Nat
  | 0 => 0
  | n + 1 => if x.testBit n = b then runLen b x n + 1 else 0

/-- The magnitude of a tapered field of `w` bits, as m × 2^e (R42). -/
def taperMag (w mag : Nat) : Nat × Int :=
  let ones := mag.testBit (w - 1)
  let r := runLen ones mag w
  let k : Int := if ones then (r : Int) - 1 else -(r : Int)
  let n := w - r - 1
  let rest := mag % 2 ^ n
  if n = 0 then (1, 2 * k)
  else
    let e : Int := if rest.testBit (n - 1) then 1 else 0
    let f := rest % 2 ^ (n - 1)
    (2 ^ (n - 1) + f, 2 * k + e - ((n : Int) - 1))

/-- Decode a tapered element of `w` magnitude bits. -/
def decodeTaper (w x : Nat) : Val :=
  let mag := x % 2 ^ w
  let neg := x.testBit w
  if mag = 0 then (if neg then .nan false else .fin false 0 0)
  else let t := taperMag w mag; .fin neg t.1 t.2

/-- Decode an IEEE-style element; E4M3 has only the NaNs 0x7F and 0xFF (R40). -/
def decodeIeee (sp : FSpec) (x : Nat) : Val :=
  let f := x % 2 ^ sp.fb
  let ex := x / 2 ^ sp.fb % 2 ^ sp.eb
  let neg := x.testBit (sp.fb + sp.eb)
  if ex = 2 ^ sp.eb - 1 ∧ sp.inf then (if f = 0 then .inf neg else .nan (!f.testBit (sp.fb - 1)))
  else if ex = 2 ^ sp.eb - 1 ∧ f = 2 ^ sp.fb - 1 then .nan false
  else if ex = 0 then .fin neg f (1 - (sp.bias : Int) - sp.fb)
  else .fin neg (2 ^ sp.fb + f) ((ex : Int) - sp.bias - sp.fb)

/-- Decode an element of any format, exactly; no flush. -/
def decodeRaw (fmt : Fmt) (x : Nat) : Val :=
  match (fmtSpec fmt) with
  | some sp => decodeIeee sp x
  | none =>
    match (fmtInt fmt) with
    | some true =>
      let v := x % 2 ^ (fmtBits fmt)
      if v.testBit ((fmtBits fmt) - 1) then .fin true (2 ^ (fmtBits fmt) - v) 0 else .fin false v 0
    | some false => .fin false (x % 2 ^ (fmtBits fmt)) 0
    | none => decodeTaper ((fmtBits fmt) - 1) x

/-- A BF16 subnormal: exponent field 0 and a fraction (R41). -/
def bfSubnormal (fmt : Fmt) (x : Nat) : Bool := fmt == .bf16 && (x / 128 % 256 == 0 && x % 128 != 0)

/-- Decode, a BF16 subnormal being read as zero of its sign with uf (R41). -/
def decodeFl (fmt : Fmt) (x : Nat) : Val × Fl :=
  if bfSubnormal fmt x then (.fin (x.testBit 15) 0 0, Fl.uf) else (decodeRaw fmt x, 0)

/-! Rounding (R45). -/

/-- Round m × 2^e to a multiple of 2^q: the multiple, and whether it changed. -/
def roundAt (rm : Rm) (neg : Bool) (m : Nat) (e q : Int) : Nat × Bool :=
  if q ≤ e then (m * 2 ^ (e - q).toNat, false)
  else
    let sh := (q - e).toNat
    let n := m / 2 ^ sh
    let r := m % 2 ^ sh
    if r = 0 then (n, false)
    else
      let up := match rm with
        | .rne => decide (2 ^ sh < 2 * r) || (decide (2 * r = 2 ^ sh) && n % 2 == 1)
        | .rtz => false
        | .rdn => neg
        | .rup => !neg
        | .rmm => decide (2 ^ sh ≤ 2 * r)
        | .odd => n % 2 == 0
      (if up then n + 1 else n, true)

/-- The exponent of the leading bit of m × 2^e, for m ≠ 0. -/
def topExp (m : Nat) (e : Int) : Int := (m.log2 : Int) + e

/-- Is n × 2^q above a × 2^c? -/
def gtScaled (n : Nat) (q : Int) (a : Nat) (c : Int) : Bool := cmpFin false n q false a c == .gt

/-- The largest finite magnitude of an IEEE-style format (R40). -/
def FSpec.max (sp : FSpec) : Nat × Int :=
  if sp.inf then (2 ^ (sp.fb + 1) - 1, (2 ^ sp.eb - 2 : Int) - sp.bias - sp.fb)
  else (2 ^ (sp.fb + 1) - 2, (2 ^ sp.eb - 1 : Int) - sp.bias - sp.fb)

/-- The encoding of the largest finite magnitude. -/
def FSpec.maxBits (sp : FSpec) : Nat :=
  if sp.inf then (2 ^ sp.eb - 1) * 2 ^ sp.fb - 1 else 2 ^ (sp.eb + sp.fb) - 2

/-- Pack n × 2^q, which is representable, into its encoding without sign. -/
def FSpec.pack (sp : FSpec) (n : Nat) (q : Int) : Nat :=
  if n = 0 then 0
  else
    let t := topExp n q
    let emin : Int := 1 - sp.bias
    if t < emin then n * 2 ^ (q - (emin - sp.fb)).toNat
    else
      let ex := (t + sp.bias).toNat
      let fr := if q ≤ t - sp.fb then n / 2 ^ (t - sp.fb - q).toNat else n * 2 ^ (q - (t - sp.fb)).toNat
      ex * 2 ^ sp.fb + (fr - 2 ^ sp.fb)

/-- A result with its sign bit. -/
def FSpec.signed (sp : FSpec) (neg : Bool) (x : Nat) : Nat := if neg then x + 2 ^ (sp.eb + sp.fb) else x

/-- The overflow result (R51, R123): with saturation ±max and st; else infinity or max by the mode, or a signed NaN in E4M3. -/
def FSpec.overflow (sp : FSpec) (fmt : Fmt) (rm : Rm) (sat neg : Bool) : FR :=
  if sat then ⟨sp.signed neg sp.maxBits, Fl.st ||| Fl.nx⟩
  else if sp.inf then
    let toInf := match rm with
      | .rtz => false
      | .rdn => neg
      | .rup => !neg
      | _ => true
    ⟨sp.signed neg (if toInf then sp.maxBits + 1 else sp.maxBits), Fl.of ||| Fl.nx⟩
  else ⟨sp.signed neg (fmtNan fmt), Fl.of ||| Fl.nx⟩

/-- Round and encode a finite non-zero value in an IEEE-style format, with the overflow and tininess of R413 and the flush of R41. -/
def FSpec.encode (sp : FSpec) (fmt : Fmt) (rm : Rm) (sat neg : Bool) (m : Nat) (e : Int) : FR :=
  let t := topExp m e
  let emin : Int := 1 - sp.bias
  let free := roundAt rm neg m e (t - sp.fb)
  let tiny := !gtScaled free.1 (t - sp.fb) 1 emin && !(cmpFin false free.1 (t - sp.fb) false 1 emin == .eq)
  if fmt = .bf16 ∧ tiny then ⟨sp.signed neg 0, Fl.uf ||| Fl.nx⟩
  else
    let q := if t - sp.fb < emin - sp.fb then emin - sp.fb else t - sp.fb
    let r := roundAt rm neg m e q
    if gtScaled r.1 q sp.max.1 sp.max.2 then sp.overflow fmt rm sat neg
    else ⟨sp.signed neg (sp.pack r.1 q), flIf r.2 Fl.nx ||| flIf (tiny && r.2) Fl.uf⟩

/-- The greatest magnitude code of a tapered field whose value is at most m × 2^e, searching down from `c`. -/
def taperFloor (w m : Nat) (e : Int) : Nat → Nat
  | 0 => 0
  | c + 1 => let t := taperMag w (c + 1); if gtScaled t.1 t.2 m e then taperFloor w m e c else c + 1

/-- Round and encode a finite non-zero value in a tapered format (R42, R45, R413). -/
def encodeTaper (fmt : Fmt) (rm : Rm) (sat neg : Bool) (m : Nat) (e : Int) : FR :=
  let w := (fmtBits fmt) - 1
  let top := 2 ^ w - 1
  let c := taperFloor w m e top
  let lo : Nat × Int := if c = 0 then (0, 0) else taperMag w c
  let exact := cmpFin false lo.1 lo.2 false m e == .eq
  let hi : Nat × Int := if c = top then (4 * (taperMag w top).1, (taperMag w top).2) else taperMag w (c + 1)
  -- compare 2v with lo + hi
  let q := min (min lo.2 hi.2) e
  let mid := compare (2 * scaled false m e q) (scaled false lo.1 lo.2 q + scaled false hi.1 hi.2 q)
  let hiEven := if c = top then true else (c + 1) % 2 == 0
  let up := if exact then false else match rm with
    | .rne => mid == .gt || (mid == .eq && hiEven)
    | .rtz => false
    | .rdn => neg
    | .rup => !neg
    | .rmm => mid == .gt || mid == .eq
    | .odd => !hiEven
  let beyond := decide (c = top) && !gtScaled hi.1 hi.2 m e
  if decide (c = top) && (up || beyond) then
    (if sat then ⟨if neg then top + 2 ^ w else top, Fl.st ||| Fl.nx⟩ else ⟨(fmtNan fmt), Fl.of ||| Fl.nx⟩)
  else
    let r := if up then c + 1 else c
    let tiny := decide (c = 0)
    ⟨if neg ∧ r ≠ 0 then r + 2 ^ w else r, flIf (!exact) Fl.nx ||| flIf (tiny && !exact) Fl.uf⟩

/-- Bounds of an integer format. -/
def intBounds (fmt : Fmt) : Int × Int :=
  match (fmtInt fmt) with
  | some true => (-(2 ^ ((fmtBits fmt) - 1) : Nat), (2 ^ ((fmtBits fmt) - 1) - 1 : Nat))
  | _ => (0, (2 ^ (fmtBits fmt) - 1 : Nat))

/-- An integer as the bits of a width. -/
def intBits (n : Nat) (v : Int) : Nat := (v % (2 ^ n : Nat)).toNat

/-- Convert a finite value to an integer format (R51); `int` says that the source is an integer. -/
def encodeInt (fmt : Fmt) (rm : Rm) (sat int neg : Bool) (m : Nat) (e : Int) : FR :=
  let r := roundAt rm neg m e 0
  let v : Int := if neg then -(r.1 : Int) else r.1
  let b := intBounds fmt
  if b.1 ≤ v ∧ v ≤ b.2 then ⟨intBits (fmtBits fmt) v, flIf r.2 Fl.nx⟩
  else if int ∧ ¬ sat then ⟨intBits (fmtBits fmt) v, 0⟩
  else ⟨intBits (fmtBits fmt) (if v < b.1 then b.1 else b.2), if int then Fl.st else Fl.nv⟩

/-- Encode a value in a format: the conversion results of R50, R51 and R413. -/
def encodeVal (fmt : Fmt) (rm : Rm) (sat int : Bool) (v : Val) : FR :=
  match (fmtInt fmt) with
  | some _ =>
    match v with
    | .nan _ => ⟨0, Fl.nv⟩
    | .inf neg => ⟨intBits (fmtBits fmt) (if neg then (intBounds fmt).1 else (intBounds fmt).2), Fl.nv⟩
    | .fin neg m e => encodeInt fmt rm sat int neg m e
  | none =>
    match v with
    | .nan sig => ⟨(fmtNan fmt), flIf sig Fl.nv⟩
    | .inf neg =>
      match (fmtSpec fmt) with
      | some sp =>
        if sp.inf then ⟨sp.signed neg (sp.maxBits + 1), 0⟩
        else if sat then ⟨sp.signed neg sp.maxBits, Fl.st⟩ else ⟨sp.signed neg (fmtNan fmt), Fl.nv⟩
      | none =>
        let w := (fmtBits fmt) - 1
        if sat then ⟨if neg then 2 ^ w + (2 ^ w - 1) else 2 ^ w - 1, Fl.st⟩ else ⟨(fmtNan fmt), Fl.nv⟩
    | .fin neg m e =>
      match (fmtSpec fmt) with
      | some sp => if m = 0 then ⟨sp.signed neg 0, 0⟩ else sp.encode fmt rm sat neg m e
      | none => if m = 0 then ⟨0, 0⟩ else encodeTaper fmt rm sat neg m e

/-- Convert an element between formats (R50, R51). -/
def convert (dst src : Fmt) (fctl : Word) (x : Nat) : FR :=
  let d := decodeFl src x
  let r := encodeVal dst (rmOf fctl) (satOf fctl) (fmtInt src).isSome d.1
  ⟨r.bits, r.fl ||| d.2⟩

/-! Arithmetic (R123): exact, then rounded once; cr.fctl.sat is ignored. -/

/-- Exact sum of two finite values; an exactly zero sum takes the sign IEEE 754 gives it. -/
def addFin (rm : Rm) (n1 : Bool) (m1 : Nat) (e1 : Int) (n2 : Bool) (m2 : Nat) (e2 : Int) : Val :=
  let q := min e1 e2
  let s := scaled n1 m1 e1 q + scaled n2 m2 e2 q
  if s = 0 then
    (if m1 = 0 ∧ m2 = 0 ∧ n1 = n2 then .fin n1 0 0 else .fin (rm == .rdn) 0 0)
  else .fin (decide (s < 0)) s.natAbs q

/-- a + b. -/
def addVal (rm : Rm) (a b : Val) : Val × Fl :=
  let sig := flIf (a.isSig || b.isSig) Fl.nv
  match a, b with
  | .nan _, _ => (.nan false, sig)
  | _, .nan _ => (.nan false, sig)
  | .inf x, .inf y => if x = y then (.inf x, 0) else (.nan false, Fl.nv)
  | .inf x, _ => (.inf x, 0)
  | _, .inf y => (.inf y, 0)
  | .fin n1 m1 e1, .fin n2 m2 e2 => (addFin rm n1 m1 e1 n2 m2 e2, 0)

/-- a × b. -/
def mulVal (a b : Val) : Val × Fl :=
  let sig := flIf (a.isSig || b.isSig) Fl.nv
  match a, b with
  | .nan _, _ => (.nan false, sig)
  | _, .nan _ => (.nan false, sig)
  | .inf x, y => if y.isZero then (.nan false, Fl.nv) else (.inf (x != y.neg), 0)
  | x, .inf y => if x.isZero then (.nan false, Fl.nv) else (.inf (x.neg != y), 0)
  | .fin n1 m1 e1, .fin n2 m2 e2 => (.fin (n1 != n2) (m1 * m2) (e1 + e2), 0)

/-- A quotient m1 ÷ m2 to 80 bits and a sticky bit, so that every rounding of a narrower format is that of the exact quotient. -/
def divFin (neg : Bool) (m1 : Nat) (e1 : Int) (m2 : Nat) (e2 : Int) : Val :=
  let k := 80 + m2.log2
  let n := m1 * 2 ^ k
  .fin neg (2 * (n / m2) + (if n % m2 = 0 then 0 else 1)) (e1 - e2 - k - 1)

/-- a ÷ b. -/
def divVal (a b : Val) : Val × Fl :=
  let sig := flIf (a.isSig || b.isSig) Fl.nv
  match a, b with
  | .nan _, _ => (.nan false, sig)
  | _, .nan _ => (.nan false, sig)
  | .inf _, .inf _ => (.nan false, Fl.nv)
  | .inf x, y => (.inf (x != y.neg), 0)
  | x, .inf y => (.fin (x.neg != y) 0 0, 0)
  | .fin n1 m1 e1, .fin n2 m2 e2 =>
    if m2 = 0 then (if m1 = 0 then (.nan false, Fl.nv) else (.inf (n1 != n2), Fl.dz))
    else (divFin (n1 != n2) m1 e1 m2 e2, 0)

/-- Bits of an integer square root, most significant first: the root of n, given that it is below 2^k. -/
def sqrtBits (n : Nat) : Nat → Nat → Nat
  | 0, r => r
  | k + 1, r => if (r + 2 ^ k) * (r + 2 ^ k) ≤ n then sqrtBits n k (r + 2 ^ k) else sqrtBits n k r

/-- The integer square root. -/
def isqrt (n : Nat) : Nat := sqrtBits n (n.log2 / 2 + 1) 0

/-- The square root of m × 2^e to at least 80 bits and a sticky bit. -/
def sqrtFin (m : Nat) (e : Int) : Val :=
  let odd := e % 2 != 0
  let m' := if odd then 2 * m else m
  let e' := if odd then e - 1 else e
  let n := m' * 2 ^ 200
  let r := isqrt n
  .fin false (2 * r + (if r * r = n then 0 else 1)) (e' / 2 - 100 - 1)

/-- √a. -/
def sqrtVal (a : Val) : Val × Fl :=
  match a with
  | .nan s => (.nan false, flIf s Fl.nv)
  | .inf n => if n then (.nan false, Fl.nv) else (.inf false, 0)
  | .fin n m e => if m = 0 then (.fin n 0 0, 0) else if n then (.nan false, Fl.nv) else (sqrtFin m e, 0)

/-- Round an exact result in the format of an instruction; a NaN's flags were set before. -/
def finishArith (fmt : Fmt) (rm : Rm) (v : Val) (fl : Fl) : FR :=
  match v with
  | .nan _ => ⟨(fmtNan fmt), fl⟩
  | _ => let r := encodeVal fmt rm false false v; ⟨r.bits, r.fl ||| fl⟩

/-- A two-operand operation on encodings, with the flush of R41 on inputs. -/
def arith2 (op : Val → Val → Val × Fl) (fmt : Fmt) (rm : Rm) (x y : Nat) : FR :=
  let a := decodeFl fmt x
  let b := decodeFl fmt y
  let r := op a.1 b.1
  finishArith fmt rm r.1 (r.2 ||| a.2 ||| b.2)

/-- FADD (R123). -/
def fAdd (fmt : Fmt) (rm : Rm) (x y : Nat) : FR := arith2 (addVal rm) fmt rm x y
/-- FSUB (R123). -/
def fSub (fmt : Fmt) (rm : Rm) (x y : Nat) : FR := arith2 (fun a b => addVal rm a b.negate) fmt rm x y
/-- FMUL (R123). -/
def fMul (fmt : Fmt) (rm : Rm) (x y : Nat) : FR := arith2 mulVal fmt rm x y
/-- FDIV (R123). -/
def fDiv (fmt : Fmt) (rm : Rm) (x y : Nat) : FR := arith2 divVal fmt rm x y

/-- FSQRT (R123). -/
def fSqrt (fmt : Fmt) (rm : Rm) (x : Nat) : FR :=
  let a := decodeFl fmt x
  let r := sqrtVal a.1
  finishArith fmt rm r.1 (r.2 ||| a.2)

/-- FFMA: d + a × b, rounded once; 0 × ∞ sets nv even when d is a quiet NaN (R123). -/
def fFma (fmt : Fmt) (rm : Rm) (d x y : Nat) : FR :=
  let c := decodeFl fmt d
  let a := decodeFl fmt x
  let b := decodeFl fmt y
  let p := mulVal a.1 b.1
  let r := addVal rm c.1 p.1
  finishArith fmt rm r.1 (r.2 ||| p.2 ||| a.2 ||| b.2 ||| c.2)

/-- Encode a value that the format holds. -/
def exactBits (fmt : Fmt) (v : Val) : Nat := (encodeVal fmt .rne false false v).bits

/-- FMIN and FMAX: minimumNumber and maximumNumber, −0 below +0 (R124). -/
def fMinMax (isMax : Bool) (fmt : Fmt) (x y : Nat) : FR :=
  let a := decodeFl fmt x
  let b := decodeFl fmt y
  let fl := a.2 ||| b.2 ||| flIf (a.1.isSig || b.1.isSig) Fl.nv
  if a.1.isNan ∧ b.1.isNan then ⟨(fmtNan fmt), fl⟩
  else if a.1.isNan then ⟨exactBits fmt b.1, fl⟩
  else if b.1.isNan then ⟨exactBits fmt a.1, fl⟩
  else
    let aLess := match cmpVal a.1 b.1 with
      | .lt => true
      | .gt => false
      | .eq => a.1.neg && !b.1.neg
    ⟨exactBits fmt (if aLess != isMax then a.1 else b.1), fl⟩

/-- FABS and FNEG (R124). -/
def fSign (isNeg : Bool) (fmt : Fmt) (x : Nat) : FR :=
  let a := decodeFl fmt x
  match a.1 with
  | .nan s => ⟨(fmtNan fmt), a.2 ||| flIf s Fl.nv⟩
  | .inf n => ⟨exactBits fmt (.inf (if isNeg then !n else false)), a.2⟩
  | .fin n m e => ⟨exactBits fmt (.fin (if isNeg then !n else false) m e), a.2⟩

/-- FCLASS (R126): of the encoding as it stands. -/
def fClass (fmt : Fmt) (x : Nat) : Nat :=
  match (fmtSpec fmt) with
  | none => 0
  | some sp =>
    let sub := x / 2 ^ sp.fb % 2 ^ sp.eb == 0
    match decodeRaw fmt x with
    | .nan s => if s then 2 ^ 8 else 2 ^ 9
    | .inf n => if n then 1 else 2 ^ 7
    | .fin n m _ =>
      if m = 0 then (if n then 2 ^ 3 else 2 ^ 4)
      else if sub then (if n then 2 ^ 2 else 2 ^ 5)
      else (if n then 2 else 2 ^ 6)

/-- FCMP and VCMP on floats (R125). -/
def fCompare (cc : FCond) (fmt : Fmt) (x y : Nat) : Bool × Fl :=
  let a := decodeFl fmt x
  let b := decodeFl fmt y
  let un := a.1.isNan || b.1.isNan
  let sig := a.1.isSig || b.1.isSig
  let o := cmpVal a.1 b.1
  let quiet := flIf sig Fl.nv ||| a.2 ||| b.2
  let loud := flIf un Fl.nv ||| a.2 ||| b.2
  match cc with
  | .eq => (!un && o == .eq, quiet)
  | .ne => (un || o != .eq, quiet)
  | .lt => (!un && o == .lt, loud)
  | .le => (!un && o != .gt, loud)
  | .gt => (!un && o == .gt, loud)
  | .ge => (!un && o != .lt, loud)
  | .un => (un, quiet)
  | .ord => (!un, quiet)

/-! Special functions (R54, R128): the exact value is found to far more bits than the format has; the result is a free choice among the
format's values within the stated bound. -/

/-- Fraction bits of the fixed point below. -/
def spBits : Nat := 320

/-- Σ of a power series by terms: t ← t × y × num ÷ (den × 2^spBits), `n` terms, `step k` giving num and den of term k. -/
def series (y : Int) (step : Nat → Int × Nat) : Nat → Nat → Int → Int → Int
  | 0, _, _, s => s
  | n + 1, k, t, s =>
    let f := step k
    let t' := t * y * f.1 / ((2 ^ spBits : Nat) * f.2 : Int)
    series y step n (k + 1) t' (s + t')

/-- 1 in the fixed point. -/
def one : Int := (2 ^ spBits : Nat)

/-- ln 2 = Σ 1 ÷ (k 2^k), in the fixed point. -/
def ln2Fix : Nat → Nat → Int → Int
  | 0, _, s => s
  | n + 1, k, s => ln2Fix n (k + 1) (s + one / ((k * 2 ^ k : Nat) : Int))

/-- arctan(1 ÷ x) in the fixed point, by its series. -/
def atanInv (x : Nat) : Nat → Nat → Int → Int → Int
  | 0, _, _, s => s
  | n + 1, k, t, s => atanInv x n (k + 1) (t / ((x * x : Nat) : Int)) (if k % 2 = 0 then s + t / ((2 * k + 1 : Nat) : Int) else s - t / ((2 * k + 1 : Nat) : Int))

/-- π in the fixed point, by Machin's formula. -/
def piFix : Int := 4 * (4 * atanInv 5 150 0 (one / 5) 0 - atanInv 239 50 0 (one / 239) 0)

/-- sin y for |y| ≤ π ÷ 2 in the fixed point. -/
def sinFix (y : Int) : Int :=
  let y2 := y * y / one
  series y2 (fun k => (-1, (2 * k) * (2 * k + 1))) 60 1 y y

/-- cos y. -/
def cosFix (y : Int) : Int :=
  let y2 := y * y / one
  series y2 (fun k => (-1, (2 * k - 1) * (2 * k))) 60 1 one one

/-- A value in the fixed point, truncated toward −∞. -/
def toFix (neg : Bool) (m : Nat) (e : Int) : Int :=
  let x : Int := if 0 ≤ e + spBits then (m * 2 ^ (e + spBits).toNat : Nat) else (m / 2 ^ (-(e + spBits)).toNat : Nat)
  if neg then -x else x

/-- sin or cos of a finite value: reduce by π ÷ 2, then the series of the quadrant. -/
def trigFix (isCos : Bool) (x : Int) : Int :=
  let h := piFix / 2
  let n := (x + h / 2) / h
  let y := x - n * h
  match ((n + (if isCos then 1 else 0)) % 4).toNat with
  | 0 => sinFix y
  | 1 => cosFix y
  | 2 => -sinFix y
  | _ => -cosFix y

/-- 2^f for 0 ≤ f < 1 in the fixed point. -/
def exp2Fix (f : Int) : Int :=
  let y := f * ln2Fix 330 1 0 / one
  series y (fun k => (1, k)) 90 1 one one

/-- log2 of z in [1, 2) in the fixed point: 2 artanh((z − 1) ÷ (z + 1)) ÷ ln 2. -/
def log2Fix (z : Int) : Int :=
  let u := (z - one) * one / (z + one)
  let u2 := u * u / one
  let s := (List.range 110).foldl (fun (acc : Int × Int) k => (acc.1 + acc.2 / ((2 * k + 1 : Nat) : Int), acc.2 * u2 / one)) (0, u)
  2 * s.1 * one / ln2Fix 330 1 0

/-- The magnitude of a code without sign; the code of infinity stands for the power of two above the largest finite value. -/
def FSpec.magnitude (sp : FSpec) (c : Nat) : Nat × Int :=
  let ex := c / 2 ^ sp.fb
  let fr := c % 2 ^ sp.fb
  if ex = 0 then (fr, 1 - sp.bias - sp.fb) else (2 ^ sp.fb + fr, (ex : Int) - sp.bias - sp.fb)

/-- |a × 2^e − b × 2^f| ≤ k × 2^g. -/
def within (a : Nat) (e : Int) (b : Nat) (f : Int) (k : Nat) (g : Int) : Bool :=
  let q := min (min e f) g
  decide ((scaled false a e q - scaled false b f q).natAbs ≤ (scaled false k g q).natAbs)

/-- The codes whose values lie within k ulp of an exact magnitude, the ulp being that of its own binade (R54), in rising order. BF16 has no
subnormals (R41): a code below its least value stands for a value that becomes zero. -/
def FSpec.near (sp : FSpec) (m : Nat) (e : Int) (k : Nat) : List Nat :=
  let t := topExp m e
  let emin : Int := 1 - sp.bias
  let ulp := (if t < emin then emin else t) - sp.fb
  let top := (2 ^ sp.eb - 1) * 2 ^ sp.fb
  let lo := if (2 ^ sp.eb - 1 : Int) - sp.bias ≤ t then top else sp.pack (roundAt .rtz false m e ulp).1 ulp
  ((List.range 6).filterMap fun j => if lo + j < 3 ∨ top < lo + j - 3 then none else some (lo + j - 3)).filter fun c =>
    within (sp.magnitude c).1 (sp.magnitude c).2 m e k ulp

/-- A result of an exact magnitude that is no value of the format: the free value picks one within k ulp. Infinity, as the value above the largest
finite one or for want of any nearer, has of beside nx. BF16 has no subnormals: where no value of it is near, the result is zero with uf and nx
(R41, R128). A reciprocal below the least normal is a subnormal, and in BF16 zero (R128). DESIGN CHOICE (log 72): these are FRCP's flags where its
reciprocal overflows, and an inexact FP32 or FP16 subnormal, or a zero picked in these formats for a non-zero exact value, has nx alone. -/
def pickNear (fn : Nat) (fmt : Fmt) (x k : Nat) (neg : Bool) (m : Nat) (e : Int) : FR :=
  match fmtSpec fmt with
  | none => ⟨0, 0⟩
  | some sp =>
    let top := (2 ^ sp.eb - 1) * 2 ^ sp.fb
    let sub := decide (fn = 4 ∧ topExp m e < 1 - sp.bias)
    let cs := (sp.near m e k).filter fun c => if fmt = .bf16 then decide (2 ^ sp.fb ≤ c) && !sub else !sub || decide (c < 2 ^ sp.fb)
    let c := cs.getD (Config.sfnPick fn (fmtBits fmt + (if fmt = .bf16 then 1 else 0)) x % cs.length) top
    let low := fmt = .bf16 ∧ cs.isEmpty ∧ topExp m e < 1 - sp.bias
    if low then ⟨sp.signed neg 0, Fl.uf ||| Fl.nx⟩ else ⟨sp.signed neg c, if c = top then Fl.of ||| Fl.nx else Fl.nx⟩

/-- The result of a special function whose exact value is no value of the format, within k ulp of it. -/
def sfnResult (fn : Nat) (fmt : Fmt) (x k : Nat) (v : Val) : FR :=
  match v with
  | .fin neg m e => if m = 0 then ⟨exactBits fmt v, 0⟩ else pickNear fn fmt x k neg m e
  | _ => ⟨exactBits fmt v, 0⟩

/-- A fixed-point value as an exact value, with a half unit added so that it is no value of a format. -/
def ofFix (y : Int) : Val := .fin (decide (y < 0)) (2 * y.natAbs + 1) (-(spBits : Int) - 1)

/-- FSIN and FCOS. -/
def fTrig (isCos : Bool) (fmt : Fmt) (x : Nat) : FR :=
  let a := decodeFl fmt x
  let fn := if isCos then 1 else 0
  let r : FR := match a.1 with
    | .nan s => ⟨(fmtNan fmt), flIf s Fl.nv⟩
    | .inf _ => ⟨(fmtNan fmt), Fl.nv⟩
    | .fin n m e =>
      if m = 0 then (if isCos then ⟨exactBits fmt (.fin false 1 0), 0⟩ else ⟨exactBits fmt (.fin n 0 0), 0⟩)
      else if 24 ≤ topExp m e then ⟨(fmtNan fmt), Fl.rg⟩
      else if isCos = false ∧ topExp m e < -60 then
        -- sin x = x − x³ ÷ 6 + …: strictly between x and its neighbour toward zero
        sfnResult fn fmt x 1 (.fin n (2 ^ 200 * m - 1) (e - 200))
      else sfnResult fn fmt x 1 (ofFix (trigFix isCos (toFix n m e)))
  ⟨r.bits, r.fl ||| a.2⟩

/-- Half the smallest non-zero magnitude of a float format, as a power of two (R128). -/
def halfLeast (fmt : Fmt) : Int :=
  match fmt with
  | .f16 => -25
  | .bf16 => -127
  | _ => -150

/-- FEXP2. DESIGN CHOICE (log 72): x = −150 in FP32, whose 2^−150 is no value of the format and which R54 does not place below its bound, gives +0
with uf and nx, as the rounding of a tie does; so does the like tie of FP16, x = −25. -/
def fExp2 (fmt : Fmt) (x : Nat) : FR :=
  let a := decodeFl fmt x
  let big : Int := if fmt = .f16 then 16 else 128
  let r : FR := match a.1 with
    | .nan s => ⟨(fmtNan fmt), flIf s Fl.nv⟩
    | .inf n => if n then ⟨0, 0⟩ else ⟨exactBits fmt (.inf false), 0⟩
    | .fin n m e =>
      let v := Val.fin n m e
      if cmpVal v (.fin false big.toNat 0) != .lt then ⟨exactBits fmt (.inf false), Fl.of ||| Fl.nx⟩
      else if cmpVal v (.fin true (halfLeast fmt).natAbs 0) == .lt then ⟨0, Fl.uf ||| Fl.nx⟩
      else
        let z := toFix n m e
        let i := z / one
        let f := z - i * one
        if m = 0 ∨ (f = 0 ∧ (decide (0 ≤ e) || (m % 2 ^ (-e).toNat == 0))) then
          let w := encodeVal fmt .rne false false (.fin false 1 i)
          if fmt = .bf16 ∧ i < -126 then ⟨0, Fl.uf ||| Fl.nx⟩ else w
        else
          match ofFix (exp2Fix f) with
          | .fin _ m' e' => sfnResult 2 fmt x 2 (.fin false m' (e' + i))
          | w => ⟨exactBits fmt w, 0⟩
  ⟨r.bits, r.fl ||| a.2⟩

/-- FLOG2. -/
def fLog2 (fmt : Fmt) (x : Nat) : FR :=
  let a := decodeFl fmt x
  let r : FR := match a.1 with
    | .nan s => ⟨(fmtNan fmt), flIf s Fl.nv⟩
    | .inf n => if n then ⟨(fmtNan fmt), Fl.nv⟩ else ⟨exactBits fmt (.inf false), 0⟩
    | .fin n m e =>
      if m = 0 then ⟨exactBits fmt (.inf true), Fl.dz⟩
      else if n then ⟨(fmtNan fmt), Fl.nv⟩
      else
        let i := topExp m e
        if m = 2 ^ m.log2 then encodeVal fmt .rne false false (.fin (decide (i < 0)) i.natAbs 0)
        else sfnResult 3 fmt x 2 (ofFix (i * one + log2Fix (toFix false m (-(m.log2 : Int)))))
  ⟨r.bits, r.fl ||| a.2⟩

/-- FRCP. DESIGN CHOICE (log 72): the reciprocal of a subnormal power of two that is above the largest finite value gives the infinity of its sign
with of and nx, as a rounded result does. -/
def fRcp (fmt : Fmt) (x : Nat) : FR :=
  let a := decodeFl fmt x
  let r : FR := match a.1 with
    | .nan s => ⟨(fmtNan fmt), flIf s Fl.nv⟩
    | .inf n => ⟨exactBits fmt (.fin n 0 0), 0⟩
    | .fin n m e =>
      if m = 0 then ⟨exactBits fmt (.inf n), Fl.dz⟩
      else if m = 2 ^ m.log2 then
        -- a power of two: its reciprocal is one too, and is exact where the format holds it
        encodeVal fmt .rne false false (.fin n 1 (-topExp m e))
      else
        match divFin n 1 0 m e with
        | .fin n' m' e' => sfnResult 4 fmt x 1 (.fin n' m' e')
        | w => ⟨exactBits fmt w, 0⟩
  ⟨r.bits, r.fl ||| a.2⟩

/-- FRSQ. -/
def fRsq (fmt : Fmt) (x : Nat) : FR :=
  let a := decodeFl fmt x
  let r : FR := match a.1 with
    | .nan s => ⟨(fmtNan fmt), flIf s Fl.nv⟩
    | .inf n => if n then ⟨(fmtNan fmt), Fl.nv⟩ else ⟨exactBits fmt (.fin false 0 0), 0⟩
    | .fin n m e =>
      if m = 0 then ⟨exactBits fmt (.inf n), Fl.dz⟩
      else if n then ⟨(fmtNan fmt), Fl.nv⟩
      else if m = 2 ^ m.log2 ∧ topExp m e % 2 = 0 then encodeVal fmt .rne false false (.fin false 1 (-topExp m e / 2))
      else
        match divVal (.fin false 1 0) (sqrtFin m e) with
        | (.fin _ m' e', _) => sfnResult 5 fmt x 1 (.fin false (2 * m' + 1) (e' - 1))
        | (w, _) => ⟨exactBits fmt w, 0⟩
  ⟨r.bits, r.fl ||| a.2⟩

/-! The matrix k-step (R46 to R48). -/

/-- Decode an operand element under its block-scale pair (R46): S is the scale, Z the zero point as a signed number. That the zero which S = 0 gives
every element is +0, whatever the element's sign, is a DESIGN CHOICE (log 91). -/
def decodeScaled (fmt : Fmt) (pair : Nat) (x : Nat) : Val × Fl :=
  let sc := pair % 256
  let zb := pair / 256 % 256
  let z : Int := if 128 ≤ zb then (zb : Int) - 256 else zb
  let isInt := fmt == .si8 || fmt == .ui8
  if z ≠ 0 ∧ ¬ isInt then (.nan false, Fl.nv)
  else if sc = 255 then (.nan false, 0)
  else if sc = 0 then (.fin false 0 0, 0)
  else
    let d := decodeFl fmt x
    match d.1 with
    | .fin n m e =>
      if isInt then
        let q : Int := (if n then -(m : Int) else m) - z
        (.fin (decide (q < 0)) q.natAbs ((sc : Int) - 127), d.2)
      else (.fin n m (e + sc - 127), d.2)
    | v => (v, d.2)

/-- The exact sum of products, with R48's special cases: NaN, ∞ × 0 and opposed infinities give NaN and nv; an exactly zero sum is +0
unless every product is −0. -/
def sumProducts (ps : List (Val × Fl)) : Val × Fl :=
  let fl := ps.foldl (fun f p => f ||| p.2) 0
  let vs := ps.map (·.1)
  let pinf := vs.any (fun v => v == .inf false)
  let ninf := vs.any (fun v => v == .inf true)
  if vs.any Val.isNan || (pinf && ninf) then (.nan false, fl ||| Fl.nv)
  else if pinf then (.inf false, fl)
  else if ninf then (.inf true, fl)
  else
    let q := vs.foldl (fun q v => match v with | .fin _ _ e => min q e | _ => q) 0
    let s := vs.foldl (fun s v => match v with | .fin n m e => s + scaled n m e q | _ => s) (0 : Int)
    if s = 0 then (.fin (!vs.isEmpty && vs.all (fun v => v.isZero && v.neg)) 0 0, fl)
    else (.fin (decide (s < 0)) s.natAbs q, fl)

/-- RoundOdd into X26: 26 significant bits, exponent −510 to 511 with subnormals, ±∞ with of beyond (R44, R45). -/
def roundX26 (v : Val) : Val × Fl :=
  match v with
  | .fin n m e =>
    if m = 0 then (v, 0)
    else
      let t := topExp m e
      if 512 ≤ t then (.inf n, Fl.of ||| Fl.nx)
      else
        let q : Int := if t - 25 < -535 then -535 else t - 25
        let r := roundAt .odd n m e q
        (.fin n r.1 q, flIf r.2 Fl.nx)
  | _ => (v, 0)

/-- One k-step: the accumulator plus the sum of products (R48). -/
def kStep (acc : Nat) (ps : List (Val × Fl)) : FR :=
  let s := sumProducts ps
  let t := roundX26 s.1
  let a := decodeRaw .f32 acc
  let r := addVal .rne a t.1
  finishArith .f32 .rne r.1 (r.2 ||| t.2 ||| s.2)

end Sys2Proof.Machine
end

