-- ==== Sys2Proof/Machine/State.lean ====
section
/-! DEFINITION. The state of the device as plain data: every context, core, cluster and die, the caches, the tables, the queues and the
engines' work in progress, and which agent moves next. Frames, cores, clusters and dies are numbered through the device: core =
cluster × 8 + position, cluster = die × 16 + number, frame = core × 11 + frame (R9, R10, R16). The umpire core of die d is core 512 + 8 × d, alone
in cluster 64 + d. -/

namespace Sys2Proof.Machine

open Sys2Proof

/-! Containers. -/

/-- A sparse table: key and value, keys rising; an absent key stands for a default its reader names. -/
abbrev Tab (α : Type) := List (Nat × α)

/-- Read a key, or the default. -/
def tget {α : Type} (dflt : α) : Tab α → Nat → α
  | [], _ => dflt
  | (k, v) :: t, n => if k = n then v else tget dflt t n

/-- Write a key, keeping keys rising. -/
def tset {α : Type} : Tab α → Nat → α → Tab α
  | [], n, v => [(n, v)]
  | (k, w) :: t, n, v => if n < k then (n, v) :: (k, w) :: t else if n = k then (n, v) :: t else (k, w) :: tset t n v

/-- Remove a key. -/
def terase {α : Type} : Tab α → Nat → Tab α
  | [], _ => []
  | (k, w) :: t, n => if n = k then t else (k, w) :: terase t n

/-- Bytes by address: addresses strictly rising, and no byte equal to what an unlisted address reads as (log 9). -/
abbrev Memory := List Host.Cell

/-- What a byte nothing has written reads as: DESIGN CHOICE 0 (log 9). -/
def Memory.unlisted : Byte := 0

/-- The canonical form from a lower bound on. -/
def Memory.wfFrom : Nat → Memory → Bool
  | _, [] => true
  | lo, (k, v) :: t => decide (lo ≤ k) && !(v == Memory.unlisted) && Memory.wfFrom (k + 1) t

/-- The canonical form. -/
def Memory.wf (m : Memory) : Bool := Memory.wfFrom 0 m

/-! Memory accesses (R89, R90, R198). -/

/-- An issued access with the operands it sampled at issue. -/
inductive MemOp where
  /-- LD: bytes, sign extension, destination. -/
  | ld (n : Nat) (sx : Bool) (d : Reg)
  /-- ST. -/
  | st (n : Nat) (v : Word)
  /-- LDL. -/
  | ldl (n : Nat) (d : Reg)
  /-- STL. -/
  | stl (n : Nat) (v : Word)
  /-- LDFE: consume or keep. -/
  | ldfe (consume : Bool) (d : Reg)
  /-- STFE. -/
  | stfe (v : Word)
  /-- FEMARK: full or empty, granules. -/
  | femark (full : Bool) (cnt : Word)
  /-- PREF. -/
  | pref (l2 : Bool)
  /-- FENCE. -/
  | fence (sc : Scope)
  /-- CZFENCE: length. -/
  | czfence (len : Word)
  /-- CBLOAD. -/
  | cbload (d : Reg)
  /-- CZSTAT. -/
  | czstat (d : Reg)
  /-- LDA. -/
  | lda (n : Nat) (sc : Scope) (d : Reg)
  /-- STRL. -/
  | strl (n : Nat) (sc : Scope) (v : Word)
  /-- AMO: bytes. -/
  | amo (n : Nat) (op : AmoOp) (sc : Scope) (opnd : Word) (d : XReg)
  /-- CAS: bytes, expected and new value, x(2j) with the operand j − 1. -/
  | cas (n : Nat) (sc : Scope) (old new : Word) (j : Fin 15)
  /-- VLD: mask below the grant, format, destination. -/
  | vld (m : BitVec 256) (fmt : Fmt) (d : VReg)
  /-- VST: mask, format, data. -/
  | vst (m : BitVec 256) (fmt : Fmt) (v : BitVec 8192)
  /-- VLDX: mask, format, indices, destination. -/
  | vldx (m : BitVec 256) (fmt : Fmt) (idx : BitVec 8192) (d : VReg)
  /-- VSTX: mask, format, indices, data. -/
  | vstx (m : BitVec 256) (fmt : Fmt) (idx v : BitVec 8192)
  /-- The fetch of an instruction, held by a fault (R56). -/
  | fetch
  /-- The access of an instruction of the access stream other than these, held by a fault; the instruction issues again once it is performed. -/
  | other (write : Bool)
deriving DecidableEq, Repr

/-- An issued and unperformed access. -/
structure Access where
  /-- A number no other access of the run has. -/
  aid : Nat
  /-- The slot it set, if it counts one. -/
  slot : Option Slot
  pc : Word
  ea : Word
  asid : Nat
  op : MemOp
  /-- Issued while an upcall handler ran (R368). -/
  inHandler : Bool
  /-- Held in the replay buffer (R290). -/
  held : Bool
  /-- Taken back by an upcall: it waits unissued until it is reinstated (R367). -/
  back : Bool
  /-- Lanes a vector access has performed (R152), or blocks a CZFENCE has done. -/
  done : Nat
  /-- Data gathered so far by a vector load. -/
  got : BitVec 8192
  /-- The number a store of a region's member took (R304): region and index. -/
  recNo : Option (Nat × Nat)
  /-- The issued instruction beside the streams whose own access this is. -/
  work : Option Nat
deriving DecidableEq, Repr

/-- An upcall waiting to be delivered (R367, R368). -/
structure Upcall where
  code : Nat
  info : Nat
  addr : Word
  token : Word
  whence : Word
  soft : Bool
  /-- For a resume notice: the park slot that holds the accesses (R369). -/
  park : Option Nat
deriving DecidableEq, Repr

/-- The instruction a context waits in. -/
structure Wait where
  /-- The instruction, as the context's `cur` gave it, and its second word's fields. -/
  instr : Option Instr
  mods : Mods
  pc : Word
  /-- The address after it. -/
  npc : Word
  /-- The cycle the watchdog counts from (R374). -/
  since : BitVec 64
  /-- It has begun an effect another agent sees. -/
  begun : Bool
  /-- The wrapper of a long form waits, not the wrapped instruction (R61). -/
  wrap : Bool
  /-- What the wait is for, where the instruction settled it when it first waited (EGSYNC, R320). -/
  arg : Nat
  /-- The watchdog limit that the wait has passed (R374); 0 for none. -/
  barked : Word
  /-- The limit register that bounds the wait, as it stood when the wait began (R98). -/
  limit : Word
  /-- The ticket of a request that has reached a heap's anchor (R314); 0 for none. -/
  ticket : Nat
deriving DecidableEq, Repr

/-! The two streams of a context (R64, R65, R101). `pc` is the address of the next instruction of the execute stream, or of both while the
streams stand together; `apc` is the access stream's where it has gone ahead. -/

/-- The kinds of instruction between the streams. -/
inductive PassKind where
  /-- An execute-stream instruction that has not issued. -/
  | exe
  /-- A B or BP that the access stream has predicted, with the a-registers as they stand at it. -/
  | branch (a : Vector Word 16)
  /-- An access-stream instruction that has issued, or whose guard is false. -/
  | past
deriving DecidableEq, Repr

/-- An instruction that the access stream has passed and the execute stream has not reached. -/
structure Passed where
  /-- The number of the access or the work it issued, or its own. -/
  id : Nat
  instr : Instr
  mods : Mods
  pc : Word
  npc : Word
  /-- Where the access stream went on. -/
  next : Word
  kind : PassKind
  /-- What it has written, which the execute stream sees when it reaches it: the load-data queue. -/
  xs : List (Reg × Word)
  ps : List (PReg × Bool)
  vs : List (VReg × BitVec 256 × BitVec 8192)
deriving DecidableEq, Repr

/-- An access-stream instruction that has issued and waits beside the streams, with the registers it sampled. -/
structure Work where
  id : Nat
  wait : Wait
  latch : Option Slot
  x : Vector Word 32
  a : Vector Word 16
  p : Vector Bool 8
  /-- cr.egheap and cr.asid, which name the heap and the address space it acts on, as they stood at issue (R98, R317). -/
  egheap : Word
  asid : Word
  /-- Taken back by an upcall: it waits unissued until it is reinstated (R367). -/
  back : Bool
deriving DecidableEq, Repr

/-- A park slot's stream state (R367). -/
structure Park where
  pc : Word
  apc : Option Word
  win : List Passed
  works : List Work
  wait : Option Wait
  latch : Option Slot
  acc : List Access
  owes : List (Nat × Slot)
  counts : Vector (BitVec 6) 16
  owed : List (Reg × Word)
  owedV : List (VReg × BitVec 256 × BitVec 8192)
deriving DecidableEq, Repr

/-! Rewriting state of a context (R325 to R328). -/

/-- A rule record of a pattern program. -/
structure Rule where
  rule : Nat
  nvars : Nat
  words : List Nat
deriving DecidableEq, Repr

/-- A binding (R327). -/
structure Binding where
  pos : Nat
  rule : Nat
  nvars : Nat
  root : Nat
  vs : List Nat
  stamp : Nat
  ranked : Bool
  score : BitVec 16
  topOp : Nat
  depth : Nat
deriving DecidableEq, Repr

/-- An open match with its binding queue (R324, R327, R328). -/
structure Match where
  /-- The heap's number. -/
  heap : Nat
  ranked : Bool
  lo : Nat
  hi : Nat
  /-- The classes a delta match considers. -/
  roots : Option (List Nat)
  rules : List Rule
  weights : List (BitVec 16)
  /-- The last binding formed: rule position, root and variables. -/
  last : Option (Nat × Nat × List Nat)
  batch : List Binding
  /-- No further binding will be formed. -/
  done : Bool
  queue : List Binding
deriving DecidableEq, Repr

/-- The kinds of context (R16, R17, R277, R334). -/
inductive CtxKind where
  | control | helper | task | invocation | supervisor
deriving DecidableEq, Repr

/-- What a VNEIGH published (R150): its count, when, lanes 0 to 7, and the last 8 lanes of the grant. -/
structure Neigh where
  count : Nat
  time : BitVec 64
  lo : BitVec 256
  hi : BitVec 256
deriving DecidableEq, Repr

/-- The control registers of a context (R94). -/
structure Crs where
  fctl : Word
  fflags : Word
  fmta : Word
  fmtb : Word
  upcall : Word
  fault0 : Word
  fault1 : Word
  fault2 : Word
  fault3 : Word
  bbase : Word
  bsize : Word
  chprog : Word
  asid : Word
  ptmo : Word
  xltmo : Word
  ringhole : Word
  replaylim : Word
  egheap : Word
  egmodel : Word
deriving DecidableEq, Repr

/-- The identity registers (R92). -/
structure Ids where
  core : Word
  clu : Word
  die : Word
  dev : Word
  ctx : Word
  org : Vector Word 4
  ext : Vector Word 4
deriving DecidableEq, Repr

/-- cr.status's own bits (R95). -/
structure Status where
  lsbase : BitVec 4
  lsblk : BitVec 5
  rpl : Bool
  recording : Bool
  upc : Bool
  lead : Bool
  gang : BitVec 2
  sup : Bool
deriving DecidableEq, Repr

/-- A context frame. -/
structure Ctx where
  live : Bool
  kind : CtxKind
  pc : Word
  apc : Option Word
  /-- The instructions between the streams, in program order. -/
  win : List Passed
  /-- Issued access-stream instructions that wait beside the streams. -/
  works : List Work
  /-- The address after the instruction being issued. -/
  npc : Word
  /-- The instruction being issued; the model's own field, set by the issue. -/
  cur : Option Instr
  /-- Its second word's fields (R60). -/
  mods : Mods
  x : Vector Word 32
  a : Vector Word 16
  p : Vector Bool 8
  k : Vector (BitVec 256) 8
  v : Vector (BitVec 8192) 32
  sb : Vector (BitVec 6) 16
  /-- The lane groups of the cluster's pool it holds (R129). -/
  groups : List Nat
  ncount : BitVec 32
  nlatch : List Neigh
  st : Status
  cr : Crs
  ids : Ids
  mprio : BitVec 3
  /-- Chain status: end and step (R250), and the run it belongs to. -/
  chEnd : Nat
  chStep : Nat
  chRun : Option Nat
  /-- Issued and unperformed accesses, oldest first. -/
  acc : List Access
  /-- Slots that work the context issued still owes a decrement (matrix jobs), by the work's id. -/
  owes : List (Nat × Slot)
  /-- The slot the long form being issued has set. -/
  latch : Option Slot
  /-- The wrapper of R61 lets the wrapped instruction go on. -/
  go : Bool
  wait : Option Wait
  parks : Tab Park
  pending : List Upcall
  mtch : Option Match
  team : Option Nat
  /-- TCB address of a task; descriptor of an invocation's queue. -/
  task : Word
  /-- An invocation's queue and time (R277). -/
  inv : Option (Nat × Nat)
  /-- The time by which its core issues it, while it is ready (R336). -/
  deadline : Nat
  /-- It has yielded and gives way once (R355). -/
  yielded : Bool
  wake : Bool
  parked : Bool
  exitv : Word
  gen : BitVec 8
  region : Option Nat
  sidx : Nat
  /-- The lines its released writes touched (R182): asid and va ÷ 64. -/
  released : List (Nat × Nat)
  /-- The last generation it arrived at, per scope code (R282). -/
  barGen : Tab Nat
  /-- Ports of its core it has bound (R342). -/
  bound : List Nat
  /-- HINT 0's pause (R119). -/
  pause : BitVec 64
  /-- What HINT 2 or 3 says of the next B in program order: predicted taken, or not (R119). -/
  hinted : Option Bool
  /-- Placed at this time; orders teams on a core (R336). -/
  placed : BitVec 64
deriving DecidableEq, Repr

/-! Core state. -/

/-- A port register (R269, R270). -/
structure Port where
  binding : Option Word
  by_ : Nat
  buf : List Word
deriving DecidableEq, Repr

/-- The kinds of matrix job. -/
inductive MKind where
  | mma | joint (huddle : Nat) | mzero | chain (run : Nat)
deriving DecidableEq, Repr

/-- A job of a matrix slice (R219 to R228). -/
structure MJob where
  id : Nat
  frame : Nat
  /-- The generation of the context that issued it (R355): its flags and its predicate are that context's alone. -/
  gen : BitVec 8
  /-- The issuing context's window at issue: physical base and size. -/
  win : Nat × Nat
  kind : MKind
  slot : Option Nat
  par : Word
  aBase : Word
  bBase : Word
  la : Bool
  lb : Bool
  fmta : Word
  fmtb : Word
  prio : Nat
  nk : Nat
  done : Nat
  /-- Cycles accepted and not running. -/
  waited : Nat
  last : BitVec 64
  susp : Bool
  flags : BitVec 7
  pc : Word
  asid : Nat
  /-- It opened its slot while earlier jobs were still bound to it: its slot is zeroed before its first k-step (R221). -/
  zero : Bool
deriving DecidableEq, Repr

/-- A job of an epilogue engine (R239, R240). -/
structure EJob where
  id : Nat
  frame : Nat
  gen : BitVec 8
  /-- The issuing context's window at issue: physical base and size. -/
  win : Nat × Nat
  slot : Nat
  /-- Its record has been read and checked: until then it is bound to its slot, and the MEPI holds a failed read (R240). -/
  ready : Bool
  par : Word
  dst : Word
  rscale : Word
  cscale : Word
  bias : Word
  stride : Nat
  fmt : Nat
  actKind : Nat
  actJ : Nat
  clo : BitVec 32
  chi : BitVec 32
  fctl : Word
  done : Nat
  susp : Bool
  flags : BitVec 7
  pc : Word
  asid : Nat
deriving DecidableEq, Repr

/-- A core. -/
structure CoreSt where
  ls : Memory
  /-- The granules that are full, rising (R158). -/
  full : List Nat
  ports : Tab Port
  /-- Ring slots: element 64i + j of slot n under key 4096n + 64i + j; absent elements are +0. -/
  ring : Tab (BitVec 32)
  rh : Nat
  rc : Nat
  mjobs : List MJob
  ejobs : List EJob
  running : Option Nat
  role : Word
  chans : List Nat
  frozen : Bool
  byGang : Bool
  fenced : Bool
  fcode : Nat
  fframe : Nat
  /-- When the core froze: the watchdog's counts stand still from then on (R374). -/
  frozeAt : BitVec 64
  wdlim : Word
  dbgFrame : Nat
  dbgVsel : Word
  dbgLsaddr : Nat
  pIssued : Nat
  pIdle : Nat
  pQueue : Nat
  pSquash : Nat
  pKsteps : Nat
  /-- Windows in use: first block, blocks, and who holds it (team, or frame plus 2^32 for a task). -/
  windows : List (Nat × Nat × Nat)
  lsPass : Tab Nat
deriving DecidableEq, Repr

/-! Cluster state. -/

/-- A chain core's entry of a descriptor (R242). -/
structure ChCore where
  base : Word
  scales : Word
  nin : Nat
  nout : Nat
deriving DecidableEq, Repr

/-- A chain descriptor (R242). -/
structure ChDesc where
  fmt : Nat
  cores : List ChCore
deriving DecidableEq, Repr

/-- An axis of the boundary: kind 0 in, 1 out, 2 bond; its index; its size (R244). -/
structure Axis where
  kind : Nat
  idx : Nat
  size : Nat
deriving DecidableEq, Repr

/-- A chain run (R249). -/
structure ChRun where
  id : Nat
  frame : Nat
  gen : BitVec 8
  /-- The issuing context's window at issue: physical base and size. -/
  win : Nat × Nat
  /-- The team whose run it is (R34). -/
  team : Option Nat
  pc : Word
  asid : Nat
  step : Nat
  single : Bool
  inA : Word
  outA : Word
  started : Bool
  /-- It has sampled what R249 names: a fault on deriving its axes does not sample again. -/
  sampled : Bool
  /-- Its context has ended before it began, and what it samples of that context is as it then stood. -/
  kept : Bool
  prog : Word
  bbase : Nat
  bsize : Nat
  fctl : Word
  prio : Nat
  desc : Option ChDesc
  bds : List Nat
  axes : List Axis
  /-- k-steps of the current step that are done (ABSORB), or elements (LOAD, EMIT). -/
  done : Nat
  acc : BitVec 32
  flags : BitVec 7
  susp : Bool
deriving DecidableEq, Repr

/-- A region of a footprint descriptor (R74): space 0 virtual, 1 local store. -/
structure Region where
  space : Nat
  core : Nat
  base : Nat
  len : Nat
deriving DecidableEq, Repr

/-- A shape record (R262). -/
structure Shape where
  base : Word
  dim : List Nat
  stride : List Int
  ext : List Nat
  fmt : Nat
deriving DecidableEq, Repr

/-- A collective record (R267). -/
structure Coll where
  group : Nat
  seq : Nat
  count : Nat
  nranks : Nat
  rank : Nat
  root : Nat
  fmt : Nat
  op : Nat
  peers : Word
deriving DecidableEq, Repr

/-- An engine job (R251 to R268). -/
structure Job where
  q : Nat
  frame : Nat
  gen : BitVec 8
  asid : Nat
  pc : Word
  engine : Nat
  cmd : Nat
  barrier : Bool
  scope : Scope
  prio : Nat
  w1 : Word
  w2 : Word
  w3 : Word
  rd0 : Option Region
  rd1 : Option Region
  wr : Option Region
  fctl : Word
  shape : Option Shape
  coll : Option Coll
  sup : Bool
  /-- Job state code and detail (R252, R255). -/
  state : Nat
  detail : Nat
  mark : Nat
  /-- Start time of the wait for a place, once eligible. -/
  elig : Option (BitVec 64)
  chan : Option (Nat × Nat)
  team : Option Nat
  /-- Source bytes of a COPY whose ranges overlap, as they stood before the job began. -/
  saved : List Byte
  flags : BitVec 7
  released : List (Nat × Nat)
  /-- What the other ranks of a started collective hold (R267). -/
  peers : List Peer
  begun : Bool
  /-- All its work is performed; its completion release is due. -/
  fin : Bool
  /-- The submitter's window: physical base and size (R260). -/
  win : Nat × Nat
  /-- It stands in the overflow area, and waits to be taken back (R283). -/
  spilled : Bool
  /-- Suspended or PENDING, it may go on as soon as there is a place for it (R253). -/
  resume : Bool
  /-- The terminal state and detail it comes to once what it wrote is performed at its scope, where that is not DONE (R203). -/
  ending : Option (Nat × Nat)
deriving DecidableEq, Repr

/-- A huddle (R229): the participant cores, and the frames whose MGANG is accepted. -/
structure Huddle where
  id : Nat
  tag : Nat
  parts : List Nat
  /-- Its place among acceptances once it has opened. -/
  opened : Option Nat
  joined : List Nat
  /-- The team whose operation it is (R34). -/
  team : Option Nat
deriving DecidableEq, Repr

/-- A cluster. -/
structure CluSt where
  /-- Lane groups no context holds (R129). -/
  lanesFree : List Nat
  /-- Lane groups that are fenced off (R131, R380). -/
  lanesLost : List Nat
  /-- Team slots in use: the teams (R22). -/
  slots : List Nat
  bd : Tab Nat
  desc : Option ChDesc
  runs : List ChRun
  /-- The step store (R243): the output of the step being performed, as far as it is formed. -/
  step : Tab (BitVec 32)
  vc : BitVec 4
  jobs : List Job
  q : Nat
  shapes : List (Nat × Nat × Shape)
  huddles : List Huddle
  /-- Base and length of the job queue's overflow area, in its control block (R283). -/
  ovf : Nat × Nat
  pMiss : Nat
  pStale : Nat
  pPush : Nat
  fenced : Bool
deriving DecidableEq, Repr

/-! Die state. -/

/-- A region (R302). -/
structure RegionSt where
  asid : Nat
  base : Nat
  len : Nat
  thrmiss : Nat
  threvict : Nat
  state : Nat
  members : List Nat
  miss : Nat
  evict : Nat
  fb : Bool
  rr : Bool
  ovf : Bool
  /-- Stores of members to lines of the range, in the iteration: line, member, index; performed in an L1, and applied at the slice. -/
  pend : List (Nat × Nat × Nat)
  wrote : List (Nat × Nat × Nat)
  /-- Lines pushed in this iteration, and the clusters a push has reached. -/
  pushed : List Nat
  got : List (Nat × Nat)
  /-- A RERECORD with the free flag waits. -/
  freeing : Bool
deriving DecidableEq, Repr

/-- A recording entry (R303). -/
structure RecEntry where
  slice : Nat
  region : Nat
  line : Nat
  clu : Nat
  core : Nat
  ctx : Nat
  sidx : Nat
  cons : List (Nat × Nat)
deriving DecidableEq, Repr

/-- A push on its way to a consumer's L1 (R204). -/
structure Push where
  clu : Nat
  asid : Nat
  line : Nat
  pa : Nat
  data : BitVec 512
  perms : BitVec 4
  region : Nat
deriving DecidableEq, Repr

/-- A replay-buffer entry (R290). -/
structure Replay where
  slice : Nat
  entry : Nat
  frame : Nat
  /-- The generation of the faulting or submitting context. -/
  owner : BitVec 8
  /-- An engine job, matrix job or chain run: its kind (1 job, 2 matrix, 3 chain, 4 epilogue), cluster or core, and id. -/
  unit_ : Option (Nat × Nat × Nat)
  asid : Nat
  page : Nat
  va : Word
  kind : Nat
  code : Nat
  /-- The accesses of the context it holds. -/
  aids : List Nat
  /-- The address of the instruction whose access opened it, or a job's mark of R365. -/
  pc : Word
  /-- A held access of a unit writes. -/
  wr : Bool
  count : Nat
  gen : BitVec 8
  replaying : Bool
  /-- A replay has faulted past the limit (R291): the entry stays held, and replays no more. -/
  escalated : Bool
  /-- All accesses are performed and a notice is due: the park slot that held them (R369). -/
  notice : Option Nat
  /-- An accepted replay of a unit lets it go on: its progress then. -/
  mark : Option Nat
deriving DecidableEq, Repr

/-- An entry of a dispatcher queue: a launch, or a ready task. -/
inductive DEntry where
  | launch (id : Nat)
  | task (tcb : Word) (entry arg : Word) (asid : Nat) (blocks : Nat)
  | inv (dq : Nat) (t : Nat)
deriving DecidableEq, Repr

/-- A dispatcher queue's entry with its enqueue time and the time it came to the head (R335). -/
structure DQEnt where
  e : DEntry
  prio : Nat
  enq : BitVec 64
  head : Option (BitVec 64)
  passed : Option (BitVec 64)
  /-- It stands in the overflow area, and waits to be taken back (R283). -/
  spilled : Bool
deriving DecidableEq, Repr

/-- The umpire's events (R372). -/
structure UEvent where
  code : Nat
  fault : List Word
  /-- The core, numbered through the device, which gives die and cluster too. -/
  core : Nat
  /-- The frame of the core. -/
  frame : Nat
deriving DecidableEq, Repr

/-- A move request being served (R295 to R297). -/
structure Move where
  addr : Nat
  /-- Copy while writable: lines copied so far, and passes over the marked lines. -/
  copied : Nat
  pass : Nat
  /-- The frame whose lines are being copied, once the copy has begun, and the map of R297: its lines written after they were copied. -/
  frame : Option Nat
  marked : List Nat
deriving DecidableEq, Repr

/-- A die. -/
structure DieSt where
  vd : BitVec 4
  wres : Tab Word
  /-- Sampling counters: 8 × slice + register (R168). -/
  wctr : Tab Nat
  heatctl : Word
  heatbase : Word
  samplers : Tab Nat
  /-- Samples taken and not yet added: home slice and frame (R359). -/
  heat : List (Nat × Nat)
  /-- Per home slice, the decay epoch whose sweep it last began, and how far a sweep under way has come (R360). -/
  sweeps : Tab Nat
  sweepAt : Tab Nat
  regions : Tab RegionSt
  recs : List RecEntry
  pushes : List Push
  replay : List Replay
  /-- The last generation of each entry: 256 × slice + entry. -/
  gens : Tab Nat
  queue : List DQEnt
  moves : List Move
  umpire : List UEvent
  fencedSlices : List Nat
  /-- Slices whose fence bit is set and which pass their lines on at the next halt (R380). -/
  failedSlices : List Nat
  adverts : Tab Nat
  /-- Refusals that stand (R36): the launch, the team's number in it, and the device that refused it. -/
  refusals : List (Nat × Nat × Nat)
  /-- Base and length of the overflow areas of the launch queues and of the ready queues, in the control block (R283, R335). -/
  launchOvf : Nat × Nat
  readyOvf : Nat × Nat
  /-- The umpire core's mirror of the scope table (R29, R301). -/
  mirror : List Word
  pMiss : Nat
  pSweep : Nat
  pSoft : Nat
  pReplay : Nat
deriving DecidableEq, Repr

/-! Caches and translation. -/

/-- An L1 line (R163, R165, R288); dirty when its mask of written bytes is not zero. `line` is va ÷ 64, `pa` the line's address. -/
structure L1Line where
  clu : Nat
  asid : Nat
  line : Nat
  pa : Nat
  data : BitVec 512
  mask : BitVec 64
  ver : BitVec 4
  pushed : Bool
  perms : BitVec 4
  img : Bool
  poison : Bool
deriving DecidableEq, Repr

/-- An L2 line (R165). For a line of an uncompressed image, `pa` is its map entry's address. -/
structure L2Line where
  die : Nat
  asid : Nat
  line : Nat
  pa : Nat
  /-- Codebook id of an image's page. -/
  cb : Nat
  data : BitVec 512
  mask : BitVec 64
  ver : BitVec 4
  ret : Option Nat
  /-- The matrix jobs that have fetched the line and not yet consumed it; it is pinned while there is one (R166, R226). -/
  pin : List Nat
  img : Bool
  poison : Bool
  perms : BitVec 4
  /-- Its way, 0 to 15 (R166, R168). -/
  way : Nat
deriving DecidableEq, Repr

/-- A translation-cache entry (R287): `size` is 16 or 28, `page` is va ÷ 2^size. -/
structure Tlb where
  die : Nat
  slice : Nat
  asid : Nat
  page : Nat
  size : Nat
  leaf : Nat
deriving DecidableEq, Repr

/-- Written bytes of a line of pool or host memory that its home slice holds and has not yet written through to the CXL home (R170, R182, R384);
`line` is the physical address ÷ 64. -/
structure HomeLine where
  line : Nat
  data : BitVec 512
  mask : BitVec 64
deriving DecidableEq, Repr

/-! Device-wide units. -/

/-- A launch (R23 to R27). -/
structure Launch where
  id : Nat
  die : Nat
  asid : Nat
  entry : Word
  arg : Word
  deal : Bool
  prio : Nat
  cpt : Nat
  helpers : Nat
  teams : Nat
  migrate : Bool
  migratePod : Bool
  cosched : Bool
  lsb : Nat
  ext : List Nat
  tile : List Nat
  placed : Nat
  next : Nat
  remaining : Nat
  minchunk : Nat
deriving DecidableEq, Repr

/-- A team (R22). -/
structure Team where
  id : Nat
  launch : Nat
  j : Nat
  clus : List Nat
  block : Nat
  helpers : Nat
  frames : List Nat
  ended : List Nat
deriving DecidableEq, Repr

/-- A barrier generation (R281, R282): scope code and the team, launch or core it belongs to. -/
structure Bar where
  scope : Nat
  key : Nat
  gen : Nat
  parts : List Nat
  arrived : List Nat
deriving DecidableEq, Repr

/-- A delta record (R274); the value is 40 bytes as a number. -/
structure DRec where
  key : Nat
  time : Nat
  mult : Int
  value : Nat
deriving DecidableEq, Repr

/-- A delta queue the hardware serves, as its descriptor was read (R274). -/
structure DQ where
  asid : Nat
  desc : Nat
  die : Nat
  entry : Word
  arr : Nat
  buf : Nat
  bufcap : Nat
  thresh : Nat
  ovf : Nat
  ovflen : Nat
  maxinv : Nat
  prio : Nat
  nslots : Nat
  lsblk : Nat
  front : List Nat
  link : List Nat
  raw : List DRec
  cons : List DRec
  /-- Counted invocations: their times. -/
  counted : List Nat
deriving DecidableEq, Repr

/-- A ring whose hole timer runs (R273): asid, descriptor, last pubf a hole was raised for. -/
structure RingTimer where
  asid : Nat
  desc : Nat
  /-- The publish frontier, and since when a later slot is published. -/
  pubf : Nat
  start : BitVec 64
  owner : Nat
  /-- The owner's cr.ringhole when the wait began (R98). -/
  limit : Word
  raised : Option Nat
deriving DecidableEq, Repr

/-- A context waiting on a future (R351): frame, table entry's physical address. -/
structure FutWait where
  frame : Nat
  entry : Nat
deriving DecidableEq, Repr

/-- A live codebook version (R193): lengths of the 256 symbols. -/
structure Codebook where
  asid : Nat
  id : Nat
  ver : Nat
  lens : List Nat
deriving DecidableEq, Repr

/-- The restoration messages (R318). ADOPT carries H's size and its parent list, first to last entry, as they stood at the union. The append of an
EGINS to the parent list of a child's root is a message too, with the pool entry it takes (R319, log 46). -/
inductive HMsg where
  | union (x y k s : Nat)
  | adopt (h c k s size first last : Nat)
  | rehash (p k s : Nat)
  | append (node r e : Nat)
deriving DecidableEq, Repr

/-- What a message counts toward until it is consumed (R318): a merge, or the EGINS that allocated a node. -/
inductive HTag where
  | merge (s : Nat)
  | ins (node : Nat)
deriving DecidableEq, Repr

/-- A message in flight with its tag. -/
structure HPost where
  msg : HMsg
  tag : HTag
deriving DecidableEq, Repr

/-- A key of the hash-cons table (R313). -/
structure HKey where
  op : Nat
  arity : Nat
  c0 : Nat
  c1 : Nat
  c2 : Nat
  cls : Nat
deriving DecidableEq, Repr

/-- A heap (R312 to R333). -/
structure Heap where
  asid : Nat
  num : Nat
  header : Nat
  /-- Bytes 0 to 63 of the header, as registered. -/
  hdr : Nat
  die : Nat
  broken : Bool
  /-- A program has stored to a table field (R313). -/
  spoiled : Bool
  msgs : List HPost
  /-- The frame and ticket of the EGEXTR that is held at or sweeping from the anchor (R332). -/
  extr : Option (Nat × Nat)
  /-- The frames and tickets of the requests that wait at the anchor, in the order of their arrival (R314). -/
  queue : List (Nat × Nat)
  /-- The first free entry of the parent pool (R415). -/
  poolNext : Nat
deriving DecidableEq, Repr

/-- What a die's dugout holds of the parked partition (R99, R171, R378): the header, and the records of that die alone. -/
structure DieImage where
  part : Nat
  t : BitVec 64
  /-- The device number and the asids in use. -/
  dev : Nat
  asids : List Nat
  frames : Tab Ctx
  cores : Tab CoreSt
  clus : Tab CluSt
  /-- Held accesses, which context records hold, and the entries of the die's dispatcher queues (log 21). -/
  replay : List Replay
  queue : List DQEnt
  /-- The spill buffers of the die's routers: writes that were in flight to it at the halt, in their order (R377, R378). -/
  spill : List (BitVec 48 × Word)
  /-- The image is valid: a partition has been exchanged into it. -/
  valid : Bool
deriving DecidableEq, Repr

/-- A team of a launch of this device that has gone to another device, by its number in the launch, and the cores on which it has live control
contexts there (R27, R35). -/
structure Away where
  launch : Nat
  j : Nat
  cores : Nat
deriving DecidableEq, Repr

/-- The tables of the package that name a parked partition's contexts, which leave with it (log 21). -/
structure Parked where
  launches : List Launch
  teams : List Team
  bars : List Bar
  dqs : List DQ
  rings : List RingTimer
  futs : List FutWait
  heaps : List Heap
  away : List Away
deriving DecidableEq, Repr

/-- The .lstore image that the runtime loader has for the launches of an entry address in an address space (R80); the table is the model's
(log 67). -/
structure LsImage where
  asid : Nat
  entry : Word
  bytes : List Byte
deriving DecidableEq, Repr

/-- A team on its way between two devices (R35): its launch card and number, and, of a suspended one, its contexts by core of the team
and frame of the core, each core's window with its full granules, counted from the window's start, and its barriers. -/
structure TeamMsg where
  launch : Launch
  team : Team
  resident : Bool
  ctxs : List (Nat × Nat × Ctx)
  windows : List (Memory × List Nat)
  /-- The barriers of the team, its cores and its clusters. -/
  bars : List Bar
deriving DecidableEq, Repr

/-- What the host sees (R383, R390, R391, R393). -/
inductive HostOut where
  | readData (pa : Nat) (bytes : List Byte)
  | snoopData (pa : Nat) (bytes : List Byte)
  | attestation (nonce : BitVec 256) (scopes : List Word) (rollback : Nat) (fencedWord : Word) (stages : List (BitVec 256)) (sig : List Byte)
  /-- The scan chains of a frozen device (R381). -/
  | scan (bits : List Byte)
  /-- A chunk that a team on another device is dealt, by launch and team number: first index and count (R27). -/
  | dealt (launch team first count : Nat)
  /-- A host read or snoop met a poisoned line (R169). -/
  | poisoned (pa : Nat)
  /-- What a request of another device was answered (R387). -/
  | remoteData (pa : Nat) (bytes : List Byte)
  /-- A team sent to a die of another device, and a team of another device that was refused (R35, R36). -/
  | teamSent (die : Nat) (m : TeamMsg)
  | teamRefused (m : TeamMsg)
deriving DecidableEq, Repr

/-- A segment of the pool window (R385): its pool port, and the fabric-attached memory device and the device physical address it goes to. -/
structure Segment where
  port : Nat
  fam : Nat
  dpa : Nat
deriving DecidableEq, Repr

/-- What the capability structures of the host link can show (R382). -/
inductive LinkOption where
  | cxlIo | cxlCache | cxlMem | flit256 | latencyFlit256 | flit68 | hdmDb | x8 | x4 | ide | spdm | functionReset
deriving DecidableEq, Repr

/-- The host link (R382, R389, R391): the lanes it trained to, whether configuration requests receive retry status, the key of its IDE, what its
capability structures show, and its function state, which the spec does not describe: registers by number. -/
structure Link where
  width : Nat
  retry : Bool
  ide : Option (BitVec 256)
  caps : List LinkOption
  function : Tab Word
deriving DecidableEq, Repr

/-- Device-wide registers and package state. -/
structure DevSt where
  scopes : List Word
  asidTable : Nat
  status : Word
  /-- The segments that do not stand at their default (R385). -/
  segments : Tab Segment
  refusedPorts : List Nat
  planesDown : List Nat
  /-- Pool ports, and from 4 on Criras ports, that failed in training (R391). -/
  portsDown : List Nat
  /-- Stacks that failed in training (R391). -/
  stacksDown : List Nat
  pods : Bool
  pooled : Bool
  stopped : Bool
  /-- The supplies that are up: so many of the six of R393, in the order of their sequencing. -/
  rails : Nat
  released : Bool
  halted : Bool
  capW : Nat
  tripped : Option Nat
  partition : Nat
  switchAt : Option (BitVec 64 × Nat)
  link : Link
  rollback : Nat
  stages : List (BitVec 256)
  /-- The firmware stage that failed a check at the boot (R389). -/
  failedStage : Option Nat
  /-- The device number in its pod, 0 to 143 (R92). -/
  num : Nat
  /-- The runtime loader's images. -/
  loader : List LsImage
  /-- Teams that other devices have sent and that no die has placed (R35). -/
  arrivals : List TeamMsg
  /-- What the dugouts hold beside each die's image: the package's tables of the parked partition. -/
  parked : Option Parked
  /-- Teams of this device's launches that are on other devices. -/
  away : List Away
  /-- Posted writes that a halt has stopped on their way (R377). -/
  spill : List (BitVec 48 × Word)
deriving DecidableEq, Repr

/-- Every supply is up (R393). -/
def DevSt.powered (d : DevSt) : Bool := d.rails == 6

/-- Whose move is next: a context's issue, a step of another agent, or a write posted to a device register (log 55). -/
inductive Turn where
  | issue (f : Nat)
  | event (i : Instr)
  | posted (pa : BitVec 48) (v : Word)
  /-- A source of a core's local-store port that is granted next (R162). -/
  | port (core source : Nat)
  /-- A frame's access stream goes ahead of its execute stream. -/
  | ahead (f : Nat)
  /-- An issued instruction that waits beside a frame's streams is tried again. -/
  | work (f id : Nat)
  /-- An access that a frame's killed context had on its way is performed (R372, R379). -/
  | perform (f aid : Nat)
deriving DecidableEq, Repr

/-- The device. -/
structure State where
  c : Ctx
  self : Nat
  frames : Tab Ctx
  cores : Tab CoreSt
  clus : Tab CluSt
  dies : Tab DieSt
  dev : DevSt
  mem : Memory
  poison : List Nat
  /-- What the home slices hold for pool and host memory. -/
  homes : List HomeLine
  l1 : List L1Line
  l2 : List L2Line
  tlb : List Tlb
  launches : List Launch
  teams : List Team
  bars : List Bar
  dqs : List DQ
  rings : List RingTimer
  futs : List FutWait
  books : List Codebook
  heaps : List Heap
  /-- Each die's dugout (R171). -/
  dugouts : Tab DieImage
  out : List HostOut
  time : BitVec 64
  nextId : Nat
  agenda : List Turn
  fresh : Nat
deriving DecidableEq, Repr

/-- The faults of the model: what stops the machine. Every fault of the spec is a next state (R366). -/
inductive Fault where
  /-- A step of a device whose clocks are stopped, whose supplies are off or whose dies are held in reset (R381, R391, R393); raised by step.
  Safe: the spec gives such a device no step but a new bring-up. -/
  | deviceStopped
deriving DecidableEq, Repr

/-- The refusals of the model. -/
inductive Refusal where
  /-- An instruction whose meaning is not written; raised by its arm of exec. Safe: the run ends. -/
  | notModelled (mnemonic : String)
deriving DecidableEq, Repr

/-! Reset. -/

/-- The control registers at reset (R94). -/
def Crs.reset : Crs :=
  { fctl := 0, fflags := 0, fmta := 0, fmtb := 0, upcall := 0, fault0 := 0, fault1 := 0, fault2 := 0, fault3 := 0, bbase := 0, bsize := 0,
    chprog := 0, asid := 0, ptmo := 0x10000, xltmo := 0x10000, ringhole := 0x100000, replaylim := 4, egheap := 0, egmodel := 0 }

/-- The identity registers of an unplaced frame: DESIGN CHOICE 0 (log 11). -/
def Ids.reset : Ids :=
  { core := 0, clu := 0, die := 0, dev := 0, ctx := 0, org := .replicate 4 0, ext := .replicate 4 0 }

/-- cr.status at reset; lsbase and lsblk before placement: DESIGN CHOICE (log 12). -/
def Status.reset : Status :=
  { lsbase := 0, lsblk := 16, rpl := false, recording := false, upc := false, lead := false, gang := 0, sup := false }

/-- A frame at reset (R88, R94); the v-registers: DESIGN CHOICE 0 (log 10). -/
def Ctx.reset : Ctx :=
  { live := false, kind := .control, pc := 0, apc := none, win := [], works := [], npc := 0, cur := none, mods := ⟨0, false, false, 0, 0⟩, x := .replicate 32 0, a := .replicate 16 0, p := #v[true, false, false, false, false, false, false, false],
    k := .replicate 8 0, v := .replicate 32 0, sb := .replicate 16 0, groups := [], ncount := 0, nlatch := [], st := .reset, cr := .reset,
    ids := .reset, mprio := 0, chEnd := 3, chStep := 0, chRun := none, acc := [], owes := [], latch := none, go := false, wait := none, parks := [],
    pending := [], mtch := none, team := none, task := 0, inv := none, deadline := 10, yielded := false, wake := false, parked := false,
    exitv := 0, gen := 0, region := none, sidx := 0, released := [], barGen := [], bound := [], pause := 0, hinted := none, placed := 0 }

/-- The context of a die's umpire core (R11, R93): it runs in supervisor mode. It stands in its firmware, of which the spec gives nothing,
and issues nothing until a program is put there: DESIGN CHOICE (log 62). -/
def Ctx.umpire (die : Nat) : Ctx :=
  { Ctx.reset with live := true, parked := true, kind := .supervisor, st := { Status.reset with sup := true }, ids := { Ids.reset with die := .ofNat 64 die } }

/-- The frame of a die's umpire core: the frames after those of the 512 cores, so that its core is 512 + 8 × die and its cluster 64 + die. -/
def umpireFrame (die : Nat) : Nat := 5632 + 88 * die

/-- A core at reset (R91, R158, R219, R373); local-store contents and bits: DESIGN CHOICE (log 13). -/
def CoreSt.reset : CoreSt :=
  { ls := [], full := [], ports := [], ring := [], rh := 0, rc := 0, mjobs := [], ejobs := [], running := none, role := 0, chans := [],
    frozen := false, byGang := false, fenced := false, fcode := 0, fframe := 0, frozeAt := 0, wdlim := 0x80000000, dbgFrame := 0, dbgVsel := 0,
    dbgLsaddr := 0, pIssued := 0, pIdle := 0, pQueue := 0, pSquash := 0, pKsteps := 0, windows := [], lsPass := [] }

/-- An unbound port with an empty buffer (R91). -/
def Port.reset : Port := { binding := none, by_ := 0, buf := [] }

/-- A cluster at reset (R91, R129, R243, R357). -/
def CluSt.reset : CluSt :=
  { lanesFree := List.range 32, lanesLost := [], slots := [], bd := [], desc := none, runs := [], step := [], vc := 0, jobs := [], q := 1, shapes := [],
    huddles := [], ovf := (0, 0), pMiss := 0, pStale := 0, pPush := 0, fenced := false }

/-- The scope table entry of R29 from radius, point and net. -/
def scopeEntry (radius point net : Nat) : Word := .ofNat 64 (radius * 256 + point * 32 + net * 8)

/-- The scope table of R30 on a device with no Criras partner: DESIGN CHOICE (log 15). -/
def scopeTable : List Word :=
  [scopeEntry 0 0 0, scopeEntry 1 1 1, scopeEntry 14 2 2, scopeEntry 1 3 2, scopeEntry 0 4 3, scopeEntry 0 5 3]

/-- A die at reset (R94, R357). -/
def DieSt.reset : DieSt :=
  { vd := 0, wres := [], wctr := [], heatctl := 0, heatbase := 0, samplers := [], heat := [], sweeps := [], sweepAt := [], regions := [], recs := [], pushes := [], replay := [], gens := [],
    queue := [], moves := [], umpire := [], fencedSlices := [], failedSlices := [], adverts := [], refusals := [], launchOvf := (0, 0), readyOvf := (0, 0), mirror := scopeTable, pMiss := 0, pSweep := 0, pSoft := 0, pReplay := 0 }

/-- A free region (R302). -/
def RegionSt.reset : RegionSt :=
  { asid := 0, base := 0, len := 0, thrmiss := 0, threvict := 0, state := 0, members := [], miss := 0, evict := 0, fb := false, rr := false,
    ovf := false, pend := [], wrote := [], pushed := [], got := [], freeing := false }

/-- The options that the device supports, and so advertises; the others are absent (R382). -/
def linkOptions : List LinkOption := [.cxlIo, .cxlCache, .cxlMem, .flit256, .hdmDb, .x8, .x4, .ide, .spdm, .functionReset]

/-- The host link as it comes up at full width; no key is set: DESIGN CHOICE (log 87). -/
def Link.reset : Link := { width := 16, retry := false, ide := none, caps := linkOptions, function := [] }

/-- The package at reset; what the spec leaves open: DESIGN CHOICE (log 14, 15, 16). -/
def DevSt.reset : DevSt :=
  { scopes := scopeTable, asidTable := 0, status := 0, segments := [], refusedPorts := [], planesDown := [], stacksDown := [], pods := false, pooled := true,
    portsDown := [], stopped := false, rails := 6, released := true, halted := false, capW := 1900, tripped := none, partition := 0, switchAt := none,
    link := .reset, rollback := 0, stages := [], failedStage := none, num := 0, loader := [], arrivals := [], parked := none, away := [], spill := [] }

/-- The device at reset release (R18, R88, R91, R94, R358). -/
def State.reset : State :=
  { c := .reset, self := 0, frames := (List.range 4).map fun d => (umpireFrame d, Ctx.umpire d), cores := [], clus := [], dies := [], dev := .reset, mem := [], poison := [], homes := [], l1 := [], l2 := [], tlb := [],
    launches := [], teams := [], bars := [], dqs := [], rings := [], futs := [], books := [], heaps := [], dugouts := [], out := [], time := 0,
    nextId := 1, agenda := [], fresh := 0 }

end Sys2Proof.Machine
end

