-- ==== Sys2Proof/Machine/Ops.lean ====
section
/-! DEFINITION. The named operations over registers, frames, cores and plain memory, and taking an exception and returning from one. -/

namespace Sys2Proof.Machine

open Sys2Proof

/-! Plain memory: bytes in the canonical form of State. -/

/-- Read a byte; an unlisted address reads as Memory.unlisted. -/
def Memory.get : Memory → Nat → Byte
  | [], _ => Memory.unlisted
  | (k, v) :: t, n => if k = n then v else if n < k then Memory.unlisted else Memory.get t n

/-- Write a byte, keeping the canonical form. -/
def Memory.set : Memory → Nat → Byte → Memory
  | [], n, v => if v = Memory.unlisted then [] else [(n, v)]
  | (k, w) :: t, n, v =>
    if n < k then (if v = Memory.unlisted then (k, w) :: t else (n, v) :: (k, w) :: t)
    else if n = k then (if v = Memory.unlisted then t else (n, v) :: t)
    else (k, w) :: Memory.set t n v

/-- n bytes from an address, as a little-endian number (R3). -/
def Memory.read (m : Memory) (p : Nat) : Nat → Nat
  | 0 => 0
  | n + 1 => (m.get p).toNat + 256 * Memory.read m (p + 1) n

/-- Write the n little-endian bytes of a number. -/
def Memory.write (m : Memory) (p : Nat) : Nat → Nat → Memory
  | 0, _ => m
  | n + 1, v => Memory.write (m.set p (.ofNat 8 v)) (p + 1) n (v / 256)

/-- Write a list of bytes. -/
def Memory.writeBytes (m : Memory) (p : Nat) : List Byte → Memory
  | [] => m
  | v :: vs => Memory.writeBytes (m.set p v) (p + 1) vs

/-- Read a list of bytes. -/
def Memory.readBytes (m : Memory) (p : Nat) : Nat → List Byte
  | 0 => []
  | n + 1 => m.get p :: Memory.readBytes m (p + 1) n

/-! Units and frames. -/

/-- The core of a frame. -/
def coreOf (f : Nat) : Nat := f / 11
/-- The cluster of a core. -/
def cluOf (core : Nat) : Nat := core / 8
/-- The die of a cluster; cluster 64 + d is the umpire core of die d. -/
def dieOf (clu : Nat) : Nat := if clu < 64 then clu / 16 else clu - 64

/-- A core's state. -/
def State.core (s : State) (n : Nat) : CoreSt := tget CoreSt.reset s.cores n
/-- A cluster's state. -/
def State.clu (s : State) (n : Nat) : CluSt := tget CluSt.reset s.clus n
/-- A die's state. -/
def State.die (s : State) (n : Nat) : DieSt := tget DieSt.reset s.dies n
/-- Write a core's state. -/
def State.setCore (s : State) (n : Nat) (v : CoreSt) : State := { s with cores := tset s.cores n v }
/-- Write a cluster's state. -/
def State.setClu (s : State) (n : Nat) (v : CluSt) : State := { s with clus := tset s.clus n v }
/-- Write a die's state. -/
def State.setDie (s : State) (n : Nat) (v : DieSt) : State := { s with dies := tset s.dies n v }

/-- Change a cluster. -/
def State.mapClu (s : State) (n : Nat) (g : CluSt → CluSt) : State := s.setClu n (g (s.clu n))
/-- Change a die. -/
def State.mapDie (s : State) (n : Nat) (g : DieSt → DieSt) : State := s.setDie n (g (s.die n))
/-- Change a core. -/
def State.mapCore (s : State) (n : Nat) (g : CoreSt → CoreSt) : State := s.setCore n (g (s.core n))

/-- The core of the selected frame. -/
def State.myCore (s : State) : Nat := coreOf s.self
/-- Its cluster. -/
def State.myClu (s : State) : Nat := cluOf s.myCore
/-- Its die. -/
def State.myDie (s : State) : Nat := dieOf s.myClu

/-- A frame's context. -/
def State.ctx (s : State) (f : Nat) : Ctx := if f = s.self then s.c else tget Ctx.reset s.frames f

/-- Write a frame's context. -/
def State.setCtx (s : State) (f : Nat) (c : Ctx) : State :=
  if f = s.self then { s with c := c } else { s with frames := tset s.frames f c }

/-- Make a frame the selected one: it leaves the table of frames, and the one selected before goes into it. -/
def State.select (s : State) (f : Nat) : State :=
  if f = s.self then s else { s with frames := terase (tset s.frames s.self s.c) f, self := f, c := tget Ctx.reset s.frames f }

/-- Run an operation of the selected context on another frame, then select the first again. -/
def State.onFrame (s : State) (f : Nat) (g : State → State) : State := (g (s.select f)).select s.self

/-- Change the selected context. -/
def State.mapC (s : State) (g : Ctx → Ctx) : State := { s with c := g s.c }

/-- Change a frame's context. -/
def State.mapCtx (s : State) (f : Nat) (g : Ctx → Ctx) : State := s.setCtx f (g (s.ctx f))

/-- A fresh number. -/
def State.newId (s : State) : State := { s with nextId := s.nextId + 1 }

/-- The frames of a core. -/
def framesOf (core : Nat) : List Nat := (List.range 11).map (11 * core + ·)
/-- The cores of a cluster. -/
def coresOf (clu : Nat) : List Nat := (List.range 8).map (8 * clu + ·)
/-- The clusters of a die. -/
def clusOf (die : Nat) : List Nat := (List.range 16).map (16 * die + ·)

/-! Registers (R58, R88). x0, p0 and k0 are constant: their reads and writes go through these operations alone. -/

/-- Read x. -/
def Ctx.getX (c : Ctx) (i : XReg) : Word := if i = 0 then 0 else c.x[i]
/-- Write x; a write to x0 is discarded. -/
def Ctx.setX (c : Ctx) (i : XReg) (v : Word) : Ctx := if i = 0 then c else { c with x := c.x.set i v }
/-- Read a. -/
def Ctx.getA (c : Ctx) (i : AReg) : Word := c.a[i]
/-- Write a. -/
def Ctx.setA (c : Ctx) (i : AReg) (v : Word) : Ctx := { c with a := c.a.set i v }
/-- Read p; p0 reads true. -/
def Ctx.getP (c : Ctx) (i : PReg) : Bool := if i = 0 then true else c.p[i]
/-- Write p; a write to p0 is discarded. -/
def Ctx.setP (c : Ctx) (i : PReg) (v : Bool) : Ctx := if i = 0 then c else { c with p := c.p.set i v }
/-- Read k; k0 reads all lanes. -/
def Ctx.getK (c : Ctx) (i : KReg) : BitVec 256 := if i = 0 then BitVec.allOnes 256 else c.k[i]
/-- The grant G (R129). -/
def Ctx.grant (c : Ctx) : Nat := 16 * c.groups.length
/-- The lanes below the grant. -/
def Ctx.lanes (c : Ctx) : BitVec 256 := .ofNat 256 (2 ^ c.grant - 1)
/-- Write k: bits G to 255 become 0 (R134); a write to k0 is discarded. -/
def Ctx.setK (c : Ctx) (i : KReg) (v : BitVec 256) : Ctx := if i = 0 then c else { c with k := c.k.set i (v &&& c.lanes) }
/-- Read v. -/
def Ctx.getV (c : Ctx) (i : VReg) : BitVec 8192 := c.v[i]
/-- Write v. -/
def Ctx.setV (c : Ctx) (i : VReg) (v : BitVec 8192) : Ctx := { c with v := c.v.set i v }
/-- The bits of the lanes of a mask. -/
def laneSpread (m : BitVec 256) : Nat → BitVec 8192
  | 0 => 0
  | n + 1 => laneSpread m n ||| (if m.getLsbD n then (0xFFFFFFFF : BitVec 8192) <<< (32 * n) else 0)
/-- Write the lanes of a mask. -/
def Ctx.putLanes (c : Ctx) (i : VReg) (m : BitVec 256) (v : BitVec 8192) : Ctx := c.setV i ((c.getV i &&& ~~~(laneSpread m 256)) ||| (v &&& laneSpread m 256))
/-- Read x or a. -/
def Ctx.getReg (c : Ctx) : Reg → Word
  | .x i => c.getX i
  | .a i => c.getA i
/-- Write x or a. -/
def Ctx.setReg (c : Ctx) : Reg → Word → Ctx
  | .x i, v => c.setX i v
  | .a i, v => c.setA i v

/-! The streams (R64, R65, R90, R101). -/

/-- Is an instruction between the streams a branch that has not resolved? -/
def Passed.unresolved (e : Passed) : Bool :=
  match e.kind with
  | .branch _ => true
  | _ => false

/-- Has the access stream issued it? -/
def Passed.issued (e : Passed) : Bool := e.kind == .past

/-- Does the execute stream stand before the instruction with this number? -/
def behind (win : List Passed) (id : Nat) : Bool := win.any fun e => e.issued && e.id == id

/-- Is an x-register written? -/
def isXWrite (w : Reg × Word) : Bool :=
  match w.1 with
  | .x _ => true
  | .a _ => false

/-- What an issued instruction between the streams has written goes into the load-data queue. -/
def queueWrites (win : List Passed) (id : Nat) (xs : List (Reg × Word)) (ps : List (PReg × Bool)) (vs : List (VReg × BitVec 256 × BitVec 8192)) : List Passed :=
  win.map fun e => if e.issued && e.id == id then { e with xs := e.xs ++ xs, ps := e.ps ++ ps, vs := e.vs ++ vs } else e

/-- An a-register of the access stream is written by an instruction with this number: so it stands at every branch after that. -/
def Ctx.putA (c : Ctx) (id : Nat) (i : AReg) (v : Word) : Ctx :=
  { c.setA i v with win := c.win.map fun e =>
      match e.kind with
      | .branch a => if id < e.id then { e with kind := .branch (a.set i v) } else e
      | _ => e }

/-- Register writes in program order. -/
def Ctx.writeAll (c : Ctx) (xs : List (Reg × Word)) (ps : List (PReg × Bool)) (vs : List (VReg × BitVec 256 × BitVec 8192)) : Ctx :=
  vs.foldl (fun c w => c.putLanes w.1 w.2.1 w.2.2) (ps.foldl (fun c w => c.setP w.1 w.2) (xs.foldl (fun c w => c.setReg w.1 w.2) c))

/-- The data of an issued instruction reaches its registers: those of the execute stream when that stream has come so far. -/
def Ctx.deliver (c : Ctx) (id : Nat) (ws : List (Reg × Word)) (ps : List (PReg × Bool)) (vs : List (VReg × BitVec 256 × BitVec 8192)) : Ctx :=
  let c := ws.foldl (fun c w => match w.1 with
    | .a i => c.putA id i w.2
    | .x _ => c) c
  let xs := ws.filter isXWrite
  if behind c.win id then { c with win := queueWrites c.win id xs ps vs } else c.writeAll xs ps vs

/-- Undo what the access stream did from an instruction on: its accesses are squashed, the counts they added are removed (R90), and its stores to a
region are not counted (R304). -/
def Ctx.undoFrom (c : Ctx) (n : Nat) (a : Vector Word 16) : Ctx :=
  let gone := (c.win.drop n).map (·.id)
  let accs := c.acc.filter fun x => gone.contains x.aid
  let sb := accs.foldl (fun (sb : Vector (BitVec 6) 16) x =>
    match x.slot with
    | some i => sb.set i (sb[i] - 1)
    | none => sb) c.sb
  { c with a := a, sb := sb, acc := c.acc.filter (fun x => !gone.contains x.aid), win := c.win.take n,
           sidx := c.sidx - (accs.filter fun x => x.recNo.isSome).length }

/-- The squashed access-stream instructions of undoFrom. -/
def Ctx.undone (c : Ctx) (n : Nat) : Nat := ((c.win.drop n).filter Passed.issued).length

/-- The place of the first branch that has not resolved. -/
def Ctx.branchAt (c : Ctx) : Option Nat := c.win.findIdx? Passed.unresolved

/-- Squash all that is speculative: the access stream stands at the first branch that has not resolved (R367). -/
def Ctx.squash (c : Ctx) : Ctx :=
  match c.branchAt with
  | none => c
  | some n =>
    match c.win[n]? with
    | some e =>
      match e.kind with
      | .branch a => { c.undoFrom n a with apc := if n = 0 then none else some e.pc }
      | _ => c
    | none => c

/-- Is an access speculative: did it issue past a branch that has not resolved (R180)? -/
def Ctx.speculative (c : Ctx) (aid : Nat) : Bool := c.win.any fun e => e.unresolved && decide (e.id < aid)

/-- cr.status (R95). -/
def Ctx.status (c : Ctx) : Word :=
  .ofNat 64 (c.st.sup.toNat + 8 * c.st.gang.toNat + 32 * c.st.lead.toNat + 256 * c.st.upc.toNat + 512 * c.st.recording.toNat
    + 1024 * c.st.rpl.toNat + 2048 * c.groups.length + 65536 * c.st.lsblk.toNat + 2097152 * c.st.lsbase.toNat)

/-- OR flags into cr.fflags (R53). -/
def Ctx.orFlags (c : Ctx) (fl : Fl) : Ctx := { c with cr := { c.cr with fflags := c.cr.fflags ||| fl.zeroExtend 64 } }

/-- The bytes of the local-store window (R159). -/
def Ctx.window (c : Ctx) : Nat := 16384 * c.st.lsblk.toNat
/-- The physical offset of a window offset (R159). -/
def Ctx.lsPhys (c : Ctx) (o : Nat) : Nat := 16384 * c.st.lsbase.toNat + o

/-- The address space of a context. -/
def Ctx.asid (c : Ctx) : Nat := c.cr.asid.toNat % 65536

/-- Saturating addition for a performance counter (R362). -/
def sat48 (a b : Nat) : Nat := min (a + b) (2 ^ 48 - 1)

/-! The scoreboard (R89). -/

/-- Add 1 to a slot. -/
def Ctx.incSlot (c : Ctx) (i : Slot) : Ctx := { c with sb := c.sb.set i (c.sb[i] + 1) }
/-- Take 1 from a slot. -/
def Ctx.decSlot (c : Ctx) (i : Slot) : Ctx := { c with sb := c.sb.set i (c.sb[i] - 1) }
/-- Take back the count of the slot the long form being issued has set, if any. -/
def Ctx.dropLatch (c : Ctx) : Ctx :=
  match c.latch with
  | some i => { c.decSlot i with latch := none }
  | none => c

/-- Are all the slots of a mask 0? -/
def Ctx.maskClear (c : Ctx) (m : BitVec 16) : Bool := (List.finRange 16).all (fun i => !m.getLsbD i.val || c.sb[i] == 0)

/-! Completing and waiting. -/

/-- The instruction completes: the pc advances, the slot its long form set falls, and any wait ends. -/
def Ctx.retire (c : Ctx) : Ctx := { c.dropLatch with pc := c.npc, wait := none }

/-- Complete the selected context's instruction. -/
def State.retire (s : State) : State := s.mapC Ctx.retire

/-- Complete after changing the selected context. -/
def State.done (s : State) (g : Ctx → Ctx) : State := { s with c := (g s.c).retire }

/-- The instruction being issued waits: it is tried again at the context's next turn; the count of R374 starts at the first attempt. -/
def State.stall (s : State) (begun : Bool := false) : State :=
  s.mapC fun c =>
    match c.wait with
    | some w => { c with wait := some { w with begun := w.begun || begun } }
    | none => { c with wait := some { instr := c.cur, mods := c.mods, pc := c.pc, npc := c.npc, since := s.time, begun := begun, wrap := false, arg := 0, barked := 0, limit := 0, ticket := 0 } }

/-- Change the selected context's wait. -/
def State.mapWait (s : State) (g : Wait → Wait) : State := s.mapC fun c => { c with wait := c.wait.map g }

/-- The wrapper of a long form waits (R61). -/
def State.stallWrap (s : State) : State := s.stall.mapWait fun w => { w with wrap := true }

/-- The instruction waits, bounded by a limit register, which it samples when the wait begins (R98). -/
def State.stallFor (s : State) (limit : Word) (begun : Bool := false) : State :=
  if s.c.wait.isSome then s.stall begun else (s.stall begun).mapWait fun w => { w with limit := limit }

/-- The cycles the selected context has waited in its instruction. -/
def State.waited (s : State) : Nat :=
  match s.c.wait with
  | some w => (s.time - w.since).toNat
  | none => 0

/-- Has a wait with a limit expired? A limit of 0 is none (R96). -/
def State.expired (s : State) (limit : Word) : Bool := limit != 0 && decide (limit.toNat ≤ s.waited)

/-- Has the wait passed the limit register that it sampled when it began (R98)? -/
def State.overLimit (s : State) : Bool :=
  match s.c.wait with
  | some w => s.expired w.limit
  | none => false

/-! The umpire (R372). -/

/-- Put an event in a die's umpire queue. -/
def State.toUmpire (s : State) (die : Nat) (e : UEvent) : State :=
  let d := s.die die
  s.setDie die { d with umpire := d.umpire ++ [e] }

/-- A machine event: the umpire's queue only. -/
def State.machineEvent (s : State) (code : Nat) (addr : Word) (core frame : Nat) (whence : Word := 0) : State :=
  s.toUmpire (dieOf (cluOf core)) { code := code, fault := [.ofNat 64 code, addr, 0, whence], core := core, frame := frame % 11 }

/-- The first word of a fault record (R365). -/
def fault0 (code park info : Nat) (soft : Bool) : Word :=
  .ofNat 64 (code % 256 + 4096 * (park % 4) + 32768 * soft.toNat + 4294967296 * (info % 4294967296))

/-- Write the fault record. -/
def Ctx.setFault (c : Ctx) (f0 f1 f2 f3 : Word) : Ctx := { c with cr := { c.cr with fault0 := f0, fault1 := f1, fault2 := f2, fault3 := f3 } }

/-- The frames of a gang: those of the cores of the aligned group (R19), by their control contexts. -/
def gangSize (g : BitVec 2) : Nat := if g = 0 then 1 else 2 ^ g.toNat

/-- The live control context of a team on a core, if any. -/
def State.controlOn (s : State) (core : Nat) (team : Option Nat) : Option Nat :=
  (framesOf core).find? fun f => let c := s.ctx f; c.live && c.kind == .control && c.team == team

/-- The member frames of the gang of frame f, leader first; f alone outside a gang. -/
def State.gangOf (s : State) (f : Nat) : List Nat :=
  let c := s.ctx f
  if c.st.gang = 0 then [f]
  else
    let n := gangSize c.st.gang
    let base := coreOf f / n * n
    (List.range n).filterMap fun k => s.controlOn (base + k) c.team

/-! Issue selection (R336). -/

/-- Is the access one that keeps its context from issuing: a held fetch, or a held access of the instruction itself? -/
def MemOp.blocks : MemOp → Bool
  | .fetch | .other _ => true
  | _ => false

/-- The least free park slot. -/
def Ctx.freePark (c : Ctx) : Option Nat := (List.range 4).find? fun k => !(c.parks.any (·.1 == k))

/-- The context waits in an UPRET for room in its slots: upc is 0, and upcalls are delivered after the UPRET (R370). -/
def Ctx.returning (c : Ctx) : Bool :=
  match c.wait.bind (·.instr) with
  | some (.upret _) => c.wait.any (·.begun)
  | _ => false

/-- A pending upcall can be delivered, or escalates: upc is 0, and a park slot is free or cr.upcall is 0 (R367, R368). -/
def Ctx.deliverable (c : Ctx) : Bool := !c.pending.isEmpty && !c.st.upc && !c.returning && (c.cr.upcall == 0 || c.freePark.isSome)

/-- The time of a partition switch has come: contexts and units stop (R377). -/
def State.due (s : State) : Bool :=
  match s.dev.switchAt with
  | some (t, _) => decide (t ≤ s.time)
  | none => false

/-- May a frame issue? Not between the moment an upcall can be delivered and its delivery (R367, R370). -/
def State.canIssue (s : State) (f : Nat) : Bool :=
  let c := s.ctx f
  let k := s.core (coreOf f)
  c.live && !c.parked && !k.frozen && !k.fenced && !s.dev.halted && !s.due && (c.pause == 0 || decide (c.pause ≤ s.time)) && !(c.acc.any fun a => a.op.blocks && a.work.isNone) && !c.deliverable

/-- Is a frame ready: it may issue, and waits in no instruction (R336)? -/
def State.ready (s : State) (f : Nat) : Bool := s.canIssue f && (s.ctx f).wait.isNone

/-- A core's senior control context: that of its earliest-placed team. -/
def State.senior (s : State) (core : Nat) : Option Nat :=
  ((framesOf core).filter fun f => (s.ctx f).live && (s.ctx f).kind == .control).foldl (fun b f =>
    match b with
    | none => some f
    | some g => if (s.ctx f).placed < (s.ctx g).placed then some f else b) none

/-- The deadline a frame that issues or becomes ready now gets (R336): it is one of the ready contexts of its core. -/
def State.nextDeadline (s : State) (f : Nat) : Nat :=
  s.time.toNat + if s.senior (coreOf f) = some f ∧ ((framesOf (coreOf f)).filter fun g => g == f || s.ready g).length ≤ 9 then 3 else 10

/-- The slice has consumed what jobs fetched: their lines are pinned no longer (R226). -/
def State.unpin (s : State) (ids : List Nat) : State := { s with l2 := s.l2.map fun l => { l with pin := l.pin.filter fun n => !ids.contains n } }

/-! Huddle aborts (R233): shared because a freeze and a kill cause them. -/

/-- A slot's elements become undefined: free values. -/
def freeSlot (fresh slot : Nat) (ring : Tab (BitVec 32)) : Tab (BitVec 32) :=
  (List.range 4096).foldl (fun r k => tset r (4096 * slot + k) (Config.freeElem (fresh + k))) ring

/-- Decrement a slot that finished work owes, in the context or in the park slot that holds its count. -/
def Ctx.payOwed (c : Ctx) (id : Nat) : Ctx :=
  match c.owes.find? (·.1 == id) with
  | some (_, sl) => { c.decSlot sl with owes := c.owes.filter (·.1 != id) }
  | none =>
    { c with parks := c.parks.map fun (k, p) =>
        match p.owes.find? (·.1 == id) with
        | some (_, sl) => (k, { p with counts := p.counts.set sl (p.counts[sl] - 1), owes := p.owes.filter (·.1 != id) })
        | none => (k, p) }

/-- The predicate an MGANG reports in (R222). -/
def parPred (par : Word) : PReg := ⟨par.toNat / 2 ^ 56 % 8, by omega⟩

/-- Is a context of a frame still the one a unit's work belongs to (R237, R355)? -/
def Ctx.owns (c : Ctx) (gen : BitVec 8) : Bool := c.live && c.gen == gen

/-- Change the context that issued a unit's work, if it is still in its frame. -/
def State.mapOwner (s : State) (f : Nat) (gen : BitVec 8) (g : Ctx → Ctx) : State :=
  if (s.ctx f).owns gen then s.mapCtx f g else s

/-- Abort a huddle on one core: its joint job ends, its flags are set and its predicate is false, and its slot is undefined (R49, R233). A participant
on a core that is frozen is done by alike, which the rule says of a surviving one alone: DESIGN CHOICE (log 85). -/
def State.abortOn (s : State) (id core : Nat) : State :=
  let k := s.core core
  match k.mjobs.find? (fun j => j.kind == .joint id) with
  | none => s
  | some j =>
    let ring := match j.slot with
      | some n => freeSlot s.fresh n k.ring
      | none => k.ring
    let s := { s.unpin [j.id] with fresh := s.fresh + 4096 }
    let s := s.setCore core { k with ring := ring, mjobs := k.mjobs.filter (·.id != j.id), running := if k.running = some j.id then none else k.running }
    s.mapOwner j.frame j.gen fun c => ((c.orFlags j.flags).setP (parPred j.par) false).payOwed j.id

/-- Abort every huddle of a cluster that satisfies `bad`. -/
def State.abortHuddles (s : State) (clu : Nat) (bad : Huddle → Bool) : State :=
  let hs := (s.clu clu).huddles.filter bad
  let s := hs.foldl (fun s h => h.joined.foldl (fun s f => s.abortOn h.id (coreOf f)) s) s
  let k := s.clu clu
  s.setClu clu { k with huddles := k.huddles.filter fun h => !(bad h) }

/-! A waiting GFUSE (R344). -/

/-- The size a waiting GFUSE asks for: its wait's argument holds twice the size, with a 1 in the lowest bit once it has failed. -/
def Ctx.fuseSize (c : Ctx) (w : Wait) (a : XReg) : Nat := if w.arg < 2 then (c.getX a).toNat else w.arg / 2

/-- What a wait is of a GFUSE of its context: the predicate it reports in and the size it asks for. A long form's wrapper that waits has not issued it
(R61). -/
def Ctx.fuseOf (c : Ctx) (w : Wait) : Option (PReg × Nat) :=
  match w.instr with
  | some (.gfuse d a) => if c.live && !w.wrap then some (d, c.fuseSize w a) else none
  | _ => none

/-- The GFUSE that a frame waits in. -/
def State.fusing (s : State) (f : Nat) : Option (PReg × Nat) := (s.ctx f).wait.bind (s.ctx f).fuseOf

/-- The GFUSEs of a frame that wait, in its streams or in a park slot while its handler runs (R367). -/
def State.fuses (s : State) (f : Nat) : List (PReg × Nat) := ((s.ctx f).wait.toList ++ (s.ctx f).parks.filterMap (·.2.wait)).filterMap (s.ctx f).fuseOf

/-- A member on a core ends or freezes: every GFUSE of its team that waits for a group with that core fails (R344). -/
def State.failFuses (s : State) (core : Nat) (of : Option Nat → Bool) : State :=
  let hit := ((coresOf (cluOf core)).flatMap framesOf).filter fun g => of (s.ctx g).team && (s.controlOn core (s.ctx g).team).isSome
  hit.foldl (fun s g =>
    let fail := fun (w : Wait) =>
      if ((s.ctx g).fuseOf w).any fun x => decide (0 < x.2) && coreOf g / x.2 == core / x.2 then { w with arg := w.arg / 2 * 2 + 1 } else w
    s.mapCtx g fun c => { c with wait := c.wait.map fail, parks := c.parks.map fun (k, p) => (k, { p with wait := p.wait.map fail }) }) s

/-! Taking an exception: a freeze, or an upcall (R366 to R368, R372, R375). -/

/-- Freeze one core. -/
def State.freezeCore (s : State) (core : Nat) (byGang : Bool) (code frame : Nat) : State :=
  let k := s.core core
  s.setCore core { k with frozen := true, byGang := byGang, fcode := code, fframe := frame, frozeAt := if k.frozen then k.frozeAt else s.time }

/-- The members, on other cores, of the gangs that have a member on a core. -/
def State.gangsOn (s : State) (core : Nat) : List Nat :=
  ((framesOf core).filter fun g => (s.ctx g).live && (s.ctx g).kind == .control).flatMap fun g => (s.gangOf g).filter fun o => coreOf o != core

/-- Freeze a core, of whose frames f faults, and the cores of every gang with a member on it (R372, R375); the packet goes to the umpire;
huddles of those cores abort. -/
def State.freezeFrame (s : State) (f code : Nat) (rec4 : List Word) : State :=
  let core := coreOf f
  let others := s.gangsOn core
  let s := (core :: others.map coreOf).foldl (fun s k => s.failFuses k fun _ => true) s
  let s := s.freezeCore core false code f
  let s := others.foldl (fun s g => if (s.core (coreOf g)).frozen then s else s.freezeCore (coreOf g) true code g) s
  let s := s.toUmpire (dieOf (cluOf core)) { code := code, fault := rec4, core := core, frame := f % 11 }
  s.abortHuddles (cluOf core) fun h => h.parts.any fun k => k == core || others.any fun o => coreOf o == k

/-- Raise a freeze in frame f: the record is written and the core freezes. -/
def State.freezeRec (s : State) (f code info : Nat) (addr token whence : Word) (soft : Bool) : State :=
  let f0 := fault0 code 0 info soft
  let s := s.mapCtx f fun c => c.setFault f0 addr token whence
  s.freezeFrame f code [f0, addr, token, whence]

/-- Raise a freeze by the selected context's instruction, which performs nothing further: the count it added to its slot is removed (R366). -/
def State.raise (s : State) (code info : Nat) (addr : Word) : State :=
  let s := s.freezeRec s.self code info addr 0 s.c.pc false
  s.mapC fun c => { c.dropLatch with wait := none, go := false }

/-- Illegal instruction. -/
def State.illegal (s : State) : State := s.raise 0x20 0 0
/-- Reserved field. -/
def State.reservedField (s : State) : State := s.raise 0x21 0 0
/-- Misalignment, at an effective address. -/
def State.misaligned (s : State) (ea : Word) : State := s.raise 0x22 0 ea
/-- Privilege. -/
def State.privilege (s : State) : State := s.raise 0x23 0 0

/-- An upcall's cause arises in frame f: it is pending until delivered (R367, R368). -/
def State.addUpcall (s : State) (f : Nat) (u : Upcall) : State := s.mapCtx f fun c => { c with pending := c.pending ++ [u] }

/-- Escalate an upcall: freeze with code 0x27, the reason and the original code (R364, R368). -/
def State.escalate (s : State) (f reason : Nat) (u : Upcall) : State :=
  s.freezeRec f 0x27 (reason * 16777216 + u.code) u.addr u.token u.whence u.soft

/-- The accesses of a context, parked ones with it. -/
def Ctx.accAll (c : Ctx) : List Access := c.acc ++ c.parks.flatMap fun kp => kp.2.acc

/-- Is the access one of the writes that a release releases (R182)? -/
def Access.releasable (a : Access) : Bool :=
  match a.op with
  | .st _ _ | .strl _ _ _ => true
  | .amo _ _ _ _ _ | .cas _ _ _ _ _ => !(a.ea.getLsbD 63)
  | _ => false

/-- Do writes that a release must wait for remain unperformed, among accesses issued before a number? -/
def Ctx.unreleased (c : Ctx) (before : Nat) : Bool := c.accAll.any fun a => a.releasable && decide (a.aid < before)

/-- Does an upcall take an issued access back: one that waits, and has performed no part of its effect (R367)? -/
def Ctx.takesBack (c : Ctx) (a : Access) : Bool :=
  !a.held && !a.back && (match a.op with
    | .ldfe _ _ => true
    | .strl _ _ _ | .fence _ => c.unreleased a.aid
    | _ => false)

/-- Take a count from a slot, or add one, where there is a slot. -/
def slotSub (sb : Vector (BitVec 6) 16) (i : Option Slot) : Vector (BitVec 6) 16 :=
  match i with
  | some i => sb.set i (sb[i] - 1)
  | none => sb

/-- Take back what waits and has begun nothing, speculative work with it; what is taken back has no slot count (R367). -/
def Ctx.takeBack (c : Ctx) : Ctx :=
  let c := c.squash
  let c := if c.wait.any (·.begun) then c else { c.dropLatch with wait := none }
  let sb := (c.acc.filter c.takesBack).foldl (fun sb a => slotSub sb a.slot) c.sb
  let sb := (c.works.filter fun w => !w.wait.begun && !w.back).foldl (fun sb w => slotSub sb w.latch) sb
  { c with acc := c.acc.map fun (a : Access) => { a with back := a.back || c.takesBack a },
           works := c.works.map fun (w : Work) => { w with back := w.back || !w.wait.begun }, sb := sb }

/-- Move the stream state into park slot k (R367). -/
def Ctx.park (c : Ctx) (k : Nat) : Ctx :=
  let c := c.takeBack
  let p : Park := { pc := c.pc, apc := c.apc, win := c.win, works := c.works, wait := c.wait, latch := c.latch, acc := c.acc, owes := c.owes, counts := c.sb,
                    owed := [], owedV := [] }
  { c with parks := tset c.parks k p, apc := none, win := [], works := [], wait := none, latch := none, acc := [], owes := [], sb := .replicate 16 0, parked := false,
           pause := 0 }

/-- May a slot take one more count? -/
def slotRoom (sb : Vector (BitVec 6) 16) (i : Option Slot) : Bool :=
  match i with
  | some i => sb[i] != 63
  | none => true

/-- Add a count to a slot, where there is one. -/
def slotAdd (sb : Vector (BitVec 6) 16) (i : Option Slot) : Vector (BitVec 6) 16 :=
  match i with
  | some i => sb.set i (sb[i] + 1)
  | none => sb

/-- What an upcall took back issues again, as far as the slots have room (R89, R367). -/
def Ctx.reissue (c : Ctx) : Ctx :=
  let c := c.acc.foldl (fun (c : Ctx) a =>
    if a.back && slotRoom c.sb a.slot then { c with sb := slotAdd c.sb a.slot, acc := c.acc.map fun (x : Access) => if x.aid == a.aid then { x with back := false } else x } else c) c
  c.works.foldl (fun (c : Ctx) w =>
    if w.back && slotRoom c.sb w.latch then { c with sb := slotAdd c.sb w.latch, works := c.works.map fun (x : Work) => if x.id == w.id then { x with back := false } else x } else c) c

/-- Does something that an upcall took back still wait for its slot? -/
def Ctx.unissued (c : Ctx) : Bool := c.acc.any (·.back) || c.works.any (·.back)

/-- Take an upcall: the stream state is parked, the record written, upc set, and issue begins at cr.upcall (R367). -/
def Ctx.takeUpcall (c : Ctx) (u : Upcall) (k : Nat) : Ctx :=
  let c := c.park k
  let named := match u.park with
    | some j => j
    | none => k
  let c := c.setFault (fault0 u.code named u.info u.soft) u.addr u.token u.whence
  { c with st := { c.st with upc := true }, pc := c.cr.upcall }

/-- Deliver the first pending upcall of frame f, if it is deliverable: upc is 0 and a park slot is free, or cr.upcall is 0 and it
escalates with reason 2 (R367, R368). -/
def State.deliverUpcall (s : State) (f : Nat) : State :=
  let c := s.ctx f
  match c.pending with
  | [] => s
  | u :: rest =>
    if c.st.upc ∨ c.returning ∨ c.live = false then s
    else if c.cr.upcall = 0 then (s.setCtx f { c with pending := rest }).escalate f 2 u
    else
      match c.freePark with
      | none => s
      | some k =>
        let d := s.die (dieOf (cluOf (coreOf f)))
        let s := if u.code < 5 then s.setDie (dieOf (cluOf (coreOf f))) { d with pReplay := sat48 d.pReplay 1 } else s
        let s := ({ s with futs := s.futs.filter (·.frame != f) } : State).setCtx f (({ c with pending := rest }).takeUpcall u k)
        s.mapCtx f fun c => { c with deadline := s.nextDeadline f }

/-- Do the parked counts fit beside the present ones (R370)? -/
def Ctx.fits (c : Ctx) (p : Park) : Bool := (List.finRange 16).all fun i => c.sb[i].toNat + p.counts[i].toNat ≤ 63

/-- Return from an upcall: reinstate a park slot's stream state (R370). -/
def Ctx.reinstate (c : Ctx) (k : Nat) (p : Park) : Ctx :=
  let c := p.owed.foldl (fun c w => c.setReg w.1 w.2) c
  let c := p.owedV.foldl (fun c w => c.putLanes w.1 w.2.1 w.2.2) c
  let sb := (List.finRange 16).foldl (fun v i => v.set i (v[i] + p.counts[i])) c.sb
  let c := { c with sb := sb, parks := terase c.parks k, st := { c.st with upc := false } }
  { c with pc := p.pc, apc := p.apc, win := p.win, works := p.works ++ c.works, wait := p.wait, latch := p.latch, acc := p.acc ++ c.acc, owes := p.owes ++ c.owes }.reissue

/-- Write a register and complete, unless a raised flag is trapped (R53): then the flags are set, nothing is written and the core freezes. -/
def State.doneFl (s : State) (fl : Fl) (g : Ctx → Ctx) : State :=
  let s' := s.mapC fun c => c.orFlags fl
  if fl &&& teOf s.c.cr.fctl ≠ 0 then s'.raise 0x24 fl.toNat 0 else s'.done g

/-- The outcome of a meaning: every state of the device is a next state. -/
abbrev Out := Host.Outcome State Fault Refusal

end Sys2Proof.Machine
end

