-- ==== Sys2Proof/Machine/Operands.lean ====
section
/-! DEFINITION. The operand forms: second sources with their literals, effective addresses, the bit-63 rule, and the register pairs and
quads. -/

namespace Sys2Proof.Machine

open Sys2Proof

/-- A second source; the literal is SExt(32, literal) (R63). -/
def Ctx.src (c : Ctx) : Src → Word
  | .reg r => c.getReg r
  | .lit w => w.signExtend 64

/-- A second source of x class. -/
def Ctx.xsrc (c : Ctx) : XSrc → Word
  | .reg i => c.getX i
  | .lit w => w.signExtend 64

/-- The index operand of VEXTR and VINS: the literal is read as UI32 (R137, R142). -/
def Ctx.xsrcU (c : Ctx) : XSrc → Word
  | .reg i => c.getX i
  | .lit w => w.zeroExtend 64

/-- A vector whose every lane is one value. -/
def splat (w : BitVec 32) : Nat → BitVec 8192
  | 0 => 0
  | n + 1 => splat w n <<< 32 ||| w.zeroExtend 8192

/-- A second vector source: the literal in every lane (R137). -/
def Ctx.vsrc (c : Ctx) : VSrc → BitVec 8192
  | .reg i => c.getV i
  | .lit w => splat w 256

/-- Lane i of a vector. -/
def laneOf (v : BitVec 8192) (i : Nat) : BitVec 32 := v.extractLsb' (32 * i) 32

/-- Write lane i. -/
def setLane (v : BitVec 8192) (i : Nat) (w : BitVec 32) : BitVec 8192 :=
  (v &&& ~~~(((2 ^ 32 - 1 : BitVec 8192)) <<< (32 * i))) ||| (w.zeroExtend 8192 <<< (32 * i))

/-- The effective address of a class 01 access: a[base] plus the byte offset (R176). -/
def Ctx.ea (c : Ctx) (base : AReg) (off : BitVec 32) : Word := c.getA base + off.signExtend 64

/-- The effective address of a native M layout: the offset is scaled (R176). -/
def Ctx.eaScaled (c : Ctx) (base : AReg) (off : BitVec 8) (scale : Nat) : Word := c.getA base + off.signExtend 64 * BitVec.ofNat 64 scale

/-- A branch target: 4 × SExt(20, off) from the instruction's address (R112). -/
def Ctx.branchTarget (c : Ctx) (off : BitVec 20) : Word := c.pc + (off.signExtend 64) * 4

/-- The x-register numbered n. -/
def xr (n : Nat) : XReg := ⟨n % 32, by omega⟩

/-- x(2j), where the operand holds j − 1. -/
def evenX (j : Fin 15) : XReg := xr (2 * j.val + 2)
/-- x(2j + 1). -/
def oddX (j : Fin 15) : XReg := xr (2 * j.val + 3)
/-- Word k of the command at x(4j), where the operand holds j − 1 (R73). -/
def Ctx.cmdWord (c : Ctx) (j : Fin 7) (k : Nat) : Word := c.getX (xr (4 * j.val + 4 + k))

/-- Bit 63 names the local store (R152). -/
def isLs (ea : Word) : Bool := ea.getLsbD 63

/-- A local-store address of n bytes is malformed for a window of a size: bits [62:18] are not zero, or it passes the end of the window (R152,
R154, R159, R177). -/
def lsPast (size : Nat) (ea : Word) (n : Nat) : Bool := ea.extractLsb' 18 45 != 0 || decide (size < (ea.extractLsb' 0 18).toNat + n)

/-- A local-store address of n bytes is malformed for a context. -/
def Ctx.lsBad (c : Ctx) (ea : Word) (n : Nat) : Bool := lsPast c.window ea n

/-- A context's window: its physical base and its size (R159). -/
def Ctx.lsWin (c : Ctx) : Nat × Nat := (c.lsPhys 0, c.window)

/-- The window offset of a local-store address. -/
def lsOff (ea : Word) : Nat := (ea.extractLsb' 0 18).toNat

/-- Not a multiple of n. -/
def unaligned (ea : Word) (n : Nat) : Bool := ea.toNat % n != 0

/-- The bytes of a size code 0 to 3 (R68). -/
def sizeBytes (size : BitVec 2) : Nat := 2 ^ size.toNat

/-- The format numbered n, if it is one. -/
def fmtNum (n : Nat) : Option Fmt :=
  match fmtOf n with
  | .ok f => some f
  | .error _ => none

/-- Bits hi:lo of a word, as a number. -/
def bitsOf (w : Word) (hi lo : Nat) : Nat := w.toNat / 2 ^ lo % 2 ^ (hi - lo + 1)

/-- The element size in bytes of a memory format (R152). -/
def fmtBytes (fmt : Fmt) : Nat := (fmtBits fmt + 7) / 8

end Sys2Proof.Machine
end

