-- ==== Sys2Proof/Machine/Home.lean ====
section
/-! DEFINITION. Physical memory and its homes, page tables and translation, and compressed blocks (R157, R167, R172 to R175, R284 to
R288, R299, R300). -/

namespace Sys2Proof.Machine

open Sys2Proof

/-- Why an access is not performed (R196). -/
inductive MFault where
  /-- A page fault with its token kind. -/
  | page (kind : Nat)
  /-- A compression upcall: code and token kind. -/
  | comp (code kind : Nat)
  /-- The physical-address fault. -/
  | phys
  /-- The uncorrectable-error fault. -/
  | poison
  /-- A supervisor access to the device-register range, which is performed there. -/
  | device (pa : Nat)
  /-- The unsupported-access fault (R190). -/
  | unsupported
  /-- Past the end of the local-store window, or misaligned: the misalignment fault. -/
  | window
  /-- A resource is in use; the access is tried again. -/
  | busy
deriving DecidableEq, Repr

/-- The result of an access. -/
abbrev MR (α : Type) := Except MFault (α × State)

/-! Physical addresses (R157). -/

/-- What a physical address holds. -/
inductive PaClass where
  | stack | pool | host | dev | reserved
deriving DecidableEq, Repr

/-- The physical address map. -/
def paClass (pa : Nat) : PaClass :=
  if pa < 0x8000000000 then .stack
  else if 0x10000000000 ≤ pa ∧ pa < 0x28000000000 then .pool
  else if 0x400000000000 ≤ pa ∧ pa < 0x800000000000 then .host
  else if 0x800000000000 ≤ pa then .dev
  else .reserved

/-- SliceOf (R166). -/
def sliceOf (va : Nat) : Nat :=
  (va / 2 ^ 6 % 64) ^^^ (va / 2 ^ 12 % 64) ^^^ (va / 2 ^ 18 % 64) ^^^ (va / 2 ^ 24 % 64) ^^^ (va / 2 ^ 30 % 64) ^^^ (va / 2 ^ 36 % 64)
    ^^^ (va / 2 ^ 42 % 64) ^^^ (va / 2 ^ 48 % 16)

/-- Home (R167): die and slice. -/
def homeOf (pa : Nat) : Nat × Nat :=
  let f := pa / 2 ^ 16 % 2 ^ 32
  (if paClass pa = .stack then pa / 2 ^ 37 % 4 else f % 4,
    (f % 64) ^^^ (f / 2 ^ 6 % 64) ^^^ (f / 2 ^ 12 % 64) ^^^ (f / 2 ^ 18 % 64) ^^^ (f / 2 ^ 24 % 64) ^^^ (f / 2 ^ 30 % 4))

/-- The slice that serves a line or frame: a fenced one passes it to the lowest unfenced slice above, modulo 64 (R380). -/
def State.served (s : State) (die slice : Nat) : Nat :=
  match (List.range 64).find? fun k => !((s.die die).fencedSlices.contains ((slice + k) % 64)) with
  | some k => (slice + k) % 64
  | none => slice

/-- Segment n of a 4-port mapping (R385); which device and address it goes to is Weward's: DESIGN CHOICE (log 14). -/
def Segment.default (n : Nat) : Segment := { port := n % 4, fam := n % 4, dpa := n / 4 * 2 ^ 28 }

/-- A segment as Weward's table has it. -/
def State.segment (s : State) (n : Nat) : Segment := tget (Segment.default n) s.dev.segments n

/-- The pool port of an address's segment, if it is mapped (R385). -/
def State.segmentPort (s : State) (pa : Nat) : Option Nat :=
  let p := (s.segment ((pa - 0x10000000000) / 2 ^ 28)).port
  if s.dev.pooled && decide (p < 4) then some p else none

/-- The fault of an access to a physical address, if any (R157, R385, R386). A stack that failed in training is as an address that does not exist:
DESIGN CHOICE (log 88). -/
def State.paFault (s : State) (user : Bool) (pa : Nat) : Option MFault :=
  match paClass pa with
  | .stack => if s.dev.stacksDown.contains (pa / 2 ^ 36) then some .phys else none
  | .host => none
  | .reserved => some .phys
  | .dev => if user then some .phys else some (.device pa)
  | .pool =>
    match s.segmentPort pa with
    | none => some .phys
    | some p => if s.dev.refusedPorts.contains p then some .poison else none

/-- Why the hardware's own access to a record, a page table or a sector at a physical address fails, if it does (R157, R385, R386). -/
def State.tableFault (s : State) (pa : Nat) : Option MFault :=
  match s.paFault true pa with
  | some .poison => some .poison
  | some _ => some .phys
  | none => none

/-! Lines. -/

/-- The bits of the bytes of a mask. -/
def spread (m : BitVec 64) : Nat → BitVec 512
  | 0 => 0
  | n + 1 => spread m n ||| (if m.getLsbD n then (255 : BitVec 512) <<< (8 * n) else 0)

/-- The bytes of a mask from one line, the others from another (R202). -/
def mergeLine (old new : BitVec 512) (m : BitVec 64) : BitVec 512 :=
  let b := spread m 64
  (old &&& ~~~b) ||| (new &&& b)

/-- The mask of n bytes at offset o. -/
def byteMask (o n : Nat) : BitVec 64 := .ofNat 64 ((2 ^ n - 1) * 2 ^ o)

/-- n bytes at offset o of a line. -/
def lineGet (d : BitVec 512) (o n : Nat) : Nat := d.toNat / 2 ^ (8 * o) % 2 ^ (8 * n)

/-- The line with n bytes at offset o written. -/
def lineSet (d : BitVec 512) (o n v : Nat) : BitVec 512 := mergeLine d (.ofNat 512 (v % 2 ^ (8 * n) * 2 ^ (8 * o))) (byteMask o n)

/-- Write the masked bytes of a line to memory. -/
def Memory.writeMasked (m : Memory) (pa : Nat) (d : BitVec 512) (mask : BitVec 64) : Nat → Memory
  | 0 => m
  | n + 1 =>
    let m := Memory.writeMasked m pa d mask n
    if mask.getLsbD n then m.set (pa + n) (d.extractLsb' (8 * n) 8) else m

/-- A byte as its home has it: what the home slice holds of it, or else memory. -/
def State.homeByte (s : State) (pa : Nat) : Byte :=
  match s.homes.find? fun h => h.line == pa / 64 && h.mask.getLsbD (pa % 64) with
  | some h => h.data.extractLsb' (8 * (pa % 64)) 8
  | none => s.mem.get pa

/-- n bytes from an address at their homes, as a little-endian number. -/
def State.homeRead (s : State) (pa n : Nat) : Nat :=
  if s.homes.isEmpty then s.mem.read pa n else ((List.range n).map fun k => (s.homeByte (pa + k)).toNat * 2 ^ (8 * k)).sum

/-- n bytes from an address at their homes. -/
def State.homeBytesOf (s : State) (pa n : Nat) : List Byte :=
  if s.homes.isEmpty then s.mem.readBytes pa n else (List.range n).map fun k => s.homeByte (pa + k)

/-- The line at a home. -/
def State.homeLine (s : State) (pa : Nat) : BitVec 512 := .ofNat 512 (s.homeRead pa 64)

/-! Heat sampling (R359). -/

/-- One read or write of a line that a home slice issues to stacked or pool memory. -/
def State.heatTick (s : State) (pa : Nat) : State :=
  let h := homeOf pa
  let d := s.die h.1
  let slice := s.served h.1 h.2
  if d.heatctl.getLsbD 9 && (paClass pa == .stack || paClass pa == .pool) then
    let top := 2 ^ bitsOf d.heatctl 3 0
    let n := tget top d.samplers slice
    if n ≤ 1 then s.setDie h.1 { d with samplers := tset d.samplers slice top, heat := d.heat ++ [(slice, pa / 65536)] }
    else s.setDie h.1 { d with samplers := tset d.samplers slice (n - 1) }
  else s

/-! Copies while writable (R297). -/

/-- Mark a line that a copy of its frame has copied, and that is written now. -/
def Move.noteWrite (pa : Nat) (m : Move) : Move :=
  if m.frame = some (pa / 65536) ∧ pa / 64 % 1024 < m.copied ∧ m.marked.contains (pa / 64 % 1024) = false then { m with marked := m.marked ++ [pa / 64 % 1024] } else m

/-- The line at an address is written: copies of its frame that are under way mark it. -/
def State.noteMoved (s : State) (pa : Nat) : State :=
  (List.range Config.dies).foldl (fun s k =>
    let d := s.die k
    if d.moves.any fun m => m.noteWrite pa != m then s.setDie k { d with moves := d.moves.map (Move.noteWrite pa) } else s) s

/-- Masked bytes of a line stand in its home slice, over those it holds already. -/
def holdLine (d : BitVec 512) (mask : BitVec 64) (line : Nat) (hs : List HomeLine) : List HomeLine :=
  match hs.find? (·.line == line) with
  | some h => hs.map fun x => if x.line == line then { x with data := mergeLine h.data d mask, mask := h.mask ||| mask } else x
  | none => hs ++ [{ line := line, data := d, mask := mask }]

/-- Masked bytes arrive at a home by no request that heat counts: a full line clears poison (R169, R202). A home slice writes through to stacked
memory; of pool and host memory it holds them until a release at .sys or a snoop (R170, R182, R384). -/
def State.quietWrite (s : State) (pa : Nat) (d : BitVec 512) (mask : BitVec 64) : State :=
  if mask = 0 then s
  else
    let s := s.noteMoved pa
    let s := { s with poison := if mask = BitVec.allOnes 64 then s.poison.filter (· != pa / 64) else s.poison }
    if paClass pa = .pool ∨ paClass pa = .host then { s with homes := holdLine d mask (pa / 64) s.homes }
    else { s with mem := s.mem.writeMasked pa d mask 64 }

/-- Masked bytes of a writeback, an uncached write or a log write arrive at a home (R359). -/
def State.homeWrite (s : State) (pa : Nat) (d : BitVec 512) (mask : BitVec 64) : State :=
  if mask = 0 then s else (s.heatTick pa).quietWrite pa d mask

/-- What a home slice holds of a line is written through to its CXL home. -/
def State.writeThrough (s : State) (pa : Nat) : State :=
  match s.homes.find? (·.line == pa / 64) with
  | some h => { s with mem := s.mem.writeMasked (pa / 64 * 64) h.data h.mask 64, homes := s.homes.filter (·.line != pa / 64) }
  | none => s

/-! Translation (R284 to R287). -/

/-- The physical address of an address-space record. -/
def State.recordAt (s : State) (asid : Nat) : Nat := s.dev.asidTable + 64 * asid

/-- Is a page-table entry malformed? A pool bit is checked against the frame of a page without c. -/
def pteBad (level : Nat) (e : Nat) : Bool :=
  let pg := e.testBit 50
  let addr := e % 2 ^ 48
  let leaf := level == 3 || (level == 2 && pg)
  (pg && level != 2) || e / 2 ^ 48 % 4 != 0
    || (if leaf then
          (if e.testBit 58 then addr % 128 != 0
           else addr % (if level = 2 then 2 ^ 28 else 2 ^ 16) != 0
            || (e.testBit 53 != (paClass addr == .pool || paClass addr == .host) && paClass addr != .reserved && paClass addr != .dev)
            || (e.testBit 53 && (paClass addr == .reserved || paClass addr == .dev)))
        else addr % 32768 != 0)

/-- The levels of a walk from a table: the leaf entry and the page's size in bits, or the fault. -/
def State.walkFrom (s : State) (va : Nat) : Nat → Nat → Except MFault (Nat × Nat)
  | 0, _ => .error .phys
  | n + 1, table =>
    let level := 3 - n
    let pa := table + 8 * (va / 2 ^ (16 + 12 * n) % 4096)
    match s.tableFault pa with
    | some x => .error x
    | none =>
      let e := s.homeRead pa 8
      if e.testBit 63 = false then .error (.page 1)
      else if pteBad level e then .error (.page 4)
      else if level = 3 then .ok (e, 16)
      else if level = 2 ∧ e.testBit 50 then .ok (e, 28)
      else s.walkFrom va n (e % 2 ^ 48)

/-- A walk (R286). -/
def State.walk (s : State) (asid va : Nat) : Except MFault (Nat × Nat) :=
  match s.tableFault (s.recordAt asid) with
  | some x => .error x
  | none =>
    let root := s.homeRead (s.recordAt asid) 8
    if root.testBit 0 = false then .error .phys else s.walkFrom va 3 (root % 2 ^ 48 / 32768 * 32768)

/-- The r, w, x and u bits of a leaf, as 8, 4, 2 and 1. -/
def leafPerms (e : Nat) : BitVec 4 := .ofNat 4 (e / 2 ^ 59)

/-- Do permissions allow what an access needs? -/
def permits (need perms : BitVec 4) : Bool := need &&& ~~~perms == 0

/-- A translation: a frame's physical address, or a compressed page's map entry and codebook. -/
structure Trans where
  leaf : Nat
  pa : Nat
  comp : Bool
  cb : Nat
  perms : BitVec 4
deriving DecidableEq, Repr

/-- The translation a leaf gives. -/
def transOf (leaf size va : Nat) : Trans :=
  let addr := leaf % 2 ^ 48
  let comp := leaf.testBit 58
  { leaf := leaf, comp := comp, cb := leaf / 2 ^ 54 % 16, perms := leafPerms leaf,
    pa := if comp then addr + 8 * (va % 2 ^ size / 4096) else addr + va % 2 ^ size }

/-- Translate at a slice, through its translation cache of 2,048 entries; only valid leaves are cached, the oldest is replaced. -/
def State.translate (s : State) (die slice asid va : Nat) (need : BitVec 4) : MR Trans :=
  if 2 ^ 52 ≤ va then .error (.page 3)
  else
    let hit := s.tlb.find? fun t => t.die == die && t.slice == slice && t.asid == asid && t.page == va / 2 ^ t.size
    let found : Except MFault (Nat × Nat × State) := match hit with
      | some t => .ok (t.leaf, t.size, s)
      | none =>
        match s.walk asid va with
        | .error e => .error e
        | .ok (leaf, size) =>
          let mine := s.tlb.filter fun t => t.die == die && t.slice == slice
          let old := if 2048 ≤ mine.length then mine.head? else none
          let rest := match old with
            | some o => s.tlb.filter (· != o)
            | none => s.tlb
          .ok (leaf, size, { s with tlb := rest ++ [{ die := die, slice := slice, asid := asid, page := va / 2 ^ size, size := size, leaf := leaf }] })
    match found with
    | .error e => .error e
    | .ok (leaf, size, s) =>
      let t := transOf leaf size va
      if permits need t.perms then .ok (t, s) else .error (.page 2)

/-! Compressed blocks (R172 to R175, R193, R299, R300). -/

/-- Codes in ascending length, then ascending symbol (R193): length, code, symbol. -/
def canonCodes (lens : List Nat) : List (Nat × Nat × Nat) :=
  let go := fun (st : Nat × List (Nat × Nat × Nat)) (len : Nat) =>
    ((List.range 256).filter fun k => lens.getD k 0 == len).foldl (fun (st : Nat × List (Nat × Nat × Nat)) sym => (st.1 + 1, st.2 ++ [(len, st.1, sym)]))
      (st.1 * 2, st.2)
  (((List.range 15).map (· + 1)).foldl go (0, [])).2

/-- The sum of 2^(15 − len) over present symbols: at most 2^15 for a code (R193). -/
def kraft (lens : List Nat) : Nat := (lens.map fun l => if l = 0 then 0 else 2 ^ (15 - l)).sum

/-- Bits of a code, from its most significant. -/
def codeBits (code : Nat) : Nat → List Bool
  | 0 => []
  | n + 1 => code.testBit n :: codeBits code n

/-- Pack bits into bytes, bit 0 first: PRESUMED (log 17). -/
def packBits (bs : List Bool) : Nat → List Byte
  | 0 => []
  | n + 1 => .ofNat 8 ((bs.take 8).foldr (fun b v => 2 * v + b.toNat) 0) :: packBits (bs.drop 8) n

/-- The bits of bytes. -/
def bitsOfBytes (bs : List Byte) : List Bool := bs.flatMap fun b => (List.range 8).map fun k => b.getLsbD k

/-- Compress a block; none when a byte has no code or it would need 16 sectors. -/
def compress (lens : List Nat) (bytes : List Byte) : Option (List Byte) :=
  let codes := canonCodes lens
  let bits := bytes.foldr (fun b acc => match acc with
    | none => none
    | some t =>
      match codes.find? (·.2.2 == b.toNat) with
      | some (len, code, _) => some (codeBits code len ++ t)
      | none => none) (some [])
  match bits with
  | none => none
  | some bs =>
    let n := (bs.length + 2047) / 2048
    if 16 ≤ n then none else some (packBits bs (256 * n))

/-- Read one symbol: the symbol and the bits left. -/
def readCode (codes : List (Nat × Nat × Nat)) : Nat → Nat → Nat → List Bool → Option (Nat × List Bool)
  | 0, _, _, _ => none
  | _, _, _, [] => none
  | fuel + 1, len, code, b :: bs =>
    let code := 2 * code + b.toNat
    match codes.find? fun c => c.1 == len + 1 && c.2.1 == code with
    | some c => some (c.2.2, bs)
    | none => readCode codes fuel (len + 1) code bs

/-- Expand n symbols; none for a corrupt stream. -/
def expand (codes : List (Nat × Nat × Nat)) : Nat → List Bool → Option (List Byte)
  | 0, _ => some []
  | n + 1, bs =>
    match readCode codes 15 0 0 bs with
    | none => none
    | some (sym, bs) => (expand codes n bs).map (BitVec.ofNat 8 sym :: ·)

/-- The log of an address space: base, length, head and tail in sectors. -/
structure LogSt where
  base : Nat
  len : Nat
  head : Nat
  tail : Nat
deriving DecidableEq, Repr

/-- The log as the address-space record holds it. -/
def State.log (s : State) (asid : Nat) : LogSt :=
  let r := s.recordAt asid
  { base := s.homeRead (r + 8) 8 % 2 ^ 48, len := s.homeRead (r + 16) 4, head := s.homeRead (r + 20) 4, tail := s.homeRead (r + 24) 4 }

/-- Free sectors. -/
def LogSt.free (l : LogSt) : Nat := (l.tail + 2 * l.len - l.head - 1) % l.len

/-- Has a log no free sector (R300)? One of length 0 has none. -/
def LogSt.full (l : LogSt) : Bool := l.len == 0 || l.free == 0

/-- The physical addresses of n consecutive sectors from an address, wrapping at the log's end. -/
def LogSt.sectors (l : LogSt) (first n : Nat) : List Nat :=
  (List.range n).map fun k =>
    if l.len = 0 then first + 256 * k else l.base + 256 * (((first - l.base) / 256 + k) % l.len)

/-- A map entry's fields. -/
structure MapEntry where
  valid : Bool
  raw : Bool
  ver : Nat
  nsec : Nat
  sector : Nat
deriving DecidableEq, Repr

/-- The map entry at a physical address; reserved bits make it invalid. -/
def State.mapEntry (s : State) (pa : Nat) : MapEntry :=
  let e := s.homeRead pa 8
  { valid := e.testBit 63 && e / 2 ^ 40 % 1024 == 0, raw := e.testBit 62, ver := e / 2 ^ 54 % 256, nsec := e / 2 ^ 50 % 16 + 1,
    sector := e % 2 ^ 40 * 256 }

/-! The codebook state of an address space (R193, R284, R300): at cbtab, 64 bytes for each id; the hardware's own layout is here the current
version in byte 0, the older live one in byte 1, and their in-flight counts in bytes 8 to 11 and 12 to 15 (DESIGN CHOICE, log 56). The codes
themselves are State.books. -/

/-- The codebook state of an id. -/
def State.cbAt (s : State) (asid id : Nat) : Nat := s.homeRead (s.recordAt asid + 32) 8 % 2 ^ 48 / 64 * 64 + 64 * id

/-- The current and the older live version of an id; 0 for none. -/
def State.cbVersions (s : State) (asid id : Nat) : Nat × Nat :=
  let v := s.homeRead (s.cbAt asid id) 2
  (v % 256, v / 256)

/-- The tiles in flight under the older version. -/
def State.cbInFlight (s : State) (asid id : Nat) : Nat := s.homeRead (s.cbAt asid id + 12) 4

/-- A live codebook version. -/
def State.book (s : State) (asid id ver : Nat) : Option Codebook :=
  let v := s.cbVersions asid id
  if ver ≠ 0 ∧ (ver = v.1 ∨ ver = v.2) then s.books.find? fun b => b.asid == asid && b.id == id && b.ver == ver else none

/-- The current codebook of an id. -/
def State.curBook (s : State) (asid cb : Nat) : Option Codebook := s.book asid cb (s.cbVersions asid cb).1

/-- The sectors of a block. -/
def State.sectorsOf (s : State) (asid pa : Nat) : List Nat :=
  let e := s.mapEntry pa
  (s.log asid).sectors e.sector e.nsec

/-- The lines of sectors. -/
def sectorLines (secs : List Nat) : List Nat := secs.flatMap fun a => (List.range 4).map fun k => a + 64 * k

/-- The home slices have read the sectors of a block (R359). -/
def State.tickBlock (s : State) (asid pa : Nat) : State := (sectorLines (s.sectorsOf asid pa)).foldl State.heatTick s

/-- Why the map entry at an address, or a sector of its block, cannot be reached, if one cannot: before any failure of compression (R196). -/
def State.blockFault (s : State) (asid pa : Nat) : Option MFault :=
  match s.tableFault pa with
  | some x => some x
  | none => if (s.mapEntry pa).valid then (s.sectorsOf asid pa).findSome? s.tableFault else none

/-- What reading a block through its map entry gives: its bytes, or none for a corrupt stream. A codebook is missed before the sectors are read
(R196); a poisoned sector is an uncorrectable error (R169). Of a raw block that its entry gives fewer than 16 sectors, the bytes beyond them read 0: DESIGN CHOICE, the spec has none such (log 56). -/
def State.readBlock (s : State) (asid cb pa : Nat) : Except MFault (Option (List Byte)) :=
  match s.blockFault asid pa with
  | some x => .error x
  | none =>
    let e := s.mapEntry pa
    let secs := s.sectorsOf asid pa
    let book := s.book asid cb e.ver
    if e.valid = false then .error (.comp 3 6)
    else if !e.raw && book.isNone then .error (.comp 4 7)
    else if (sectorLines secs).any fun a => s.poison.contains (a / 64) then .error .poison
    else
      let bytes := secs.flatMap fun a => s.homeBytesOf a 256
      match e.raw, book with
      | false, some b => .ok (expand (canonCodes b.lens) 4096 (bitsOfBytes bytes))
      | _, _ => .ok (some (bytes ++ List.replicate (4096 - bytes.length) 0))

/-- What reading a block gives that is to be written again: an exhausted log is found before what a reading of the block finds (R195, R196). -/
def State.rewritable (s : State) (asid cb pa : Nat) : Except MFault (Option (List Byte)) :=
  match s.blockFault asid pa with
  | some x => .error x
  | none => if (s.log asid).full then .error (.comp 2 5) else s.readBlock asid cb pa

/-- Write bytes at their homes by no request that heat counts, a line at a time. -/
def State.quietPut (s : State) (pa : Nat) : Nat → List Byte → State
  | 0, _ => s
  | fuel + 1, bs =>
    if bs.isEmpty then s
    else
      let k := min bs.length (64 - pa % 64)
      (s.quietWrite (pa / 64 * 64) (lineSet 0 (pa % 64) k (wordOfBytes (bs.take k))) (byteMask (pa % 64) k)).quietPut (pa + k) fuel (bs.drop k)

/-- Write bytes at their homes, a line at a time. -/
def State.homePut (s : State) (pa : Nat) : Nat → List Byte → State
  | 0, _ => s
  | fuel + 1, bs =>
    if bs.isEmpty then s
    else
      let k := min bs.length (64 - pa % 64)
      (s.homeWrite (pa / 64 * 64) (lineSet 0 (pa % 64) k (wordOfBytes (bs.take k))) (byteMask (pa % 64) k)).homePut (pa + k) fuel (bs.drop k)

/-- The hardware writes n bytes of a number, in a record, a page table or a map entry, at their home. -/
def State.homeNum (s : State) (pa n v : Nat) : State := s.quietPut pa 2 (bytesOf n v)

/-- Write a block at the log's head, then replace its map entry (R174, R300). A map entry that cannot be reached is found first, then the log is found exhausted before a codebook is missed (R196); the
lines of the sectors are written whole, which clears poison. -/
def State.writeBlock (s : State) (asid cb pa : Nat) (bytes : List Byte) : Except MFault State :=
  let l := s.log asid
  if let some x := s.tableFault pa then .error x
  else if l.full then .error (.comp 2 5)
  else
    match s.curBook asid cb with
    | none => .error (.comp 4 7)
    | some b =>
      let (raw, data) := match compress b.lens bytes with
        | some d => (false, d)
        | none => (true, bytes)
      let n := (data.length + 255) / 256
      if l.free < n then .error (.comp 2 5)
      else
        let first := l.base + 256 * l.head
        match (l.sectors first n).findSome? s.tableFault with
        | some x => .error x
        | none =>
        let entry := 2 ^ 63 + (if raw then 2 ^ 62 else b.ver * 2 ^ 54) + (n - 1) * 2 ^ 50 + first / 256 % 2 ^ 40
        let s := (l.sectors first n).zipIdx.foldl (fun s a => s.homePut a.1 6 ((data.drop (256 * a.2)).take 256)) s
        .ok ((s.homeNum (s.recordAt asid + 20) 4 ((l.head + n) % l.len)).homeNum pa 8 entry)

end Sys2Proof.Machine
end

