-- ==== Sys2Proof/Machine/Ports.lean ====
section
/-! DEFINITION. Port registers: sends, takes and bindings (R269, R270). -/

namespace Sys2Proof.Machine

open Sys2Proof

/-- The port an instruction takes a word from. -/
def takesFrom : Instr → Option NReg
  | .mov _ (.n i) => some i
  | .ptry _ i _ => some i
  | _ => none

/-- The port an instruction sends a word on. -/
def sendsOn : Instr → Option NReg
  | .mov (.n i) _ => some i
  | .ptrys i _ _ => some i
  | _ => none

/-- A port of a core. -/
def CoreSt.port (k : CoreSt) (n : Nat) : Port := tget Port.reset k.ports n
/-- Write a port. -/
def CoreSt.setPort (k : CoreSt) (n : Nat) (p : Port) : CoreSt := { k with ports := tset k.ports n p }

/-- Since when the selected context waits, or now. -/
def State.since (s : State) : BitVec 64 :=
  match s.c.wait with
  | some w => w.since
  | none => s.time

/-- The issued instructions of a context that wait beside its streams. -/
def Ctx.beside (c : Ctx) : List Wait := (c.works.filter fun w => !w.back).map (·.wait)

/-- The instructions of a context that wait, in its stream and beside it. -/
def Ctx.waits (c : Ctx) : List Wait := c.wait.toList ++ c.beside

/-- Those, and the instructions that wait in its park slots (R367). -/
def Ctx.allWaits (c : Ctx) : List Wait := c.waits ++ c.parks.flatMap fun kp => kp.2.wait.toList ++ kp.2.works.map (·.wait)

/-- Does another instruction of the core that satisfies a test, issued earlier, wait on the port (R270)? -/
def State.earlier (s : State) (which : Instr → Option NReg) (n : NReg) (p : Wait → Bool := fun _ => true) : Bool :=
  (framesOf s.myCore).any fun g =>
    let c := s.ctx g
    c.live && (if g = s.self then c.beside else c.waits).any fun w =>
      p w && !w.wrap && w.instr.bind which == some n && (decide (w.since < s.since) || (w.since == s.since && decide (g < s.self)))

/-- Take a word from a port: the oldest one, if any is there and no earlier instruction waits for it. -/
def State.portTake (s : State) (n : NReg) : Option (Word × State) :=
  if s.earlier takesFrom n then none
  else
    let k := s.core s.myCore
    match (k.port n.val).buf with
    | [] => none
    | w :: ws => some (w, s.setCore s.myCore (k.setPort n.val { k.port n.val with buf := ws }))

/-- The core and port a binding word names (R269). -/
def bindingDest (w : Word) : Nat × Nat :=
  ((bitsOf w 13 12 * 16 + bitsOf w 11 8) * 8 + bitsOf w 7 5, bitsOf w 4 2)

/-- Is there room for a word where the port is bound, and may it be delivered now (R270)? -/
def State.portRoom (s : State) (n : NReg) : Option (Nat × Nat) :=
  match ((s.core s.myCore).port n.val).binding with
  | none => none
  | some w =>
    let d := bindingDest w
    let k := s.core d.1
    if k.frozen ∨ k.fenced ∨ s.dev.halted ∨ 4 ≤ (k.port d.2).buf.length then none else some d

/-- Send a word on a port: it is placed in the destination's buffer. -/
def State.portSend (s : State) (n : NReg) (w : Word) : Option State :=
  if s.earlier sendsOn n then none
  else (s.portRoom n).map fun d =>
    let k := s.core d.1
    s.setCore d.1 (k.setPort d.2 { k.port d.2 with buf := (k.port d.2).buf ++ [w] })

/-- A send waits on a port: it has a destination from the moment a binding stands (R270), which its wait holds. -/
def State.stallSend (s : State) (n : NReg) (limit : Option Word := none) : State :=
  let t := match limit with
    | some l => s.stallFor l
    | none => s.stall
  t.mapWait fun w => { w with arg := if ((s.core s.myCore).port n.val).binding.isSome then 1 else w.arg }

/-- A waiting send on a port has a destination. -/
def Wait.destined (n : NReg) (w : Wait) : Wait := if w.instr.bind sendsOn == some n then { w with arg := 1 } else w

/-- A binding has been written: the sends that wait on the port have a destination. -/
def State.destine (s : State) (n : NReg) : State :=
  (framesOf s.myCore).foldl (fun s g => s.mapCtx g fun c =>
    { c with wait := c.wait.map (Wait.destined n), works := c.works.map fun (w : Work) => { w with wait := w.wait.destined n } }) s

/-- PCFG (R270): wait for earlier sends that have a destination, whether or not its binding still stands; then bind or unbind. -/
def execPcfg (d : NReg) (a : XReg) (s : State) : Out :=
  let w := s.c.getX a
  let k := s.core s.myCore
  if s.earlier sendsOn d (·.arg == 1) then .next (s.stall)
  else if bitsOf w 62 14 ≠ 0 ∨ bitsOf w 1 0 ≠ 0 ∨ (w.getLsbD 63 ∧ (s.core (bindingDest w).1).fenced) then .next s.reservedField
  else
    let b := if w.getLsbD 63 then some w else none
    let s := s.setCore s.myCore (k.setPort d.val { k.port d.val with binding := b, by_ := s.self })
    .next ((if b.isSome then s.destine d else s).done fun c => { c with bound := if b.isSome then d.val :: c.bound.filter (· != d.val) else c.bound.filter (· != d.val) })

/-- The outcome of PTRY by expiry: d unchanged, p ← false. -/
def State.ptryFail (s : State) (p : PReg) : State := s.done fun c => c.setP p false

/-- PTRY (R270): take a word, waiting at most the cycles cr.ptmo gave when the wait began; the expiry itself is PTRY_TIMEOUT. -/
def execPtry (d : Reg) (a : NReg) (p : PReg) (s : State) : Out :=
  match s.portTake a with
  | some (w, s) => .next (s.done fun c => (c.setReg d w).setP p true)
  | none => if s.overLimit then .next (s.ptryFail p) else .next (s.stallFor s.c.cr.ptmo)

/-- PTRYS (R270): send a word, waiting at most the cycles cr.ptmo gave when the wait began. -/
def execPtrys (d : NReg) (a : Reg) (p : PReg) (s : State) : Out :=
  match s.portSend d (s.c.getReg a) with
  | some s => .next (s.done fun c => c.setP p true)
  | none => if s.overLimit then .next (s.ptryFail p) else .next (s.stallSend d (some s.c.cr.ptmo))

/-- MOV (R109, R270). A move from port to port takes and sends in one step, when both can happen. -/
def execMov (d a : RegN) (s : State) : Out :=
  match d, a with
  | .x d, .x a => .next (s.done fun c => c.setX d (c.getX a))
  | .a d, .a a => .next (s.done fun c => c.setA d (c.getA a))
  | .a d, .x a => .next (s.done fun c => c.setA d (c.getX a))
  | .x _, .a _ => .next s.illegal
  | .x d', .n n =>
    match s.portTake n with
    | some (w, s) => .next (s.done fun c => c.setX d' w)
    | none => .next (s.stall)
  | .a d', .n n =>
    match s.portTake n with
    | some (w, s) => .next (s.done fun c => c.setA d' w)
    | none => .next (s.stall)
  | .n n, .x r =>
    match s.portSend n (s.c.getX r) with
    | some s => .next s.retire
    | none => .next (s.stallSend n)
  | .n n, .a r =>
    match s.portSend n (s.c.getA r) with
    | some s => .next s.retire
    | none => .next (s.stallSend n)
  | .n n, .n m =>
    match s.portTake m with
    | some (w, s') =>
      match s'.portSend n w with
      | some s => .next s.retire
      | none => .next (s.stallSend n)
    | none => .next (s.stallSend n)

/-- What frame f waits in, if it waits and may move. A long form's wrapper that waits has not issued its instruction (R61). -/
def State.waiting (s : State) (f : Nat) : Option Instr :=
  let c := s.ctx f
  if c.live && !(s.core (coreOf f)).frozen then
    match c.wait with
    | some w => if w.wrap then none else w.instr
    | none => none
  else none

/-- A context whose wait has ended has become ready: its deadline counts from now (R336). -/
def State.readied (s : State) : State := if s.c.wait.isNone then s.mapC fun c => { c with deadline := s.nextDeadline s.self } else s

/-- Try a waiting instruction of frame f again: the move of the agent that ends its wait. -/
def State.retry (s : State) (f : Nat) (run : State → Out) : Out :=
  let t := (s.select f).mapC fun c =>
    match c.wait with
    | some w => { c with npc := w.npc }
    | none => c
  match run t with
  | .next t => .next (t.readied.select s.self)
  | r => r

/-- PORT_WORD_DELIVERY (R270): the word a context waits to send is placed, or the word it waits to take arrives. -/
def execPortWordDelivery (f : Nat) (s : State) : Out :=
  match s.waiting f with
  | some (.mov d a) => s.retry f (execMov d a)
  | some (.ptry d a p) => s.retry f (execPtry d a p)
  | some (.ptrys d a p) => s.retry f (execPtrys d a p)
  | _ => .next s

/-- PTRY_TIMEOUT (R270): a PTRY that has waited cr.ptmo cycles ends with false. -/
def execPtryTimeout (f : Nat) (s : State) : Out :=
  match s.waiting f with
  | some (.ptry d a p) => if (s.select f).overLimit then s.retry f (execPtry d a p) else .next s
  | _ => .next s

/-- PTRYS_TIMEOUT (R270): a PTRYS that has waited cr.ptmo cycles ends with false, its word never sent. -/
def execPtrysTimeout (f : Nat) (s : State) : Out :=
  match s.waiting f with
  | some (.ptrys d a p) => if (s.select f).overLimit then s.retry f (execPtrys d a p) else .next s
  | _ => .next s

end Sys2Proof.Machine
end

