-- ==== Sys2Proof/Machine/Scalar.lean ====
section
/-! DEFINITION. The scalar instructions: integer, bit field, compare, predicate, move, branch, hint, trap, control register and scalar
floating point (R100 to R128). -/

namespace Sys2Proof.Machine

open Sys2Proof

/-! Integer arithmetic (R102, R103). -/

/-- Signed division, truncating; by zero gives all ones, and −2^63 by −1 wraps (R103). -/
def divS (a b : Word) : Word := if b = 0 then BitVec.allOnes 64 else BitVec.ofInt 64 (a.toInt.tdiv b.toInt)
/-- Unsigned division; by zero gives all ones. -/
def divU (a b : Word) : Word := if b = 0 then BitVec.allOnes 64 else .ofNat 64 (a.toNat / b.toNat)
/-- Signed remainder; by zero gives a. -/
def remS (a b : Word) : Word := if b = 0 then a else BitVec.ofInt 64 (a.toInt.tmod b.toInt)
/-- Unsigned remainder; by zero gives a. -/
def remU (a b : Word) : Word := if b = 0 then a else .ofNat 64 (a.toNat % b.toNat)
/-- The high word of the signed product. -/
def mulHi (a b : Word) : Word := .ofInt 64 (a.toInt * b.toInt / 2 ^ 64)
/-- The high word of the unsigned product. -/
def mulHiU (a b : Word) : Word := .ofNat 64 (a.toNat * b.toNat / 2 ^ 64)
/-- A shift amount: b[5:0]. -/
def shAmt (b : Word) : Nat := b.toNat % 64

/-- A two-source operation (R102). -/
def alu2 (f : Word → Word → Word) (d a : Reg) (b : Src) (s : State) : Out :=
  .next (s.done fun c => c.setReg d (f (c.getReg a) (c.src b)))

/-- A register and a constant. -/
def aluC (f : Word → Word) (d a : Reg) (s : State) : Out := .next (s.done fun c => c.setReg d (f (c.getReg a)))

/-- ADD (R102). -/
def execAdd (d a : Reg) (b : Src) (s : State) : Out := alu2 (fun a b => a + b) d a b s
/-- SUB (R102). -/
def execSub (d a : Reg) (b : Src) (s : State) : Out := alu2 (fun a b => a - b) d a b s
/-- MUL (R102). -/
def execMul (d a : Reg) (b : Src) (s : State) : Out := alu2 (fun a b => a * b) d a b s
/-- MULH (R102). -/
def execMulh (d a : Reg) (b : Src) (s : State) : Out := alu2 (fun a b => mulHi a b) d a b s
/-- MULHU (R102). -/
def execMulhu (d a : Reg) (b : Src) (s : State) : Out := alu2 (fun a b => mulHiU a b) d a b s
/-- DIV (R103). -/
def execDiv (d a : Reg) (b : Src) (s : State) : Out := alu2 (fun a b => divS a b) d a b s
/-- DIVU (R103). -/
def execDivu (d a : Reg) (b : Src) (s : State) : Out := alu2 (fun a b => divU a b) d a b s
/-- REM (R103). -/
def execRem (d a : Reg) (b : Src) (s : State) : Out := alu2 (fun a b => remS a b) d a b s
/-- REMU (R103). -/
def execRemu (d a : Reg) (b : Src) (s : State) : Out := alu2 (fun a b => remU a b) d a b s
/-- AND (R102). -/
def execAnd (d a : Reg) (b : Src) (s : State) : Out := alu2 (fun a b => a &&& b) d a b s
/-- OR (R102). -/
def execOr (d a : Reg) (b : Src) (s : State) : Out := alu2 (fun a b => a ||| b) d a b s
/-- XOR (R102). -/
def execXor (d a : Reg) (b : Src) (s : State) : Out := alu2 (fun a b => a ^^^ b) d a b s
/-- ANDN (R102). -/
def execAndn (d a : Reg) (b : Src) (s : State) : Out := alu2 (fun a b => a &&& ~~~b) d a b s
/-- SHL (R102). -/
def execShl (d a : Reg) (b : Src) (s : State) : Out := alu2 (fun a b => a <<< shAmt b) d a b s
/-- SHR (R102). -/
def execShr (d a : Reg) (b : Src) (s : State) : Out := alu2 (fun a b => a >>> shAmt b) d a b s
/-- SAR (R102). -/
def execSar (d a : Reg) (b : Src) (s : State) : Out := alu2 (fun a b => a.sshiftRight (shAmt b)) d a b s
/-- ROL (R102). -/
def execRol (d a : Reg) (b : Src) (s : State) : Out := alu2 (fun a b => a.rotateLeft (shAmt b)) d a b s
/-- ROR (R102). -/
def execRor (d a : Reg) (b : Src) (s : State) : Out := alu2 (fun a b => a.rotateRight (shAmt b)) d a b s
/-- MIN (R102). -/
def execMin (d a : Reg) (b : Src) (s : State) : Out := alu2 (fun a b => if a.slt b then a else b) d a b s
/-- MAX (R102). -/
def execMax (d a : Reg) (b : Src) (s : State) : Out := alu2 (fun a b => if a.slt b then b else a) d a b s
/-- MINU (R102). -/
def execMinu (d a : Reg) (b : Src) (s : State) : Out := alu2 (fun a b => if a < b then a else b) d a b s
/-- MAXU (R102). -/
def execMaxu (d a : Reg) (b : Src) (s : State) : Out := alu2 (fun a b => if a < b then b else a) d a b s

/-- ADD_RI (R102). -/
def execAddI (d a : Reg) (imm : BitVec 44) (s : State) : Out := aluC (fun a => a + imm.signExtend 64) d a s
/-- MUL_RI (R102). -/
def execMulI (d a : Reg) (imm : BitVec 44) (s : State) : Out := aluC (fun a => a * imm.signExtend 64) d a s
/-- AND_RI (R102). -/
def execAndI (d a : Reg) (imm : BitVec 44) (s : State) : Out := aluC (fun a => a &&& imm.signExtend 64) d a s
/-- OR_RI (R102). -/
def execOrI (d a : Reg) (imm : BitVec 44) (s : State) : Out := aluC (fun a => a ||| imm.signExtend 64) d a s
/-- XOR_RI (R102). -/
def execXorI (d a : Reg) (imm : BitVec 44) (s : State) : Out := aluC (fun a => a ^^^ imm.signExtend 64) d a s
/-- SHL_RI (R102). -/
def execShlI (d a : Reg) (n : BitVec 6) (s : State) : Out := aluC (fun a => a <<< n.toNat) d a s
/-- SHR_RI (R102). -/
def execShrI (d a : Reg) (n : BitVec 6) (s : State) : Out := aluC (fun a => a >>> n.toNat) d a s
/-- SAR_RI (R102). -/
def execSarI (d a : Reg) (n : BitVec 6) (s : State) : Out := aluC (fun a => a.sshiftRight n.toNat) d a s
/-- ROL_RI (R102). -/
def execRolI (d a : Reg) (n : BitVec 6) (s : State) : Out := aluC (fun a => a.rotateLeft n.toNat) d a s
/-- ROR_RI (R102). -/
def execRorI (d a : Reg) (n : BitVec 6) (s : State) : Out := aluC (fun a => a.rotateRight n.toNat) d a s
/-- LI (R110). -/
def execLi (d : Reg) (imm : BitVec 44) (s : State) : Out := .next (s.done fun c => c.setReg d (imm.signExtend 64))

/-! Bit fields and funnel shifts (R104, R105). -/

/-- The field of width w + 1 at pos, zero-extended. -/
def field (a : Word) (w pos : BitVec 6) : Word := .ofNat 64 (a.toNat / 2 ^ pos.toNat % 2 ^ (w.toNat + 1))
/-- The field, sign-extended. -/
def fieldS (a : Word) (w pos : BitVec 6) : Word :=
  .ofInt 64 ((BitVec.ofNat (w.toNat + 1) (a.toNat / 2 ^ pos.toNat)).toInt)
/-- BEXT (R105). -/
def execBext (d a : Reg) (w pos : BitVec 6) (s : State) : Out := aluC (fun a => fieldS a w pos) d a s
/-- BEXTU (R105). -/
def execBextu (d a : Reg) (w pos : BitVec 6) (s : State) : Out := aluC (fun a => field a w pos) d a s
/-- BINS (R105): d is also read. -/
def execBins (d a : Reg) (w pos : BitVec 6) (s : State) : Out :=
  let m : Word := .ofNat 64 ((2 ^ (w.toNat + 1) - 1) * 2 ^ pos.toNat)
  .next (s.done fun c => c.setReg d ((c.getReg d &&& ~~~m) ||| ((c.getReg a <<< pos.toNat) &&& m)))
/-- FSHL (R104): s1 is the high word. -/
def execFshl (d a : Reg) (b : Src) (n : BitVec 6) (s : State) : Out :=
  alu2 (fun a b => .ofNat 64 ((a.toNat * 2 ^ 64 + b.toNat) * 2 ^ n.toNat / 2 ^ 64)) d a b s
/-- FSHR (R104). -/
def execFshr (d a : Reg) (b : Src) (n : BitVec 6) (s : State) : Out :=
  alu2 (fun a b => .ofNat 64 ((a.toNat * 2 ^ 64 + b.toNat) / 2 ^ n.toNat)) d a b s
/-- LEA (R111). -/
def execLea (d a : Reg) (b : Src) (sh : BitVec 3) (s : State) : Out := alu2 (fun a b => a + b <<< sh.toNat) d a b s

/-! The one-source group (R106). -/

/-- The number of 1 bits below bit n. -/
def popCount (x : Nat) : Nat → Nat
  | 0 => 0
  | n + 1 => (if x.testBit n then 1 else 0) + popCount x n
/-- The number of zero bits from bit n − 1 down to the first 1; n when there is none. -/
def leadZeros (x n : Nat) : Nat := runLen false x n
/-- The number of zero bits from bit 0 up to the first 1; n when there is none. -/
def trailZeros (x : Nat) : Nat → Nat → Nat
  | 0, _ => 0
  | n + 1, k => if x.testBit k then 0 else trailZeros x n (k + 1) + 1
/-- Bits 0 to n − 1 in reverse order. -/
def revBits (x : Nat) : Nat → Nat → Nat
  | 0, _ => 0
  | n + 1, k => (if x.testBit k then 2 ^ n else 0) + revBits x n (k + 1)

/-- POPC. -/
def execPopc (d a : Reg) (s : State) : Out := aluC (fun a => .ofNat 64 (popCount a.toNat 64)) d a s
/-- CLZ. -/
def execClz (d a : Reg) (s : State) : Out := aluC (fun a => .ofNat 64 (leadZeros a.toNat 64)) d a s
/-- CTZ. -/
def execCtz (d a : Reg) (s : State) : Out := aluC (fun a => .ofNat 64 (trailZeros a.toNat 64 0)) d a s
/-- BREV. -/
def execBrev (d a : Reg) (s : State) : Out := aluC (fun a => .ofNat 64 (revBits a.toNat 64 0)) d a s
/-- ABS. -/
def execAbs (d a : Reg) (s : State) : Out := aluC (fun a => if a.msb then -a else a) d a s
/-- SEXT.8. -/
def execSext8 (d a : Reg) (s : State) : Out := aluC (fun a => (a.truncate 8).signExtend 64) d a s
/-- SEXT.16. -/
def execSext16 (d a : Reg) (s : State) : Out := aluC (fun a => (a.truncate 16).signExtend 64) d a s
/-- SEXT.32. -/
def execSext32 (d a : Reg) (s : State) : Out := aluC (fun a => (a.truncate 32).signExtend 64) d a s
/-- ZEXT.8. -/
def execZext8 (d a : Reg) (s : State) : Out := aluC (fun a => (a.truncate 8).zeroExtend 64) d a s
/-- ZEXT.16. -/
def execZext16 (d a : Reg) (s : State) : Out := aluC (fun a => (a.truncate 16).zeroExtend 64) d a s
/-- ZEXT.32. -/
def execZext32 (d a : Reg) (s : State) : Out := aluC (fun a => (a.truncate 32).zeroExtend 64) d a s
/-- ATX (R109). -/
def execAtx (d : XReg) (a : AReg) (s : State) : Out := .next (s.done fun c => c.setX d (c.getA a))
/-- RDTIME (R121): the timestamp as it stands. -/
def execRdtime (d : XReg) (s : State) : Out := .next (s.done fun c => c.setX d s.time)

/-! Compare, predicates, select (R107, R108). -/

/-- The conditions of CMP. -/
def cond (cc : Cond) (a b : Word) : Bool :=
  match cc with
  | .eq => a == b
  | .ne => a != b
  | .lt => a.slt b
  | .le => a.sle b
  | .gt => b.slt a
  | .ge => b.sle a
  | .ltu => a.ult b
  | .leu => a.ule b
  | .gtu => b.ult a
  | .geu => b.ule a

/-- CMP.cc. -/
def execCmp (cc : Cond) (d : PReg) (a : XReg) (b : XSrc) (s : State) : Out :=
  .next (s.done fun c => c.setP d (cond cc (c.getX a) (c.xsrc b)))
/-- PAND. -/
def execPand (d a b : PReg) (s : State) : Out := .next (s.done fun c => c.setP d (c.getP a && c.getP b))
/-- POR. -/
def execPor (d a b : PReg) (s : State) : Out := .next (s.done fun c => c.setP d (c.getP a || c.getP b))
/-- PNOT. -/
def execPnot (d a : PReg) (s : State) : Out := .next (s.done fun c => c.setP d (!c.getP a))
/-- SEL. -/
def execSel (d : Reg) (p : PReg) (a b : Reg) (s : State) : Out :=
  .next (s.done fun c => c.setReg d (if c.getP p then c.getReg a else c.getReg b))

/-! Branches (R112 to R116). -/

/-- Go to a target: the instruction completes there. -/
def State.goto (s : State) (t : Word) : State := s.done fun c => { c with npc := t }

/-- B and BP have one effect. -/
def State.branch (s : State) (off : BitVec 20) (neg : Bool) (p : PReg) : State :=
  if s.c.getP p != neg then s.goto (s.c.branchTarget off) else s.retire
/-- B. -/
def execB (off : BitVec 20) (neg : Bool) (p : PReg) (s : State) : Out := .next (s.branch off neg p)
/-- BP. -/
def execBp (off : BitVec 20) (neg : Bool) (p : PReg) (s : State) : Out := .next (s.branch off neg p)
/-- J (R113). -/
def execJ (off : BitVec 8) (base : AReg) (s : State) : Out :=
  let t := s.c.eaScaled base off 4
  .next (if unaligned t 4 then s.misaligned t else s.goto t)
/-- RET (R114). -/
def execRet (s : State) : Out :=
  let t := s.c.getA 14
  .next (if unaligned t 4 then s.misaligned t else s.goto t)
/-- CALL (R114): the return address to a14. -/
def execCall (off : BitVec 20) (s : State) : Out :=
  .next (s.done fun c => { c.setA 14 c.npc with npc := c.branchTarget off })
/-- a(8 + j). -/
def loopReg (j : BitVec 3) : AReg := ⟨8 + j.toNat, by omega⟩
/-- LOOP (R115). -/
def execLoop (off : BitVec 20) (j : BitVec 3) (s : State) : Out :=
  .next (s.done fun c =>
    let v := c.getA (loopReg j) - 1
    let c' := c.setA (loopReg j) v
    if v ≠ 0 then { c' with npc := c.branchTarget off } else c')

/-! WAIT, NOP, HINT, TRAP (R117 to R120). -/

/-- WAIT. -/
def execWait (mask : BitVec 16) (s : State) : Out :=
  .next (if s.c.maskClear mask then s.retire else s.stall)
/-- NOP. -/
def execNop (s : State) : Out := .next s.retire
/-- The L1 line of the cluster that holds an address is the first to be evicted from its set; nothing else of it changes (R119). -/
def State.evictFirst (s : State) (va : Nat) : State :=
  match s.l1.find? fun l => l.clu == s.myClu && l.asid == s.c.asid && l.line == va / 64 with
  | some l => { s with l1 := l :: s.l1.filter (· != l) }
  | none => s

/-- HINT (R72, R119): code 0 gives up issue slots for up to 32 cycles; code 1 names a line to evict first; what codes 2 and 3 predict is taken down as they
issue (hintStep), and the others have no effect. -/
def execHint (code _d a _b : BitVec 6) (s : State) : Out :=
  let s := if h : code = 1 ∧ a.toNat < 32 then s.evictFirst (s.c.getX ⟨a.toNat, h.2⟩).toNat else s
  .next (s.done fun c => if code = 0 then { c with pause := s.time + 32 } else c)
/-- HINT_PAUSE_END (R119): the pause of frame f is over. -/
def execHintPauseEnd (f : Nat) (s : State) : Out :=
  .next (if (s.ctx f).pause ≠ 0 ∧ (s.ctx f).pause ≤ s.time then s.mapCtx f fun c => { c with pause := 0 } else s)
/-- TRAP: the core freezes with the trap code as info. -/
def execTrap (code : BitVec 12) (s : State) : Out := .next (s.raise 0x25 code.toNat 0)

/-! Control registers (R94 to R98, R121). -/

/-- Where a register number leads: a context's, core's or die's register, its access class (R94). -/
inductive CrAccess where
  /-- Unassigned. -/
  | no
  /-- Read-only in every mode. -/
  | ro
  /-- Read and written in user mode. -/
  | rw
  /-- Read in user mode, written in supervisor mode alone. -/
  | supW
  /-- Supervisor mode alone. -/
  | sup
deriving DecidableEq, Repr

/-- The access class of a register number. -/
def crAccess (r : Nat) : CrAccess :=
  if r = 0 ∨ r = 0x50 ∨ (0x100 ≤ r ∧ r ≤ 0x104) ∨ (0x108 ≤ r ∧ r ≤ 0x10F) then .ro
  else if r = 0x30 ∨ r = 0x31 then .supW
  else if (0x800 ≤ r ∧ r ≤ 0x807) ∨ r = 0x810 ∨ r = 0x811 then .sup
  else if (1 ≤ r ∧ r ≤ 4) ∨ r = 8 ∨ (0x10 ≤ r ∧ r ≤ 0x13) ∨ (0x20 ≤ r ∧ r ≤ 0x22) ∨ (0x40 ≤ r ∧ r ≤ 0x43) ∨ r = 0x51 then .rw
  else .no

/-- The value of a register of the selected context, its core or its die. -/
def State.crRead (s : State) (r : Nat) : Word :=
  let c := s.c
  match r with
  | 0x000 => c.status
  | 0x001 => c.cr.fctl
  | 0x002 => c.cr.fflags
  | 0x003 => c.cr.fmta
  | 0x004 => c.cr.fmtb
  | 0x008 => c.cr.upcall
  | 0x010 => c.cr.fault0
  | 0x011 => c.cr.fault1
  | 0x012 => c.cr.fault2
  | 0x013 => c.cr.fault3
  | 0x020 => c.cr.bbase
  | 0x021 => c.cr.bsize
  | 0x022 => c.cr.chprog
  | 0x030 => c.cr.asid
  | 0x031 => (s.core s.myCore).role
  | 0x040 => c.cr.ptmo
  | 0x041 => c.cr.xltmo
  | 0x042 => c.cr.ringhole
  | 0x043 => c.cr.replaylim
  | 0x050 => c.cr.egheap
  | 0x051 => c.cr.egmodel
  | 0x100 => c.ids.core
  | 0x101 => c.ids.clu
  | 0x102 => c.ids.die
  | 0x103 => c.ids.dev
  | 0x104 => c.ids.ctx
  | 0x108 => c.ids.org[0]
  | 0x109 => c.ids.org[1]
  | 0x10A => c.ids.org[2]
  | 0x10B => c.ids.org[3]
  | 0x10C => c.ids.ext[0]
  | 0x10D => c.ids.ext[1]
  | 0x10E => c.ids.ext[2]
  | 0x10F => c.ids.ext[3]
  | 0x810 => (s.die s.myDie).heatctl
  | 0x811 => (s.die s.myDie).heatbase
  | _ => tget 0 (s.die s.myDie).wres (r - 0x800)

/-- Does a value meet the fields and limits of a register (R52, R96, R97)? -/
def crOk (r : Nat) (v : Word) : Bool :=
  let n := v.toNat
  let fmtOk := bitsOf v 63 60 ≤ 6 ∨ bitsOf v 63 60 = 8 ∨ bitsOf v 63 60 = 9
  match r with
  | 0x001 => decide (n < 2048 ∧ n % 8 ≤ 4)
  | 0x002 => decide (n < 128)
  | 0x003 | 0x004 => decide (fmtOk ∧ bitsOf v 58 52 = 0 ∧ n % 2 = 0)
  | 0x008 | 0x022 => decide (n < 2 ^ 52 ∧ n % 4 = 0)
  | 0x020 => decide (n < 2 ^ 18 ∧ n % 64 = 0)
  | 0x021 => decide (n ≤ 0x40000 ∧ n % 64 = 0)
  | 0x030 => decide (n < 65536)
  | 0x031 => decide (n < 2)
  | 0x040 | 0x041 | 0x042 => decide (n < 2 ^ 32)
  | 0x043 => decide (1 ≤ n ∧ n ≤ 255)
  | 0x051 => decide (n < 2 ^ 52 ∧ n % 64 = 0)
  | 0x810 => decide (n < 1024 ∧ bitsOf v 8 4 ≤ 24)
  | 0x811 => decide (n < 2 ^ 48 ∧ n % 65536 = 0)
  | 0x010 | 0x011 | 0x012 | 0x013 => true
  | _ => decide (bitsOf v 47 36 = 0 ∧ 1 ≤ bitsOf v 62 59 ∧ bitsOf v 62 59 ≤ 12 ∧ bitsOf v 58 54 ≤ 16 ∧ bitsOf v 53 48 ≤ 36
      ∧ bitsOf v 35 0 % 2 ^ bitsOf v 53 48 = 0)

/-- Write a register of the selected context, its core or its die. A write to cr.heatctl reloads the die's samplers (R359). -/
def State.crWrite (s : State) (r : Nat) (v : Word) : State :=
  let setCr (g : Crs → Crs) := s.mapC fun c => { c with cr := g c.cr }
  match r with
  | 0x001 => setCr fun k => { k with fctl := v }
  | 0x002 => setCr fun k => { k with fflags := v }
  | 0x003 => setCr fun k => { k with fmta := v }
  | 0x004 => setCr fun k => { k with fmtb := v }
  | 0x008 => setCr fun k => { k with upcall := v }
  | 0x010 => setCr fun k => { k with fault0 := v }
  | 0x011 => setCr fun k => { k with fault1 := v }
  | 0x012 => setCr fun k => { k with fault2 := v }
  | 0x013 => setCr fun k => { k with fault3 := v }
  | 0x020 => setCr fun k => { k with bbase := v }
  | 0x021 => setCr fun k => { k with bsize := v }
  | 0x022 => setCr fun k => { k with chprog := v }
  | 0x030 => setCr fun k => { k with asid := v }
  | 0x031 => s.setCore s.myCore { s.core s.myCore with role := v }
  | 0x040 => setCr fun k => { k with ptmo := v }
  | 0x041 => setCr fun k => { k with xltmo := v }
  | 0x042 => setCr fun k => { k with ringhole := v }
  | 0x043 => setCr fun k => { k with replaylim := v }
  | 0x051 => setCr fun k => { k with egmodel := v }
  | 0x810 => s.setDie s.myDie { s.die s.myDie with heatctl := v, samplers := [], sweeps := (List.range 64).map fun n => (n, s.time.toNat / (2100 * 2 ^ bitsOf v 8 4)) }
  | 0x811 => s.setDie s.myDie { s.die s.myDie with heatbase := v }
  | _ => s.setDie s.myDie { s.die s.myDie with wres := tset (s.die s.myDie).wres (r - 0x800) v }

/-- CRR (R121). -/
def execCrr (d : XReg) (r : BitVec 12) (s : State) : Out :=
  match crAccess r.toNat with
  | .no => .next s.illegal
  | .sup => if s.c.st.sup then .next (s.done fun c => c.setX d (s.crRead r.toNat)) else .next s.privilege
  | _ => .next (s.done fun c => c.setX d (s.crRead r.toNat))

/-- CRW (R121); a write of cr.asid waits until every slot is 0 (R98). -/
def execCrw (r : BitVec 12) (a : XReg) (s : State) : Out :=
  match crAccess r.toNat with
  | .no => .next s.illegal
  | .ro => .next s.illegal
  | cls =>
    if cls ≠ .rw ∧ s.c.st.sup = false then .next s.privilege
    else if crOk r.toNat (s.c.getX a) = false then .next s.reservedField
    else if r = 0x030 ∧ s.c.maskClear (BitVec.allOnes 16) = false then .next (s.stall)
    else .next (s.crWrite r.toNat (s.c.getX a)).retire

/-! Scalar floating point (R122 to R128): operands in the low bits, results zero-extended. -/

/-- The element in the low bits of a register (R39). -/
def elem (fmt : Fmt) (v : Word) : Nat := v.toNat % 2 ^ fmtBits fmt

/-- A two-source function. -/
def float2 (op : Fmt → Rm → Nat → Nat → FR) (fmt : Fmt) (d a : XReg) (b : XSrc) (s : State) : Out :=
  let r := op fmt (rmOf s.c.cr.fctl) (elem fmt (s.c.getX a)) (elem fmt (s.c.xsrc b))
  .next (s.doneFl r.fl fun c => c.setX d (.ofNat 64 r.bits))

/-- A one-source function. -/
def float1 (op : Fmt → Rm → Nat → FR) (fmt : Fmt) (d a : XReg) (s : State) : Out :=
  let r := op fmt (rmOf s.c.cr.fctl) (elem fmt (s.c.getX a))
  .next (s.doneFl r.fl fun c => c.setX d (.ofNat 64 r.bits))

/-- FFMA reads d. -/
def floatFma (fmt : Fmt) (d a : XReg) (b : XSrc) (s : State) : Out :=
  float2 (fun f rm x y => fFma f rm (elem fmt (s.c.getX d)) x y) fmt d a b s

/-- FADD.f32 (R123). -/
def execFaddF32 (d a : XReg) (b : XSrc) (s : State) : Out := float2 fAdd .f32 d a b s
/-- FSUB.f32 (R123). -/
def execFsubF32 (d a : XReg) (b : XSrc) (s : State) : Out := float2 fSub .f32 d a b s
/-- FMUL.f32 (R123). -/
def execFmulF32 (d a : XReg) (b : XSrc) (s : State) : Out := float2 fMul .f32 d a b s
/-- FDIV.f32 (R123). -/
def execFdivF32 (d a : XReg) (b : XSrc) (s : State) : Out := float2 fDiv .f32 d a b s
/-- FMIN.f32 (R124). -/
def execFminF32 (d a : XReg) (b : XSrc) (s : State) : Out := float2 (fun f _ x y => fMinMax false f x y) .f32 d a b s
/-- FMAX.f32 (R124). -/
def execFmaxF32 (d a : XReg) (b : XSrc) (s : State) : Out := float2 (fun f _ x y => fMinMax true f x y) .f32 d a b s
/-- FSQRT.f32 (R123). -/
def execFsqrtF32 (d a : XReg) (s : State) : Out := float1 fSqrt .f32 d a s
/-- FABS.f32 (R124). -/
def execFabsF32 (d a : XReg) (s : State) : Out := float1 (fun f _ x => fSign false f x) .f32 d a s
/-- FNEG.f32 (R124). -/
def execFnegF32 (d a : XReg) (s : State) : Out := float1 (fun f _ x => fSign true f x) .f32 d a s
/-- FCLASS.f32 (R126). -/
def execFclassF32 (d a : XReg) (s : State) : Out := float1 (fun f _ x => ⟨fClass f x, 0⟩) .f32 d a s
/-- FSIN.f32 (R128). -/
def execFsinF32 (d a : XReg) (s : State) : Out := float1 (fun f _ x => fTrig false f x) .f32 d a s
/-- FCOS.f32 (R128). -/
def execFcosF32 (d a : XReg) (s : State) : Out := float1 (fun f _ x => fTrig true f x) .f32 d a s
/-- FEXP2.f32 (R128). -/
def execFexp2F32 (d a : XReg) (s : State) : Out := float1 (fun f _ x => fExp2 f x) .f32 d a s
/-- FLOG2.f32 (R128). -/
def execFlog2F32 (d a : XReg) (s : State) : Out := float1 (fun f _ x => fLog2 f x) .f32 d a s
/-- FRCP.f32 (R128). -/
def execFrcpF32 (d a : XReg) (s : State) : Out := float1 (fun f _ x => fRcp f x) .f32 d a s
/-- FRSQ.f32 (R128). -/
def execFrsqF32 (d a : XReg) (s : State) : Out := float1 (fun f _ x => fRsq f x) .f32 d a s
/-- FFMA.f32 (R123). -/
def execFfmaF32 (d a : XReg) (b : XSrc) (s : State) : Out := floatFma .f32 d a b s

/-- FADD.f16 (R123). -/
def execFaddF16 (d a : XReg) (b : XSrc) (s : State) : Out := float2 fAdd .f16 d a b s
/-- FSUB.f16 (R123). -/
def execFsubF16 (d a : XReg) (b : XSrc) (s : State) : Out := float2 fSub .f16 d a b s
/-- FMUL.f16 (R123). -/
def execFmulF16 (d a : XReg) (b : XSrc) (s : State) : Out := float2 fMul .f16 d a b s
/-- FDIV.f16 (R123). -/
def execFdivF16 (d a : XReg) (b : XSrc) (s : State) : Out := float2 fDiv .f16 d a b s
/-- FMIN.f16 (R124). -/
def execFminF16 (d a : XReg) (b : XSrc) (s : State) : Out := float2 (fun f _ x y => fMinMax false f x y) .f16 d a b s
/-- FMAX.f16 (R124). -/
def execFmaxF16 (d a : XReg) (b : XSrc) (s : State) : Out := float2 (fun f _ x y => fMinMax true f x y) .f16 d a b s
/-- FSQRT.f16 (R123). -/
def execFsqrtF16 (d a : XReg) (s : State) : Out := float1 fSqrt .f16 d a s
/-- FABS.f16 (R124). -/
def execFabsF16 (d a : XReg) (s : State) : Out := float1 (fun f _ x => fSign false f x) .f16 d a s
/-- FNEG.f16 (R124). -/
def execFnegF16 (d a : XReg) (s : State) : Out := float1 (fun f _ x => fSign true f x) .f16 d a s
/-- FCLASS.f16 (R126). -/
def execFclassF16 (d a : XReg) (s : State) : Out := float1 (fun f _ x => ⟨fClass f x, 0⟩) .f16 d a s
/-- FSIN.f16 (R128). -/
def execFsinF16 (d a : XReg) (s : State) : Out := float1 (fun f _ x => fTrig false f x) .f16 d a s
/-- FCOS.f16 (R128). -/
def execFcosF16 (d a : XReg) (s : State) : Out := float1 (fun f _ x => fTrig true f x) .f16 d a s
/-- FEXP2.f16 (R128). -/
def execFexp2F16 (d a : XReg) (s : State) : Out := float1 (fun f _ x => fExp2 f x) .f16 d a s
/-- FLOG2.f16 (R128). -/
def execFlog2F16 (d a : XReg) (s : State) : Out := float1 (fun f _ x => fLog2 f x) .f16 d a s
/-- FRCP.f16 (R128). -/
def execFrcpF16 (d a : XReg) (s : State) : Out := float1 (fun f _ x => fRcp f x) .f16 d a s
/-- FRSQ.f16 (R128). -/
def execFrsqF16 (d a : XReg) (s : State) : Out := float1 (fun f _ x => fRsq f x) .f16 d a s
/-- FFMA.f16 (R123). -/
def execFfmaF16 (d a : XReg) (b : XSrc) (s : State) : Out := floatFma .f16 d a b s

/-- FADD.bf16 (R123). -/
def execFaddBF16 (d a : XReg) (b : XSrc) (s : State) : Out := float2 fAdd .bf16 d a b s
/-- FSUB.bf16 (R123). -/
def execFsubBF16 (d a : XReg) (b : XSrc) (s : State) : Out := float2 fSub .bf16 d a b s
/-- FMUL.bf16 (R123). -/
def execFmulBF16 (d a : XReg) (b : XSrc) (s : State) : Out := float2 fMul .bf16 d a b s
/-- FDIV.bf16 (R123). -/
def execFdivBF16 (d a : XReg) (b : XSrc) (s : State) : Out := float2 fDiv .bf16 d a b s
/-- FMIN.bf16 (R124). -/
def execFminBF16 (d a : XReg) (b : XSrc) (s : State) : Out := float2 (fun f _ x y => fMinMax false f x y) .bf16 d a b s
/-- FMAX.bf16 (R124). -/
def execFmaxBF16 (d a : XReg) (b : XSrc) (s : State) : Out := float2 (fun f _ x y => fMinMax true f x y) .bf16 d a b s
/-- FSQRT.bf16 (R123). -/
def execFsqrtBF16 (d a : XReg) (s : State) : Out := float1 fSqrt .bf16 d a s
/-- FABS.bf16 (R124). -/
def execFabsBF16 (d a : XReg) (s : State) : Out := float1 (fun f _ x => fSign false f x) .bf16 d a s
/-- FNEG.bf16 (R124). -/
def execFnegBF16 (d a : XReg) (s : State) : Out := float1 (fun f _ x => fSign true f x) .bf16 d a s
/-- FCLASS.bf16 (R126). -/
def execFclassBF16 (d a : XReg) (s : State) : Out := float1 (fun f _ x => ⟨fClass f x, 0⟩) .bf16 d a s
/-- FSIN.bf16 (R128). -/
def execFsinBF16 (d a : XReg) (s : State) : Out := float1 (fun f _ x => fTrig false f x) .bf16 d a s
/-- FCOS.bf16 (R128). -/
def execFcosBF16 (d a : XReg) (s : State) : Out := float1 (fun f _ x => fTrig true f x) .bf16 d a s
/-- FEXP2.bf16 (R128). -/
def execFexp2BF16 (d a : XReg) (s : State) : Out := float1 (fun f _ x => fExp2 f x) .bf16 d a s
/-- FLOG2.bf16 (R128). -/
def execFlog2BF16 (d a : XReg) (s : State) : Out := float1 (fun f _ x => fLog2 f x) .bf16 d a s
/-- FRCP.bf16 (R128). -/
def execFrcpBF16 (d a : XReg) (s : State) : Out := float1 (fun f _ x => fRcp f x) .bf16 d a s
/-- FRSQ.bf16 (R128). -/
def execFrsqBF16 (d a : XReg) (s : State) : Out := float1 (fun f _ x => fRsq f x) .bf16 d a s
/-- FFMA.bf16 (R123). -/
def execFfmaBF16 (d a : XReg) (b : XSrc) (s : State) : Out := floatFma .bf16 d a b s

/-- The element format FCMP names. -/
def SFmt_fmt : SFmt → Fmt
  | .f32 => .f32
  | .f16 => .f16
  | .bf16 => .bf16

/-- FCMP.cc (R125). -/
def execFcmp (cc : FCond) (fmt : SFmt) (d : PReg) (a : XReg) (b : XSrc) (s : State) : Out :=
  let f := SFmt_fmt fmt
  let r := fCompare cc f (elem f (s.c.getX a)) (elem f (s.c.xsrc b))
  .next (s.doneFl r.2 fun c => c.setP d r.1)

/-- FCVT (R127). -/
def execFcvt (dst src : Fmt) (d a : XReg) (s : State) : Out :=
  let r := convert dst src s.c.cr.fctl (elem src (s.c.getX a))
  .next (s.doneFl r.fl fun c => c.setX d (.ofNat 64 r.bits))

/-! The wrapper of a long form (R61), and words that are no instruction (R69). -/

/-- LONG_FORM (R61): wait on the mask, read the guard, set the slot; then the wrapped instruction may go on. A wrapped instruction that
already waits has passed the wrapper. -/
def execLongForm (m : Mods) (s : State) : Out :=
  let waiting := match s.c.wait with
    | some w => !w.wrap
    | none => false
  if waiting then .next (s.mapC fun c => { c with go := true })
  else if s.c.maskClear m.wmask = false then .next (s.stallWrap)
  else if s.c.getP m.gp = m.gn then .next s.retire
  else if m.sen then
    (if s.c.sb[m.sslot] = 63 then .next (s.stallWrap)
     else .next (s.mapC fun c => { c.incSlot m.sslot with latch := some m.sslot, go := true, wait := none }))
  else .next (s.mapC fun c => { c with go := true, wait := none })

/-- The wrapper lets its instruction issue now: its mask is clear and, if its guard is true, its slot can count one more (R61). -/
def Ctx.wrapReady (c : Ctx) (m : Mods) : Bool := c.maskClear m.wmask && (c.getP m.gp == m.gn || !m.sen || c.sb[m.sslot] != 63)

/-- UNASSIGNED_ENCODING (R69): the illegal-instruction fault at the instruction. -/
def execUnassignedEncoding (_w : BitVec 32) (s : State) : Out := .next s.illegal

end Sys2Proof.Machine
end

