-- ==== Sys2Proof/Machine/DevRegs.lean ====
section
/-! DEFINITION. Reading device registers and debug windows, and the writes that engines and records post to them (R157, R373). -/

namespace Sys2Proof.Machine

open Sys2Proof

/-- Is a granule full? -/
def CoreSt.isFull (k : CoreSt) (g : Nat) : Bool := k.full.contains g
/-- An access of lsdata of a frozen core: a read, or a write; lsaddr advances by 8. -/
def State.lsdata (s : State) (core : Nat) (v : Option Word) : Word × State :=
  let k := s.core core
  if k.frozen then
    let ls := match v with
      | some w => k.ls.write k.dbgLsaddr 8 w.toNat
      | none => k.ls
    (.ofNat 64 (k.ls.read k.dbgLsaddr 8), s.setCore core { k with ls := ls, dbgLsaddr := (k.dbgLsaddr + 8) % 2 ^ 18 })
  else (0, s)

/-! Debug windows (R373). Offsets are multiples of 8; registers and the core's contents read 0 and ignore writes unless it is frozen. -/

/-- The doubleword k of a number. -/
def dword (v k : Nat) : Word := .ofNat 64 (v / 2 ^ (64 * k))
/-- A number of `bits` bits with its doubleword k replaced. -/
def setDword (v k : Nat) (w : Word) : Nat := v - v / 2 ^ (64 * k) % 2 ^ 64 * 2 ^ (64 * k) + w.toNat * 2 ^ (64 * k)

/-- p0 to p7 at bit 0, and sb0 to sb15 from bit 64 on. -/
def Ctx.flagWord (c : Ctx) : Nat :=
  ((List.finRange 8).map fun i => if c.getP i then 2 ^ i.val else 0).sum + ((List.finRange 16).map fun i => c.sb[i].toNat * 2 ^ (64 + 6 * i.val)).sum

/-- Write p0 to p7 and sb0 to sb15. -/
def Ctx.setFlagWord (c : Ctx) (v : Nat) : Ctx :=
  let c := (List.finRange 8).foldl (fun (c : Ctx) i => c.setP i (v.testBit i.val)) c
  { c with sb := .ofFn fun (i : Fin 16) => .ofNat 6 (v / 2 ^ (64 + 6 * i.val)) }

/-- The bit of the first lane of the selected group, and the register. -/
def CoreSt.vsel (k : CoreSt) : VReg × Nat := (⟨bitsOf k.dbgVsel 12 8 % 32, by omega⟩, bitsOf k.dbgVsel 3 0)

/-- How much the streams' queues hold (R373): from bit 0 on the x-to-a transfer queue, whose values the access stream reads from the registers, from
bit 16 on the words of the load-data queue, and from bit 32 on the branches of the branch queue. The layout is DESIGN CHOICE (log 22). -/
def Ctx.qocc (c : Ctx) : Word :=
  .ofNat 64 ((c.win.map fun e => e.xs.length + e.ps.length + e.vs.length).sum % 65536 * 65536 + (c.win.filter Passed.unresolved).length % 65536 * 2 ^ 32)

/-- cr.fault0 to cr.fault3 (R94). -/
def Ctx.faultWord (c : Ctx) (n : Nat) : Word :=
  match n with
  | 0 => c.cr.fault0
  | 1 => c.cr.fault1
  | 2 => c.cr.fault2
  | _ => c.cr.fault3

/-- A register of the selected frame at an offset. -/
def State.winReg (s : State) (core o : Nat) : Word :=
  let k := s.core core
  let f := 11 * core + k.dbgFrame
  let c := s.ctx f
  if o = 0x108 then c.apc.getD c.pc
  else if o = 0x110 then c.pc
  else if o = 0x118 then c.qocc
  else if 0x200 ≤ o ∧ o < 0x300 then c.getX ⟨(o - 0x200) / 8 % 32, by omega⟩
  else if 0x300 ≤ o ∧ o < 0x380 then c.getA ⟨(o - 0x300) / 8 % 16, by omega⟩
  else if 0x380 ≤ o ∧ o < 0x398 then dword c.flagWord ((o - 0x380) / 8)
  else if 0x400 ≤ o ∧ o < 0x700 then (if crAccess ((o - 0x400) / 8) = .no then 0 else (s.select f).crRead ((o - 0x400) / 8))
  else if 0x700 ≤ o ∧ o < 0x800 then dword (c.getK ⟨(o - 0x700) / 32 % 8, by omega⟩).toNat (o % 32 / 8)
  else if o = 0x800 then k.dbgVsel
  else if 0x840 ≤ o ∧ o < 0x880 then dword (c.getV k.vsel.1).toNat (8 * k.vsel.2 + (o - 0x840) / 8)
  else 0

/-- Read a doubleword of a core's window. -/
def State.winRead (s : State) (core o : Nat) : Word × State :=
  let k := s.core core
  if o = 0 then (.ofNat 64 (k.frozen.toNat + 2 * k.byGang.toNat + 4 * k.fenced.toNat + 256 * (if k.frozen then k.fcode else 0)), s)
  else if o = 0x030 then (k.wdlim, s)
  else if k.frozen = false then (0, s)
  else if 0x010 ≤ o ∧ o < 0x030 then ((s.ctx k.fframe).faultWord ((o - 0x010) / 8), s)
  else if o = 0x100 then (.ofNat 64 k.dbgFrame, s)
  else if o = 0xC00 then (.ofNat 64 k.dbgLsaddr, s)
  else if o = 0xC08 then s.lsdata core none
  else if o = 0xC10 then (.ofNat 64 (k.isFull (k.dbgLsaddr / 16)).toNat, s)
  else (s.winReg core o, s)

/-! The device-register range (R157). -/

/-- What a doubleword of the range is. -/
inductive DevReg where
  | status | asidTable
  | doorbell (die : Nat)
  | window (core o : Nat)
  /-- A register of a control block, by kind and unit (log 64). -/
  | ctl (kind unit : Nat)
  /-- A register the spec gives no contents. -/
  | other
deriving DecidableEq, Repr

/-- The register at a physical address, rounded down to a doubleword. -/
def devReg (pa : Nat) : DevReg :=
  let a := pa / 8 * 8
  if a = 0x800000000000 then .status
  else if a = 0x800000000100 then .asidTable
  else if 0x800000000000 ≤ a ∧ a < 0x800400000000 ∧ a % 0x100000000 = 0x200 then .doorbell ((a - 0x800000000000) / 0x100000000)
  else if 0x801000000000 ≤ a ∧ a < 0x801000200000 then .window ((a - 0x801000000000) / 0x1000) (a % 0x1000)
  else
    match Config.ctlReg a with
    | some (k, u) => .ctl k u
    | none => .other

/-- A register of a control block: base or length of an overflow area, or a die's slice fence bits (R283, R380). -/
def State.ctlRead (s : State) (kind unit : Nat) : Nat :=
  match kind with
  | 0 => (s.clu unit).ovf.1
  | 1 => (s.clu unit).ovf.2
  | 2 => (s.die unit).launchOvf.1
  | 3 => (s.die unit).launchOvf.2
  | 4 => (s.die unit).readyOvf.1
  | 5 => (s.die unit).readyOvf.2
  | _ => (((s.die unit).fencedSlices ++ (s.die unit).failedSlices).dedup.map fun k => 2 ^ k).sum

/-- Read a doubleword. A register with no stated contents, and a doorbell, read as a free value (log 14). -/
def State.devRead (s : State) (pa : Nat) : Word × State :=
  match devReg pa with
  | .status => (s.dev.status, s)
  | .asidTable => (.ofNat 64 s.dev.asidTable, s)
  | .window core o => s.winRead core o
  | .ctl k u => (.ofNat 64 (s.ctlRead k u), s)
  | _ => (Config.devRead s.fresh, { s with fresh := s.fresh + 1 })

/-- A supervisor's load of n bytes within a doubleword. -/
def State.devLoad (s : State) (pa n : Nat) : Nat × State :=
  let r := s.devRead pa
  (r.1.toNat / 2 ^ (8 * (pa % 8)) % 2 ^ (8 * n), r.2)

/-- The exact address in a device-register line that a fault names. -/
def devPa (pa va : Nat) : Nat := pa / 64 * 64 + va % 64

/-- Read n bytes of the range from pa, a doubleword's part at a time. -/
def State.devBytes : Nat → State → Nat → Nat → List Byte × State
  | 0, s, _, _ => ([], s)
  | fuel + 1, s, pa, n =>
    if n = 0 then ([], s)
    else
      let k := min n (8 - pa % 8)
      let r := s.devLoad pa k
      let t := State.devBytes fuel r.2 (pa + k) (n - k)
      (bytesOf k r.1 ++ t.1, t.2)

/-- The doubleword writes of n bytes at pa. A doubleword written in part has zeros in its other bytes (log 14). -/
def devWrites : Nat → Nat → Nat → Nat → List Turn
  | 0, _, _, _ => []
  | fuel + 1, pa, n, v =>
    if n = 0 then []
    else
      let k := min n (8 - pa % 8)
      .posted (.ofNat 48 (pa / 8 * 8)) (.ofNat 64 (v % 2 ^ (8 * k) * 2 ^ (8 * (pa % 8)))) :: devWrites fuel (pa + k) (n - k) (v / 2 ^ (8 * k))

/-- A read within a line by an engine, a record or a table of a supervisor: the device registers answer (R157). -/
def State.orDevRead (s : State) (va n : Nat) (r : MR Nat) : MR Nat :=
  match r with
  | .error (.device pa) => let x := s.devBytes n (devPa pa va) n; .ok (wordOfBytes x.1, x.2)
  | r => r

/-- A write within a line by an engine, a record or a table of a supervisor: it is posted, after the moves on the agenda (log 55). -/
def State.orDevWrite (s : State) (va n v : Nat) (r : Except MFault State) : Except MFault State :=
  match r with
  | .error (.device pa) => .ok { s with agenda := s.agenda ++ devWrites n (devPa pa va) n v }
  | r => r

/-- An indivisible access within a line by an engine, a record or a table of a supervisor. -/
def State.orDevAtomic (s : State) (va n : Nat) (f : Nat → Option Nat) (r : MR Nat) : MR Nat :=
  match r with
  | .error (.device pa) =>
    let x := s.devBytes n (devPa pa va) n
    let old := wordOfBytes x.1
    match f old with
    | some v => .ok (old, { x.2 with agenda := x.2.agenda ++ devWrites n (devPa pa va) n v })
    | none => .ok (old, x.2)
  | r => r

end Sys2Proof.Machine
end

