-- ==== Sys2Proof/Machine/Cache.lean ====
section
/-! DEFINITION. L1 and L2 lines: fills, writebacks, evictions, versions, aliases, way reservation, recording tables and pushes, and the
accesses performed at each coherence point (R163 to R168, R182, R183, R189, R201 to R204, R287 to R289, R303 to R306). -/

namespace Sys2Proof.Machine

open Sys2Proof

/-- A request to a cache: the issuing cluster, the address space, the issuing frame (none for an engine), and the permissions it needs; and the
frame and the `where` word that a machine event of its fill names. -/
structure Req where
  clu : Nat
  asid : Nat
  who : Option Nat
  need : BitVec 4
  from_ : Option (Nat × Word) := none
deriving DecidableEq, Repr

/-- The die of a request. -/
def Req.die (r : Req) : Nat := dieOf r.clu
/-- The frame a machine event of a request's fill names: that of the access, or else the first of the cluster. -/
def Req.frame (r : Req) : Nat := (r.from_.map (·.1)).getD (r.who.getD (88 * r.clu))
/-- A user access: it needs u. -/
def Req.user (r : Req) : Bool := r.need.getLsbD 0

/-- A region of a die. -/
def DieSt.region (d : DieSt) (n : Nat) : RegionSt := tget RegionSt.reset d.regions n
/-- Is a line in the region's range? -/
def RegionSt.inRange (r : RegionSt) (asid line : Nat) : Bool :=
  r.state != 0 && r.asid == asid && decide (r.base ≤ 64 * line) && decide (64 * line < r.base + r.len)
/-- Change every region of a die that holds a line. -/
def State.mapRegions (s : State) (die asid line : Nat) (g : Nat → RegionSt → RegionSt) : State :=
  s.mapDie die fun d => { d with regions := d.regions.map fun (k, r) => (k, if r.inRange asid line then g k r else r) }

/-! Lines of the caches. -/

/-- The L1 line of a cluster. -/
def State.l1Find (s : State) (clu asid line : Nat) : Option L1Line := s.l1.find? fun l => l.clu == clu && l.asid == asid && l.line == line
/-- The L2 line of a die. -/
def State.l2Find (s : State) (die asid line : Nat) : Option L2Line := s.l2.find? fun l => l.die == die && l.asid == asid && l.line == line
/-- The same L1 line. -/
def L1Line.same (a b : L1Line) : Bool := a.clu == b.clu && a.asid == b.asid && a.line == b.line
/-- The same L2 line. -/
def L2Line.same (a b : L2Line) : Bool := a.die == b.die && a.asid == b.asid && a.line == b.line
/-- Put an L1 line, as the most recently used. -/
def State.putL1 (s : State) (l : L1Line) : State := { s with l1 := s.l1.filter (fun m => !l.same m) ++ [l] }
/-- Put an L2 line, as the most recently used. -/
def State.putL2 (s : State) (l : L2Line) : State := { s with l2 := s.l2.filter (fun m => !l.same m) ++ [l] }
/-- Remove an L1 line. -/
def State.cutL1 (s : State) (l : L1Line) : State := { s with l1 := s.l1.filter fun m => !l.same m }
/-- Remove an L2 line. -/
def State.cutL2 (s : State) (l : L2Line) : State := { s with l2 := s.l2.filter fun m => !l.same m }
/-- A stale L1 line (R164, R204). -/
def State.l1Stale (s : State) (l : L1Line) : Bool := !l.pushed && l.ver != (s.clu l.clu).vc
/-- A stale L2 line (R201). -/
def State.l2Stale (s : State) (l : L2Line) : Bool := l.ver != (s.die l.die).vd

/-! Recording and pushes (R204, R303 to R306). -/

/-- The distinct consumer clusters of an entry. -/
def RecEntry.clusters (e : RecEntry) : List Nat := (e.cons.map (·.1)).dedup

/-- A line leaves a die's L2, or a device-scope step makes it stale: pushes of it on their way go with it (R204). -/
def State.dropPushes (s : State) (die : Nat) (bad : Nat → Nat → Bool) : State :=
  s.mapDie die fun d => { d with pushes := d.pushes.filter fun p => !(bad p.asid p.line) }

/-- The stores of a cluster's members. -/
def storesOf (clu : Nat) (w : Nat × Nat × Nat) : Bool := cluOf (coreOf w.2.1) == clu

/-- A member's one store, by its number. -/
def storeOf (who : Option Nat) (recNo : Option (Nat × Nat)) (w : Nat × Nat × Nat) : Bool :=
  match who, recNo with
  | some f, some (_, n) => w.2 == (f, n)
  | _, _ => false

/-- Members' writes to a line have been applied, those that `mine` names: where the slice holds the line, pushes are made for recorded ones, which carry its
content (R204, R306). -/
def State.recApplied (s : State) (die asid line : Nat) (mine : Nat × Nat × Nat → Bool) : State :=
  let hit := (s.die die).regions.filter fun r => r.2.inRange asid line
  hit.foldl (fun s kr =>
    let d := s.die die
    let r := kr.2
    let moved := r.pend.filter fun w => w.1 == line && mine w
    let es := d.recs.filter fun e => e.region == kr.1 && e.line == line && moved.any fun w =>
      16 * die + e.clu == cluOf (coreOf w.2.1) && e.core == coreOf w.2.1 % 8 && e.ctx == w.2.1 % 11 && decide (e.sidx ≤ w.2.2)
    let go := r.state == 3 && !r.fb && !moved.isEmpty && !es.isEmpty && !r.pushed.contains line
    let news : List Push := match if go then s.l2Find die asid line else none with
      | some l => es.flatMap fun e => e.clusters.map fun c =>
          { clu := 16 * die + c, asid := asid, line := line, pa := l.pa, data := l.data, perms := l.perms, region := kr.1 }
      | none => []
    let r := { r with pend := r.pend.filter (fun w => !moved.contains w), wrote := r.wrote ++ moved, pushed := if news.isEmpty then r.pushed else line :: r.pushed }
    s.setDie die { d with pushes := d.pushes ++ news, regions := tset d.regions kr.1 r }) s

/-- A member demand-fetches a line. A recording makes or extends the entry of the last writer, if that is a member on another cluster of the
die (R305); a replay counts a miss if any member of another cluster of the die wrote the line in this iteration (R306). Counts are exact: only
what RECSTAT shows of them saturates. -/
def State.recFetch (s : State) (die asid line clu : Nat) (who : Option Nat) : State :=
  match who with
  | none => s
  | some f =>
    let slice := s.served die (sliceOf (64 * line))
    let hit := (s.die die).regions.filter fun r => r.2.inRange asid line && r.2.members.contains f && (s.ctx f).region == some r.1
    hit.foldl (fun s kr =>
      let d := s.die die
      let r := kr.2
      let other : Nat × Nat × Nat → Bool := fun w => cluOf (coreOf w.2.1) != clu && dieOf (cluOf (coreOf w.2.1)) == die
      let ws : List (Nat × Nat × Nat) := r.wrote.filter fun w => w.1 == line
      if r.state = 3 then
        if ws.any other ∧ r.got.contains (line, clu) = false then
          s.setDie die { d with regions := tset d.regions kr.1 { r with miss := r.miss + 1, fb := r.fb || decide (r.thrmiss < r.miss + 1) } }
        else s
      else
      match ws.getLast? with
      | none => s
      | some w =>
        let wc := cluOf (coreOf w.2.1)
        if other w = false then s
        else if r.state = 1 then
          let me := (clu % 16, coreOf f % 8)
          match d.recs.find? fun e => e.region == kr.1 && e.line == line with
          | some e =>
            let e' : RecEntry := { e with clu := wc % 16, core := coreOf w.2.1 % 8, ctx := w.2.1 % 11, sidx := w.2.2,
                                          cons := if e.cons.contains me ∨ 4 ≤ e.cons.length then e.cons else e.cons ++ [me] }
            s.setDie die { d with recs := d.recs.map fun x => if x == e then e' else x }
          | none =>
            if 4096 ≤ (d.recs.filter fun e => e.slice == slice).length then s.setDie die { d with regions := tset d.regions kr.1 { r with ovf := true } }
            else
              let e : RecEntry := { slice := slice, region := kr.1, line := line, clu := wc % 16, core := coreOf w.2.1 % 8, ctx := w.2.1 % 11,
                                    sidx := w.2.2, cons := [me] }
              s.setDie die { d with recs := d.recs ++ [e] }
        else s) s

/-- A pushed line is evicted before it was read: it counts while the region replays (R306, R310). -/
def State.recEvict (s : State) (l : L1Line) : State :=
  if l.pushed then
    let s := s.mapClu l.clu fun c => { c with pPush := c.pPush % 2 ^ 24 + 2 ^ 24 * min (c.pPush / 2 ^ 24 + 1) (2 ^ 24 - 1) }
    s.mapRegions (dieOf l.clu) l.asid l.line fun _ r =>
      if r.state = 3 then { r with evict := r.evict + 1, fb := r.fb || decide (r.threvict < r.evict + 1) } else r
  else s

/-- A member's store with its number is performed in its cluster's L1 (R304). -/
def State.recStore (s : State) (die line : Nat) (who : Option Nat) (recNo : Option (Nat × Nat)) : State :=
  match who, recNo with
  | some f, some (k, n) => s.mapDie die fun d =>
      let r := d.region k
      if r.state = 1 ∨ r.state = 3 then { d with regions := tset d.regions k { r with pend := r.pend ++ [(line, f, n)] } } else d
  | _, _ => s

/-! Writebacks (R182, R201, R202, R289). -/

/-- Bytes are merged at the L2 slice of a line that the die holds, or else at its home. A stale line has its own bytes written back and is
refilled first; a stale line of an image keeps them beside the new ones and stays stale, until its block is recompressed (R201), and so does one
whose segment is refused (R386). A line whose every byte has been written is no longer poisoned (R169). -/
def State.mergeL2 (s : State) (die asid line pa : Nat) (data : BitVec 512) (mask : BitVec 64) : State :=
  match s.l2Find die asid line with
  | none => s.homeWrite pa data mask
  | some l =>
    if l.img then
      let m := l.mask ||| mask
      s.putL2 { l with data := mergeLine l.data data mask, mask := m, poison := l.poison && m != BitVec.allOnes 64 }
    else
      let keep := !s.l2Stale l || (s.tableFault l.pa).isSome
      let s := if keep then s else (s.homeWrite l.pa l.data l.mask).heatTick l.pa
      let base := if keep then l.data else s.homeLine l.pa
      let m := (if keep then l.mask else 0) ||| mask
      let bad := (if keep then l.poison else s.poison.contains (l.pa / 64)) && m != BitVec.allOnes 64
      s.putL2 { l with data := mergeLine base data mask, mask := m, ver := if keep then l.ver else (s.die die).vd, poison := bad }

/-- Before a later write to a line is applied, pushed copies, whose own written bytes go first to the slice, and pushes on their way are invalidated (R204). -/
def State.dropPushed (s : State) (die asid line : Nat) : State :=
  let hit := fun (l : L1Line) => l.pushed && dieOf l.clu == die && l.asid == asid && l.line == line
  let s := (s.l1.filter fun l => hit l && l.mask != 0).foldl
    (fun s l => (s.mergeL2 die asid line l.pa l.data l.mask).recApplied die asid line (storesOf l.clu)) { s with l1 := s.l1.filter fun l => !hit l }
  s.mapDie die fun d => { d with pushes := d.pushes.filter fun p => !(p.asid == asid && p.line == line) }

/-- A write is applied at the L2 slice of a line, or at its home. `mine` names the members' stores that it carries. -/
def State.applyL2 (s : State) (die asid line pa : Nat) (data : BitVec 512) (mask : BitVec 64) (mine : Nat × Nat × Nat → Bool) : State :=
  ((s.dropPushed die asid line).mergeL2 die asid line pa data mask).recApplied die asid line mine

/-- Write back an L1 line's written bytes; it stays, clean, and free of poison if all of it was written. -/
def State.flushL1 (s : State) (l : L1Line) : State :=
  if l.mask = 0 then s
  else ((s.putL1 { l with mask := 0 }).applyL2 (dieOf l.clu) l.asid l.line l.pa l.data l.mask (storesOf l.clu)).putL1 { l with mask := 0, poison := l.poison && l.mask != BitVec.allOnes 64 }

/-- Write back an L1 line and remove it. -/
def State.dropL1 (s : State) (l : L1Line) : State := (s.flushL1 l).cutL1 l

/-- The L1 copies of a line in a die. -/
def State.l1Copies (s : State) (die asid line : Nat) : List L1Line := s.l1.filter fun l => dieOf l.clu == die && l.asid == asid && l.line == line

/-- Write back and invalidate every L1 copy of a line in a die. -/
def State.dropL1s (s : State) (die asid line : Nat) : State := (s.l1Copies die asid line).foldl State.dropL1 s

/-- Overlay the masked bytes of an image's lines on a block. -/
def overlay (bytes : List Byte) (ls : List L2Line) : List Byte :=
  bytes.zipIdx.map fun (v, k) =>
    match ls.find? fun l => l.line % 64 == k / 64 && l.mask.getLsbD (k % 64) with
    | some l => l.data.extractLsb' (8 * (k % 64)) 8
    | none => v

/-- Write back an L2 line's masked bytes to its home, poisoned or not: a whole line clears the home's poison (R169, R202). An image line's block
is recompressed as it stands (R173, R299), if the log has room, which is tested first (R196); what the expander finds poisoned is kept. A line of
a refused or unmapped segment cannot be written back (R385, R386). -/
def State.flushL2 (s : State) (l : L2Line) : Except MFault State :=
  if l.mask = 0 then .ok s
  else if l.img = false then
    match s.tableFault l.pa with
    | some e => .error e
    | none => .ok ((s.homeWrite l.pa l.data l.mask).putL2 { l with mask := 0, poison := l.poison && l.mask != BitVec.allOnes 64 })
  else
    match s.rewritable l.asid l.cb l.pa with
    | .error e => .error e
    | .ok none => .ok s
    | .ok (some bytes) =>
      let mine := s.l2.filter fun m => m.die == l.die && m.img && m.pa == l.pa && m.asid == l.asid && !m.poison
      match (s.tickBlock l.asid l.pa).writeBlock l.asid l.cb l.pa (overlay bytes mine) with
      | .error e => .error e
      | .ok s => .ok { s with l2 := s.l2.map fun m => if mine.any (·.same m) then { m with mask := 0 } else m }

/-- Evict an L2 line: its L1 copies first, then its bytes, then itself, and pushes of it on their way. -/
def State.dropL2 (s : State) (l : L2Line) : Except MFault State :=
  let s := s.dropL1s l.die l.asid l.line
  match s.l2Find l.die l.asid l.line with
  | none => .ok s
  | some l =>
    match s.flushL2 l with
    | .error e => .error e
    | .ok s => .ok ((s.cutL2 l).dropPushes l.die fun a n => a == l.asid && n == l.line)

/-- Evict lines one after another. -/
def State.dropL2s (s : State) : List L2Line → Except MFault State
  | [] => .ok s
  | l :: ls =>
    match s.dropL2 l with
    | .error e => .error e
    | .ok s => s.dropL2s ls

/-- Evict the first of the lines that can be evicted, and give its way (R195); none, and the access takes the failure. -/
def State.dropSome (s : State) : List L2Line → Except MFault (Nat × State)
  | [] => .error .busy
  | [l] => (s.dropL2 l).map fun s => (l.way, s)
  | l :: ls =>
    match s.dropL2 l with
    | .ok s => .ok (l.way, s)
    | .error _ => s.dropSome ls

/-! Way reservation (R97, R168). -/

/-- An enabled register's ways, or 0; ways are given from 15 down and never reach below 4. -/
def wresWays (wres : Tab Word) : Nat → Nat → Nat → Nat
  | 0, _, _ => 0
  | n + 1, used, r =>
    let w := tget 0 wres (8 - (n + 1))
    let k := if w.getLsbD 63 then bitsOf w 62 59 else 0
    let k := if 12 < used + k then 0 else k
    if 8 - (n + 1) = r then k else wresWays wres n (used + k) r

/-- The register that reserves a way, if one does. -/
def reserver (wres : Tab Word) (way : Nat) : Option Nat :=
  (List.range 8).find? fun r =>
    let above := ((List.range r).map fun q => wresWays wres 8 0 q).sum
    decide (16 - above - wresWays wres 8 0 r ≤ way) && decide (way < 16 - above)

/-- The register that decides an access, and its ratio. -/
def State.wresFor (s : State) (die va : Nat) : Option (Nat × Nat) :=
  let t := (s.die die).wres
  match (List.range 8).find? fun r =>
    let w := tget 0 t r
    w.getLsbD 63 && decide (0 < wresWays t 8 0 r) && va / (65536 * 2 ^ bitsOf w 53 48) == bitsOf w 35 0 * 65536 / (65536 * 2 ^ bitsOf w 53 48) with
  | some r => some (r, bitsOf (tget 0 t r) 58 54)
  | none => none

/-- The class of an access at a slice, advancing the sampling counter. -/
def State.wresClass (s : State) (die slice va : Nat) : Option Nat × State :=
  match s.wresFor die va with
  | none => (none, s)
  | some (r, ratio) =>
    let n := tget 0 (s.die die).wctr (8 * slice + r)
    (if n < ratio then some r else none, s.mapDie die fun d => { d with wctr := tset d.wctr (8 * slice + r) ((n + 1) % 16) })

/-- A way of a set for a line of a class, made free, least recently used first (R168). A retained line fills its register's ways alone, and there
displaces its register's retained lines first; an unretained one fills a way that no register reserves, or one that holds no retained line.
Pinned lines stay. -/
def State.roomL2 (s : State) (die line : Nat) (cls : Option Nat) : Except MFault (Nat × State) :=
  let slice := s.served die (sliceOf (64 * line))
  let set := s.l2.filter fun l => l.die == die && l.line % 4096 == line % 4096 && s.served die (sliceOf (64 * l.line)) == slice
  let wres := (s.die die).wres
  let open_ := fun (w : Nat) =>
    match cls with
    | some r => reserver wres w == some r
    | none => (reserver wres w).isNone || !(set.any fun l => l.way == w && l.ret.isSome)
  match (List.range 16).find? fun w => open_ w && !(set.any (·.way == w)) with
  | some w => .ok (w, s)
  | none =>
    let can := set.filter fun l => open_ l.way && l.pin.isEmpty
    s.dropSome (can.filter (fun l => cls.isSome && l.ret == cls) ++ can.filter fun l => !(cls.isSome && l.ret == cls))

/-! Fills. -/

/-- Insert a filled line, in the place of a stale one of its own or in a way made free. -/
def State.insertL2 (s : State) (l : L2Line) : Except MFault State :=
  match (s.cutL2 l).roomL2 l.die l.line l.ret with
  | .error e => .error e
  | .ok (w, s) => .ok (s.putL2 { l with ver := (s.die l.die).vd, way := w })

/-- Fill the absent and the stale lines of an image's block. Each stands in the slice that SliceOf gives it (R166), where R173 speaks of the
missing line's slice: DESIGN CHOICE (log 56). -/
def State.fillImage (s : State) (l : L2Line) (bytes : Option (List Byte)) : List Nat → Except MFault State
  | [] => .ok s
  | k :: ks =>
    let line := l.line / 64 * 64 + k
    let have_ := match s.l2Find l.die l.asid line with
      | some m => !s.l2Stale m
      | none => false
    if have_ then s.fillImage l bytes ks
    else
      let data : BitVec 512 := match bytes with
        | some b => .ofNat 512 (wordOfBytes ((b.drop (64 * k)).take 64))
        | none => 0
      match (s.dropL1s l.die l.asid line).insertL2 { l with line := line, data := data, poison := bytes.isNone } with
      | .error e => .error e
      | .ok s => s.fillImage l bytes ks

/-- The stale dirty lines of a block in a die are written back, its block recompressed, before their ways are used again (R201). -/
def State.flushStale (s : State) (die asid pa : Nat) : Except MFault State :=
  match s.l2.find? fun l => l.die == die && l.img && l.asid == asid && l.pa == pa && l.mask != 0 && s.l2Stale l with
  | some l => s.flushL2 l
  | none => .ok s

/-- Before lines of a block are filled, what the die holds of them from before is moved out of the way: of a stale line, its dirty L1 copies go
into it; what stands for another physical address leaves (R289). -/
def State.clearBlock (s : State) (die asid pa : Nat) : List Nat → Except MFault State
  | [] => .ok s
  | line :: ls =>
    match s.l2Find die asid line with
    | none => s.clearBlock die asid pa ls
    | some m =>
      if m.img && m.pa == pa then (if s.l2Stale m then (s.dropL1s die asid line).clearBlock die asid pa ls else s.clearBlock die asid pa ls)
      else
        match s.dropL2 m with
        | .error e => .error e
        | .ok s => s.clearBlock die asid pa ls

/-- The copies of a physical line in a die that stand under another va or asid (R289). -/
def State.aliases (s : State) (die pa asid line : Nat) : List L2Line :=
  s.l2.filter fun l => l.die == die && !l.img && l.pa / 64 == pa / 64 && !(l.asid == asid && l.line == line)

/-- Write back and invalidate every L1 copy of a physical line in a die under another va or asid. -/
def State.dropAliasL1 (s : State) (die pa asid line : Nat) : State :=
  (s.l1.filter fun l => dieOf l.clu == die && !l.img && l.pa / 64 == pa / 64 && !(l.asid == asid && l.line == line)).foldl State.dropL1 s

/-- Write back and invalidate every copy of a physical line in a die under another va or asid (R289). -/
def State.dropAliases (s : State) (die pa asid line : Nat) : Except MFault State :=
  (s.dropAliasL1 die pa asid line).dropL2s (s.aliases die pa asid line)

/-- The line of a request in its die's L2, if it is there and not stale. -/
def State.l2Hit (s : State) (r : Req) (line : Nat) : Option L2Line := (s.l2Find r.die r.asid line).filter fun l => !s.l2Stale l

/-- The line of a request in its cluster's L1, if it is there, not stale and permitted. -/
def State.l1Hit (s : State) (r : Req) (line : Nat) : Option L1Line := (s.l1Find r.clu r.asid line).filter fun l => !s.l1Stale l && permits r.need l.perms

/-- A miss of the cluster's L1 on a line is counted (R362). -/
def State.countL1 (s : State) (r : Req) (line : Nat) : State :=
  let stale := ((s.l1Find r.clu r.asid line).map s.l1Stale).getD false
  s.mapClu r.clu fun c => { c with pMiss := sat48 c.pMiss 1, pStale := if stale then sat48 c.pStale 1 else c.pStale }

/-- A miss of the die's L2 is counted. -/
def State.countL2 (s : State) (r : Req) : State := s.mapDie r.die fun d => { d with pMiss := sat48 d.pMiss 1 }

/-- The misses of an access at a scope whose fill has failed. -/
def State.countMisses (s : State) (r : Req) (sc : Scope) (va : Nat) : State :=
  let second := fun (s : State) => if (s.l2Hit r (va / 64)).isNone then s.countL2 r else s
  match sc with
  | .core | .clu => if (s.l1Hit r (va / 64)).isNone then second (s.countL1 r (va / 64)) else s
  | .die => second s
  | _ => s

/-- A block's lines of a die are cleared, and the stale dirty ones written back. -/
def State.readyBlock (s : State) (die asid pa : Nat) (block : List Nat) : Except MFault State :=
  match s.clearBlock die asid pa block with
  | .error e => .error e
  | .ok s => s.flushStale die asid pa

/-- Before a line is filled for a physical address: the written bytes of the stale line in its place go home, and a line of another physical
address leaves the die (R289). -/
def State.readyLine (s : State) (die asid line pa : Nat) : Except MFault State :=
  match s.l2Find die asid line with
  | some l => if !l.img && l.pa == pa then .ok (s.homeWrite l.pa l.data l.mask) else s.dropL2 l
  | none => .ok s

/-- Fill the line of a request into the die's L2 from its home (R167, R173, R289). -/
def State.fillL2 (s : State) (r : Req) (line : Nat) (cls : Option Nat) : Except MFault State :=
  let die := r.die
  let slice := s.served die (sliceOf (64 * line))
  match s.translate die slice r.asid (64 * line) r.need with
  | .error e => .error e
  | .ok (t, s) =>
    if t.comp then
      let block := (line % 64 :: (List.range 64).filter (· != line % 64)).map (line / 64 * 64 + ·)
      match s.readyBlock die r.asid t.pa block with
      | .error e => .error e
      | .ok s =>
        match s.readBlock r.asid t.cb t.pa with
        | .error e => .error e
        | .ok bytes =>
          let s := s.tickBlock r.asid t.pa
          let l : L2Line := { die := die, asid := r.asid, line := line, pa := t.pa, cb := t.cb, data := 0, mask := 0, ver := 0, ret := cls, pin := [],
                              img := true, poison := false, perms := t.perms, way := 0 }
          let s := if bytes.isNone then s.machineEvent 0x40 (.ofNat 64 (64 * line)) (coreOf r.frame) r.frame ((r.from_.map (·.2)).getD 0) else s
          s.fillImage l bytes (line % 64 :: (List.range 64).filter (· != line % 64))
    else
      match s.paFault r.user t.pa with
      | some e => .error e
      | none =>
        match s.dropAliases die t.pa r.asid line with
        | .error e => .error e
        | .ok s =>
          match s.readyLine die r.asid line t.pa with
          | .error e => .error e
          | .ok s =>
            let s := s.heatTick t.pa
            s.insertL2 { die := die, asid := r.asid, line := line, pa := t.pa, cb := 0, data := s.homeLine t.pa, mask := 0, ver := 0, ret := cls, pin := [],
                         img := false, poison := s.poison.contains (t.pa / 64), perms := t.perms, way := 0 }

/-- A miss: the line of a request is filled into its die's L2. -/
def State.missL2 (s : State) (r : Req) (line : Nat) (cls : Option Nat) : MR L2Line :=
  match (s.countL2 r).fillL2 r line cls with
  | .error e => .error e
  | .ok s =>
    match s.l2Find r.die r.asid line with
    | some l => .ok (l, s)
    | none => .error .busy

/-- The line of a request in its die's L2, valid, not stale and permitted. An access that a resident line's permissions do not allow is checked
at the slice; if the page has moved to another frame meanwhile, the line is filled anew (R288). -/
def State.l2Get (s : State) (r : Req) (line : Nat) : MR L2Line :=
  let die := r.die
  let slice := s.served die (sliceOf (64 * line))
  let (cls, s) := s.wresClass die slice (64 * line)
  match s.l2Hit r line with
  | some l =>
    let refused (r : MR L2Line) : MR L2Line := match s.tableFault l.pa with
      | some e => .error e
      | none => r
    if permits r.need l.perms then refused (.ok (l, s.putL2 l))
    else
      match s.translate die slice r.asid (64 * line) r.need with
      | .error e => .error e
      | .ok (t, s) =>
        if t.comp = l.img ∧ t.pa = l.pa then let l := { l with perms := t.perms }; refused (.ok (l, s.putL2 l))
        else
          match s.dropL2 l with
          | .error e => .error e
          | .ok s => s.missL2 r line cls
  | none => s.missL2 r line cls

/-- Evict from an L1 set of 8 ways (R163) to make room: the least recently used. -/
def State.roomL1 (s : State) (clu line : Nat) : State :=
  let set := s.l1.filter fun l => l.clu == clu && l.line % 1024 == line % 1024
  if set.length < 8 then s
  else
    match set.head? with
    | some l => (s.dropL1 l).recEvict l
    | none => s

/-- The line of a request in its cluster's L1, valid, not stale and permitted, filled through the L2 slice if absent. -/
def State.l1Get (s : State) (r : Req) (line : Nat) : MR L1Line :=
  match s.l1Hit r line with
  | some l =>
    if let some e := s.tableFault l.pa then .error e else
    .ok (l, s.putL1 l)
  | none =>
    let s := s.countL1 r line
    let s := match s.l1Find r.clu r.asid line with
      | some l => s.dropL1 l
      | none => s
    match s.l2Get r line with
    | .error e => .error e
    | .ok (m, s) =>
      let s := if m.img then s else s.recFetch r.die r.asid line r.clu r.who
      let s := s.roomL1 r.clu line
      let l : L1Line := { clu := r.clu, asid := r.asid, line := line, pa := m.pa, data := m.data, mask := 0, ver := (s.clu r.clu).vc, pushed := false,
                          perms := m.perms, img := m.img, poison := m.poison }
      .ok (l, s.putL1 l)

/-! Heap tables (R313). -/

/-- n bytes at va meet a table field of a heap other than a class entry's data word. -/
def Heap.tableField (h : Heap) (va n : Nat) : Bool :=
  let f := fun (o k : Nat) => h.hdr / 2 ^ (8 * o) % 2 ^ (8 * k)
  let meets := fun (b len : Nat) => decide (b < va + n) && decide (va < b + len)
  let cls := f 8 8
  let len := 32 * 2 ^ f 44 1
  meets (f 0 8) (16 * 2 ^ f 44 1) || meets (f 16 8) (32 * 2 ^ f 45 1) || meets (f 24 8) (8 * f 40 4)
    || (meets cls len && !(decide (cls ≤ va) && decide (24 ≤ (va - cls) % 32) && decide ((va - cls) % 32 + n ≤ 32)))

/-- A program's store to a table field of an open heap leaves the heap's later results unspecified. -/
def State.spoil (s : State) (who : Option Nat) (asid va n : Nat) : State :=
  if who.isNone then s
  else { s with heaps := s.heaps.map fun h => if h.asid == asid && h.tableField va n then { h with spoiled := true } else h }

/-! Accesses within a line, at each coherence point (R179, R182, R183, R189). `o` is the offset in the line. -/

/-- The first read of a pushed line makes it one of the cluster's own (R204). -/
def State.firstRead (s : State) (l : L1Line) : State := if l.pushed then s.putL1 { l with pushed := false, ver := (s.clu l.clu).vc } else s

/-- The device caches a line of host memory at its home slice alone (R384): after an access the die's L1 and L2 hold none of it, and what was written stands at
the home. -/
def State.leaveHost (s : State) (die asid line pa : Nat) : State :=
  if paClass pa = .host then
    let s := s.dropL1s die asid line
    match s.l2Find die asid line with
    | some l => ((s.homeWrite l.pa l.data l.mask).cutL2 l).dropPushes die fun a n => a == asid && n == line
    | none => s
  else s

/-- Read n bytes in the owning L1 slice. -/
def State.readL1 (s : State) (r : Req) (va n : Nat) : MR Nat :=
  match s.l1Get r (va / 64) with
  | .error e => .error e
  | .ok (l, s) => if l.poison then .error .poison else .ok (lineGet l.data (va % 64) n, (s.firstRead l).leaveHost r.die r.asid (va / 64) l.pa)

/-- Write n bytes in the owning L1 slice; the line becomes dirty. A store to a line that a corrupt stream has poisoned takes the uncorrectable-error
fault, as a load does (R195). -/
def State.writeL1 (s : State) (r : Req) (va n v : Nat) (recNo : Option (Nat × Nat) := none) : Except MFault State :=
  match s.l1Get r (va / 64) with
  | .error e => .error e
  | .ok (l, s) =>
    if l.img ∧ l.poison then .error .poison else
    let m := l.mask ||| byteMask (va % 64) n
    let l := { l with data := lineSet l.data (va % 64) n v, mask := m, ver := (s.clu r.clu).vc, poison := l.poison && m != BitVec.allOnes 64 }
    .ok ((((s.putL1 l).recStore r.die (va / 64) r.who (if l.img then none else recNo)).spoil r.who r.asid va n).leaveHost r.die r.asid (va / 64) l.pa)

/-- Write back the cluster's L1 copy of a line, which stays or is dropped. -/
def State.cleanL1 (s : State) (clu asid line : Nat) (drop : Bool) : State :=
  match s.l1Find clu asid line with
  | none => s
  | some l => if drop then s.dropL1 l else s.flushL1 l

/-- Write back the die's L2 copy of a line to its home; it stays. -/
def State.cleanL2 (s : State) (die asid line : Nat) : Except MFault State :=
  match s.l2Find die asid line with
  | none => .ok s
  | some l => s.flushL2 l

/-- Recall a physical line: every die's L1 and L2 copies write back and are invalidated (R189, R383). -/
def State.recall (s : State) (pa : Nat) : Except MFault State :=
  ((s.l1.filter fun l => !l.img && l.pa / 64 == pa / 64).foldl State.dropL1 s).dropL2s (s.l2.filter fun l => !l.img && l.pa / 64 == pa / 64)

/-- Write back a request's own copies of a physical line under any va and asid, L1 of the cluster first, then L2 of the die; they stay (R183,
R289). -/
def State.cleanPa (s : State) (clu pa : Nat) : State :=
  let s := (s.l1.filter fun l => l.clu == clu && !l.img && l.pa / 64 == pa / 64).foldl State.flushL1 s
  (s.l2.filter fun l => l.die == dieOf clu && !l.img && l.pa / 64 == pa / 64).foldl (fun s l => (s.homeWrite l.pa l.data l.mask).putL2
    { l with mask := 0, poison := l.poison && l.mask != BitVec.allOnes 64 }) s

/-- The physical address of a request's access at .dev or wider, translated at its slice. -/
def State.paOf (s : State) (r : Req) (va : Nat) : MR Trans :=
  match s.translate r.die (s.served r.die (sliceOf va)) r.asid va r.need with
  | .error e => .error e
  | .ok (t, s) =>
    if t.comp then .ok (t, s)
    else
      match s.paFault r.user t.pa with
      | some e => .error e
      | none => .ok (t, s)

/-- Read n bytes at the coherence point of a scope, with the writebacks of R183. -/
def State.readAt (s : State) (r : Req) (sc : Scope) (va n : Nat) : MR Nat :=
  match sc with
  | .core | .clu => s.readL1 r va n
  | .die =>
    match (s.cleanL1 r.clu r.asid (va / 64) false).l2Get r (va / 64) with
    | .error e => .error e
    | .ok (l, s) => if l.poison then .error .poison else .ok (lineGet l.data (va % 64) n, s.leaveHost r.die r.asid (va / 64) l.pa)
  | _ =>
    match s.paOf r va with
    | .error e => .error e
    | .ok (t, s) =>
      if t.comp then
        match (s.cleanL1 r.clu r.asid (va / 64) false).cleanL2 r.die r.asid (va / 64) with
        | .error e => .error e
        | .ok s =>
          match s.readBlock r.asid t.cb t.pa with
          | .error e => .error e
          | .ok none => .error .poison
          | .ok (some b) => .ok (wordOfBytes ((b.drop (va % 4096)).take n), s.tickBlock r.asid t.pa)
      else
        let s := s.cleanPa r.clu t.pa
        if s.poison.contains (t.pa / 64) then .error .poison
        else .ok (s.homeRead t.pa n, s.heatTick t.pa)

/-- Write n bytes into a cluster's L1 copy and, if asked, a die's L2 copy, where they leave the dirty or masked set (R182). -/
def State.syncCopies (s : State) (r : Req) (va n v : Nat) (l2 : Bool) : State :=
  let m := byteMask (va % 64) n
  let s := match s.l1Find r.clu r.asid (va / 64) with
    | some l => s.putL1 { l with data := lineSet l.data (va % 64) n v, mask := l.mask &&& ~~~m }
    | none => s
  if l2 then
    let s := s.dropPushed r.die r.asid (va / 64)
    match s.l2Find r.die r.asid (va / 64) with
    | some l => s.putL2 { l with data := lineSet l.data (va % 64) n v, mask := l.mask &&& ~~~m }
    | none => s
  else s

/-- Write n bytes into the cluster's L1 copies and the die's L2 copies of a physical line, under whatever va and asid they stand, where the bytes
leave the dirty or masked set (R182, R289). -/
def State.syncPa (s : State) (clu pa n v : Nat) : State :=
  let m := byteMask (pa % 64) n
  let s := { s with l1 := s.l1.map fun (l : L1Line) => if l.clu == clu && !l.img && l.pa / 64 == pa / 64 then { l with data := lineSet l.data (pa % 64) n v, mask := l.mask &&& ~~~m } else l }
  let here := fun (l : L2Line) => l.die == dieOf clu && !l.img && l.pa / 64 == pa / 64
  let s := (s.l2.filter here).foldl (fun s l => s.dropPushed l.die l.asid l.line) s
  (s.l2.filter here).foldl (fun s l => s.putL2 { l with data := lineSet l.data (pa % 64) n v, mask := l.mask &&& ~~~m }) s

/-- At .sys, what the home slice of a pool or host line holds is written through to its CXL home (R182). -/
def State.through (s : State) (sc : Scope) (pa : Nat) : State := if sc = .sys then s.writeThrough pa else s

/-- Write n bytes at the coherence point of a scope (R182). -/
def State.writeAt (s₀ : State) (r : Req) (sc : Scope) (va n v : Nat) (recNo : Option (Nat × Nat) := none) : Except MFault State :=
  let s := match sc with
    | .core | .clu => s₀
    | _ => s₀.spoil r.who r.asid va n
  match sc with
  | .core | .clu => s.writeL1 r va n v recNo
  | .die =>
    match s.l2Get r (va / 64) with
    | .error e => .error e
    | .ok (l, s) =>
      if l.img ∧ l.poison then .error .poison else
      let s := s.recStore r.die (va / 64) r.who (if l.img then none else recNo)
      .ok (((s.applyL2 r.die r.asid (va / 64) l.pa (lineSet 0 (va % 64) n v) (byteMask (va % 64) n) (storeOf r.who recNo)).syncCopies r va n v false).leaveHost
        r.die r.asid (va / 64) l.pa)
  | _ =>
    match s.paOf r va with
    | .error e => .error e
    | .ok (t, s) =>
      if t.comp then
        match s.rewritable r.asid t.cb t.pa with
        | .error e => .error e
        | .ok none => .error .poison
        | .ok (some b) =>
          match (s.tickBlock r.asid t.pa).writeBlock r.asid t.cb t.pa ((b.take (va % 4096)) ++ bytesOf n v ++ b.drop (va % 4096 + n)) with
          | .error e => .error e
          | .ok s => .ok (s.syncCopies r va n v true)
      else
        let s := s.recStore r.die (va / 64) r.who recNo
        let line := t.pa / 64 * 64
        let s := s.homeWrite line (lineSet 0 (t.pa % 64) n v) (byteMask (t.pa % 64) n)
        .ok (((s.syncPa r.clu t.pa n v).through sc line).recApplied r.die r.asid (va / 64) (storeOf r.who recNo))

/-- The physical line of a virtual one, if it is mapped and not compressed. -/
def State.lineAt (s : State) (asid line : Nat) : Option Nat :=
  match s.walk asid (64 * line) with
  | .ok (leaf, size) => let t := transOf leaf size (64 * line); if t.comp then none else some t.pa
  | .error _ => none

/-- Publish at .dev or wider: each L2 line of the die is written back, and at .sys written through (R182). A line that cannot be is left, and the
others go on (R294); the first such line is given. -/
def State.publishL2 (s : State) (die : Nat) (sc : Scope) : List (Nat × Nat) → State × Option (MFault × Nat)
  | [] => (s, none)
  | l :: ls =>
    match s.cleanL2 die l.1 l.2 with
    | .ok s =>
      match (if sc = .sys then s.lineAt l.1 l.2 else none) with
      | some pa =>
        match s.tableFault pa with
        | some e => let r := s.publishL2 die sc ls; (r.1, some (e, 64 * l.2))
        | none => (s.writeThrough pa).publishL2 die sc ls
      | none => s.publishL2 die sc ls
    | .error e => let r := s.publishL2 die sc ls; (r.1, some (e, 64 * l.2))

/-- Publish at a scope the released lines of an address space (R182): L1 lines of the cluster, then L2 lines of the die. -/
def State.publishAll (s : State) (clu : Nat) (sc : Scope) (rel : List (Nat × Nat)) : State × Option (MFault × Nat) :=
  match sc with
  | .core | .clu => (s, none)
  | _ =>
    let s := rel.foldl (fun s l => s.cleanL1 clu l.1 l.2 false) s
    if sc = .die then (s, none) else s.publishL2 (dieOf clu) sc rel

/-- The outcome of an attempt: the state after it, or the fault, its address, and the state with what was done. -/
abbrev PR := Except (MFault × Nat × State) State

/-- Publish, as part of an instruction that is held if a line cannot be written back: what it has done it does again (R367). -/
def State.publish (s : State) (clu : Nat) (sc : Scope) (rel : List (Nat × Nat)) : Except MFault State :=
  match s.publishAll clu sc rel with
  | (s, none) => .ok s
  | (_, some e) => .error e.1

/-- Step a cluster's die-scope version; lines the wrap rule names are written back and dropped (R201). -/
def State.stepVc (s : State) (clu : Nat) : State :=
  let v := (s.clu clu).vc + 1
  let s := (s.l1.filter fun l => l.clu == clu && l.ver == v).foldl State.dropL1 s
  s.mapClu clu fun c => { c with vc := v }

/-- Step a die's device-scope version. Pushed lines of the die become stale (R204). -/
def State.stepVd (s : State) (die : Nat) : Except MFault State :=
  let v := (s.die die).vd + 1
  match s.dropL2s (s.l2.filter fun l => l.die == die && l.ver == v) with
  | .error e => .error e
  | .ok s =>
    let s := ((s.l1.filter fun l => l.pushed && dieOf l.clu == die).foldl State.dropL1 s).dropPushes die fun _ _ => true
    .ok (s.mapDie die fun d => { d with vd := v })

/-- An acquire at .sys drops the device's copies of pool frames, dirty bytes written back first (R170). -/
def State.dropPool (s : State) : Except MFault State :=
  ((s.l1.filter fun l => !l.img && paClass l.pa == .pool).foldl State.dropL1 s).dropL2s (s.l2.filter fun l => !l.img && paClass l.pa == .pool)

/-- The version steps of an acquire at a scope (R183). -/
def State.acquire (s : State) (clu : Nat) (sc : Scope) : Except MFault State :=
  match sc with
  | .core | .clu => .ok s
  | .die => .ok (s.stepVc clu)
  | .sys =>
    match s.dropPool with
    | .error e => .error e
    | .ok s => (s.stepVc clu).stepVd (dieOf clu)
  | _ => (s.stepVc clu).stepVd (dieOf clu)

/-- The address of a written line that a die holds and cannot write back: what an acquire is held at. -/
def State.stuckAt (s : State) (die : Nat) : Nat :=
  ((s.l2.find? fun l => l.die == die && l.mask != 0 && (l.img || (s.tableFault l.pa).isSome)).map fun l => 64 * l.line).getD 0

/-- A read and a write done indivisibly at the execution point of a scope (R189): `f` gives the new value, or none. -/
def State.atomicAt (s : State) (r : Req) (sc : Scope) (va n : Nat) (f : Nat → Option Nat) (recNo : Option (Nat × Nat)) : MR Nat :=
  match sc with
  | .core | .clu =>
    match s.readL1 r va n with
    | .error e => .error e
    | .ok (old, s) =>
      match f old with
      | none => .ok (old, s)
      | some v => (s.writeL1 r va n v recNo).map fun s => (old, s)
  | .die =>
    match (s.cleanL1 r.clu r.asid (va / 64) true).l2Get r (va / 64) with
    | .error e => .error e
    | .ok (l, s) =>
      if l.poison then .error .poison
      else
        let old := lineGet l.data (va % 64) n
        match f old with
        | none => .ok (old, s.leaveHost r.die r.asid (va / 64) l.pa)
        | some v =>
          let s := s.recStore r.die (va / 64) r.who (if l.img then none else recNo)
          .ok (old, ((s.spoil r.who r.asid va n).applyL2 r.die r.asid (va / 64) l.pa (lineSet 0 (va % 64) n v) (byteMask (va % 64) n) (storeOf r.who recNo)).leaveHost
            r.die r.asid (va / 64) l.pa)
  | _ =>
    match s.paOf r va with
    | .error e => .error e
    | .ok (t, s) =>
      if t.comp then .error .unsupported else
      match s.recall t.pa with
      | .error e => .error e
      | .ok s =>
        if s.poison.contains (t.pa / 64) then .error .poison
        else
          let old := s.homeRead t.pa n
          let s := s.heatTick t.pa
          match f old with
          | none => .ok (old, s)
          | some v =>
            let s := (s.recStore r.die (va / 64) r.who recNo).spoil r.who r.asid va n
            let line := t.pa / 64 * 64
            let s := (s.homeWrite line (lineSet 0 (t.pa % 64) n v) (byteMask (t.pa % 64) n)).through sc line
            .ok (old, s.recApplied r.die r.asid (va / 64) (storeOf r.who recNo))

/-! Byte ranges, for records, descriptors and engines. -/

/-- Read n bytes from va at a scope, a line's part at a time. -/
def State.readBytesAt (s : State) (r : Req) (sc : Scope) : Nat → Nat → Nat → MR (List Byte)
  | 0, _, _ => .ok ([], s)
  | fuel + 1, va, n =>
    if n = 0 then .ok ([], s)
    else
      let k := min n (64 - va % 64)
      match s.orDevRead va k (s.readAt r sc va k) with
      | .error e => .error e
      | .ok (v, s) =>
        match s.readBytesAt r sc fuel (va + k) (n - k) with
        | .error e => .error e
        | .ok (bs, s) => .ok (bytesOf k v ++ bs, s)

/-- The address at which such a read fails: where the first line's part begins that cannot be read. -/
def State.readStop (s : State) (r : Req) (sc : Scope) : Nat → Nat → Nat → Nat
  | 0, va, _ => va
  | fuel + 1, va, n =>
    if n = 0 then va
    else
      let k := min n (64 - va % 64)
      match s.orDevRead va k (s.readAt r sc va k) with
      | .error _ => va
      | .ok (_, s) => s.readStop r sc fuel (va + k) (n - k)

/-- Write bytes from va at a scope. -/
def State.writeBytesAt (s : State) (r : Req) (sc : Scope) : Nat → Nat → List Byte → Except MFault State
  | 0, _, _ => .ok s
  | fuel + 1, va, bs =>
    if bs.isEmpty then .ok s
    else
      let k := min bs.length (64 - va % 64)
      match s.orDevWrite va k (wordOfBytes (bs.take k)) (s.writeAt r sc va k (wordOfBytes (bs.take k))) with
      | .error e => .error e
      | .ok s => s.writeBytesAt r sc fuel (va + k) (bs.drop k)

/-- The address at which such a write fails. -/
def State.writeStop (s : State) (r : Req) (sc : Scope) : Nat → Nat → List Byte → Nat
  | 0, va, _ => va
  | fuel + 1, va, bs =>
    if bs.isEmpty then va
    else
      let k := min bs.length (64 - va % 64)
      match s.orDevWrite va k (wordOfBytes (bs.take k)) (s.writeAt r sc va k (wordOfBytes (bs.take k))) with
      | .error _ => va
      | .ok s => s.writeStop r sc fuel (va + k) (bs.drop k)

/-- Read a little-endian number of n bytes at a scope; n at most 64 × 64. -/
def State.readNum (s : State) (r : Req) (sc : Scope) (va n : Nat) : MR Nat :=
  match s.readBytesAt r sc (n / 64 + 2) va n with
  | .error e => .error e
  | .ok (bs, s) => .ok (wordOfBytes bs, s)

/-- Write a little-endian number of n bytes at a scope. -/
def State.writeNum (s : State) (r : Req) (sc : Scope) (va n v : Nat) : Except MFault State :=
  s.writeBytesAt r sc (n / 64 + 2) va (bytesOf n v)

/-- The same read; a failure names its address (R364). -/
def State.readNumAt (s : State) (r : Req) (sc : Scope) (va n : Nat) : Except (MFault × Nat) (Nat × State) :=
  match s.readNum r sc va n with
  | .error e => .error (e, s.readStop r sc (n / 64 + 2) va n)
  | .ok x => .ok x

/-- The same write; a failure names its address. -/
def State.writeNumAt (s : State) (r : Req) (sc : Scope) (va n v : Nat) : Except (MFault × Nat) State :=
  match s.writeNum r sc va n v with
  | .error e => .error (e, s.writeStop r sc (n / 64 + 2) va (bytesOf n v))
  | .ok s => .ok s

end Sys2Proof.Machine
end

