-- ==== Sys2Proof/Machine/Access.lean ====
section
/-! DEFINITION. Issued accesses: issue, local store and full-empty bits, holding in the replay buffer, and completion (R89, R90, R158 to
R161, R176 to R180, R290, R291, R366). -/

namespace Sys2Proof.Machine

open Sys2Proof

/-! Requests and faults. -/

/-- The request of a context's access: 8 reads, 12 writes, 2 fetches; a user context needs u (R286). -/
def Ctx.req (c : Ctx) (f : Nat) (need : BitVec 4) : Req :=
  { clu := cluOf (coreOf f), asid := c.asid, who := some f, need := if c.st.sup then need else need ||| 1 }

/-- The selected context's request. -/
def State.req (s : State) (need : BitVec 4) : Req := s.c.req s.self need

/-- A fault token (R290). -/
def tokenOf (gen entry slice die kind : Nat) : Word :=
  .ofNat 64 (gen % 256 * 2 ^ 24 + entry * 2 ^ 16 + slice * 2 ^ 10 + die * 2 ^ 8 + kind * 16)

/-- The token of an entry. -/
def Replay.token (e : Replay) (die : Nat) : Word := tokenOf e.gen.toNat e.entry e.slice die e.kind

/-- Change the entries of a die's replay buffers that satisfy a test. -/
def State.mapReplay (s : State) (die : Nat) (p : Replay → Bool) (g : Replay → Replay) : State :=
  s.mapDie die fun d => { d with replay := d.replay.map fun e => if p e then g e else e }

/-- The same entry. -/
def Replay.is (e : Replay) (slice entry : Nat) : Bool := e.slice == slice && e.entry == entry

/-- Open an entry of a slice's replay buffer, if one of its 256 is free: the entry with its first generation. -/
def State.openReplay (s : State) (die : Nat) (e : Replay) : Option (Replay × State) :=
  let d := s.die die
  match (List.range 256).find? fun n => !(d.replay.any fun x => x.is e.slice n) with
  | none => none
  | some n =>
    let gen := tget 0 d.gens (256 * e.slice + n) + 1
    let e := { e with entry := n, gen := .ofNat 8 gen }
    some (e, s.setDie die { d with replay := d.replay ++ [e], gens := tset d.gens (256 * e.slice + n) (gen % 256) })

/-- Mark an access held. -/
def Ctx.holdAcc (c : Ctx) (aid : Nat) : Ctx :=
  let g := fun (a : Access) => if a.aid == aid then { a with held := true } else a
  { c with acc := c.acc.map g, parks := c.parks.map fun (k, p) => (k, { p with acc := p.acc.map g }) }

/-- The instruction whose own access is held has begun, and stays issued at an upcall (R90, R367): the context's, or the one beside its streams that the access
is of. -/
def Ctx.beginHeld (c : Ctx) (a : Access) : Ctx :=
  match a.op, if c.acc.any (·.aid == a.aid) then some a.work else none with
  | .other _, some none => { c with wait := c.wait.map fun (w : Wait) => { w with begun := true } }
  | .other _, some (some n) => { c with works := c.works.map fun (w : Work) => if w.id == n then { w with wait := { w.wait with begun := true } } else w }
  | _, _ => c

/-- Hold a faulting access of frame f in its slice's replay buffer and make its upcall pending; an access a handler issued escalates at
once (R290, R291, R368). It joins the entry that the slice has for its context and page, whatever that entry's state. With the entry full, or
no entry free, it goes on waiting. -/
def State.hold (s : State) (f : Nat) (a : Access) (code kind : Nat) (va : Nat) : State :=
  let die := dieOf (cluOf (coreOf f))
  let slice := s.served die (sliceOf va)
  let raiseUp (s : State) (e : Replay) : State :=
    let u : Upcall := { code := code, info := kind, addr := .ofNat 64 va, token := e.token die, whence := a.pc, soft := false, park := none }
    if a.inHandler then s.escalate f 3 u else s.addUpcall f u
  match (s.die die).replay.find? fun e => e.slice == slice && e.frame == f && e.unit_.isNone && e.asid == a.asid && e.page == va / 65536 with
  | some e =>
    if 16 ≤ e.aids.length then s
    else
      let s := (s.mapReplay die (· == e) fun e => { e with aids := e.aids ++ [a.aid] }).mapCtx f fun c => (c.holdAcc a.aid).beginHeld a
      if a.inHandler then raiseUp s e else s
  | none =>
    let e : Replay := { slice := slice, entry := 0, frame := f, owner := (s.ctx f).gen, unit_ := none, asid := a.asid, page := va / 65536, va := .ofNat 64 va, kind := kind,
                        code := code, aids := [a.aid], pc := a.pc, wr := false, count := 0, gen := 0, replaying := false, escalated := false, notice := none, mark := none }
    match s.openReplay die e with
    | none => s
    | some (e, s) => raiseUp (s.mapCtx f fun c => (c.holdAcc a.aid).beginHeld a) e

/-- Remove an access and give back its slot's count, wherever it stands; its data goes where the execute stream finds it. A context that has been killed
has no counts, and takes no data (R379). -/
def Ctx.finishAcc (c : Ctx) (aid : Nat) (ws : List (Reg × Word)) (wv : Option (VReg × BitVec 256 × BitVec 8192)) : Ctx :=
  match c.acc.find? (·.aid == aid) with
  | some a =>
    let c := { c with acc := c.acc.filter (·.aid != aid) }
    if c.live = false then c else
    let c := match a.slot with
      | some i => c.decSlot i
      | none => c
    c.deliver aid ws [] wv.toList
  | none =>
    { c with parks := c.parks.map fun (k, p) =>
        match p.acc.find? (·.aid == aid) with
        | none => (k, p)
        | some a =>
          let counts := match a.slot with
            | some i => p.counts.set i (p.counts[i] - 1)
            | none => p.counts
          let p := { p with acc := p.acc.filter (·.aid != aid), counts := counts }
          if behind p.win aid then (k, { p with win := queueWrites p.win aid (ws.filter isXWrite) [] wv.toList, owed := p.owed ++ ws.filter fun w => !isXWrite w })
          else (k, { p with owed := p.owed ++ ws, owedV := p.owedV ++ wv.toList }) }

/-- An access of frame f is performed: its registers are written and its slot falls (R89). -/
def State.finish (s : State) (f aid : Nat) (ws : List (Reg × Word)) (wv : Option (VReg × BitVec 256 × BitVec 8192) := none) : State :=
  s.mapCtx f (·.finishAcc aid ws wv)

/-- An access of frame f raises a freeze: its count is removed with it (R366). -/
def State.accFreeze (s : State) (f : Nat) (a : Access) (code : Nat) (addr : Word) : State :=
  (s.finish f a.aid []).freezeRec f code 0 addr 0 a.pc false

/-- What the fill of a line has done stays done when a poisoned byte of it is met: the line is in the caches, poisoned, its home has read it, and a corrupt
stream has been reported for a frame and a `where` word (R169, R175, R195, R365). -/
def State.keepFill (s : State) (r : Req) (sc : Scope) (va f : Nat) (whence : Word) : State :=
  let r := { r with from_ := some (f, whence) }
  let t : Except MFault State := match sc with
    | .core | .clu => (s.l1Get r (va / 64)).map (·.2)
    | .die => (s.l2Get r (va / 64)).map (·.2)
    | _ => match s.lineAt r.asid (va / 64) with
      | some pa => .ok (s.heatTick pa)
      | none => (s.l2Get r (va / 64)).map (·.2)
  match t with
  | .ok t => t.leaveHost r.die r.asid (va / 64) ((s.lineAt r.asid (va / 64)).getD 0)
  | .error _ => s

/-- Is the fault one of a fill? -/
def MFault.missed : MFault → Bool
  | .page _ | .comp _ _ | .phys => true
  | _ => false

/-- What an access needs of its page: a read, or a write (R286). -/
def MemOp.need : MemOp → BitVec 4
  | .st _ _ | .strl _ _ _ | .amo _ _ _ _ _ | .cas _ _ _ _ _ | .vst _ _ _ | .vstx _ _ _ _ => 12
  | .other w => if w then 12 else 8
  | .fetch => 2
  | _ => 8

/-- The scope of an access (R179). -/
def MemOp.scope : MemOp → Scope
  | .lda _ sc _ | .strl _ sc _ | .amo _ _ sc _ _ | .cas _ sc _ _ _ => sc
  | _ => .clu

/-- What a fault of an issued access at an address does (R196): of a vector access, the first faulting lane's (R154). The device-register range is
handled by its caller. The misses of a fill that failed count (R362). -/
def State.accFault (s : State) (f : Nat) (a : Access) (e : MFault) (va : Nat) : State :=
  let s := if e.missed then s.countMisses { (s.ctx f).req f a.op.need with asid := a.asid } a.op.scope va else s
  match e with
  | .page k => s.hold f a 1 k va
  | .comp code k => s.hold f a code k va
  | .phys | .device _ => s.accFreeze f a 0x29 (.ofNat 64 va)
  | .poison => (s.keepFill { (s.ctx f).req f 8 with asid := a.asid } a.op.scope va f a.pc).accFreeze f a 0x28 (.ofNat 64 va)
  | .unsupported => s.accFreeze f a 0x2A (.ofNat 64 va)
  | .window => s.accFreeze f a 0x22 (.ofNat 64 va)
  | .busy => s

/-- A fault of an access made at issue by an instruction of the access stream: a replayable one holds the access with the instruction's count, and
the instruction waits for it (R90, R366); it issues again after the replay. -/
def State.memFail (s : State) (e : MFault) (ea : Word) (write : Bool) : State :=
  let s := if e.missed then s.countMisses (s.req (if write then 12 else 8)) .clu ea.toNat else s
  let holdOther (code kind : Nat) : State :=
    let a : Access := { aid := s.nextId, slot := none, pc := s.c.pc, ea := ea, asid := s.c.asid, op := .other write, inHandler := s.c.st.upc, held := false,
                        back := false, done := 0, got := 0, recNo := none, work := none }
    let t := s.newId.stall.mapC fun c => { c with acc := c.acc ++ [a] }
    t.hold t.self a code kind ea.toNat
  match e with
  | .page k => holdOther 1 k
  | .comp code k => holdOther code k
  | .phys | .device _ => s.raise 0x29 0 ea
  | .poison => (s.keepFill (s.req 8) .clu ea.toNat s.self s.c.pc).raise 0x28 0 ea
  | .unsupported => s.raise 0x2A 0 ea
  | .window => s.misaligned ea
  | .busy => s.stall

/-- A fault at an address of an access made at issue: see memFail. -/
def State.failAt (s : State) (e : MFault × Nat) (write : Bool) : State := s.memFail e.1 (.ofNat 64 e.2) write

/-- An upcall for a unit's work goes to the context that submitted it (R227, R247, R255). Where that context has ended, the fault escalates as one
without a handler does (R368): DESIGN CHOICE (log 74). -/
def State.unitUpcall (s : State) (f : Nat) (gen : BitVec 8) (u : Upcall) : State :=
  if (s.ctx f).owns gen then s.addUpcall f u
  else s.freezeFrame f 0x27 [fault0 0x27 0 (2 * 16777216 + u.code) u.soft, u.addr, u.token, u.whence]

/-- A fault of a unit's work escalates to the core of its context, whose record it writes if it is still there. -/
def State.unitEscalate (s : State) (f : Nat) (gen : BitVec 8) (reason : Nat) (u : Upcall) : State :=
  if (s.ctx f).owns gen then s.escalate f reason u
  else s.freezeFrame f 0x27 [fault0 0x27 0 (reason * 16777216 + u.code) u.soft, u.addr, u.token, u.whence]

/-- A replay of an entry has faulted again (R291): past the limit it escalates and stays held, in the state it has, so that no FRESUME is accepted
for it; otherwise the entry waits and a new upcall is raised. `count` is the repeat count it has now. -/
def State.refault (s : State) (die : Nat) (e : Replay) (count : Nat) (code kind : Nat) (va whence : Word) : State :=
  let g := tget 0 (s.die die).gens (256 * e.slice + e.entry) + 1
  let past := decide ((s.ctx e.frame).cr.replaylim.toNat < count)
  let e' := { e with count := count, gen := .ofNat 8 g, code := code, kind := kind, va := va, replaying := past, escalated := past, mark := none }
  let s := s.mapDie die fun d => { d with replay := d.replay.map fun x => if x.is e.slice e.entry then e' else x, gens := tset d.gens (256 * e.slice + e.entry) (g % 256) }
  let u : Upcall := { code := code, info := kind, addr := va, token := e'.token die, whence := whence, soft := false, park := none }
  if past then s.unitEscalate e.frame e.owner 1 u else s.unitUpcall e.frame e.owner u

/-- The progress of a unit's work, if it is still open. -/
def State.unitMark (s : State) (u : Nat × Nat × Nat) : Option Nat :=
  match u.1 with
  | 1 => ((s.clu u.2.1).jobs.find? (·.q == u.2.2)).map fun j => 2 * j.mark + j.fin.toNat
  | 2 => ((s.core u.2.1).mjobs.find? (·.id == u.2.2)).map (·.done)
  | 3 => ((s.clu u.2.1).runs.find? (·.id == u.2.2)).map fun r => r.step * 2 ^ 64 + r.done
  | _ => ((s.core u.2.1).ejobs.find? (·.id == u.2.2)).map (·.done)

/-- Hold a faulting access of a job, matrix job or chain run in its slice's replay buffer; the upcall goes to its context, frame f with the
generation it had (R290). False: every entry of the slice is in use. A fault at the progress at which a replay let the unit go on is a repeat (R291). -/
def State.holdUnit (s : State) (f : Nat) (gen : BitVec 8) (unit : Nat × Nat × Nat) (asid code kind : Nat) (va : Word) (wr : Bool) (whence : Word) : State × Bool :=
  let die := dieOf (cluOf (coreOf f))
  let slice := s.served die (sliceOf va.toNat)
  match (s.die die).replay.find? fun e => e.slice == slice && e.unit_ == some unit && e.page == va.toNat / 65536 with
  | some e =>
    if e.replaying then (s.refault die e (if e.mark == s.unitMark unit then min (e.count + 1) 256 else 0) code kind va whence, true) else (s, true)
  | none =>
    let e : Replay := { slice := slice, entry := 0, frame := f, owner := gen, unit_ := some unit, asid := asid, page := va.toNat / 65536, va := va, kind := kind,
                        code := code, aids := [], pc := whence, wr := wr, count := 0, gen := 0, replaying := false, escalated := false, notice := none, mark := none }
    match s.openReplay die e with
    | none => (s, false)
    | some (e, s) => (s.unitUpcall f gen { code := code, info := kind, addr := va, token := e.token die, whence := whence, soft := false, park := none }, true)

/-! Bytes at an address whose bit 63 names the local store (R152). -/

/-- The request of work that frame f submitted, under a given address space. -/
def State.workReq (s : State) (f asid : Nat) (need : BitVec 4) : Req :=
  { clu := cluOf (coreOf f), asid := asid, who := none, need := if (s.ctx f).st.sup then need else need ||| 1 }

/-- The misses of a failed fill for work of frame f are counted (R362). -/
def State.missedBy (s : State) (e : MFault) (f asid : Nat) (need : BitVec 4) (sc : Scope) (va : Word) : State :=
  if e.missed then s.countMisses (s.workReq f asid need) sc va.toNat else s

/-- Read n bytes for work of frame f: from a window of its core, or at a scope. -/
def State.readWin (s : State) (f asid : Nat) (win : Nat × Nat) (sc : Scope) (a : Word) (n : Nat) : MR (List Byte) :=
  if isLs a then
    if lsPast win.2 a n then .error .window else .ok ((s.core (coreOf f)).ls.readBytes (win.1 + lsOff a) n, s)
  else s.readBytesAt (s.workReq f asid 8) sc (n / 64 + 2) a.toNat n

/-- Write bytes for work of frame f: to a window of its core, leaving full-empty bits alone, or at .clu. -/
def State.writeWin (s : State) (f asid : Nat) (win : Nat × Nat) (a : Word) (bs : List Byte) : Except MFault State :=
  if isLs a then
    if lsPast win.2 a bs.length then .error .window else .ok (s.mapCore (coreOf f) fun k => { k with ls := k.ls.writeBytes (win.1 + lsOff a) bs })
  else s.writeBytesAt (s.workReq f asid 12) .clu (bs.length / 64 + 2) a.toNat bs

/-- The address at which a readMem fails. -/
def State.memStop (s : State) (f asid : Nat) (sc : Scope) (a : Word) (n : Nat) : Word :=
  if isLs a then a else .ofNat 64 (s.readStop (s.workReq f asid 8) sc (n / 64 + 2) a.toNat n)

/-- The address at which a writeWin fails. -/
def State.putStop (s : State) (f asid : Nat) (a : Word) (bs : List Byte) : Word :=
  if isLs a then a else .ofNat 64 (s.writeStop (s.workReq f asid 12) .clu (bs.length / 64 + 2) a.toNat bs)

/-- Read n bytes: from the window of frame f, or at a scope. -/
def State.readMem (s : State) (f asid : Nat) (sc : Scope) (a : Word) (n : Nat) : MR (List Byte) := s.readWin f asid (s.ctx f).lsWin sc a n

/-- Write bytes: to the window of frame f, leaving full-empty bits alone, or at .clu. -/
def State.writeMem (s : State) (f asid : Nat) (a : Word) (bs : List Byte) : Except MFault State := s.writeWin f asid (s.ctx f).lsWin a bs

/-- Read a number for work of frame f: see readWin. -/
def State.readWinNum (s : State) (f asid : Nat) (win : Nat × Nat) (sc : Scope) (a : Word) (n : Nat) : MR Nat :=
  match s.readWin f asid win sc a n with
  | .error e => .error e
  | .ok (bs, s) => .ok (wordOfBytes bs, s)

/-- Read a number: see readMem. -/
def State.readMemNum (s : State) (f asid : Nat) (sc : Scope) (a : Word) (n : Nat) : MR Nat :=
  match s.readMem f asid sc a n with
  | .error e => .error e
  | .ok (bs, s) => .ok (wordOfBytes bs, s)

/-- The code, kind and address of a fault that freezes, for work of frame f. -/
def MFault.freeze (e : MFault) : Nat :=
  match e with
  | .poison => 0x28
  | .unsupported => 0x2A
  | .window => 0x22
  | _ => 0x29

/-- Work that a context submitted raises a freeze: its core freezes, and its record is written if it is still there (R366). What the fill of a
poisoned line has done stays done. -/
def State.unitFreeze (s : State) (f : Nat) (gen : BitVec 8) (asid : Nat) (sc : Scope) (e : MFault) (va whence : Word) : State :=
  let s := if e = .poison then s.keepFill (s.workReq f asid 8) sc va.toNat f whence else s
  if (s.ctx f).owns gen then s.freezeRec f e.freeze 0 va 0 whence false
  else s.freezeFrame f e.freeze [fault0 e.freeze 0 0 false, va, 0, whence]

/-! Issue (R89, R176 to R178). -/

/-- Issue an access: the slot's count rises and the instruction leaves the stream; with the slot at 63 it waits. -/
def State.issueAcc (s : State) (slot : Slot) (ea : Word) (op : MemOp) (recNo : Option (Nat × Nat) := none) : State :=
  if s.c.sb[slot] = 63 then s.stall
  else
    let a : Access := { aid := s.nextId, slot := some slot, pc := s.c.pc, ea := ea, asid := s.c.asid, op := op, inHandler := s.c.st.upc, held := false,
                        back := false, done := 0, got := 0, recNo := recNo, work := none }
    s.newId.done fun c => let c := c.incSlot slot; { c with acc := c.acc ++ [a] }

/-- Number a store of a region's member (R304): the next index, if an address it stores to is in the region's range. -/
def State.numberStore (s : State) (vas : List Nat) : Option (Nat × Nat) × State :=
  match s.c.region with
  | none => (none, s)
  | some k =>
    if vas.any fun va => ((s.die s.myDie).region k).inRange s.c.asid (va / 64) then (some (k, s.c.sidx), s.mapC fun c => { c with sidx := c.sidx + 1 }) else (none, s)

/-- Issue an access to virtual memory of n bytes, checked for alignment. -/
def State.issueVa (s : State) (slot : Slot) (ea : Word) (n : Nat) (op : MemOp) (store : Bool) : State :=
  if unaligned ea n then s.misaligned ea
  else if store ∧ s.c.sb[slot] ≠ 63 then
    let (k, s) := s.numberStore [ea.toNat]
    s.issueAcc slot ea op k
  else s.issueAcc slot ea op

/-- Issue an access to the local store of n bytes, checked for alignment and for the window (R177, R178). -/
def State.issueLs (s : State) (slot : Slot) (ea : Word) (n : Nat) (op : MemOp) : State :=
  if unaligned ea n ∨ s.c.lsBad ea n then s.misaligned ea else s.issueAcc slot ea op

/-- The accesses that are performed while they are speculative (R180). -/
def MemOp.early : MemOp → Bool
  | .ld _ _ _ | .ldl _ _ | .pref _ => true
  | _ => false

/-- Does an issued access wait to be performed: it is not held or taken back, and not speculative, or performed while it is so (R180)? -/
def Ctx.asks (c : Ctx) (a : Access) : Bool := !a.held && !a.back && (a.op.early || !c.speculative a.aid)

/-! The local-store port (R162). Sources: 0 matrix operand and boundary reads, 1 chain, 2 DMA, 3 vector, 4 scalar, in the order of priority. -/

/-- An access of the local store: none, or the port's source it is one of. -/
def Access.lsSource (a : Access) : Option Nat :=
  match a.op with
  | .ldl _ _ | .stl _ _ | .ldfe _ _ | .stfe _ | .femark _ _ => some 4
  | .amo _ _ sc _ _ | .cas _ sc _ _ _ => if sc = .core ∧ isLs a.ea then some 4 else none
  | .vld _ _ _ | .vst _ _ _ | .vldx _ _ _ _ | .vstx _ _ _ _ => if isLs a.ea then some 3 else none
  | _ => none

/-- A running job of the cluster's engines has a footprint in a core's local store. -/
def Job.atLs (j : Job) (core : Nat) : Bool :=
  j.state == 2 && [j.rd0, j.rd1, j.wr].any fun (r : Option Region) => r.any fun r => r.space == 1 && r.core == core % 8

/-- Does a matrix job read the local store: an operand, or scale pairs (R224, R225)? -/
def MJob.readsLs (j : MJob) : Bool := j.la || j.lb || (j.fmta.getLsbD 59 && bitsOf j.fmta 51 0 != 0) || (j.fmtb.getLsbD 59 && bitsOf j.fmtb 51 0 != 0)

/-- Is a matrix job the part of a chain run? -/
def MJob.isChain (j : MJob) : Bool :=
  match j.kind with
  | .chain _ => true
  | _ => false

/-- The sources of a core's port that have an access waiting. A chain run's reads of the boundary are of source 0, its other accesses of source 1. -/
def State.lsWaiting (s : State) (core : Nat) : List Nat :=
  let k := s.core core
  let accs := (framesOf core).flatMap fun f => (s.ctx f).acc.filter (s.ctx f).asks
  (List.range 5).filter fun n =>
    match n with
    | 0 => k.mjobs.any fun j => !j.susp && (j.readsLs || j.isChain)
    | 1 => k.mjobs.any fun j => !j.susp && j.isChain
    | 2 => (s.clu (cluOf core)).jobs.any (·.atLs core)
    | _ => accs.any fun a => a.lsSource == some n

/-- The port serves a source; each other source with an access waiting is passed over once more. -/
def State.lsGrant (s : State) (core source : Nat) : State :=
  let waiting := s.lsWaiting core
  s.mapCore core fun k => { k with lsPass := waiting.foldl (fun t w => if w = source then t else tset t w (tget 0 t w + 1)) (tset k.lsPass source 0) }

/-- A performed access has had the port of its core, if it is one of the local store. -/
def State.lsServe (s : State) (core : Nat) (source : Option Nat) : State :=
  match source with
  | some n => s.lsGrant core n
  | none => s

/-! Local store and full-empty bits (R158 to R161). -/

/-- Insert a number into a rising list. -/
def insNat (n : Nat) : List Nat → List Nat
  | [] => [n]
  | k :: ks => if n < k then n :: k :: ks else if n = k then k :: ks else k :: insNat n ks

/-- Set a granule's bit. -/
def CoreSt.mark (k : CoreSt) (g : Nat) (full : Bool) : CoreSt := { k with full := if full then insNat g k.full else k.full.filter (· != g) }

/-- The granules a full-empty access names, for a context with the given window. -/
def Access.granules (a : Access) (c : Ctx) : List Nat :=
  let g := c.lsPhys (lsOff a.ea) / 16
  match a.op with
  | .ldfe _ _ | .stfe _ => [g]
  | .femark _ n => (List.range n.toNat).map (g + ·)
  | _ => []

/-- Is the operation an LDFE? -/
def MemOp.isLdfe : MemOp → Bool
  | .ldfe _ _ => true
  | _ => false

/-- Does an access of a context stand in the order of a granule: a full-empty access that is not taken back, not speculative, and no LDFE of a context that
has been killed (R161)? -/
def Ctx.atGranule (c : Ctx) (a : Access) : Bool := !a.back && !(c.speculative a.aid) && !(a.granules c).isEmpty && (c.live || !a.op.isLdfe)

/-- An access is put among others of its core, in the order in which they issued. -/
def byIssue (x : Nat × Access) : List (Nat × Access) → List (Nat × Access)
  | [] => [x]
  | y :: ys => if x.2.aid ≤ y.2.aid then x :: y :: ys else y :: byIssue x ys

/-- The unperformed full-empty accesses of a core, earliest issued first, with their frames. -/
def State.feAccs (s : State) (core : Nat) : List (Nat × Access) :=
  ((framesOf core).flatMap fun f => ((s.ctx f).accAll.filter (s.ctx f).atGranule).map fun a => (f, a)).foldr byIssue []

/-- The 8 bytes an LDFE of frame f reads. -/
def State.ldfeData (s : State) (f : Nat) (a : Access) : Word :=
  .ofNat 64 ((s.core (coreOf f)).ls.read ((s.ctx f).lsPhys (lsOff a.ea)) 8)

/-- The LDFE.k of a core that wait on a granule complete. -/
def State.keepers (s : State) (core g : Nat) : State :=
  (s.feAccs core).foldl (fun s fa =>
    match fa.2.op with
    | .ldfe false d => if (fa.2.granules (s.ctx fa.1)).contains g then s.finish fa.1 fa.2.aid [(d, s.ldfeData fa.1 fa.2)] else s
    | _ => s) s

/-- A granule becomes full, or is full: its waiting LDFE.k complete, then the earliest LDFE.c consumes it (R161). -/
def State.fillGranule (s : State) (core g : Nat) : State :=
  let s := (s.mapCore core (·.mark g true)).keepers core g
  match (s.feAccs core).find? fun fa => (match fa.2.op with | .ldfe true _ => true | _ => false) && (fa.2.granules (s.ctx fa.1)).contains g with
  | some fa =>
    match fa.2.op with
    | .ldfe true d => (s.finish fa.1 fa.2.aid [(d, s.ldfeData fa.1 fa.2)]).mapCore core (·.mark g false)
    | _ => s
  | none => s

/-- Write bytes into a core's local store at a physical offset. -/
def State.lsWrite (s : State) (core off : Nat) (bytes : List Byte) : State := s.mapCore core fun k => { k with ls := k.ls.writeBytes off bytes }

/-- An engine writes bytes of a region that ends at `stop`: granules whose covered bytes are all written become full (R160). -/
def State.lsEngineWrite (s : State) (core off stop : Nat) (bytes : List Byte) : State :=
  let last := off + bytes.length
  let gs := ((List.range ((last + 15) / 16 - off / 16)).map (off / 16 + ·)).filter fun g => decide (min stop (16 * g + 16) ≤ last)
  gs.foldl (fun s g => s.fillGranule core g) (s.lsWrite core off bytes)

/-- May a full-empty access of a core be performed: is no earlier-issued one on a common granule ahead of it? -/
def State.feReady (s : State) (core f : Nat) (a : Access) : Bool :=
  let gs := a.granules (s.ctx f)
  !((s.feAccs core).any fun fb =>
    decide (fb.2.aid < a.aid) && (fb.2.granules (s.ctx fb.1)).any fun g => gs.contains g && (!fb.2.op.isLdfe || (s.core core).isFull g))

/-! Loads, stores and the rest: one definition per instruction. -/

/-- LD. -/
def State.ld (s : State) (n : Nat) (sx : Bool) (slot : Slot) (off : BitVec 32) (base : AReg) (d : Reg) : State :=
  s.issueVa slot (s.c.ea base off) n (.ld n sx d) false
/-- LD.s8 (R179). -/
def execLdS8 (slot : Slot) (off : BitVec 32) (base : AReg) (d : Reg) (s : State) : Out := .next (s.ld 1 true slot off base d)
/-- LD.u8 (R179). -/
def execLdU8 (slot : Slot) (off : BitVec 32) (base : AReg) (d : Reg) (s : State) : Out := .next (s.ld 1 false slot off base d)
/-- LD.s16 (R179). -/
def execLdS16 (slot : Slot) (off : BitVec 32) (base : AReg) (d : Reg) (s : State) : Out := .next (s.ld 2 true slot off base d)
/-- LD.u16 (R179). -/
def execLdU16 (slot : Slot) (off : BitVec 32) (base : AReg) (d : Reg) (s : State) : Out := .next (s.ld 2 false slot off base d)
/-- LD.s32 (R179). -/
def execLdS32 (slot : Slot) (off : BitVec 32) (base : AReg) (d : Reg) (s : State) : Out := .next (s.ld 4 true slot off base d)
/-- LD.u32 (R179). -/
def execLdU32 (slot : Slot) (off : BitVec 32) (base : AReg) (d : Reg) (s : State) : Out := .next (s.ld 4 false slot off base d)
/-- LD.64 (R179). -/
def execLd64 (slot : Slot) (off : BitVec 32) (base : AReg) (d : Reg) (s : State) : Out := .next (s.ld 8 false slot off base d)

/-- ST: the data register is sampled at issue. -/
def State.st (s : State) (n : Nat) (slot : Slot) (off : BitVec 32) (base : AReg) (v : Reg) : State :=
  s.issueVa slot (s.c.ea base off) n (.st n (s.c.getReg v)) true
/-- ST.8 (R179). -/
def execSt8 (slot : Slot) (off : BitVec 32) (base : AReg) (v : Reg) (s : State) : Out := .next (s.st 1 slot off base v)
/-- ST.16 (R179). -/
def execSt16 (slot : Slot) (off : BitVec 32) (base : AReg) (v : Reg) (s : State) : Out := .next (s.st 2 slot off base v)
/-- ST.32 (R179). -/
def execSt32 (slot : Slot) (off : BitVec 32) (base : AReg) (v : Reg) (s : State) : Out := .next (s.st 4 slot off base v)
/-- ST.64 (R179). -/
def execSt64 (slot : Slot) (off : BitVec 32) (base : AReg) (v : Reg) (s : State) : Out := .next (s.st 8 slot off base v)

/-- A local-store effective address: bit 63 is ignored (R177). -/
def Ctx.lsEa (c : Ctx) (base : AReg) (off : BitVec 32) : Word := c.ea base off

/-- LDL. -/
def State.ldlOp (s : State) (n : Nat) (slot : Slot) (off : BitVec 32) (base : AReg) (d : Reg) : State :=
  s.issueLs slot (s.c.lsEa base off) n (.ldl n d)
/-- LDL.8 (R179). -/
def execLdl8 (slot : Slot) (off : BitVec 32) (base : AReg) (d : Reg) (s : State) : Out := .next (s.ldlOp 1 slot off base d)
/-- LDL.16 (R179). -/
def execLdl16 (slot : Slot) (off : BitVec 32) (base : AReg) (d : Reg) (s : State) : Out := .next (s.ldlOp 2 slot off base d)
/-- LDL.32 (R179). -/
def execLdl32 (slot : Slot) (off : BitVec 32) (base : AReg) (d : Reg) (s : State) : Out := .next (s.ldlOp 4 slot off base d)
/-- LDL.64 (R179). -/
def execLdl64 (slot : Slot) (off : BitVec 32) (base : AReg) (d : Reg) (s : State) : Out := .next (s.ldlOp 8 slot off base d)

/-- STL. -/
def State.stlOp (s : State) (n : Nat) (slot : Slot) (off : BitVec 32) (base : AReg) (v : Reg) : State :=
  s.issueLs slot (s.c.lsEa base off) n (.stl n (s.c.getReg v))
/-- STL.8 (R179). -/
def execStl8 (slot : Slot) (off : BitVec 32) (base : AReg) (v : Reg) (s : State) : Out := .next (s.stlOp 1 slot off base v)
/-- STL.16 (R179). -/
def execStl16 (slot : Slot) (off : BitVec 32) (base : AReg) (v : Reg) (s : State) : Out := .next (s.stlOp 2 slot off base v)
/-- STL.32 (R179). -/
def execStl32 (slot : Slot) (off : BitVec 32) (base : AReg) (v : Reg) (s : State) : Out := .next (s.stlOp 4 slot off base v)
/-- STL.64 (R179). -/
def execStl64 (slot : Slot) (off : BitVec 32) (base : AReg) (v : Reg) (s : State) : Out := .next (s.stlOp 8 slot off base v)

/-- LDFE.c (R185). -/
def execLdfeC (slot : Slot) (off : BitVec 32) (base : AReg) (d : Reg) (s : State) : Out := .next (s.issueLs slot (s.c.lsEa base off) 8 (.ldfe true d))
/-- LDFE.k (R185). -/
def execLdfeK (slot : Slot) (off : BitVec 32) (base : AReg) (d : Reg) (s : State) : Out := .next (s.issueLs slot (s.c.lsEa base off) 8 (.ldfe false d))
/-- STFE (R185). -/
def execStfe (slot : Slot) (off : BitVec 32) (base : AReg) (v : Reg) (s : State) : Out :=
  .next (s.issueLs slot (s.c.lsEa base off) 8 (.stfe (s.c.getReg v)))

/-- FEMARK (R178, R186): ea is a multiple of 16 within the window, and so is the end of the run. -/
def State.femark (s : State) (full : Bool) (slot : Slot) (off : BitVec 32) (base : AReg) (n : Reg) : State :=
  let ea := s.c.lsEa base off
  let c := s.c.getReg n
  if unaligned ea 16 ∨ ea.extractLsb' 18 45 ≠ 0 ∨ s.c.window < lsOff ea + 16 * c.toNat ∨ (c = 0 ∧ s.c.window < lsOff ea) then s.misaligned ea
  else s.issueAcc slot ea (.femark full c)
/-- FEMARK.e. -/
def execFemarkE (slot : Slot) (off : BitVec 32) (base : AReg) (n : Reg) (s : State) : Out := .next (s.femark false slot off base n)
/-- FEMARK.f. -/
def execFemarkF (slot : Slot) (off : BitVec 32) (base : AReg) (n : Reg) (s : State) : Out := .next (s.femark true slot off base n)

/-- PREF (R191): no alignment is asked. -/
def execPref (slot : Slot) (off : BitVec 32) (base : AReg) (l2 : Bool) (s : State) : Out := .next (s.issueAcc slot (s.c.ea base off) (.pref l2))
/-- FENCE (R184). -/
def execFence (slot : Slot) (scope : Scope) (s : State) : Out := .next (s.issueAcc slot 0 (.fence scope))
/-- CZFENCE (R192). -/
def execCzfence (slot : Slot) (off : BitVec 32) (base : AReg) (len : Reg) (s : State) : Out :=
  .next (s.issueVa slot (s.c.ea base off) 4096 (.czfence (s.c.getReg len)) false)
/-- CBLOAD (R193). -/
def execCbload (slot : Slot) (off : BitVec 32) (base : AReg) (d : Reg) (s : State) : Out := .next (s.issueVa slot (s.c.ea base off) 64 (.cbload d) false)
/-- CZSTAT (R194). -/
def execCzstat (slot : Slot) (off : BitVec 32) (base : AReg) (d : Reg) (s : State) : Out := .next (s.issueVa slot (s.c.ea base off) 4096 (.czstat d) false)

/-- LDA (R181, R183). -/
def execLda (size : BitVec 2) (scope : Scope) (slot : Slot) (off : BitVec 8) (base : AReg) (d : Reg) (s : State) : Out :=
  .next (s.issueVa slot (s.c.eaScaled base off (sizeBytes size)) (sizeBytes size) (.lda (sizeBytes size) scope d) false)
/-- STRL (R181, R182). -/
def execStrl (size : BitVec 2) (scope : Scope) (slot : Slot) (off : BitVec 8) (base : AReg) (v : Reg) (s : State) : Out :=
  .next (s.issueVa slot (s.c.eaScaled base off (sizeBytes size)) (sizeBytes size) (.strl (sizeBytes size) scope (s.c.getReg v)) true)

/-- AMO (R187, R189): at .core with bit 63 it acts on the local store. -/
def State.amo (s : State) (n : Nat) (op : AmoOp) (scope : Scope) (slot : Slot) (off : BitVec 8) (base : AReg) (d : XReg) : State :=
  let ea := s.c.eaScaled base off n
  let m : MemOp := .amo n op scope (s.c.getX d) d
  if scope = .core ∧ isLs ea then s.issueLs slot ea n m else s.issueVa slot ea n m true
/-- AMO.32.add. -/
def execAmo32Add (scope : Scope) (slot : Slot) (off : BitVec 8) (base : AReg) (d : XReg) (s : State) : Out := .next (s.amo 4 .add scope slot off base d)
/-- AMO.32.fadd. -/
def execAmo32Fadd (scope : Scope) (slot : Slot) (off : BitVec 8) (base : AReg) (d : XReg) (s : State) : Out := .next (s.amo 4 .fadd scope slot off base d)
/-- AMO.32.min. -/
def execAmo32Min (scope : Scope) (slot : Slot) (off : BitVec 8) (base : AReg) (d : XReg) (s : State) : Out := .next (s.amo 4 .min scope slot off base d)
/-- AMO.32.max. -/
def execAmo32Max (scope : Scope) (slot : Slot) (off : BitVec 8) (base : AReg) (d : XReg) (s : State) : Out := .next (s.amo 4 .max scope slot off base d)
/-- AMO.32.and. -/
def execAmo32And (scope : Scope) (slot : Slot) (off : BitVec 8) (base : AReg) (d : XReg) (s : State) : Out := .next (s.amo 4 .and scope slot off base d)
/-- AMO.32.or. -/
def execAmo32Or (scope : Scope) (slot : Slot) (off : BitVec 8) (base : AReg) (d : XReg) (s : State) : Out := .next (s.amo 4 .or scope slot off base d)
/-- AMO.32.xor. -/
def execAmo32Xor (scope : Scope) (slot : Slot) (off : BitVec 8) (base : AReg) (d : XReg) (s : State) : Out := .next (s.amo 4 .xor scope slot off base d)
/-- AMO.32.swap. -/
def execAmo32Swap (scope : Scope) (slot : Slot) (off : BitVec 8) (base : AReg) (d : XReg) (s : State) : Out := .next (s.amo 4 .swap scope slot off base d)
/-- AMO.64.add. -/
def execAmo64Add (scope : Scope) (slot : Slot) (off : BitVec 8) (base : AReg) (d : XReg) (s : State) : Out := .next (s.amo 8 .add scope slot off base d)
/-- AMO.64.min. -/
def execAmo64Min (scope : Scope) (slot : Slot) (off : BitVec 8) (base : AReg) (d : XReg) (s : State) : Out := .next (s.amo 8 .min scope slot off base d)
/-- AMO.64.max. -/
def execAmo64Max (scope : Scope) (slot : Slot) (off : BitVec 8) (base : AReg) (d : XReg) (s : State) : Out := .next (s.amo 8 .max scope slot off base d)
/-- AMO.64.and. -/
def execAmo64And (scope : Scope) (slot : Slot) (off : BitVec 8) (base : AReg) (d : XReg) (s : State) : Out := .next (s.amo 8 .and scope slot off base d)
/-- AMO.64.or. -/
def execAmo64Or (scope : Scope) (slot : Slot) (off : BitVec 8) (base : AReg) (d : XReg) (s : State) : Out := .next (s.amo 8 .or scope slot off base d)
/-- AMO.64.xor. -/
def execAmo64Xor (scope : Scope) (slot : Slot) (off : BitVec 8) (base : AReg) (d : XReg) (s : State) : Out := .next (s.amo 8 .xor scope slot off base d)
/-- AMO.64.swap. -/
def execAmo64Swap (scope : Scope) (slot : Slot) (off : BitVec 8) (base : AReg) (d : XReg) (s : State) : Out := .next (s.amo 8 .swap scope slot off base d)

/-- CAS (R188, R189). -/
def execCas (is64 : Bool) (scope : Scope) (slot : Slot) (off : BitVec 8) (base : AReg) (j : Fin 15) (s : State) : Out :=
  let n := if is64 then 8 else 4
  let ea := s.c.eaScaled base off n
  let m : MemOp := .cas n scope (s.c.getX (evenX j)) (s.c.getX (oddX j)) j
  .next (if scope = .core ∧ isLs ea then s.issueLs slot ea n m else s.issueVa slot ea n m true)

/-- The address of lane i of a vector access, at element size e: contiguous, or indexed. -/
def laneAddr (ea : Word) (idx : Option (BitVec 8192)) (e i : Nat) : Word :=
  match idx with
  | none => ea + .ofNat 64 (i * e)
  | some v => ea + .ofNat 64 ((laneOf v i).toNat * e)

/-- The active lanes of a mask, ascending. -/
def activeLanes (m : BitVec 256) : List Nat := (List.range 256).filter fun i => m.getLsbD i

/-- A lane address is malformed (R154). -/
def Ctx.laneBad (c : Ctx) (ea : Word) (e : Nat) : Bool := unaligned ea e || (isLs ea && c.lsBad ea e)

/-- Issue a vector access (R152, R154): a context with no lanes raises illegal instruction, and a malformed lane address misalignment. -/
def State.issueVec (s : State) (slot : Slot) (ea : Word) (m : BitVec 256) (fmt : Fmt) (idx : Option (BitVec 8192)) (store : Bool) (op : MemOp) : State :=
  if s.c.grant = 0 then s.illegal
  else
    match (activeLanes m).find? fun i => s.c.laneBad (laneAddr ea idx (fmtBytes fmt) i) (fmtBytes fmt) with
    | some i => s.misaligned (laneAddr ea idx (fmtBytes fmt) i)
    | none =>
      if store ∧ s.c.sb[slot] ≠ 63 then
        let (k, s) := s.numberStore ((activeLanes m).map fun i => (laneAddr ea idx (fmtBytes fmt) i).toNat)
        s.issueAcc slot ea op k
      else s.issueAcc slot ea op

/-- VLD (R152). -/
def execVld (m : KReg) (fmt : Fmt) (slot : Slot) (off : BitVec 8) (base : AReg) (d : VReg) (s : State) : Out :=
  let ea := s.c.eaScaled base off 64
  let k := s.c.getK m &&& s.c.lanes
  .next (s.issueVec slot ea k fmt none false (.vld k fmt d))
/-- VST. -/
def execVst (m : KReg) (fmt : Fmt) (slot : Slot) (off : BitVec 8) (base : AReg) (d : VReg) (s : State) : Out :=
  let ea := s.c.eaScaled base off 64
  let k := s.c.getK m &&& s.c.lanes
  .next (s.issueVec slot ea k fmt none true (.vst k fmt (s.c.getV d)))
/-- VLDX. -/
def execVldx (m : KReg) (fmt : Fmt) (slot : Slot) (idx : VReg) (base : AReg) (d : VReg) (s : State) : Out :=
  let k := s.c.getK m &&& s.c.lanes
  .next (s.issueVec slot (s.c.getA base) k fmt (some (s.c.getV idx)) false (.vldx k fmt (s.c.getV idx) d))
/-- VSTX. -/
def execVstx (m : KReg) (fmt : Fmt) (slot : Slot) (idx : VReg) (base : AReg) (d : VReg) (s : State) : Out :=
  let k := s.c.getK m &&& s.c.lanes
  .next (s.issueVec slot (s.c.getA base) k fmt (some (s.c.getV idx)) true (.vstx k fmt (s.c.getV idx) (s.c.getV d)))

/-- Sign-extend n bytes. -/
def sextBytes (n v : Nat) : Word := .ofInt 64 (if v < 2 ^ (8 * n - 1) then v else (v : Int) - 2 ^ (8 * n))

/-- The new value and the flags of an AMO on n bytes. -/
def amoNew (op : AmoOp) (n old opnd : Nat) : Nat × Fl :=
  let m := 2 ^ (8 * n)
  let so := (sextBytes n (old % m)).toInt
  let sp := (sextBytes n (opnd % m)).toInt
  match op with
  | .add => ((old + opnd) % m, 0)
  | .fadd => let r := fAdd .f32 .rne old (opnd % m); (r.bits, r.fl)
  | .min => (if so ≤ sp then old else opnd % m, 0)
  | .max => (if sp ≤ so then old else opnd % m, 0)
  | .and => (old &&& (opnd % m), 0)
  | .or => (old ||| (opnd % m), 0)
  | .xor => (old ^^^ (opnd % m), 0)
  | .swap => (opnd % m, 0)

end Sys2Proof.Machine
end

