-- ==== Sys2Proof/Machine/Interlock.lean ====
section
/-! DEFINITION. The register interlock of R59: the registers an instruction names, and those that issued accesses and instructions will still write;
and the stream each instruction runs in (R64). -/

namespace Sys2Proof.Machine

open Sys2Proof

/-- The registers an instruction names: x and a, v, and p. -/
structure RegUse where
  xa : List Reg
  v : List VReg
  p : List PReg
deriving DecidableEq, Repr

/-- The registers of a second source. -/
def srcRegs : Src → List Reg
  | .reg r => [r]
  | .lit _ => []
/-- The registers of a second source of x class. -/
def xsrcRegs : XSrc → List Reg
  | .reg i => [.x i]
  | .lit _ => []
/-- The registers of a second vector source. -/
def vsrcRegs : VSrc → List VReg
  | .reg i => [i]
  | .lit _ => []
/-- The x- or a-register of an operand of MOV. -/
def regNs : RegN → List Reg
  | .x i => [.x i]
  | .a i => [.a i]
  | .n _ => []
/-- x(4j) to x(4j + 3), where the operand holds j − 1. -/
def quadRegs (j : Fin 7) : List Reg := (List.range 4).map fun k => .x (xr (4 * j.val + 4 + k))

/-- The x-register that a hint of code 1 reads (R119). -/
def hintReg (a : BitVec 6) : List Reg := if h : a.toNat < 32 then [.x ⟨a.toNat, h⟩] else []

/-- The registers an instruction reads or writes. -/
def regsOf : Instr → RegUse
  | .add d a b => ⟨[d] ++ [a] ++ srcRegs b, [], []⟩
  | .sub d a b => ⟨[d] ++ [a] ++ srcRegs b, [], []⟩
  | .mul d a b => ⟨[d] ++ [a] ++ srcRegs b, [], []⟩
  | .mulh d a b => ⟨[d] ++ [a] ++ srcRegs b, [], []⟩
  | .mulhu d a b => ⟨[d] ++ [a] ++ srcRegs b, [], []⟩
  | .div d a b => ⟨[d] ++ [a] ++ srcRegs b, [], []⟩
  | .divu d a b => ⟨[d] ++ [a] ++ srcRegs b, [], []⟩
  | .rem d a b => ⟨[d] ++ [a] ++ srcRegs b, [], []⟩
  | .remu d a b => ⟨[d] ++ [a] ++ srcRegs b, [], []⟩
  | .and d a b => ⟨[d] ++ [a] ++ srcRegs b, [], []⟩
  | .or d a b => ⟨[d] ++ [a] ++ srcRegs b, [], []⟩
  | .xor d a b => ⟨[d] ++ [a] ++ srcRegs b, [], []⟩
  | .andn d a b => ⟨[d] ++ [a] ++ srcRegs b, [], []⟩
  | .shl d a b => ⟨[d] ++ [a] ++ srcRegs b, [], []⟩
  | .shr d a b => ⟨[d] ++ [a] ++ srcRegs b, [], []⟩
  | .sar d a b => ⟨[d] ++ [a] ++ srcRegs b, [], []⟩
  | .rol d a b => ⟨[d] ++ [a] ++ srcRegs b, [], []⟩
  | .ror d a b => ⟨[d] ++ [a] ++ srcRegs b, [], []⟩
  | .min d a b => ⟨[d] ++ [a] ++ srcRegs b, [], []⟩
  | .max d a b => ⟨[d] ++ [a] ++ srcRegs b, [], []⟩
  | .minu d a b => ⟨[d] ++ [a] ++ srcRegs b, [], []⟩
  | .maxu d a b => ⟨[d] ++ [a] ++ srcRegs b, [], []⟩
  | .addI d a _ => ⟨[d] ++ [a], [], []⟩
  | .mulI d a _ => ⟨[d] ++ [a], [], []⟩
  | .andI d a _ => ⟨[d] ++ [a], [], []⟩
  | .orI d a _ => ⟨[d] ++ [a], [], []⟩
  | .xorI d a _ => ⟨[d] ++ [a], [], []⟩
  | .shlI d a _ => ⟨[d] ++ [a], [], []⟩
  | .shrI d a _ => ⟨[d] ++ [a], [], []⟩
  | .sarI d a _ => ⟨[d] ++ [a], [], []⟩
  | .rolI d a _ => ⟨[d] ++ [a], [], []⟩
  | .rorI d a _ => ⟨[d] ++ [a], [], []⟩
  | .li d _ => ⟨[d], [], []⟩
  | .bext d a _ _ => ⟨[d] ++ [a], [], []⟩
  | .bextu d a _ _ => ⟨[d] ++ [a], [], []⟩
  | .bins d a _ _ => ⟨[d] ++ [a], [], []⟩
  | .mov d a => ⟨regNs d ++ regNs a, [], []⟩
  | .popc d a => ⟨[d] ++ [a], [], []⟩
  | .clz d a => ⟨[d] ++ [a], [], []⟩
  | .ctz d a => ⟨[d] ++ [a], [], []⟩
  | .brev d a => ⟨[d] ++ [a], [], []⟩
  | .abs d a => ⟨[d] ++ [a], [], []⟩
  | .sext8 d a => ⟨[d] ++ [a], [], []⟩
  | .sext16 d a => ⟨[d] ++ [a], [], []⟩
  | .sext32 d a => ⟨[d] ++ [a], [], []⟩
  | .zext8 d a => ⟨[d] ++ [a], [], []⟩
  | .zext16 d a => ⟨[d] ++ [a], [], []⟩
  | .zext32 d a => ⟨[d] ++ [a], [], []⟩
  | .atx d a => ⟨[.x d] ++ [.a a], [], []⟩
  | .rdtime d => ⟨[.x d], [], []⟩
  | .cmp _ d a b => ⟨[.x a] ++ xsrcRegs b, [], [d]⟩
  | .pand d a b => ⟨[], [], [d, a, b]⟩
  | .por d a b => ⟨[], [], [d, a, b]⟩
  | .pnot d a => ⟨[], [], [d, a]⟩
  | .sel d p a b => ⟨[d] ++ [a] ++ [b], [], [p]⟩
  | .fcmp _ _ d a b => ⟨[.x a] ++ xsrcRegs b, [], [d]⟩
  | .fcvt _ _ d a => ⟨[.x d] ++ [.x a], [], []⟩
  | .lea d a b _ => ⟨[d] ++ [a] ++ srcRegs b, [], []⟩
  | .fshl d a b _ => ⟨[d] ++ [a] ++ srcRegs b, [], []⟩
  | .fshr d a b _ => ⟨[d] ++ [a] ++ srcRegs b, [], []⟩
  | .crr d _ => ⟨[.x d], [], []⟩
  | .crw _ a => ⟨[.x a], [], []⟩
  | .wait _ => ⟨[], [], []⟩
  | .trap _ => ⟨[], [], []⟩
  | .hint code _ a _ => ⟨if code = 1 then hintReg a else [], [], []⟩
  | .nop => ⟨[], [], []⟩
  | .faddF32 d a b => ⟨[.x d] ++ [.x a] ++ xsrcRegs b, [], []⟩
  | .fsubF32 d a b => ⟨[.x d] ++ [.x a] ++ xsrcRegs b, [], []⟩
  | .fmulF32 d a b => ⟨[.x d] ++ [.x a] ++ xsrcRegs b, [], []⟩
  | .fdivF32 d a b => ⟨[.x d] ++ [.x a] ++ xsrcRegs b, [], []⟩
  | .fminF32 d a b => ⟨[.x d] ++ [.x a] ++ xsrcRegs b, [], []⟩
  | .fmaxF32 d a b => ⟨[.x d] ++ [.x a] ++ xsrcRegs b, [], []⟩
  | .fsqrtF32 d a => ⟨[.x d] ++ [.x a], [], []⟩
  | .fabsF32 d a => ⟨[.x d] ++ [.x a], [], []⟩
  | .fnegF32 d a => ⟨[.x d] ++ [.x a], [], []⟩
  | .fclassF32 d a => ⟨[.x d] ++ [.x a], [], []⟩
  | .fsinF32 d a => ⟨[.x d] ++ [.x a], [], []⟩
  | .fcosF32 d a => ⟨[.x d] ++ [.x a], [], []⟩
  | .fexp2F32 d a => ⟨[.x d] ++ [.x a], [], []⟩
  | .flog2F32 d a => ⟨[.x d] ++ [.x a], [], []⟩
  | .frcpF32 d a => ⟨[.x d] ++ [.x a], [], []⟩
  | .frsqF32 d a => ⟨[.x d] ++ [.x a], [], []⟩
  | .ffmaF32 d a b => ⟨[.x d] ++ [.x a] ++ xsrcRegs b, [], []⟩
  | .faddF16 d a b => ⟨[.x d] ++ [.x a] ++ xsrcRegs b, [], []⟩
  | .fsubF16 d a b => ⟨[.x d] ++ [.x a] ++ xsrcRegs b, [], []⟩
  | .fmulF16 d a b => ⟨[.x d] ++ [.x a] ++ xsrcRegs b, [], []⟩
  | .fdivF16 d a b => ⟨[.x d] ++ [.x a] ++ xsrcRegs b, [], []⟩
  | .fminF16 d a b => ⟨[.x d] ++ [.x a] ++ xsrcRegs b, [], []⟩
  | .fmaxF16 d a b => ⟨[.x d] ++ [.x a] ++ xsrcRegs b, [], []⟩
  | .fsqrtF16 d a => ⟨[.x d] ++ [.x a], [], []⟩
  | .fabsF16 d a => ⟨[.x d] ++ [.x a], [], []⟩
  | .fnegF16 d a => ⟨[.x d] ++ [.x a], [], []⟩
  | .fclassF16 d a => ⟨[.x d] ++ [.x a], [], []⟩
  | .fsinF16 d a => ⟨[.x d] ++ [.x a], [], []⟩
  | .fcosF16 d a => ⟨[.x d] ++ [.x a], [], []⟩
  | .fexp2F16 d a => ⟨[.x d] ++ [.x a], [], []⟩
  | .flog2F16 d a => ⟨[.x d] ++ [.x a], [], []⟩
  | .frcpF16 d a => ⟨[.x d] ++ [.x a], [], []⟩
  | .frsqF16 d a => ⟨[.x d] ++ [.x a], [], []⟩
  | .ffmaF16 d a b => ⟨[.x d] ++ [.x a] ++ xsrcRegs b, [], []⟩
  | .faddBF16 d a b => ⟨[.x d] ++ [.x a] ++ xsrcRegs b, [], []⟩
  | .fsubBF16 d a b => ⟨[.x d] ++ [.x a] ++ xsrcRegs b, [], []⟩
  | .fmulBF16 d a b => ⟨[.x d] ++ [.x a] ++ xsrcRegs b, [], []⟩
  | .fdivBF16 d a b => ⟨[.x d] ++ [.x a] ++ xsrcRegs b, [], []⟩
  | .fminBF16 d a b => ⟨[.x d] ++ [.x a] ++ xsrcRegs b, [], []⟩
  | .fmaxBF16 d a b => ⟨[.x d] ++ [.x a] ++ xsrcRegs b, [], []⟩
  | .fsqrtBF16 d a => ⟨[.x d] ++ [.x a], [], []⟩
  | .fabsBF16 d a => ⟨[.x d] ++ [.x a], [], []⟩
  | .fnegBF16 d a => ⟨[.x d] ++ [.x a], [], []⟩
  | .fclassBF16 d a => ⟨[.x d] ++ [.x a], [], []⟩
  | .fsinBF16 d a => ⟨[.x d] ++ [.x a], [], []⟩
  | .fcosBF16 d a => ⟨[.x d] ++ [.x a], [], []⟩
  | .fexp2BF16 d a => ⟨[.x d] ++ [.x a], [], []⟩
  | .flog2BF16 d a => ⟨[.x d] ++ [.x a], [], []⟩
  | .frcpBF16 d a => ⟨[.x d] ++ [.x a], [], []⟩
  | .frsqBF16 d a => ⟨[.x d] ++ [.x a], [], []⟩
  | .ffmaBF16 d a b => ⟨[.x d] ++ [.x a] ++ xsrcRegs b, [], []⟩
  | .ldS8 _ _ base d => ⟨[.a base] ++ [d], [], []⟩
  | .ldU8 _ _ base d => ⟨[.a base] ++ [d], [], []⟩
  | .ldS16 _ _ base d => ⟨[.a base] ++ [d], [], []⟩
  | .ldU16 _ _ base d => ⟨[.a base] ++ [d], [], []⟩
  | .ldS32 _ _ base d => ⟨[.a base] ++ [d], [], []⟩
  | .ldU32 _ _ base d => ⟨[.a base] ++ [d], [], []⟩
  | .ld64 _ _ base d => ⟨[.a base] ++ [d], [], []⟩
  | .st8 _ _ base v => ⟨[.a base] ++ [v], [], []⟩
  | .st16 _ _ base v => ⟨[.a base] ++ [v], [], []⟩
  | .st32 _ _ base v => ⟨[.a base] ++ [v], [], []⟩
  | .st64 _ _ base v => ⟨[.a base] ++ [v], [], []⟩
  | .ldl8 _ _ base d => ⟨[.a base] ++ [d], [], []⟩
  | .ldl16 _ _ base d => ⟨[.a base] ++ [d], [], []⟩
  | .ldl32 _ _ base d => ⟨[.a base] ++ [d], [], []⟩
  | .ldl64 _ _ base d => ⟨[.a base] ++ [d], [], []⟩
  | .stl8 _ _ base v => ⟨[.a base] ++ [v], [], []⟩
  | .stl16 _ _ base v => ⟨[.a base] ++ [v], [], []⟩
  | .stl32 _ _ base v => ⟨[.a base] ++ [v], [], []⟩
  | .stl64 _ _ base v => ⟨[.a base] ++ [v], [], []⟩
  | .ldfeC _ _ base d => ⟨[.a base] ++ [d], [], []⟩
  | .ldfeK _ _ base d => ⟨[.a base] ++ [d], [], []⟩
  | .stfe _ _ base v => ⟨[.a base] ++ [v], [], []⟩
  | .femarkE _ _ base n => ⟨[.a base] ++ [n], [], []⟩
  | .femarkF _ _ base n => ⟨[.a base] ++ [n], [], []⟩
  | .pref _ _ base _ => ⟨[.a base], [], []⟩
  | .fence _ _ => ⟨[], [], []⟩
  | .czfence _ _ base len => ⟨[.a base] ++ [len], [], []⟩
  | .cbload _ _ base d => ⟨[.a base] ++ [d], [], []⟩
  | .czstat _ _ base d => ⟨[.a base] ++ [d], [], []⟩
  | .j _ base => ⟨[.a base], [], []⟩
  | .ret => ⟨[.a 14], [], []⟩
  | .b _ _ p => ⟨[], [], [p]⟩
  | .bp _ _ p => ⟨[], [], [p]⟩
  | .call _ => ⟨[.a 14], [], []⟩
  | .loop _ j => ⟨[.a (loopReg j)], [], []⟩
  | .longForm _ => ⟨[], [], []⟩
  | .vadd _ _ d a b => ⟨[], [d] ++ [a] ++ vsrcRegs b, []⟩
  | .vsub _ _ d a b => ⟨[], [d] ++ [a] ++ vsrcRegs b, []⟩
  | .vmul _ _ d a b => ⟨[], [d] ++ [a] ++ vsrcRegs b, []⟩
  | .vfma _ _ d a b => ⟨[], [d] ++ [a] ++ vsrcRegs b, []⟩
  | .vdiv _ _ d a b => ⟨[], [d] ++ [a] ++ vsrcRegs b, []⟩
  | .vsqrt _ _ d a => ⟨[], [d] ++ [a], []⟩
  | .vmin _ _ d a b => ⟨[], [d] ++ [a] ++ vsrcRegs b, []⟩
  | .vmax _ _ d a b => ⟨[], [d] ++ [a] ++ vsrcRegs b, []⟩
  | .vand _ _ d a b => ⟨[], [d] ++ [a] ++ vsrcRegs b, []⟩
  | .vor _ _ d a b => ⟨[], [d] ++ [a] ++ vsrcRegs b, []⟩
  | .vxor _ _ d a b => ⟨[], [d] ++ [a] ++ vsrcRegs b, []⟩
  | .vshl _ _ d a b => ⟨[], [d] ++ [a] ++ vsrcRegs b, []⟩
  | .vshr _ _ d a b => ⟨[], [d] ++ [a] ++ vsrcRegs b, []⟩
  | .vfsh _ _ d a b => ⟨[], [d] ++ [a] ++ vsrcRegs b, []⟩
  | .vbext _ _ d a b => ⟨[], [d] ++ [a] ++ vsrcRegs b, []⟩
  | .vpopc _ _ d a => ⟨[], [d] ++ [a], []⟩
  | .vclz _ _ d a => ⟨[], [d] ++ [a], []⟩
  | .vsel _ d a b => ⟨[], [d] ++ [a] ++ vsrcRegs b, []⟩
  | .vbcast _ d a => ⟨[.x a], [d], []⟩
  | .vextr d a b => ⟨[.x d] ++ xsrcRegs b, [a], []⟩
  | .vins d a b => ⟨[.x a] ++ xsrcRegs b, [d], []⟩
  | .vneigh _ d a p _ => ⟨[], [d] ++ [a], [p]⟩
  | .vlut _ d a b => ⟨[], [d] ++ [a] ++ vsrcRegs b, []⟩
  | .vperm _ d a b => ⟨[], [d] ++ [a] ++ vsrcRegs b, []⟩
  | .vsfnSin _ _ d a => ⟨[], [d] ++ [a], []⟩
  | .vsfnCos _ _ d a => ⟨[], [d] ++ [a], []⟩
  | .vsfnExp2 _ _ d a => ⟨[], [d] ++ [a], []⟩
  | .vsfnLog2 _ _ d a => ⟨[], [d] ++ [a], []⟩
  | .vsfnRcp _ _ d a => ⟨[], [d] ++ [a], []⟩
  | .vsfnRsq _ _ d a => ⟨[], [d] ++ [a], []⟩
  | .vcmp _ _ _ _ a b => ⟨[], [a] ++ vsrcRegs b, []⟩
  | .vcvt _ _ _ d a => ⟨[], [d] ++ [a], []⟩
  | .vredAdd _ _ d a => ⟨[.x d], [a], []⟩
  | .vredMin _ _ d a => ⟨[.x d], [a], []⟩
  | .vredMax _ _ d a => ⟨[.x d], [a], []⟩
  | .vredAnd _ _ d a => ⟨[.x d], [a], []⟩
  | .vredOr _ _ d a => ⟨[.x d], [a], []⟩
  | .vredXor _ _ d a => ⟨[.x d], [a], []⟩
  | .vscanAdd _ _ d a => ⟨[], [d] ++ [a], []⟩
  | .vscanMin _ _ d a => ⟨[], [d] ++ [a], []⟩
  | .vscanMax _ _ d a => ⟨[], [d] ++ [a], []⟩
  | .vscanAnd _ _ d a => ⟨[], [d] ++ [a], []⟩
  | .vscanOr _ _ d a => ⟨[], [d] ++ [a], []⟩
  | .vscanXor _ _ d a => ⟨[], [d] ++ [a], []⟩
  | .kopAnd _ _ _ => ⟨[], [], []⟩
  | .kopOr _ _ _ => ⟨[], [], []⟩
  | .kopXor _ _ _ => ⟨[], [], []⟩
  | .kopAndn _ _ _ => ⟨[], [], []⟩
  | .kopNot _ _ => ⟨[], [], []⟩
  | .kpopc d _ => ⟨[.x d], [], []⟩
  | .vclaim d _ => ⟨[.x d], [], []⟩
  | .vrel => ⟨[], [], []⟩
  | .vld _ _ _ _ base d => ⟨[.a base], [d], []⟩
  | .vst _ _ _ _ base d => ⟨[.a base], [d], []⟩
  | .vldx _ _ _ idx base d => ⟨[.a base], [idx] ++ [d], []⟩
  | .vstx _ _ _ idx base d => ⟨[.a base], [idx] ++ [d], []⟩
  | .lda _ _ _ _ base d => ⟨[.a base] ++ [d], [], []⟩
  | .strl _ _ _ _ base v => ⟨[.a base] ++ [v], [], []⟩
  | .amo32Add _ _ _ base d => ⟨[.a base] ++ [.x d], [], []⟩
  | .amo32Fadd _ _ _ base d => ⟨[.a base] ++ [.x d], [], []⟩
  | .amo32Min _ _ _ base d => ⟨[.a base] ++ [.x d], [], []⟩
  | .amo32Max _ _ _ base d => ⟨[.a base] ++ [.x d], [], []⟩
  | .amo32And _ _ _ base d => ⟨[.a base] ++ [.x d], [], []⟩
  | .amo32Or _ _ _ base d => ⟨[.a base] ++ [.x d], [], []⟩
  | .amo32Xor _ _ _ base d => ⟨[.a base] ++ [.x d], [], []⟩
  | .amo32Swap _ _ _ base d => ⟨[.a base] ++ [.x d], [], []⟩
  | .amo64Add _ _ _ base d => ⟨[.a base] ++ [.x d], [], []⟩
  | .amo64Min _ _ _ base d => ⟨[.a base] ++ [.x d], [], []⟩
  | .amo64Max _ _ _ base d => ⟨[.a base] ++ [.x d], [], []⟩
  | .amo64And _ _ _ base d => ⟨[.a base] ++ [.x d], [], []⟩
  | .amo64Or _ _ _ base d => ⟨[.a base] ++ [.x d], [], []⟩
  | .amo64Xor _ _ _ base d => ⟨[.a base] ++ [.x d], [], []⟩
  | .amo64Swap _ _ _ base d => ⟨[.a base] ++ [.x d], [], []⟩
  | .cas _ _ _ _ base j => ⟨[.a base] ++ [.x (evenX j), .x (oddX j)], [], []⟩
  | .mmaNew _ _ d a b => ⟨[.x d] ++ [.a a] ++ [.a b], [], []⟩
  | .mmaAcc _ _ d a b => ⟨[.x d] ++ [.a a] ++ [.a b], [], []⟩
  | .mgangNew _ _ d a b => ⟨[.x d] ++ [.a a] ++ [.a b], [], []⟩
  | .mgangAcc _ _ d a b => ⟨[.x d] ++ [.a a] ++ [.a b], [], []⟩
  | .mzero _ => ⟨[], [], []⟩
  | .mepi d a b => ⟨[.x d] ++ [.a a] ++ [.a b], [], []⟩
  | .mwait => ⟨[], [], []⟩
  | .mprio a => ⟨[.x a], [], []⟩
  | .chbond _ a => ⟨[.x a], [], []⟩
  | .chload a => ⟨[.a a], [], []⟩
  | .chrun d a b => ⟨[.x d] ++ [.a a] ++ [.a b], [], []⟩
  | .chstep d a b => ⟨[.x d] ++ [.a a] ++ [.a b], [], []⟩
  | .chwait d => ⟨[.x d], [], []⟩
  | .enq d j b => ⟨[.x d] ++ quadRegs j ++ [.a b], [], []⟩
  | .jpoll d a => ⟨[.x d] ++ [.x a], [], []⟩
  | .jwait d a => ⟨[.x d] ++ [.x a], [], []⟩
  | .jcancel d a => ⟨[.x d] ++ [.x a], [], []⟩
  | .pcfg _ a => ⟨[.x a], [], []⟩
  | .ptry d _ p => ⟨[d], [], [p]⟩
  | .ptrys _ a p => ⟨[a], [], [p]⟩
  | .rqres d a p => ⟨[.x d] ++ [.a a], [], [p]⟩
  | .rqpub a b => ⟨[.a a] ++ [.x b], [], []⟩
  | .rqtake d a p => ⟨[.x d] ++ [.a a], [], [p]⟩
  | .rqdone a b => ⟨[.a a] ++ [.x b], [], []⟩
  | .dqbind d a b => ⟨[.x d] ++ [.a a] ++ [.x b], [], []⟩
  | .dqpush d a b => ⟨[.x d] ++ [.a a] ++ [.a b], [], []⟩
  | .dqpop d a b => ⟨[.x d] ++ [.a a] ++ [.a b], [], []⟩
  | .dqcons a => ⟨[.a a], [], []⟩
  | .dqarr d a b => ⟨[.x d] ++ [.a a] ++ [.a b], [], []⟩
  | .dqlook d a b => ⟨[.x d] ++ [.a a] ++ [.a b], [], []⟩
  | .dqadv d a b => ⟨[.x d] ++ [.a a] ++ [.x b], [], []⟩
  | .dqfront d a => ⟨[.x d] ++ [.a a], [], []⟩
  | .dqwait a b => ⟨[.a a] ++ [.x b], [], []⟩
  | .srfence a => ⟨a.toList.map .a, [], []⟩
  | .bar _ => ⟨[], [], []⟩
  | .bara _ d => ⟨[.x d], [], []⟩
  | .barw _ a => ⟨[.x a], [], []⟩
  | .fresume d a => ⟨[.x d] ++ [.x a], [], []⟩
  | .ptfence a b => ⟨[.a a] ++ [.x b], [], []⟩
  | .recbeg d a b => ⟨[.x d] ++ [.x a] ++ [.a b], [], []⟩
  | .recend a => ⟨[.x a], [], []⟩
  | .rplbeg d a => ⟨[.x d] ++ [.x a], [], []⟩
  | .rplend a => ⟨[.x a], [], []⟩
  | .rerecord a => ⟨[.x a], [], []⟩
  | .rerecordFree a => ⟨[.x a], [], []⟩
  | .recstat d a => ⟨[.x d] ++ [.x a], [], []⟩
  | .egopen d a b => ⟨[.x d] ++ [.x a] ++ [.a b], [], []⟩
  | .egins d a => ⟨[.x d] ++ [.a a], [], []⟩
  | .egmrg d a b => ⟨[.x d] ++ [.x a] ++ [.x b], [], []⟩
  | .egfind d a => ⟨[.x d] ++ [.x a], [], []⟩
  | .egsame d a b => ⟨[.x a] ++ [.x b], [], [d]⟩
  | .egsync a => ⟨[.x a], [], []⟩
  | .egnode d a b => ⟨[.x d] ++ [.x a] ++ [.a b], [], []⟩
  | .egclass d a b => ⟨[.x d] ++ [.x a] ++ [.x b], [], []⟩
  | .egmatch d a => ⟨[.x d] ++ [.a a], [], []⟩
  | .egnext d a => ⟨[.x d] ++ [.a a], [], []⟩
  | .egchk d a => ⟨[.x d] ++ [.a a], [], []⟩
  | .egcost d a b => ⟨[.x d] ++ [.a a] ++ [.x b], [], []⟩
  | .egextr d a => ⟨[.x d] ++ [.a a], [], []⟩
  | .launch d a => ⟨[.x d] ++ [.a a], [], []⟩
  | .dnext d => ⟨[.x d], [], []⟩
  | .hstart d a b => ⟨[.x d] ++ [.x a] ++ [.a b], [], []⟩
  | .hexit a => ⟨[.x a], [], []⟩
  | .hjoin d a => ⟨[.x d] ++ [.x a], [], []⟩
  | .gfuse d a => ⟨[.x a], [], [d]⟩
  | .gsplit => ⟨[], [], []⟩
  | .tknew d a => ⟨[.x d] ++ [.a a], [], []⟩
  | .tkdep d a b => ⟨[.x d] ++ [.a a] ++ [.a b], [], []⟩
  | .tkrel d a => ⟨[.x d] ++ [.a a], [], []⟩
  | .tkdone d a b => ⟨[.x d] ++ [.a a] ++ [.a b], [], []⟩
  | .ftnew d a b => ⟨[.x d] ++ [.a a] ++ [.x b], [], []⟩
  | .ftsetReady d a j => ⟨[.x d] ++ [.a a] ++ [.x (evenX j), .x (oddX j)], [], []⟩
  | .ftsetPoison d a j => ⟨[.x d] ++ [.a a] ++ [.x (evenX j), .x (oddX j)], [], []⟩
  | .ftsetFree d a j => ⟨[.x d] ++ [.a a] ++ [.x (evenX j), .x (oddX j)], [], []⟩
  | .ftget d a p => ⟨[.x d] ++ [.a a], [], [p]⟩
  | .yieldRef d => ⟨[.x d], [], []⟩
  | .park d a => ⟨[.x d] ++ [.x a], [], []⟩
  | .wake d a => ⟨[.x d] ++ [.x a], [], []⟩
  | .ctrdTimestamp d a => ⟨[.x d] ++ [.x a], [], []⟩
  | .ctrdSlot d a => ⟨[.x d] ++ [.x a], [], []⟩
  | .ctrdVc d a => ⟨[.x d] ++ [.x a], [], []⟩
  | .ctrdVd d a => ⟨[.x d] ++ [.x a], [], []⟩
  | .ctrdNeighbour d a => ⟨[.x d] ++ [.x a], [], []⟩
  | .pmrd d a => ⟨[.x d] ++ [.x a], [], []⟩
  | .upret a => ⟨[.x a], [], []⟩
  | .upretContinue a => ⟨[.x a], [], []⟩
  | .fraiseUpcall a b => ⟨[.x a] ++ [.x b], [], []⟩
  | .fraiseFreeze a b => ⟨[.x a] ++ [.x b], [], []⟩
  | .scoreboardDecrement _ _ => ⟨[], [], []⟩
  | .pushArrival _ => ⟨[], [], []⟩
  | .sweeperVisit _ _ _ => ⟨[], [], []⟩
  | .heatSample _ _ _ => ⟨[], [], []⟩
  | .heatDecayEpoch _ _ => ⟨[], [], []⟩
  | .lsPortPassover _ _ => ⟨[], [], []⟩
  | .dispatchPassover _ => ⟨[], [], []⟩
  | .hintPauseEnd _ => ⟨[], [], []⟩
  | .dispatchStep _ => ⟨[], [], []⟩
  | .freeSlotAdvert _ _ _ => ⟨[], [], []⟩
  | .teamMigration _ _ => ⟨[], [], []⟩
  | .gangForm _ _ => ⟨[], [], []⟩
  | .portWordDelivery _ => ⟨[], [], []⟩
  | .ptryTimeout _ => ⟨[], [], []⟩
  | .ptrysTimeout _ => ⟨[], [], []⟩
  | .vneighTimeout _ => ⟨[], [], []⟩
  | .parkTimeout _ => ⟨[], [], []⟩
  | .ringHole _ => ⟨[], [], []⟩
  | .watchdog _ => ⟨[], [], []⟩
  | .matrixJobAccept _ => ⟨[], [], []⟩
  | .kstepBoundary _ => ⟨[], [], []⟩
  | .huddleOpen _ _ => ⟨[], [], []⟩
  | .epilogueDrain _ => ⟨[], [], []⟩
  | .chainRunStart _ => ⟨[], [], []⟩
  | .chainLoad _ => ⟨[], [], []⟩
  | .chainAbsorb _ => ⟨[], [], []⟩
  | .chainEmit _ => ⟨[], [], []⟩
  | .chainPerm _ => ⟨[], [], []⟩
  | .chainEnd _ => ⟨[], [], []⟩
  | .jobStart _ => ⟨[], [], []⟩
  | .copyJob _ _ => ⟨[], [], []⟩
  | .fillJob _ _ => ⟨[], [], []⟩
  | .gatherJob _ _ => ⟨[], [], []⟩
  | .scatterJob _ _ => ⟨[], [], []⟩
  | .postJob _ _ => ⟨[], [], []⟩
  | .allReduce _ _ => ⟨[], [], []⟩
  | .allGather _ _ => ⟨[], [], []⟩
  | .reduceScatter _ _ => ⟨[], [], []⟩
  | .broadcast _ _ => ⟨[], [], []⟩
  | .collectiveStart _ _ _ => ⟨[], [], []⟩
  | .jobCompletion _ _ => ⟨[], [], []⟩
  | .invocationCreate _ => ⟨[], [], []⟩
  | .heapUnion _ => ⟨[], [], []⟩
  | .heapAdopt _ => ⟨[], [], []⟩
  | .heapRehash _ => ⟨[], [], []⟩
  | .matcherDeliver _ => ⟨[], [], []⟩
  | .replayAttempt _ _ _ => ⟨[], [], []⟩
  | .resumeNotice _ _ _ => ⟨[], [], []⟩
  | .upcallDelivery _ => ⟨[], [], []⟩
  | .collectorCopy _ => ⟨[], [], []⟩
  | .sectorFree _ => ⟨[], [], []⟩
  | .moveDoorbell _ _ => ⟨[], [], []⟩
  | .frameMove _ => ⟨[], [], []⟩
  | .copyWhileWritable _ => ⟨[], [], []⟩
  | .debugResume _ => ⟨[], [], []⟩
  | .debugFence _ => ⟨[], [], []⟩
  | .debugKillFrame _ => ⟨[], [], []⟩
  | .debugKillCore _ => ⟨[], [], []⟩
  | .debugPcWrite _ _ _ => ⟨[], [], []⟩
  | .debugLsdataAccess _ _ => ⟨[], [], []⟩
  | .deviceRegisterWrite _ _ => ⟨[], [], []⟩
  | .preemptSchedule _ _ => ⟨[], [], []⟩
  | .partitionHalt => ⟨[], [], []⟩
  | .partitionResume => ⟨[], [], []⟩
  | .freezeSignal => ⟨[], [], []⟩
  | .thermalTrip _ => ⟨[], [], []⟩
  | .powerCapSet _ => ⟨[], [], []⟩
  | .bringUp => ⟨[], [], []⟩
  | .functionLevelReset => ⟨[], [], []⟩
  | .attestationRequest _ => ⟨[], [], []⟩
  | .hostWrite _ _ => ⟨[], [], []⟩
  | .hostRead _ _ => ⟨[], [], []⟩
  | .hostSnoop _ => ⟨[], [], []⟩
  | .poolLinkFail _ => ⟨[], [], []⟩
  | .crirasPlaneFail _ => ⟨[], [], []⟩
  | .unassignedEncoding _ => ⟨[], [], []⟩
  | .correctedSoftError _ => ⟨[], [], []⟩
  | .poisonedLine _ => ⟨[], [], []⟩
  | .unitUncorrectableError _ => ⟨[], [], []⟩
  | .remoteHomeRequest _ _ => ⟨[], [], []⟩
  | .poolAgentWrite _ _ => ⟨[], [], []⟩
  | .supplyRemoval => ⟨[], [], []⟩

/-- The x- and a-registers an unperformed access will write. -/
def MemOp.dests : MemOp → List Reg
  | .ld _ _ d => [d]
  | .ldl _ d => [d]
  | .ldfe _ d => [d]
  | .cbload d => [d]
  | .czstat d => [d]
  | .lda _ _ d => [d]
  | .amo _ _ _ _ d => [.x d]
  | .cas _ _ _ _ j => [.x (evenX j)]
  | _ => []

/-- The v-register an unperformed access will write. -/
def MemOp.vdests : MemOp → List VReg
  | .vld _ _ d => [d]
  | .vldx _ _ _ d => [d]
  | _ => []

/-- Does an MGANG of the selected context still owe a write to a predicate (R59, R232)? Nothing is ever owed to p0. -/
def State.owesP (s : State) (p : PReg) : Bool :=
  p != 0 && (s.core s.myCore).mjobs.any fun j => j.frame == s.self && j.gen == s.c.gen && (match j.kind with | .joint _ => parPred j.par == p | _ => false)

/-- Will an unperformed access of the selected context still set flags in cr.fflags? -/
def MemOp.raises : MemOp → Bool
  | .amo _ .fadd _ _ _ => true
  | _ => false

/-- Does an instruction read cr.fflags? -/
def readsFflags : Instr → Bool
  | .crr _ r => r.toNat == 2
  | _ => false

/-! Streams (R64). -/

/-- Does an instruction run in the access stream: by the registers it names, its class and its major? -/
def accessStream : Instr → Bool
  | .add d _ _ | .sub d _ _ | .mul d _ _ | .mulh d _ _ | .mulhu d _ _ | .div d _ _ | .divu d _ _ | .rem d _ _ | .remu d _ _ | .and d _ _ | .or d _ _
  | .xor d _ _ | .andn d _ _ | .shl d _ _ | .shr d _ _ | .sar d _ _ | .rol d _ _ | .ror d _ _ | .min d _ _ | .max d _ _ | .minu d _ _ | .maxu d _ _
  | .addI d _ _ | .mulI d _ _ | .andI d _ _ | .orI d _ _ | .xorI d _ _ | .shlI d _ _ | .shrI d _ _ | .sarI d _ _ | .rolI d _ _ | .rorI d _ _ | .li d _
  | .bext d _ _ _ | .bextu d _ _ _ | .bins d _ _ _ | .popc d _ | .clz d _ | .ctz d _ | .brev d _ | .abs d _ | .sext8 d _ | .sext16 d _ | .sext32 d _
  | .zext8 d _ | .zext16 d _ | .zext32 d _ | .sel d _ _ _ | .lea d _ _ _ | .fshl d _ _ _ | .fshr d _ _ _ => !d.isX
  | .mov d a =>
    match d, a with
    | .x _, .x _ => false
    | _, _ => true
  | .rdtime _ | .cmp _ _ _ _ | .pand _ _ _ | .por _ _ _ | .pnot _ _ | .fcmp _ _ _ _ _ | .fcvt _ _ _ _ | .crr _ _ | .crw _ _ | .trap _ | .hint _ _ _ _
  | .nop | .faddF32 _ _ _ | .fsubF32 _ _ _ | .fmulF32 _ _ _ | .fdivF32 _ _ _ | .fminF32 _ _ _ | .fmaxF32 _ _ _ | .fsqrtF32 _ _ | .fabsF32 _ _
  | .fnegF32 _ _ | .fclassF32 _ _ | .fsinF32 _ _ | .fcosF32 _ _ | .fexp2F32 _ _ | .flog2F32 _ _ | .frcpF32 _ _ | .frsqF32 _ _ | .ffmaF32 _ _ _
  | .faddF16 _ _ _ | .fsubF16 _ _ _ | .fmulF16 _ _ _ | .fdivF16 _ _ _ | .fminF16 _ _ _ | .fmaxF16 _ _ _ | .fsqrtF16 _ _ | .fabsF16 _ _ | .fnegF16 _ _
  | .fclassF16 _ _ | .fsinF16 _ _ | .fcosF16 _ _ | .fexp2F16 _ _ | .flog2F16 _ _ | .frcpF16 _ _ | .frsqF16 _ _ | .ffmaF16 _ _ _ | .faddBF16 _ _ _
  | .fsubBF16 _ _ _ | .fmulBF16 _ _ _ | .fdivBF16 _ _ _ | .fminBF16 _ _ _ | .fmaxBF16 _ _ _ | .fsqrtBF16 _ _ | .fabsBF16 _ _ | .fnegBF16 _ _
  | .fclassBF16 _ _ | .fsinBF16 _ _ | .fcosBF16 _ _ | .fexp2BF16 _ _ | .flog2BF16 _ _ | .frcpBF16 _ _ | .frsqBF16 _ _ | .ffmaBF16 _ _ _ | .b _ _ _
  | .bp _ _ _ | .vadd _ _ _ _ _ | .vsub _ _ _ _ _ | .vmul _ _ _ _ _ | .vfma _ _ _ _ _ | .vdiv _ _ _ _ _ | .vsqrt _ _ _ _ | .vmin _ _ _ _ _
  | .vmax _ _ _ _ _ | .vand _ _ _ _ _ | .vor _ _ _ _ _ | .vxor _ _ _ _ _ | .vshl _ _ _ _ _ | .vshr _ _ _ _ _ | .vfsh _ _ _ _ _ | .vbext _ _ _ _ _
  | .vpopc _ _ _ _ | .vclz _ _ _ _ | .vsel _ _ _ _ | .vbcast _ _ _ | .vextr _ _ _ | .vins _ _ _ | .vneigh _ _ _ _ _ | .vlut _ _ _ _ | .vperm _ _ _ _
  | .vsfnSin _ _ _ _ | .vsfnCos _ _ _ _ | .vsfnExp2 _ _ _ _ | .vsfnLog2 _ _ _ _ | .vsfnRcp _ _ _ _ | .vsfnRsq _ _ _ _ | .vcmp _ _ _ _ _ _
  | .vcvt _ _ _ _ _ | .vredAdd _ _ _ _ | .vredMin _ _ _ _ | .vredMax _ _ _ _ | .vredAnd _ _ _ _ | .vredOr _ _ _ _ | .vredXor _ _ _ _
  | .vscanAdd _ _ _ _ | .vscanMin _ _ _ _ | .vscanMax _ _ _ _ | .vscanAnd _ _ _ _ | .vscanOr _ _ _ _ | .vscanXor _ _ _ _ | .kopAnd _ _ _
  | .kopOr _ _ _ | .kopXor _ _ _ | .kopAndn _ _ _ | .kopNot _ _ | .kpopc _ _ | .vclaim _ _ | .vrel => false
  | .atx _ _ | .wait _ | .ldS8 _ _ _ _ | .ldU8 _ _ _ _ | .ldS16 _ _ _ _ | .ldU16 _ _ _ _ | .ldS32 _ _ _ _ | .ldU32 _ _ _ _ | .ld64 _ _ _ _
  | .st8 _ _ _ _ | .st16 _ _ _ _ | .st32 _ _ _ _ | .st64 _ _ _ _ | .ldl8 _ _ _ _ | .ldl16 _ _ _ _ | .ldl32 _ _ _ _ | .ldl64 _ _ _ _ | .stl8 _ _ _ _
  | .stl16 _ _ _ _ | .stl32 _ _ _ _ | .stl64 _ _ _ _ | .ldfeC _ _ _ _ | .ldfeK _ _ _ _ | .stfe _ _ _ _ | .femarkE _ _ _ _ | .femarkF _ _ _ _
  | .pref _ _ _ _ | .fence _ _ | .czfence _ _ _ _ | .cbload _ _ _ _ | .czstat _ _ _ _ | .j _ _ | .ret | .call _ | .loop _ _ | .vld _ _ _ _ _ _
  | .vst _ _ _ _ _ _ | .vldx _ _ _ _ _ _ | .vstx _ _ _ _ _ _ | .lda _ _ _ _ _ _ | .strl _ _ _ _ _ _ | .amo32Add _ _ _ _ _ | .amo32Fadd _ _ _ _ _
  | .amo32Min _ _ _ _ _ | .amo32Max _ _ _ _ _ | .amo32And _ _ _ _ _ | .amo32Or _ _ _ _ _ | .amo32Xor _ _ _ _ _ | .amo32Swap _ _ _ _ _
  | .amo64Add _ _ _ _ _ | .amo64Min _ _ _ _ _ | .amo64Max _ _ _ _ _ | .amo64And _ _ _ _ _ | .amo64Or _ _ _ _ _ | .amo64Xor _ _ _ _ _
  | .amo64Swap _ _ _ _ _ | .cas _ _ _ _ _ _ | .mmaNew _ _ _ _ _ | .mmaAcc _ _ _ _ _ | .mgangNew _ _ _ _ _ | .mgangAcc _ _ _ _ _ | .mzero _
  | .mepi _ _ _ | .mwait | .mprio _ | .chbond _ _ | .chload _ | .chrun _ _ _ | .chstep _ _ _ | .chwait _ | .enq _ _ _ | .jpoll _ _ | .jwait _ _
  | .jcancel _ _ | .pcfg _ _ | .ptry _ _ _ | .ptrys _ _ _ | .rqres _ _ _ | .rqpub _ _ | .rqtake _ _ _ | .rqdone _ _ | .dqbind _ _ _ | .dqpush _ _ _
  | .dqpop _ _ _ | .dqcons _ | .dqarr _ _ _ | .dqlook _ _ _ | .dqadv _ _ _ | .dqfront _ _ | .dqwait _ _ | .srfence _ | .bar _ | .bara _ _ | .barw _ _
  | .fresume _ _ | .ptfence _ _ | .recbeg _ _ _ | .recend _ | .rplbeg _ _ | .rplend _ | .rerecord _ | .rerecordFree _ | .recstat _ _ | .egopen _ _ _
  | .egins _ _ | .egmrg _ _ _ | .egfind _ _ | .egsame _ _ _ | .egsync _ | .egnode _ _ _ | .egclass _ _ _ | .egmatch _ _ | .egnext _ _ | .egchk _ _
  | .egcost _ _ _ | .egextr _ _ | .launch _ _ | .dnext _ | .hstart _ _ _ | .hexit _ | .hjoin _ _ | .gfuse _ _ | .gsplit | .tknew _ _ | .tkdep _ _ _
  | .tkrel _ _ | .tkdone _ _ _ | .ftnew _ _ _ | .ftsetReady _ _ _ | .ftsetPoison _ _ _ | .ftsetFree _ _ _ | .ftget _ _ _ | .yieldRef _ | .park _ _
  | .wake _ _ | .ctrdTimestamp _ _ | .ctrdSlot _ _ | .ctrdVc _ _ | .ctrdVd _ _ | .ctrdNeighbour _ _ | .pmrd _ _ | .upret _ | .upretContinue _
  | .fraiseUpcall _ _ | .fraiseFreeze _ _ => true
  | .longForm _ => false
  | .scoreboardDecrement _ _ | .pushArrival _ | .sweeperVisit _ _ _ | .heatSample _ _ _ | .heatDecayEpoch _ _ | .lsPortPassover _ _
  | .dispatchPassover _ | .hintPauseEnd _ | .dispatchStep _ | .freeSlotAdvert _ _ _ | .teamMigration _ _ | .gangForm _ _ | .portWordDelivery _
  | .ptryTimeout _ | .ptrysTimeout _ | .vneighTimeout _ | .parkTimeout _ | .ringHole _ | .watchdog _ | .matrixJobAccept _ | .kstepBoundary _
  | .huddleOpen _ _ | .epilogueDrain _ | .chainRunStart _ | .chainLoad _ | .chainAbsorb _ | .chainEmit _ | .chainPerm _ | .chainEnd _ | .jobStart _
  | .copyJob _ _ | .fillJob _ _ | .gatherJob _ _ | .scatterJob _ _ | .postJob _ _ | .allReduce _ _ | .allGather _ _ | .reduceScatter _ _
  | .broadcast _ _ | .collectiveStart _ _ _ | .jobCompletion _ _ | .invocationCreate _ | .heapUnion _ | .heapAdopt _ | .heapRehash _
  | .matcherDeliver _ | .replayAttempt _ _ _ | .resumeNotice _ _ _ | .upcallDelivery _ | .collectorCopy _ | .sectorFree _ | .moveDoorbell _ _
  | .frameMove _ | .copyWhileWritable _ | .debugResume _ | .debugFence _ | .debugKillFrame _ | .debugKillCore _ | .debugPcWrite _ _ _
  | .debugLsdataAccess _ _ | .deviceRegisterWrite _ _ | .preemptSchedule _ _ | .partitionHalt | .partitionResume | .freezeSignal | .thermalTrip _
  | .powerCapSet _ | .bringUp | .functionLevelReset | .attestationRequest _ | .hostWrite _ _ | .hostRead _ _ | .hostSnoop _ | .poolLinkFail _
  | .crirasPlaneFail _ | .unassignedEncoding _ | .correctedSoftError _ | .poisonedLine _ | .unitUncorrectableError _ | .remoteHomeRequest _ _
  | .poolAgentWrite _ _ | .supplyRemoval => false

/-- The instructions of the access stream that may wait beside it once they have issued, as an access does (R89, R198), with the registers that they write
when their effect is performed; and those that stall at issue, which hold the access stream but not the execute stream (R98; log 23). -/
def besideDest : Instr → Option (List Reg × List PReg)
  | .bar _ | .barw _ _ | .dqwait _ _ | .rqpub _ _ | .rqdone _ _ | .egsync _ => some ([], [])
  | .bara _ d | .jwait d _ | .dqpush d _ _ | .egins d _ | .egmrg d _ _ | .egfind d _ | .egnode d _ _ | .egclass d _ _ | .egchk d _ | .egcost d _ _
  | .tknew d _ | .tkdep d _ _ | .tkrel d _ | .tkdone d _ _ | .ftnew d _ _ | .ftsetReady d _ _ | .ftsetPoison d _ _ | .ftsetFree d _ _
  | .wake d _ => some ([.x d], [])
  | .rqres d _ p | .rqtake d _ p => some ([.x d], [p])
  | .egsame p _ _ => some ([], [p])
  | .mov d a =>
    match d, a with
    | .x i, .n _ => some ([.x i], [])
    | .a i, .n _ => some ([.a i], [])
    | .n _, _ => some ([], [])
    | _, _ => none
  | .mmaNew _ _ _ _ _ | .mmaAcc _ _ _ _ _ | .mzero _ | .mepi _ _ _ | .chrun _ _ _ | .chstep _ _ _ => some ([], [])
  | _ => none

/-- Does an instruction wait to be issued for as long as its slot counts 63, or its unit has no room (R89, R220, R249)? -/
def stallsAtIssue : Instr → Bool
  | .mmaNew _ _ _ _ _ | .mmaAcc _ _ _ _ _ | .mgangNew _ _ _ _ _ | .mgangAcc _ _ _ _ _ | .mzero _ | .mepi _ _ _ | .chrun _ _ _ | .chstep _ _ _ => true
  | .ldS8 _ _ _ _ | .ldU8 _ _ _ _ | .ldS16 _ _ _ _ | .ldU16 _ _ _ _ | .ldS32 _ _ _ _ | .ldU32 _ _ _ _ | .ld64 _ _ _ _ | .st8 _ _ _ _ | .st16 _ _ _ _
  | .st32 _ _ _ _ | .st64 _ _ _ _ | .ldl8 _ _ _ _ | .ldl16 _ _ _ _ | .ldl32 _ _ _ _ | .ldl64 _ _ _ _ | .stl8 _ _ _ _ | .stl16 _ _ _ _ | .stl32 _ _ _ _
  | .stl64 _ _ _ _ | .ldfeC _ _ _ _ | .ldfeK _ _ _ _ | .stfe _ _ _ _ | .femarkE _ _ _ _ | .femarkF _ _ _ _ | .pref _ _ _ _ | .fence _ _ | .czfence _ _ _ _
  | .cbload _ _ _ _ | .czstat _ _ _ _ | .vld _ _ _ _ _ _ | .vst _ _ _ _ _ _ | .vldx _ _ _ _ _ _ | .vstx _ _ _ _ _ _ | .lda _ _ _ _ _ _ | .strl _ _ _ _ _ _
  | .amo32Add _ _ _ _ _ | .amo32Fadd _ _ _ _ _ | .amo32Min _ _ _ _ _ | .amo32Max _ _ _ _ _ | .amo32And _ _ _ _ _ | .amo32Or _ _ _ _ _ | .amo32Xor _ _ _ _ _
  | .amo32Swap _ _ _ _ _ | .amo64Add _ _ _ _ _ | .amo64Min _ _ _ _ _ | .amo64Max _ _ _ _ _ | .amo64And _ _ _ _ _ | .amo64Or _ _ _ _ _
  | .amo64Xor _ _ _ _ _ | .amo64Swap _ _ _ _ _ | .cas _ _ _ _ _ _ => true
  | _ => false

/-- An instruction of the context stalls at issue beside the execute stream: its access stream waits behind it (R98, R220, R249). -/
def Ctx.accessStalled (c : Ctx) : Bool := c.works.any fun w => !w.back && w.wait.instr.any stallsAtIssue

/-- The wait is an instruction's issue stall (R89, R220, R249). -/
def Wait.stalled (w : Wait) : Bool := !w.begun && w.instr.any stallsAtIssue

/-- A context waits in an instruction that has not issued: in the wrapper of a long form (R61), or in its issue stall. -/
def Ctx.toIssue (c : Ctx) : Bool := c.wait.any fun w => w.wrap || w.stalled

/-- A frame's core counts an instruction that has issued after a stall (R362). -/
def State.countLater (t : State) (f : Nat) (w : Wait) : State :=
  if w.stalled && !(t.ctx f).toIssue then t.mapCore (coreOf f) fun k => { k with pIssued := sat48 k.pIssued 1 } else t

/-- The registers that an instruction beside the streams still owes. -/
def Work.dests (w : Work) : List Reg × List PReg := (w.wait.instr.bind besideDest).getD ([], [])

/-- Does the predicate await an earlier instruction beside the streams? -/
def Ctx.owesP (c : Ctx) (p : PReg) : Bool := p != 0 && c.works.any fun w => !behind c.win w.id && w.dests.2.contains p

/-- Does the predicate await an earlier instruction (R59)? -/
def State.awaitsP (s : State) (p : PReg) : Bool := s.owesP p || s.c.owesP p

/-- May the selected context issue an instruction: does no earlier instruction still owe a write to a register it names (R59)? What the access stream
has issued ahead of it is later in the program. -/
def State.interlock (s : State) (i : Instr) : Bool :=
  let u := regsOf i
  let names := fun (r : Reg) => r != .x 0 && u.xa.contains r
  !(s.c.acc.any fun a => !behind s.c.win a.aid && (a.op.dests.any names || a.op.vdests.any u.v.contains || (readsFflags i && a.op.raises)))
    && !(s.c.works.any fun w => !behind s.c.win w.id && w.dests.1.any names)
    && !(u.p.any s.awaitsP)

end Sys2Proof.Machine
end

