-- ==== Sys2Proof/Machine/Matrix.lean ====
section
/-! DEFINITION. The matrix ring, the slice's arbitration, huddles and the epilogue engine (R219 to R241). -/

namespace Sys2Proof.Machine

open Sys2Proof

/-! Ring slots. -/

/-- Replace the 4,096 elements of a slot. -/
def setSlot (ring : Tab (BitVec 32)) (n : Nat) (f : Nat → BitVec 32) : Tab (BitVec 32) :=
  ring.filter (fun e => decide (e.1 < 4096 * n)) ++ (List.range 4096).map (fun k => (4096 * n + k, f k)) ++
    ring.filter fun e => decide (4096 * n + 4096 ≤ e.1)

/-- A slot's elements become +0. -/
def zeroSlot (ring : Tab (BitVec 32)) (n : Nat) : Tab (BitVec 32) := ring.filter fun e => decide (e.1 / 4096 ≠ n)

/-- The tail slot (R219). -/
def CoreSt.tail (k : CoreSt) : Nat := (k.rh + 8 - k.rc + 1) % 8

/-- The issuing context's latched slot is owed by work with an id; the instruction leaves the stream. -/
def State.accept (s : State) (id : Nat) : State :=
  s.done fun c =>
    match c.latch with
    | some i => { c with latch := none, owes := c.owes ++ [(id, i)] }
    | none => c

/-- Is the slice's job queue of 16 full (R220)? A chain run, which is one job of the slice (R247) and waits in its cluster's run queue, takes none of the 16
places: DESIGN CHOICE, the spec does not say (log 92). -/
def CoreSt.queueFull (k : CoreSt) : Bool :=
  decide (16 ≤ (k.mjobs.filter fun j => match j.kind with | .chain _ => false | _ => true).length + k.ejobs.length)

/-! Operands (R222 to R226). -/

/-- The format of an operand control register. -/
def fmtField (r : Word) : Option Fmt := fmtNum (bitsOf r 63 60)

/-- The operand class of a format (R223): k-step length and bytes of a 64-element run. -/
def opClass : Fmt → Option (Nat × Nat)
  | .f16 | .bf16 => some (32, 0)
  | .e4m3 | .e5m2 | .t8 | .t6 | .si8 | .ui8 => some (64, 1)
  | .f32 => some (8, 2)
  | _ => none

/-- The scale pointer of an operand control register. -/
def scalePtr (r : Word) : Nat := bitsOf r 51 0

/-- Off(n) of R224. -/
def elemOff (fmt : Fmt) (n : Nat) : Nat := if fmt = .t6 then 3 * (n / 4) else n * fmtBytes fmt

/-- The bytes of n elements from a row's or group's start. -/
def spanBytes (fmt : Fmt) (n : Nat) : Nat := if fmt = .t6 then 3 * ((n + 3) / 4) else n * fmtBytes fmt

/-- Element n of packed bytes (R39). -/
def elemAt (fmt : Fmt) (bs : List Byte) (n : Nat) : Nat :=
  if fmt = .t6 then wordOfBytes ((bs.drop (3 * (n / 4))).take 3) / 2 ^ (6 * (n % 4)) % 64
  else wordOfBytes ((bs.drop (n * fmtBytes fmt)).take (fmtBytes fmt))

/-- Pack elements into bytes (R39). -/
def packElems (fmt : Fmt) : List Nat → List Byte
  | a :: b :: c :: d :: t => if fmt = .t6 then bytesOf 3 (a + 64 * b + 4096 * c + 262144 * d) ++ packElems fmt t
      else bytesOf (fmtBytes fmt) a ++ bytesOf (fmtBytes fmt) b ++ bytesOf (fmtBytes fmt) c ++ bytesOf (fmtBytes fmt) d ++ packElems fmt t
  | a :: t => bytesOf (fmtBytes fmt) a ++ packElems fmt t
  | [] => []

/-- The lines that n bytes at an address meet. -/
def linesOf (va n : Nat) : List Nat := (List.range ((va + n + 63) / 64 - va / 64)).map (va / 64 + ·)

/-- Pinning lines for a job would pass the 512 that a slice of the die pins at once (R166). -/
def State.pinsFull (s : State) (die asid : Nat) (lines : List Nat) : Bool :=
  let pinned := s.l2.filter fun l => l.die == die && !l.pin.isEmpty
  let news := lines.dedup.filter fun n => !(pinned.any fun l => l.asid == asid && l.line == n)
  let at_ := fun (n : Nat) => s.served die (sliceOf (64 * n))
  news.any fun n => decide (512 < (pinned.filter fun l => at_ l.line == at_ n).length + (news.filter fun m => at_ m == at_ n).length)

/-- Pin lines for a job, until its slice has consumed them. -/
def State.pinLines (s : State) (die asid job : Nat) (lines : List Nat) : State :=
  { s with l2 := s.l2.map fun l => if l.die == die && l.asid == asid && lines.contains l.line && !l.pin.contains job then { l with pin := job :: l.pin } else l }

/-- Read a stretch of a matrix operand for a job: from the local store, in the window its context had, or at its L2 slice, where its lines are then pinned (R226); with the pin
capacity of a slice full, the fetch stalls. A fault gives its address. -/
def State.readOperand (s : State) (f asid job : Nat) (win : Nat × Nat) (ls : Bool) (base : Word) (n : Nat) : Except (MFault × Word) (List Byte × State) :=
  let r := s.workReq f asid 8
  if ls then
    if win.2 < base.toNat + n then .error (.window, base) else .ok ((s.core (coreOf f)).ls.readBytes (win.1 + base.toNat) n, s)
  else if s.pinsFull r.die asid (linesOf base.toNat n) then .error (.busy, base)
  else
    match s.readBytesAt r .die (n / 64 + 2) base.toNat n with
    | .error e => .error (e, .ofNat 64 (s.readStop r .die (n / 64 + 2) base.toNat n))
    | .ok (bs, s) => .ok (bs, s.pinLines r.die asid job (linesOf base.toNat n))

/-- Read rows of an operand, one after another. -/
def State.readRows (s : State) (f asid job : Nat) (win : Nat × Nat) (ls : Bool) (n : Nat) : List Word → Except (MFault × Word) (List (List Byte) × State)
  | [] => .ok ([], s)
  | a :: as =>
    match s.readOperand f asid job win ls a n with
    | .error e => .error e
    | .ok (bs, s) =>
      match s.readRows f asid job win ls n as with
      | .error e => .error e
      | .ok (t, s) => .ok (bs :: t, s)

/-- The scale pairs of 64 rows or columns for K-blocks β to β + n − 1; with no pointer, S = 127 and Z = 0. -/
def State.readScales (s : State) (f asid job : Nat) (win : Nat × Nat) (reg : Word) (block n : Nat) : Except (MFault × Word) (List Nat × State) :=
  if scalePtr reg = 0 then .ok (List.replicate (64 * n) 127, s)
  else
    let a : Word := .ofNat 64 (scalePtr reg + 128 * block)
    match s.readOperand f asid job win (reg.getLsbD 59) a (128 * n) with
    | .error e => .error e
    | .ok (bs, s) => .ok ((List.range (64 * n)).map fun k => wordOfBytes ((bs.drop (2 * k)).take 2), s)

/-- One operand's decoded elements for a k-step: 64 × K values, indexed by row or column, then κ. -/
abbrev Panel := List (List (Val × Fl))

/-- A's panel for k-step t (R224, R225). -/
def State.panelA (s : State) (f : Nat) (j : MJob) (fmt : Fmt) (k t : Nat) : Except (MFault × Word) (Panel × State) :=
  let stride := 16 * bitsOf j.par 31 16
  let rows := (List.range 64).map fun i => j.aBase + .ofNat 64 (stride * i + elemOff fmt (t * k))
  match s.readRows f j.asid j.id j.win j.la (spanBytes fmt k) rows with
  | .error e => .error e
  | .ok (bs, s) =>
    match s.readScales f j.asid j.id j.win j.fmta (t * k / 32) ((k + 31) / 32) with
    | .error e => .error e
    | .ok (sc, s) =>
      .ok (bs.zipIdx.map fun (row, i) => (List.range k).map fun kk => decodeScaled fmt (sc.getD (64 * (kk / 32) + i) 127) (elemAt fmt row kk), s)

/-- B's panel for k-step t: indexed by column. -/
def State.panelB (s : State) (f : Nat) (j : MJob) (fmt : Fmt) (k t : Nat) : Except (MFault × Word) (Panel × State) :=
  let stride := 16 * bitsOf j.par 47 32
  let rows := (List.range k).map fun kk => j.bBase + .ofNat 64 (stride * (t * k + kk))
  match s.readRows f j.asid j.id j.win j.lb (spanBytes fmt 64) rows with
  | .error e => .error e
  | .ok (bs, s) =>
    match s.readScales f j.asid j.id j.win j.fmtb (t * k / 32) ((k + 31) / 32) with
    | .error e => .error e
    | .ok (sc, s) =>
      .ok ((List.range 64).map fun c => bs.zipIdx.map fun (row, kk) => decodeScaled fmt (sc.getD (64 * (kk / 32) + c) 127) (elemAt fmt row c), s)

/-- The product of two decoded elements. -/
def product (a b : Val × Fl) : Val × Fl := let p := mulVal a.1 b.1; (p.1, p.2 ||| a.2 ||| b.2)

/-- One k-step on a tile: the new slot and the flags raised. -/
def tileStep (ring : Tab (BitVec 32)) (slot : Nat) (a b : Panel) : Tab (BitVec 32) × Fl :=
  let res := (List.range 4096).map fun n =>
    kStep (tget 0 ring (4096 * slot + n)).toNat (((a.getD (n / 64) []).zip (b.getD (n % 64) [])).map fun p => product p.1 p.2)
  (setSlot ring slot fun n => .ofNat 32 (res.getD n ⟨0, 0⟩).bits, res.foldl (fun f r => f ||| r.fl) 0)

/-! Acceptance (R220, R222 to R225, R229). -/

/-- The class of a job's formats: their k-step length, if both are of one class and FP32 has no scales. -/
def classOf (fmta fmtb : Word) : Option Nat :=
  match fmtField fmta, fmtField fmtb with
  | some a, some b =>
    match opClass a, opClass b with
    | some x, some y => if x = y ∧ ¬ (x.1 = 8 ∧ (scalePtr fmta ≠ 0 ∨ scalePtr fmtb ≠ 0)) then some x.1 else none
    | _, _ => none
  | _, _ => none

/-- Is a local-store operand or scale array malformed: the first address that passes the window, if any (R224, R225)? Of a huddle's participant
that is not its supplier, A and its scales are never read, and nothing is asked of them (R230). -/
def Ctx.operandBad (c : Ctx) (useA la lb : Bool) (a b par fmta fmtb : Word) (k : Nat) : Option Word :=
  let nk := bitsOf par 11 0
  let w := c.window
  let lastA := a.toNat + 16 * bitsOf par 31 16 * 63 + elemOff ((fmtField fmta).getD .f32) ((nk - 1) * k) + spanBytes ((fmtField fmta).getD .f32) k
  let lastB := b.toNat + 16 * bitsOf par 47 32 * (nk * k - 1) + spanBytes ((fmtField fmtb).getD .f32) 64
  let scEnd := fun (r : Word) => scalePtr r + 128 * ((nk * k + 31) / 32)
  if useA ∧ (unaligned a 16 ∨ (la ∧ w < lastA)) then some a
  else if unaligned b 16 ∨ (lb ∧ w < lastB) then some b
  else if useA ∧ scalePtr fmta ≠ 0 ∧ fmta.getLsbD 59 ∧ w < scEnd fmta then some (.ofNat 64 (scalePtr fmta))
  else if scalePtr fmtb ≠ 0 ∧ fmtb.getLsbD 59 ∧ w < scEnd fmtb then some (.ofNat 64 (scalePtr fmtb))
  else none

/-- The cores that take part in a huddle of the selected context: its gang, or every core of its team on the cluster with a live control
context (R229). A task context, an invocation's among them, is a team of one core (R334). -/
def State.participants (s : State) : List Nat :=
  if s.c.kind = .task ∨ s.c.kind = .invocation then [s.myCore]
  else if s.c.st.gang ≠ 0 then (s.gangOf s.self).map coreOf
  else (coresOf s.myClu).filter fun k => (s.controlOn k s.c.team).isSome

/-- Join or make the huddle of a tag: its id. The set of participants is fixed as each MGANG is accepted; one whose set differs from a waiting
huddle's makes a huddle of its own: DESIGN CHOICE, R229 does not say when the set is fixed (log 75). -/
def State.joinHuddle (s : State) (tag : Nat) : Nat × State :=
  let parts := s.participants
  let k := s.clu s.myClu
  match k.huddles.find? fun h => h.tag == tag && h.parts == parts && h.opened.isNone && !(h.joined.any fun f => coreOf f == s.myCore) with
  | some h =>
    (h.id, s.setClu s.myClu { k with huddles := k.huddles.map fun x => if x.id == h.id then { x with joined := x.joined ++ [s.self] } else x })
  | none =>
    (s.nextId, s.newId.setClu s.myClu { k with huddles := k.huddles ++ [{ id := s.nextId, tag := tag, parts := parts, opened := none, joined := [s.self], team := s.c.team }] })

/-- What an instruction that enters the slice's queue does to the count of used ring slots: it opens one, it frees one, or neither (R219). -/
inductive RingUse where
  | opens | frees | keeps
deriving DecidableEq, Repr

/-- Of an instruction that enters the slice's queue. -/
def ringUse : Instr → Option RingUse
  | .mmaNew _ _ _ _ _ | .mgangNew _ _ _ _ _ => some .opens
  | .mmaAcc _ _ _ _ _ | .mgangAcc _ _ _ _ _ | .mzero _ => some .keeps
  | .mepi _ _ _ => some .frees
  | _ => none

/-- The waits of other contexts' instructions of a kind that stall before acceptance on some cores, and issued before the selected context's. -/
def State.stalledBefore (s : State) (cores : List Nat) (p : Instr → Bool) : List Wait :=
  (cores.flatMap framesOf).flatMap fun g =>
    if g != s.self && (s.ctx g).live then (s.ctx g).waits.filter fun w =>
      w.instr.any p && !w.wrap && !w.begun && (match s.c.wait with
        | some me => decide (w.since < me.since)
        | none => true)
    else []

/-- The earliest of some waits, and how it uses the ring. -/
def oldestUse (ws : List Wait) : Option RingUse :=
  (ws.foldl (fun (b : Option Wait) w => match b with
    | none => some w
    | some x => if w.since < x.since then some w else some x) none).bind fun w => w.instr.bind ringUse

/-- An instruction of another context of the core stalls before acceptance, and issued before the selected context's, which waits for it (R91, R220). Where the
oldest one waits for a ring slot to be freed or to be opened, one that does so goes past it, since it would wait for ever: DESIGN CHOICE (log 76). -/
def State.overtakes (s : State) (u : RingUse) : Bool :=
  let rc := (s.core s.myCore).rc
  match oldestUse (s.stalledBefore [s.myCore] fun i => (ringUse i).isSome) with
  | none => false
  | some o => !((o == .opens && decide (8 ≤ rc) && u == .frees) || (o == .frees && rc == 0 && u == .opens))

/-- MMA and MGANG: wait for acceptance, then check, bind and enter the slice's queue. A .new zeroes its slot at once, or, while an earlier job is
bound to it, before its first k-step (R221). -/
def State.matrixMul (s : State) (isNew gang la lb : Bool) (d : XReg) (a b : AReg) : State :=
  let par := s.c.getX d
  let k := s.core s.myCore
  let tag := bitsOf par 55 48
  let sameTag := gang && k.mjobs.any fun j => match j.kind with | .joint _ => bitsOf j.par 55 48 == tag | _ => false
  if k.queueFull ∨ (isNew ∧ 8 ≤ k.rc) ∨ sameTag ∨ s.overtakes (if isNew then .opens else .keeps) then s.stall
  else if bitsOf par 63 59 ≠ 0 ∨ bitsOf par 15 12 ≠ 0 ∨ bitsOf par 11 0 = 0 ∨ (gang = false ∧ bitsOf par 58 48 ≠ 0) then s.reservedField
  else if isNew = false ∧ k.rc = 0 then s.illegal
  else
    match classOf s.c.cr.fmta s.c.cr.fmtb with
    | none => s.reservedField
    | some kl =>
      let useA := !gang || s.participants.head? == some s.myCore
      match s.c.operandBad useA la lb (s.c.getA a) (s.c.getA b) par s.c.cr.fmta s.c.cr.fmtb kl with
      | some ea => s.misaligned ea
      | none =>
        let slot := if isNew then (k.rh + 1) % 8 else k.rh
        let free := !(k.mjobs.any fun j => j.slot == some slot) && !(k.ejobs.any fun j => j.slot == slot)
        let k' := if isNew then { k with rh := slot, rc := k.rc + 1, ring := if free then zeroSlot k.ring slot else k.ring } else k
        let (kind, s) : MKind × State := if gang then (let r := s.joinHuddle tag; (.joint r.1, r.2)) else (.mma, s)
        let j : MJob := { id := s.nextId, frame := s.self, gen := s.c.gen, win := s.c.lsWin, kind := kind, slot := some slot, par := par, aBase := s.c.getA a, bBase := s.c.getA b,
                          la := la, lb := lb, fmta := s.c.cr.fmta, fmtb := s.c.cr.fmtb, prio := s.c.mprio.toNat, nk := bitsOf par 11 0, done := 0,
                          waited := 0, last := s.time, susp := false, flags := 0, pc := s.c.pc, asid := s.c.asid, zero := isNew && !free }
        (s.newId.setCore s.myCore { k' with mjobs := k'.mjobs ++ [j] }).accept j.id

/-- MMA.new (R235). -/
def execMmaNew (la lb : Bool) (d : XReg) (a b : AReg) (s : State) : Out := .next (s.matrixMul true false la lb d a b)
/-- MMA.acc (R235). -/
def execMmaAcc (la lb : Bool) (d : XReg) (a b : AReg) (s : State) : Out := .next (s.matrixMul false false la lb d a b)
/-- MGANG.new (R235). -/
def execMgangNew (la lb : Bool) (d : XReg) (a b : AReg) (s : State) : Out := .next (s.matrixMul true true la lb d a b)
/-- MGANG.acc (R235). -/
def execMgangAcc (la lb : Bool) (d : XReg) (a b : AReg) (s : State) : Out := .next (s.matrixMul false true la lb d a b)

/-- MZERO (R236). -/
def execMzero (d : MReg) (s : State) : Out :=
  let k := s.core s.myCore
  if k.queueFull ∨ s.overtakes .keeps then .next s.stall
  else if k.rc ≤ d.val then .next s.illegal
  else
    let j : MJob := { id := s.nextId, frame := s.self, gen := s.c.gen, win := s.c.lsWin, kind := .mzero, slot := some ((k.rh + 8 - d.val) % 8), par := 0, aBase := 0, bBase := 0, la := false,
                      lb := false, fmta := 0, fmtb := 0, prio := s.c.mprio.toNat, nk := 1, done := 0, waited := 0, last := s.time, susp := false,
                      flags := 0, pc := s.c.pc, asid := s.c.asid, zero := false }
    .next ((s.newId.setCore s.myCore { k with mjobs := k.mjobs ++ [j] }).accept j.id)

/-- MWAIT (R237): it waits for the jobs of its own context alone, not for those that an ended one left in its frame. -/
def execMwait (s : State) : Out :=
  let k := s.core s.myCore
  let busy := k.ejobs.any (fun j => j.frame == s.self && j.gen == s.c.gen) || k.mjobs.any fun j => j.frame == s.self && j.gen == s.c.gen && (match j.kind with | .chain _ => false | _ => true)
  .next (if busy then s.stall else s.retire)

/-- MPRIO (R238). -/
def execMprio (a : XReg) (s : State) : Out :=
  let v := s.c.getX a
  .next (if 7 < v.toNat then s.reservedField else s.done fun c => { c with mprio := v.truncate 3 })

/-- MEPI's parameter word breaks R239. -/
def mepiParBad (par : Word) : Bool :=
  let rows := bitsOf par 6 0
  let cols := bitsOf par 14 8
  let rorg := bitsOf par 22 16
  let corg := bitsOf par 30 24
  bitsOf par 63 33 != 0 || par.getLsbD 31 || par.getLsbD 23 || par.getLsbD 15 || par.getLsbD 7
    || decide (rows = 0 ∨ 64 < rorg + rows ∨ cols = 0 ∨ 64 < corg + cols)

/-- An epilogue record breaks R239. -/
def mepiRecBad (r : Nat) : Bool :=
  let fld := fun (o n : Nat) => r / 2 ^ (8 * o) % 2 ^ (8 * n)
  let fmt := fld 28 1
  let kind := fld 29 1 % 4
  let j := fld 29 1 / 4 % 32
  let clo := fld 32 4
  let chi := fld 36 4
  let nan := fun (x : Nat) => (decodeRaw .f32 x).isNan
  decide (15 < fmt) || !(decide (fmt ≤ 6) || (decide (8 ≤ fmt) && decide (fmt ≤ 13))) || decide (128 ≤ fld 29 1) || fld 30 2 != 0 || fld 40 24 != 0
    || (if kind = 2 then j == 0 else j != 0)
    || (if kind = 3 then nan clo || nan chi || cmpVal (decodeRaw .f32 clo) (decodeRaw .f32 chi) == .gt else clo != 0 || chi != 0)

/-- The epilogue job of a MEPI from its record, or the address at which it is misaligned (R239). -/
def epiJob (j : EJob) (r : Nat) : Except Word EJob :=
  let fld := fun (o n : Nat) => r / 2 ^ (8 * o) % 2 ^ (8 * n)
  let fmt := (fmtNum (fld 28 1)).getD .f32
  let e := if fmt = .t6 then 1 else fmtBytes fmt
  let stride := fld 24 4
  let t6Bad := fmt == .t6 && (bitsOf j.par 30 24 % 4 != 0 || bitsOf j.par 14 8 % 4 != 0 || stride % 3 != 0)
  if unaligned j.dst e ∨ stride % e ≠ 0 ∨ t6Bad then .error j.dst
  else
    match [fld 0 8, fld 8 8, fld 16 8].find? fun v => v % 4 != 0 with
    | some v => .error (.ofNat 64 v)
    | none =>
      .ok { j with ready := true, rscale := .ofNat 64 (fld 0 8), cscale := .ofNat 64 (fld 8 8), bias := .ofNat 64 (fld 16 8), stride := stride,
                   fmt := fld 28 1, actKind := fld 29 1 % 4, actJ := fld 29 1 / 4 % 32, clo := .ofNat 32 (fld 32 4), chi := .ofNat 32 (fld 36 4) }

/-- The job that the selected context's MEPI has bound to its slot while the read of its record is held (R240). -/
def State.boundEpi (s : State) : Option EJob := s.c.wait.bind fun w => (s.core s.myCore).ejobs.find? fun j => j.id == w.arg && !j.ready

/-- The selected context's MEPI binds a job to the tail slot, with what it samples. -/
def State.newEpi (s : State) (par dst : Word) : EJob :=
  { id := s.nextId, frame := s.self, gen := s.c.gen, win := s.c.lsWin, slot := (s.core s.myCore).tail, ready := false, par := par, dst := dst, rscale := 0,
    cscale := 0, bias := 0, stride := 0, fmt := 0, actKind := 0, actJ := 0, clo := 0, chi := 0, fctl := s.c.cr.fctl, done := 0, susp := false, flags := 0,
    pc := s.c.pc, asid := s.c.asid }

/-- Take an epilogue job from its engine, or put one in its place or behind the others. -/
def CoreSt.putEpi (k : CoreSt) (id : Nat) (j : Option EJob) : CoreSt :=
  match j with
  | none => { k with ejobs := k.ejobs.filter (·.id != id) }
  | some j => { k with ejobs := if k.ejobs.any (·.id == id) then k.ejobs.map (fun x => if x.id == id then j else x) else k.ejobs ++ [j] }

/-- The jobs that a frame's MEPIs have bound and that wait for their records leave the engine where no MEPI of the frame waits for them any more: its context has
ended, or a debug write has dropped the instruction. -/
def State.dropUnready (s : State) (f : Nat) : State :=
  let held := fun (id : Nat) => (s.ctx f).live && (s.ctx f).allWaits.any fun w => w.instr.bind ringUse == some .frees && w.arg == id
  s.mapCore (coreOf f) fun k => { k with ejobs := k.ejobs.filter fun j => j.ready || j.frame != f || held j.id }

/-- MEPI (R240): it binds itself to the tail and samples cr.fctl, then reads its record, and issues again where that read is held. -/
def execMepi (d : XReg) (a b : AReg) (s : State) : Out :=
  let par := s.c.getX d
  let dst := s.c.getA a
  let recA := s.c.getA b
  let k := s.core s.myCore
  if s.boundEpi.isNone ∧ (k.queueFull ∨ k.rc = 0 ∨ s.overtakes .frees) then .next s.stall
  else
    let (j, s) : EJob × State := match s.boundEpi with
      | some j => (j, s)
      | none => (s.newEpi par dst, s.newId)
    let drop := fun (s : State) => s.mapCore s.myCore fun k => k.putEpi j.id none
    if unaligned recA 64 then .next ((drop s).misaligned recA)
    else
      match s.readMem s.self s.c.asid .clu recA 64 with
      | .error e =>
        match e with
        | .page _ | .comp _ _ | .busy => .next (((s.memFail e recA false).mapCore s.myCore fun k => k.putEpi j.id (some j)).mapWait fun w => { w with arg := j.id, begun := true })
        | _ => .next ((drop s).memFail e recA false)
      | .ok (bs, s) =>
        let r := wordOfBytes bs
        if mepiParBad par || mepiRecBad r then .next (drop s).reservedField
        else
          match epiJob j r with
          | .error va => .next ((drop s).misaligned va)
          | .ok j => .next ((s.mapCore s.myCore fun k => k.putEpi j.id (some j)).accept j.id)

/-- Try a matrix instruction of frame f again that waits in its issue stall. -/
def State.retryIssue (s : State) (f : Nat) (run : State → Out) : Out :=
  match s.retry f run with
  | .next t => .next ((s.ctx f).wait.toList.foldl (fun t w => t.countLater f w) t)
  | r => r

/-- MATRIX_JOB_ACCEPT (R220): a matrix instruction that waits leaves its stall. -/
def execMatrixJobAccept (f : Nat) (s : State) : Out :=
  match s.waiting f with
  | some (.mmaNew la lb d a b) => s.retryIssue f (execMmaNew la lb d a b)
  | some (.mmaAcc la lb d a b) => s.retryIssue f (execMmaAcc la lb d a b)
  | some (.mgangNew la lb d a b) => s.retryIssue f (execMgangNew la lb d a b)
  | some (.mgangAcc la lb d a b) => s.retryIssue f (execMgangAcc la lb d a b)
  | some (.mzero d) => s.retryIssue f (execMzero d)
  | some (.mepi d a b) => s.retryIssue f (execMepi d a b)
  | _ => .next s

/-! Arbitration (R228). -/

/-- The huddle of a joint job. -/
def State.huddleOf (s : State) (core : Nat) (j : MJob) : Option Huddle :=
  match j.kind with
  | .joint h => (s.clu (cluOf core)).huddles.find? (·.id == h)
  | _ => none

/-- A job's place among acceptances; none when it may not run yet. -/
def State.jobOrder (s : State) (core : Nat) (j : MJob) : Option Nat :=
  match j.kind with
  | .joint _ => (s.huddleOf core j).bind (·.opened)
  | _ => some j.id

/-- Have the earlier jobs bound to the job's slot completed (R221)? -/
def CoreSt.slotReady (k : CoreSt) (id : Nat) (slot : Option Nat) : Bool :=
  match slot with
  | none => true
  | some n => !(k.mjobs.any fun j => j.slot == some n && decide (j.id < id)) && !(k.ejobs.any fun j => j.slot == n && decide (j.id < id))

/-- The cycles a job has spent accepted and not running; one that does not run has waited since its last boundary as well. -/
def CoreSt.age (k : CoreSt) (now : BitVec 64) (j : MJob) : Nat := if k.running = some j.id then j.waited else j.waited + (now - j.last).toNat

/-- The effective priority of a job that has waited w cycles. -/
def effPrio (prio w : Nat) : Nat := min 7 (prio + w / 4096)

/-- The participants' jobs of a huddle, lowest core first: core and job. -/
def State.jointJobs (s : State) (h : Huddle) : List (Nat × MJob) :=
  h.parts.filterMap fun core => ((s.core core).mjobs.find? fun j => j.kind == .joint h.id).map fun j => (core, j)

/-- The effective priority of a job. The parts of a joint job have one, so that no two slices wait on different joint jobs (R230): the wait of the
part accepted first counts for all: DESIGN CHOICE (log 77). -/
def State.effPrio (s : State) (core : Nat) (j : MJob) : Nat :=
  match s.huddleOf core j with
  | none => Machine.effPrio j.prio ((s.core core).age s.time j)
  | some h => Machine.effPrio j.prio ((s.jointJobs h).foldl (fun w x => max w ((s.core x.1).age s.time x.2)) 0)

/-- The job the slice runs next. -/
def State.chosen (s : State) (core : Nat) : Option MJob :=
  let k := s.core core
  let e := k.mjobs.filter fun j => !j.susp && k.slotReady j.id j.slot && (s.jobOrder core j).isSome
  let best := e.foldl (fun (b : Option MJob) j =>
    match b with
    | none => some j
    | some x =>
      let p := s.effPrio core j
      let q := s.effPrio core x
      if q < p ∨ (p = q ∧ (s.jobOrder core j).getD 0 < (s.jobOrder core x).getD 0) then some j else some x) none
  match best, e.find? fun j => k.running == some j.id with
  | some b, some r => if s.effPrio core r < s.effPrio core b then some b else some r
  | b, _ => b

/-- At a boundary a job is chosen to run, or none: the waiting times of those that did not run have grown. -/
def CoreSt.turn (k : CoreSt) (now : BitVec 64) (id : Option Nat) : CoreSt :=
  { k with running := id,
           mjobs := k.mjobs.map fun j => { j with waited := if k.running = some j.id then j.waited else min (j.waited + (now - j.last).toNat) (2 ^ 32 - 1),
                                                   last := now } }

/-- At a boundary a job runs. -/
def CoreSt.boundary (k : CoreSt) (now : BitVec 64) (id : Nat) : CoreSt := k.turn now (some id)

/-- The slice turns to a job, or to none, if it has not already. -/
def CoreSt.turnTo (k : CoreSt) (now : BitVec 64) (id : Option Nat) : CoreSt := if k.running = id then k else k.turn now id

/-- No job of the slice runs that a test names. -/
def CoreSt.stopRun (k : CoreSt) (p : Nat → Bool) : Option Nat := k.running.filter fun n => !p n

/-- A job leaves its slice: of the context that issued it, the flags are ORed, the predicate is written, and the slot falls. A slot it opened is
zeroed by then. -/
def State.endMatrix (s : State) (core : Nat) (j : MJob) (ok : Option Bool) : State :=
  let s := (s.unpin [j.id]).mapCore core fun k =>
    { k with mjobs := k.mjobs.filter (·.id != j.id), running := k.stopRun (· == j.id), ring := if j.zero && j.done == 0 then zeroSlot k.ring (j.slot.getD 0) else k.ring }
  s.mapOwner j.frame j.gen fun c =>
    let c := c.orFlags j.flags
    let c := match ok with
      | some v => c.setP (parPred j.par) v
      | none => c
    c.payOwed j.id

/-- A matrix job's own read freezes its core: the job stops, and a joint one aborts on every participant, its own core among them (R233). -/
def State.matrixFreeze (s : State) (core : Nat) (j : MJob) (e : MFault) (va : Word) : State :=
  let s := s.unitFreeze j.frame j.gen j.asid .die e va j.pc
  if (s.core core).mjobs.any (·.id == j.id) then s.endMatrix core j none else s

/-- A job is suspended or resumed. A suspended job does not run, and waits from then on (R228). -/
def CoreSt.suspend (k : CoreSt) (now : BitVec 64) (v : Bool) (p : MJob → Bool) : CoreSt :=
  let k := if v && k.mjobs.any (fun j => p j && k.running == some j.id) then k.turn now none else k
  { k with mjobs := k.mjobs.map fun j => if p j then { j with susp := v } else j }

/-- A matrix job of a core is suspended or resumed. -/
def State.suspMatrix (s : State) (core id : Nat) (v : Bool) : State := s.mapCore core fun k => k.suspend s.time v (·.id == id)

/-- A fault of a job's read (R227, R231): every job of `all` is suspended, and the upcall goes to the job's context. The misses of a fill that failed count
(R362). -/
def State.matrixFault (s : State) (core : Nat) (j : MJob) (all : List (Nat × Nat)) (e : MFault) (va : Word) : State :=
  let s := s.missedBy e j.frame j.asid 8 .die va
  let held (code kind : Nat) : State :=
    let r := s.holdUnit j.frame j.gen (2, core, j.id) j.asid code kind va false j.pc
    if r.2 then all.foldl (fun s x => s.suspMatrix x.1 x.2 true) r.1 else s
  match e with
  | .page k => held 1 k
  | .comp code k => held code k
  | .busy => s
  | e => s.matrixFreeze core j e va

/-- A completed k-step of a job: the slot, the flags and the count. -/
def State.stepDone (s : State) (core : Nat) (j : MJob) (ring : Tab (BitVec 32)) (fl : Fl) : State × MJob :=
  let j' := { j with done := j.done + 1, flags := j.flags ||| fl }
  (s.mapCore core fun k => { (k.boundary s.time j.id) with ring := ring, mjobs := ((k.boundary s.time j.id).mjobs.map fun x => if x.id == j.id then { x with done := j'.done, flags := j'.flags } else x),
                                                            pKsteps := sat48 k.pKsteps 1 }, j')

/-- The ring a job's k-step accumulates into: a slot whose zeroing was due is +0 (R221). -/
def State.ringFor (s : State) (core : Nat) (j : MJob) : Tab (BitVec 32) :=
  let ring := (s.core core).ring
  if j.zero ∧ j.done = 0 then zeroSlot ring (j.slot.getD 0) else ring

/-- A k-step reads an operand in the local store: the port has served it (R162). -/
def State.portServed (s : State) (core : Nat) (j : MJob) : State := if j.readsLs then s.lsGrant core 0 else s

/-- One k-step of an MMA. -/
def State.mmaStep (s : State) (core : Nat) (j : MJob) : State :=
  let fa := (fmtField j.fmta).getD .f32
  let fb := (fmtField j.fmtb).getD .f32
  let k := (classOf j.fmta j.fmtb).getD 8
  match s.panelA j.frame j fa k j.done with
  | .error (e, va) => s.matrixFault core j [(core, j.id)] e va
  | .ok (pa, s) =>
    match s.panelB j.frame j fb k j.done with
    | .error (e, va) => s.matrixFault core j [(core, j.id)] e va
    | .ok (pb, s) =>
      let r := tileStep (s.ringFor core j) (j.slot.getD 0) pa pb
      let (s, j) := (s.portServed core j).stepDone core j r.1 r.2
      if j.done = j.nk then s.endMatrix core j none else s

/-- A fetch for a joint k-step. With the pin capacity of a slice of the cache reached, the lines that the huddle's jobs have fetched before are consumed first
(R226). -/
def State.afterConsumed {α : Type} (s : State) (ids : List Nat) (read : State → Except (MFault × Word) (α × State)) : Except (MFault × Word) (α × State) :=
  match read s with
  | .error (.busy, _) => read (s.unpin ids)
  | r => r

/-- The B panels of a joint k-step. -/
def State.jointPanels (s : State) (ids : List Nat) (k t : Nat) : List (Nat × MJob) → Except (Nat × MJob × MFault × Word) (List Panel × State)
  | [] => .ok ([], s)
  | (core, j) :: rest =>
    match s.afterConsumed ids fun s => s.panelB j.frame j ((fmtField j.fmtb).getD .f32) k t with
    | .error (e, va) => .error (core, j, e, va)
    | .ok (p, s) =>
      match s.jointPanels ids k t rest with
      | .error e => .error e
      | .ok (ps, s) => .ok (p :: ps, s)

/-- Remove a huddle. -/
def State.dropHuddle (s : State) (clu id : Nat) : State := s.mapClu clu fun c => { c with huddles := c.huddles.filter (·.id != id) }

/-- One k-step of a joint job, on every participant slice (R230). -/
def State.jointStep (s : State) (h : Huddle) : State :=
  match s.jointJobs h with
  | [] => s
  | (c0, j0) :: rest =>
    let all := (c0, j0) :: rest
    let ids := all.map fun x => (x.1, x.2.id)
    let k := (classOf j0.fmta j0.fmtb).getD 8
    match s.panelA j0.frame j0 ((fmtField j0.fmta).getD .f32) k j0.done with
    | .error (e, va) => s.matrixFault c0 j0 ids e va
    | .ok (pa, s) =>
      match s.jointPanels (all.map (·.2.id)) k j0.done all with
      | .error (core, j, e, va) => s.matrixFault core j ids e va
      | .ok (pbs, s) =>
        let last := j0.done + 1 = j0.nk
        let s := (all.zip pbs).foldl (fun s x =>
          let core := x.1.1
          let r := tileStep (s.ringFor core x.1.2) (x.1.2.slot.getD 0) pa x.2
          let (s, j) := (s.portServed core x.1.2).stepDone core x.1.2 r.1 r.2
          if last then s.endMatrix core j (some true) else s) s
        if last then s.dropHuddle (cluOf c0) h.id else s

/-- Every participant slice of a huddle turns to its part of the joint job. -/
def State.turnJoint (s : State) (h : Huddle) : State :=
  (s.jointJobs h).foldl (fun s x => s.mapCore x.1 fun k => k.turnTo s.time (some x.2.id)) s

/-- KSTEP_BOUNDARY (R228): the slice has consumed what its jobs fetched, chooses, and performs a k-step of a matrix job, or a zeroing; a chain run's k-steps are the chain
engine's own. A joint k-step begins only where every participant slice chooses it; until then a slice that has chosen it runs nothing. -/
def execKstepBoundary (core : Nat) (s : State) : Out :=
  let s := s.unpin ((s.core core).mjobs.map (·.id))
  match s.chosen core with
  | none => .next s
  | some j =>
    match j.kind with
    | .chain _ => .next s
    | .mma => .next ((s.mapCore core fun k => k.turnTo s.time (some j.id)).mmaStep core j)
    | .mzero =>
      let s := s.mapCore core fun k => { k.boundary s.time j.id with ring := zeroSlot k.ring (j.slot.getD 0) }
      .next (s.endMatrix core j none)
    | .joint id =>
      match (s.clu (cluOf core)).huddles.find? (·.id == id) with
      | none => .next s
      | some h =>
        if h.parts.all fun k => (match s.chosen k with | some x => x.kind == .joint id | none => false) then .next ((s.turnJoint h).jointStep h)
        else .next (s.mapCore core fun k => k.turnTo s.time none)

/-- HUDDLE_OPEN (R229, R230): every participant of the oldest huddle of a tag has accepted; it opens, or aborts when a check fails. -/
def execHuddleOpen (clu tag : Nat) (s : State) : Out :=
  match (s.clu clu).huddles.find? fun h => h.tag == tag && h.opened.isNone && h.parts.all fun k => h.joined.any fun f => coreOf f == k with
  | none => .next s
  | some h =>
    let jobs := s.jointJobs h
    match jobs with
    | [] => .next (s.dropHuddle clu h.id)
    | (_, j0) :: _ =>
      let same := jobs.all fun x => x.2.nk == j0.nk && classOf x.2.fmta x.2.fmtb == classOf j0.fmta j0.fmtb
      if same = false ∨ jobs.any (fun x => (s.core x.1).frozen) then
        let s := jobs.foldl (fun s x => s.abortOn h.id x.1) s
        .next (s.dropHuddle clu h.id)
      else
        let prio := jobs.foldl (fun p x => max p x.2.prio) 0
        let s := jobs.foldl (fun s x => s.mapCore x.1 fun k => { k with mjobs := k.mjobs.map fun j => if j.id == x.2.id then { j with prio := prio } else j }) s
        let n := s.nextId
        .next (s.newId.mapClu clu fun c => { c with huddles := c.huddles.map fun x => if x.id == h.id then { x with opened := some n } else x })

/-! The epilogue engine (R240, R241). -/

/-- One FP32 step with its flags. -/
def fstep (r : FR) (fl : Fl) : Nat × Fl := (r.bits, fl ||| r.fl)

/-- The value an element of the tile leaves as: scales, bias, activation, conversion. The sampled sat acts in the conversion alone, and a scale, bias or leaky
step that overflows rounds as R40 says: DESIGN CHOICE, R52 and R240 do not say that it acts in them (log 90). -/
def epilogue (j : EJob) (rs cs bi : Option Nat) (v : Nat) : Nat × Fl :=
  let rm := rmOf j.fctl
  let op := fun (f : Fmt → Rm → Nat → Nat → FR) (x : Nat × Fl) (y : Option Nat) =>
    match y with
    | some y => fstep (f .f32 rm x.1 y) x.2
    | none => x
  let x := op fAdd (op fMul (op fMul (v, 0) rs) cs) bi
  let w := decodeRaw .f32 x.1
  let x : Nat × Fl :=
    if w.isNan then x
    else match j.actKind with
      | 1 => if w.neg then (0, x.2) else x
      | 2 => if w.neg && !w.isZero then fstep (fMul .f32 rm x.1 ((127 - j.actJ) * 2 ^ 23)) x.2 else x
      | 3 => fstep (fMinMax true .f32 j.clo.toNat (fMinMax false .f32 j.chi.toNat x.1).bits) x.2
      | _ => x
  let r := convert ((fmtNum j.fmt).getD .f32) .f32 j.fctl x.1
  (r.bits, x.2 ||| r.fl)

/-- An element of a vector of 64 FP32 values, if the vector is named. -/
def State.vecElem (s : State) (j : EJob) (base : Word) (n : Nat) : Except (MFault × Word × Bool) (Option Nat × State) :=
  if base = 0 then .ok (none, s)
  else
    let a := base + .ofNat 64 (4 * n)
    match s.readWinNum j.frame j.asid j.win .clu a 4 with
    | .error e => .error (e, a, false)
    | .ok (v, s) => .ok (some v, s)

/-- The value of element n of the job's region, in its order. -/
def State.epiElem (s : State) (core : Nat) (j : EJob) (n : Nat) : Except (MFault × Word × Bool) ((Nat × Fl) × State) :=
  let cols := bitsOf j.par 14 8
  let i := bitsOf j.par 22 16 + n / cols
  let c := bitsOf j.par 30 24 + n % cols
  match s.vecElem j j.rscale i with
  | .error e => .error e
  | .ok (rs, s) =>
    match s.vecElem j j.cscale c with
    | .error e => .error e
    | .ok (cs, s) =>
      match s.vecElem j j.bias c with
      | .error e => .error e
      | .ok (bi, s) => .ok (epilogue j rs cs bi (tget 0 (s.core core).ring (4096 * j.slot + 64 * i + c)).toNat, s)

/-- Values of consecutive elements with their flags. -/
def State.epiElems (s : State) (core : Nat) (j : EJob) : List Nat → Except (MFault × Word × Bool) ((List Nat × Fl) × State)
  | [] => .ok (([], 0), s)
  | n :: ns =>
    match s.epiElem core j n with
    | .error e => .error e
    | .ok (v, s) =>
      match s.epiElems core j ns with
      | .error e => .error e
      | .ok (vs, s) => .ok ((v.1 :: vs.1, v.2 ||| vs.2), s)

/-- Write the next element, or the next group of four T6 elements. -/
def State.epiStep (s : State) (core : Nat) (j : EJob) : Except (MFault × Word × Bool) (EJob × State) :=
  let fmt := (fmtNum j.fmt).getD .f32
  let cols := bitsOf j.par 14 8
  let g := if fmt = .t6 then 4 else 1
  match s.epiElems core j ((List.range g).map (j.done + ·)) with
  | .error e => .error e
  | .ok (vs, s) =>
    let a := j.dst + .ofNat 64 (j.done / cols * j.stride + elemOff fmt (j.done % cols))
    match s.writeWin j.frame j.asid j.win a (packElems fmt vs.1) with
    | .error e => .error (e, s.putStop j.frame j.asid a (packElems fmt vs.1), true)
    | .ok s => .ok ({ j with done := j.done + g, flags := j.flags ||| vs.2 }, s)

/-- Up to 64 elements: the job as it then stands, and a fault that stopped it. -/
def State.epiRun (s : State) (core : Nat) (j : EJob) : Nat → (EJob × State) × Option (MFault × Word × Bool)
  | 0 => ((j, s), none)
  | n + 1 =>
    if bitsOf j.par 6 0 * bitsOf j.par 14 8 ≤ j.done then ((j, s), none)
    else
      match s.epiStep core j with
      | .error e => ((j, s), some e)
      | .ok (j, s) => s.epiRun core j n

/-- Change an epilogue job. -/
def State.mapE (s : State) (core id : Nat) (g : EJob → EJob) : State :=
  s.mapCore core fun k => { k with ejobs := k.ejobs.map fun j => if j.id == id then g j else j }

/-- An epilogue job leaves its engine. A count that is already 0, where two MEPIs without keep were bound to the one slot there was, stays 0: DESIGN
CHOICE, the spec gives none (log 69). -/
def State.endEpi (s : State) (core : Nat) (j : EJob) (free : Bool) : State :=
  let s := s.mapCore core fun k => { k with ejobs := k.ejobs.filter (·.id != j.id), rc := if free then k.rc - 1 else k.rc }
  s.mapOwner j.frame j.gen fun c => (c.orFlags j.flags).payOwed j.id

/-- EPILOGUE_DRAIN (R240, R241): the engine writes up to 64 elements of the first job whose slot is ready. -/
def execEpilogueDrain (core : Nat) (s : State) : Out :=
  let k := s.core core
  match k.ejobs.find? fun j => j.ready && !j.susp && k.slotReady j.id (some j.slot) with
  | none => .next s
  | some j =>
    let ((j, s), fault) := s.epiRun core j 64
    let s := s.mapE core j.id fun _ => j
    match fault with
    | none => if bitsOf j.par 6 0 * bitsOf j.par 14 8 ≤ j.done then .next (s.endEpi core j (!j.par.getLsbD 32)) else .next s
    | some (e, va, wr) =>
      let s := s.missedBy e j.frame j.asid (if wr then 12 else 8) .clu va
      let held (code kind : Nat) : State :=
        let r := s.holdUnit j.frame j.gen (4, core, j.id) j.asid code kind va wr j.pc
        if r.2 then r.1.mapE core j.id fun j => { j with susp := true } else s
      match e with
      | .page kd => .next (held 1 kd)
      | .comp code kd => .next (held code kd)
      | .busy => .next s
      | e => .next ((s.endEpi core j false).unitFreeze j.frame j.gen j.asid .clu e va j.pc)

end Sys2Proof.Machine
end

