-- ==== Sys2Proof/Machine/Chain.lean ====
section
/-! DEFINITION. The chain engine: descriptors, the contraction-order program, and chain runs (R242 to R250). -/

namespace Sys2Proof.Machine

open Sys2Proof

/-! Descriptors and acceptance (R242, R248, R249). -/

/-- CHBOND (R248). -/
def execChbond (d : BdReg) (a : XReg) (s : State) : Out :=
  let v := (s.c.getX a).toNat
  .next (if v = 0 ∨ 256 < v then s.reservedField else (s.mapClu s.myClu fun k => { k with bd := tset k.bd d.val v }).retire)

/-- bd_b of a list, 1 at reset. -/
def bondOf (bds : List Nat) (b : Nat) : Nat := bds.getD b 1

/-- A field of a little-endian record. -/
def fld (r o n : Nat) : Nat := r / 2 ^ (8 * o) % 2 ^ (8 * n)

/-- Parse a chain descriptor; none when it breaks R242. -/
def parseChain (bs : List Byte) : Option ChDesc :=
  let h := wordOfBytes (bs.take 64)
  let n := fld h 0 1
  let fmt := fld h 1 1
  if n = 0 ∨ 16 < n ∨ fld h 2 62 ≠ 0 ∨ [2, 3, 4, 5, 8, 9].contains fmt = false then none
  else
    let es := (List.range n).map fun k => wordOfBytes ((bs.drop (64 + 32 * k)).take 32)
    let bad := es.any fun e => decide (fld e 0 8 % 16 ≠ 0 ∨ fld e 8 8 % 2 ≠ 0 ∨ fld e 16 2 = 0 ∨ 256 < fld e 16 2 ∨ fld e 18 2 = 0 ∨ 256 < fld e 18 2
      ∨ fld e 20 12 ≠ 0)
    if bad then none
    else some { fmt := fmt, cores := es.map fun e => { base := .ofNat 64 (fld e 0 8), scales := .ofNat 64 (fld e 8 8), nin := fld e 16 2, nout := fld e 18 2 } }

/-- CHLOAD (R242, R248): the header is read first, then its entries. -/
def execChload (a : AReg) (s : State) : Out :=
  let p := s.c.getA a
  if unaligned p 64 then .next (s.misaligned p)
  else
    match s.readBytesAt (s.req 8) .clu 2 p.toNat 64 with
    | .error e => .next (s.memFail e p false)
    | .ok (h, s) =>
      let n := 32 * min 16 (wordOfBytes (h.take 1))
      match s.readBytesAt (s.req 8) .clu 10 (p.toNat + 64) n with
      | .error e => .next (s.memFail e (.ofNat 64 (s.readStop (s.req 8) .clu 10 (p.toNat + 64) n)) false)
      | .ok (es, s) =>
        match parseChain (h ++ es) with
        | none => .next s.reservedField
        | some d => .next (s.mapClu s.myClu fun k => { k with desc := some d }).retire

/-- Does an instruction ask for a place in the cluster's run queue? -/
def asksRun : Instr → Bool
  | .chrun _ _ _ | .chstep _ _ _ => true
  | _ => false

/-- The cluster's run queue takes no run of the selected context now: it is full, or one that came before, on a core that is not frozen, still waits for a place
(R249). -/
def State.runsFull (s : State) : Bool :=
  decide (8 ≤ (s.clu s.myClu).runs.length) || !(s.stalledBefore ((coresOf s.myClu).filter fun k => !(s.core k).frozen) asksRun).isEmpty

/-- CHRUN and CHSTEP: accepted into the cluster's queue of 8, in the order of their arrival (R249). -/
def State.chainRun (s : State) (single : Bool) (d : XReg) (a b : AReg) : State :=
  let v := (s.c.getX d).toNat
  let k := s.clu s.myClu
  if 1024 ≤ v then s.reservedField
  else if s.runsFull then s.stall
  else
    let r : ChRun := { id := s.nextId, frame := s.self, gen := s.c.gen, win := s.c.lsWin, team := s.c.team, kept := false, pc := s.c.pc, asid := s.c.asid, step := v, single := single, inA := s.c.getA a, outA := s.c.getA b,
                       started := false, sampled := false, prog := 0, bbase := 0, bsize := 0, fctl := 0, prio := 0, desc := none, bds := [], axes := [], done := 0, acc := 0,
                       flags := 0, susp := false }
    (s.newId.setClu s.myClu { k with runs := k.runs ++ [r] }).done fun c => { c with chRun := some r.id }

/-- CHRUN. -/
def execChrun (d : XReg) (a b : AReg) (s : State) : Out := .next (s.chainRun false d a b)
/-- CHSTEP. -/
def execChstep (d : XReg) (a b : AReg) (s : State) : Out := .next (s.chainRun true d a b)

/-- CHWAIT (R250): it is abandoned to a boundary-overflow upcall that is about to be delivered; with every park slot in use the context runs on
(R367). -/
def execChwait (d : XReg) (s : State) : Out :=
  let running := match s.c.chRun with
    | some id => (s.clu s.myClu).runs.any (·.id == id)
    | none => false
  let upcall := s.c.deliverable && s.c.pending.any (·.code == 0x10)
  .next (if running || upcall then s.stall else s.done fun c => c.setX d (.ofNat 64 (c.chEnd * 65536 + c.chStep)))

/-! The contraction-order program (R244 to R246). -/

/-- A step word's meaning. -/
inductive CStep where
  | fin
  | load (f : Nat)
  | absorb (k b j : Nat)
  | emit (f : Nat)
  | perm (src dst : Nat)
deriving DecidableEq, Repr

/-- Parse a step word; none for the chain-shape fault. -/
def parseStep (w : Nat) : Option CStep :=
  let op := w / 2 ^ 28
  let f := w / 2 ^ 24 % 16
  if op = 0 then (if w = 0 then some .fin else none)
  else if op = 1 then (if f ≤ 2 ∧ w % 2 ^ 24 = 0 then some (.load f) else none)
  else if op = 2 then (if w % 2 ^ 15 = 0 ∧ w / 2 ^ 19 % 32 ≤ 16 then some (.absorb (f + 1) (w / 2 ^ 19 % 32) (w / 2 ^ 15 % 16 + 1)) else none)
  else if op = 3 then (if f ≤ 2 ∧ w % 2 ^ 24 = 0 then some (.emit f) else none)
  else if op = 4 then (if w % 2 ^ 16 = 0 then some (.perm (w / 2 ^ 22 % 64) (w / 2 ^ 16 % 64)) else none)
  else none

/-- Elements of a boundary. -/
def axesSize (ax : List Axis) : Nat := ax.foldl (fun n a => n * a.size) 1

/-- Is there an axis of a kind and index? -/
def hasAxis (ax : List Axis) (kind idx : Nat) : Bool := ax.any fun a => a.kind == kind && a.idx == idx

/-- The axes after a step; none when a precondition fails or the output passes 128 KiB. -/
def axesAfter (d : ChDesc) (bds : List Nat) (ax : List Axis) (st : CStep) : Option (List Axis) :=
  let out := match st with
    | .fin => some ax
    | .emit _ => some ax
    | .load _ => some ((d.cores.zipIdx.map fun (c, k) => ({ kind := 0, idx := k + 1, size := c.nin } : Axis)).reverse)
    | .absorb k b j =>
      let c := if b + 1 = k then k else k - 1
      match d.cores[k - 1]? with
      | none => none
      | some g =>
        let bondOk := if 1 < bondOf bds b then ax.any fun a => a == { kind := 2, idx := b, size := bondOf bds b } else !hasAxis ax 2 b
        if k ≤ d.cores.length ∧ (b + 1 = k ∨ b = k) ∧ j ≤ d.cores.length ∧ ax.any (fun a => a == { kind := 0, idx := j, size := g.nin }) ∧ bondOk
            ∧ hasAxis ax 1 k = false ∧ hasAxis ax 2 c = false then
          some (ax.filter (fun a => !(a.kind == 0 && a.idx == j) && !(a.kind == 2 && a.idx == b)) ++ [{ kind := 1, idx := k, size := g.nout }]
            ++ (if 1 < bondOf bds c then [{ kind := 2, idx := c, size := bondOf bds c }] else []))
        else none
    | .perm src dst =>
      match ax[src]? with
      | none => none
      | some a => if dst < ax.length then some (let rest := ax.eraseIdx src; rest.take dst ++ [a] ++ rest.drop dst) else none
  match out with
  | none => none
  | some o => if axesSize o * 4 ≤ 131072 then some o else none

/-- The multi-index of a row-major element. -/
def unflatten : List Axis → Nat → List Nat
  | [], _ => []
  | _ :: t, n => n / axesSize t :: unflatten t (n % axesSize t)

/-- The row-major index. -/
def flatten : List Axis → List Nat → Nat
  | _ :: t, i :: is => i * axesSize t + flatten t is
  | _, _ => 0

/-- The index an axis has in a multi-index. -/
def axisIndex (ax : List Axis) (ix : List Nat) (kind idx : Nat) : Nat :=
  match (ax.zip ix).find? fun p => p.1.kind == kind && p.1.idx == idx with
  | some p => p.2
  | none => 0

/-! Runs. -/

/-- The run the engine has begun. -/
def CluSt.run (k : CluSt) : Option ChRun := k.runs.find? (·.started)

/-- Change a run. -/
def State.mapRun (s : State) (clu id : Nat) (g : ChRun → ChRun) : State :=
  s.mapClu clu fun k => { k with runs := k.runs.map fun r => if r.id == id then g r else r }

/-- A run or step ends with a status (R250): its flags are ORed and the slice is free. The field for the step has 10 bits: of step 1,024, which a
CHSTEP of step 1,023 names as next and a run may need, it holds 0: DESIGN CHOICE, the spec gives no value there (log 78). -/
def State.endRun (s : State) (clu : Nat) (r : ChRun) (fin step : Nat) : State :=
  let s := (s.unpin [r.id]).mapClu clu fun k => { k with runs := k.runs.filter (·.id != r.id) }
  let s := s.mapCore (coreOf r.frame) fun k => { k with mjobs := k.mjobs.filter fun j => j.kind != .chain r.id, running := k.stopRun (· == r.id) }
  s.mapOwner r.frame r.gen fun c =>
    let c := c.orFlags r.flags
    if c.chRun = some r.id then { c with chEnd := fin, chStep := step % 1024 } else c

/-- A fault of the run that freezes its core: the run ends in that step. -/
def State.runFreeze (s : State) (clu : Nat) (r : ChRun) (code info : Nat) (va : Word) : State :=
  let s := s.endRun clu r 4 r.step
  if (s.ctx r.frame).owns r.gen then s.freezeRec r.frame code info va 0 r.pc false
  else s.freezeFrame r.frame code [fault0 code 0 info false, va, 0, r.pc]

/-- The chain-shape fault (R245). -/
def State.chainShape (s : State) (clu : Nat) (r : ChRun) : State := s.runFreeze clu r 0x2B r.step 0

/-- An upcall for a run's held access has escalated and frozen the issuing core: the run ends there (R250). -/
def State.endHeldRun (s : State) (f : Nat) (token : Word) : State :=
  let die := dieOf (cluOf (coreOf f))
  match (s.die die).replay.find? fun e => e.token die == token && e.frame == f with
  | some e =>
    match e.unit_ with
    | some (3, clu, id) =>
      match (s.clu clu).runs.find? (·.id == id) with
      | some r => s.endRun clu r 4 r.step
      | none => s
    | _ => s
  | none => s

/-- A run is suspended or resumed, and its job of the slice with it. -/
def State.suspRun (s : State) (clu : Nat) (r : ChRun) (v : Bool) : State :=
  (s.mapRun clu r.id fun r => { r with susp := v }).mapCore (coreOf r.frame) fun k => k.suspend s.time v (·.kind == .chain r.id)

/-- Has a held access of a run escalated: past the repeat limit, or because no context is left to take its upcall? -/
def State.runEscalated (s : State) (clu : Nat) (r : ChRun) : Bool :=
  !(s.ctx r.frame).owns r.gen || (s.die (dieOf clu)).replay.any fun e => e.unit_ == some (3, clu, r.id) && e.escalated

/-- A fault of the run's own access (R247). A fault that escalates at once ends the run. What the fill of a poisoned line has done stays done, and the misses of a
fill that failed count (R362). -/
def State.runFault (s : State) (clu : Nat) (r : ChRun) (e : MFault) (va : Word) (wr : Bool) : State :=
  let s := s.missedBy e r.frame r.asid (if wr then 12 else 8) (if wr then .clu else .die) va
  let held (code kind : Nat) : State :=
    let h := s.holdUnit r.frame r.gen (3, clu, r.id) r.asid code kind va wr r.pc
    if h.2 ∧ h.1.runEscalated clu r then h.1.endRun clu r 4 r.step
    else if h.2 then h.1.suspRun clu r true
    else s
  match e with
  | .page k => held 1 k
  | .comp code k => held code k
  | .busy => s
  | .poison => (s.keepFill (s.workReq r.frame r.asid 8) (if wr then .clu else .die) va.toNat r.frame r.pc).runFreeze clu r 0x28 0 va
  | e => s.runFreeze clu r e.freeze 0 va

/-- Read n bytes for a run: in the local store, or at the L2 slice, where the lines are then pinned (R226, R247). A fault gives its address. -/
def State.chainBytes (s : State) (r : ChRun) (a : Word) (n : Nat) : Except (MFault × Word) (List Byte × State) :=
  let die := dieOf (cluOf (coreOf r.frame))
  if !isLs a && s.pinsFull die r.asid (linesOf a.toNat n) then .error (.busy, a)
  else
    match s.readWin r.frame r.asid r.win .die a n with
    | .error x => .error (x, s.memStop r.frame r.asid .die a n)
    | .ok (bs, s) => .ok (bs, if isLs a then s else s.pinLines die r.asid r.id (linesOf a.toNat n))

/-- Read a number for a run: see chainBytes. -/
def State.chainRead (s : State) (r : ChRun) (a : Word) (n : Nat) : Except (MFault × Word) (Nat × State) :=
  (s.chainBytes r a n).map fun x => (wordOfBytes x.1, x.2)

/-- The step word of a step. -/
def State.stepWord (s : State) (r : ChRun) (step : Nat) : Except (MFault × Word) (Nat × State) := s.chainRead r (r.prog + .ofNat 64 (4 * step)) 4

/-- The axes before a step, from the program (R244). -/
def State.deriveAxes (s : State) (r : ChRun) (d : ChDesc) : Nat → Nat → List Axis → Except (MFault × Word ⊕ Nat) (List Axis × State)
  | 0, _, ax => .ok (ax, s)
  | n + 1, step, ax =>
    match s.stepWord r step with
    | .error e => .error (.inl e)
    | .ok (w, s) =>
      match (parseStep w).bind (axesAfter d r.bds ax) with
      | none => .error (.inr step)
      | some ax => s.deriveAxes r d n (step + 1) ax

/-- What a run samples of its context: as it stands when the run begins, or when the context ends before that (R249, R342). -/
def ChRun.keep (r : ChRun) (c : Ctx) : ChRun :=
  if r.kept then r
  else { r with kept := true, prog := c.cr.chprog, bbase := c.cr.bbase.toNat, bsize := c.cr.bsize.toNat, fctl := c.cr.fctl, prio := c.mprio.toNat }

/-- What a run samples when it begins, once (R249). -/
def ChRun.sample (r : ChRun) (c : Ctx) (k : CluSt) : ChRun :=
  if r.sampled then r else { r.keep c with sampled := true, desc := k.desc, bds := (List.range 17).map fun b => tget 1 k.bd b }

/-- The runs that wait for the engine keep what they will sample of a context that ends. -/
def State.keepRuns (s : State) (f : Nat) : State :=
  let c := s.ctx f
  s.mapClu (cluOf (coreOf f)) fun k => { k with runs := k.runs.map fun r => if r.frame == f && r.gen == c.gen then r.keep c else r }

/-- CHAIN_RUN_START (R249): the engine begins the oldest run and samples its state. Its priority is what the issuing context's is at that moment, by
R249, and not at acceptance, of which R238 speaks, and the w of R228 of its job of the slice counts from that moment: DESIGN CHOICE (log 71). -/
def execChainRunStart (clu : Nat) (s : State) : Out :=
  let k := s.clu clu
  match k.run, k.runs.head? with
  | none, some r =>
    if r.susp then .next s
    else
      let c := s.ctx r.frame
      let r := r.sample c k
      let s := s.mapRun clu r.id fun _ => r
      match r.desc with
      | none => .next (s.chainShape clu r)
      | some d =>
        if r.win.2 < r.bbase + r.bsize then .next (s.chainShape clu r)
        else
          match s.deriveAxes r d r.step 0 [] with
          | .error (.inl e) => .next (s.runFault clu r e.1 e.2 false)
          | .error (.inr n) => .next (s.chainShape clu { r with step := n })
          | .ok (ax, s) =>
            let s := s.unpin [r.id]
            let j : MJob := { id := r.id, frame := r.frame, gen := r.gen, win := r.win, kind := .chain r.id, slot := none, par := 0, aBase := 0, bBase := 0, la := false, lb := false, fmta := 0,
                              fmtb := 0, prio := r.prio, nk := 1, done := 0, waited := 0, last := s.time, susp := false, flags := 0, pc := r.pc, asid := r.asid, zero := false }
            let s := s.mapRun clu r.id fun _ => { r with started := true, axes := ax }
            .next (s.mapCore (coreOf r.frame) fun k => { k with mjobs := k.mjobs ++ [j] })
  | _, _ => .next s

/-- The element of a run's boundary. -/
def State.boundaryElem (s : State) (r : ChRun) (n : Nat) : Nat :=
  (s.core (coreOf r.frame)).ls.read (r.win.1 + r.bbase + 4 * n) 4

/-- A step is over: the next one follows, or a CHSTEP ends. -/
def State.nextStep (s : State) (clu : Nat) (r : ChRun) (ax : List Axis) : State :=
  if r.single then s.endRun clu r 1 (r.step + 1)
  else s.mapRun clu r.id fun _ => { r with step := r.step + 1, axes := ax, done := 0, acc := 0 }

/-- Put an element of Y in the cluster's step store (R243, R246). -/
def State.putY (s : State) (clu n : Nat) (v : BitVec 32) : State := s.mapClu clu fun k => { k with step := tset k.step n v }

/-- Put all of Y, in order. -/
def State.putYs (s : State) (clu : Nat) (vs : List (BitVec 32)) : State :=
  s.mapClu clu fun k => { k with step := vs.zipIdx.map (fun v => (v.2, v.1)) ++ k.step.filter fun e => decide (vs.length ≤ e.1) }

/-- Y stands in the step store: it replaces the boundary, a write of the chain engine's, unless it overflows the buffer (R162, R246, R250). -/
def State.formed (s : State) (clu : Nat) (r : ChRun) (ax : List Axis) : State :=
  let n := axesSize ax
  if r.bsize < 4 * n then
    let c := s.ctx r.frame
    let whence := match if c.owns r.gen then c.wait else none with
      | some w => (match w.instr with | some (.chwait _) => w.pc | _ => r.pc)
      | none => r.pc
    (s.endRun clu r 2 r.step).unitUpcall r.frame r.gen { code := 0x10, info := r.step, addr := .ofNat 64 r.bbase, token := 0, whence := whence, soft := false, park := none }
  else
    let bytes := (List.range n).flatMap fun k => bytesOf 4 (tget 0 (s.clu clu).step k).toNat
    ((s.lsGrant (coreOf r.frame) 1).mapCore (coreOf r.frame) fun k => { k with ls := k.ls.writeBytes (r.win.1 + r.bbase) bytes }).nextStep clu r ax

/-- The sources of the local-store port that a step's accesses are of (R162), but for the write of a new boundary: reads of the boundary are of source 0. -/
def CStep.sources (r : ChRun) (d : ChDesc) : CStep → List Nat
  | .load _ => if isLs r.inA then [1] else []
  | .absorb k _ _ => 0 :: (if (d.cores[k - 1]?).any fun g => isLs g.base || isLs g.scales then [1] else [])
  | .emit _ => 0 :: (if isLs r.outA then [1] else [])
  | .perm _ _ => [0]
  | .fin => []

/-- Run a step of the begun run when the slice chooses it and its word is of the kind asked for. -/
def State.chainTurn (s : State) (clu : Nat) (p : CStep → Bool) (act : State → ChRun → ChDesc → CStep → List Axis → State) : Out :=
  match (s.clu clu).run with
  | none => .next s
  | some r =>
    let core := coreOf r.frame
    let mine := match s.chosen core with
      | some j => j.kind == .chain r.id
      | none => false
    match mine && !r.susp, r.desc with
    | true, some d =>
      if 1024 ≤ r.step then .next (if p .fin then s.chainShape clu r else s)
      else
        match s.stepWord r r.step with
        | .error e => .next (if p .fin then (s.mapCore core fun k => k.turnTo s.time (some r.id)).runFault clu r e.1 e.2 false else s)
        | .ok (w, s') =>
          match parseStep w with
          | none => .next (if p .fin then s.chainShape clu r else s)
          | some st =>
            if p st = false then .next s
            else
              match axesAfter d r.bds r.axes st with
              | none => .next (s.chainShape clu r)
              | some ax => .next (act (((st.sources r d).foldl (fun s n => s.lsGrant core n) (s'.unpin [r.id])).mapCore core fun k => k.turnTo s'.time (some r.id)) r d st ax)
    | _, _ => .next s

/-- The formats of LOAD and EMIT. -/
def loadFmt (f : Nat) : Fmt := if f = 0 then .f32 else if f = 1 then .f16 else .bf16

/-- LOAD (R246): the input vector, converted exactly, becomes the boundary. -/
def execChainLoad (clu : Nat) (s : State) : Out :=
  s.chainTurn clu (fun st => match st with | .load _ => true | _ => false) fun s r _ st ax =>
    match st with
    | .load f =>
      let fmt := loadFmt f
      let n := axesSize ax
      if unaligned r.inA (fmtBytes fmt) then s.runFreeze clu r 0x22 0 r.inA
      else
        match s.chainBytes r r.inA (n * fmtBytes fmt) with
        | .error e => s.runFault clu r e.1 e.2 false
        | .ok (bs, s) =>
          let vs := (List.range n).map fun k => convert .f32 fmt 0 (elemAt fmt bs k)
          let fl := vs.foldl (fun f v => f ||| v.fl) 0
          ((s.unpin [r.id]).putYs clu (vs.map fun v => .ofNat 32 v.bits)).formed clu { r with flags := r.flags ||| fl } ax
    | _ => s

/-- A core's element with its scale pair, decoded (R242). -/
def State.chainElem (s : State) (r : ChRun) (d : ChDesc) (g : ChCore) (e : Nat) : Except (MFault × Word) ((Val × Fl) × State) :=
  let fmt := (fmtNum d.fmt).getD .bf16
  let a := g.base + .ofNat 64 (e * fmtBytes fmt)
  match s.chainRead r a (fmtBytes fmt) with
  | .error x => .error x
  | .ok (v, s) =>
    if g.scales = 0 then .ok (decodeScaled fmt 127 v, s)
    else
      let b := g.scales + .ofNat 64 (2 * (e / 32))
      match s.chainRead r b 2 with
      | .error x => .error x
      | .ok (p, s) => .ok (decodeScaled fmt p v, s)

/-- The products of a list of terms. -/
def State.chainTerms (s : State) (r : ChRun) (d : ChDesc) (g : ChCore) : List (Nat × Nat) → Except (MFault × Word) (List (Val × Fl) × State)
  | [] => .ok ([], s)
  | (x, e) :: ts =>
    match s.chainElem r d g e with
    | .error x => .error x
    | .ok (v, s) =>
      match s.chainTerms r d g ts with
      | .error x => .error x
      | .ok (ps, s) => .ok (product (decodeFl .f32 (s.boundaryElem r x)) v :: ps, s)

/-- ABSORB (R246): one k-step of 8 terms of one element of Y. -/
def execChainAbsorb (clu : Nat) (s : State) : Out :=
  s.chainTurn clu (fun st => match st with | .absorb _ _ _ => true | _ => false) fun s r d st ax =>
    match st with
    | .absorb k b j =>
      match d.cores[k - 1]? with
      | none => s
      | some g =>
        let terms := bondOf r.bds b * g.nin
        let steps := (terms + 7) / 8
        let e := r.done / steps
        let t := r.done % steps
        let ix := unflatten ax e
        let o := axisIndex ax ix 1 k
        let c := if b + 1 = k then k else k - 1
        let beta := axisIndex ax ix 2 c
        let pairs := ((List.range 8).map (8 * t + ·)).filterMap fun kap =>
          if kap < terms then
            let a' := kap / g.nin
            let i := kap % g.nin
            let xi := r.axes.map fun a => if a.kind == 0 && a.idx == j then i else if a.kind == 2 && a.idx == b then a' else axisIndex ax ix a.kind a.idx
            let (ga, gb) := if b + 1 = k then (a', beta) else (beta, a')
            some (flatten r.axes xi, ((ga * g.nin + i) * g.nout + o) * bondOf r.bds k + gb)
          else none
        match s.chainTerms r d g pairs with
        | .error (x, a) => s.runFault clu r x a false
        | .ok (ps, s) =>
          let v := kStep (if t = 0 then 0 else r.acc.toNat) ps
          let s := s.mapCore (coreOf r.frame) fun k => { k with pKsteps := sat48 k.pKsteps 1 }
          let last := t + 1 = steps
          let r := { r with done := r.done + 1, acc := .ofNat 32 v.bits, flags := r.flags ||| v.fl }
          let s := if last then s.putY clu e (.ofNat 32 v.bits) else s
          if r.done = steps * axesSize ax then s.formed clu r ax else s.mapRun clu r.id fun _ => r
    | _ => s

/-- EMIT's writes from the element it stands at. -/
def State.emitFrom (s : State) (r : ChRun) (fmt : Fmt) : Nat → Nat → (ChRun × State) × Option (MFault × Word)
  | 0, _ => ((r, s), none)
  | n + 1, k =>
    let v := convert fmt .f32 r.fctl (s.boundaryElem r k)
    let a := r.outA + .ofNat 64 (k * fmtBytes fmt)
    match s.writeWin r.frame r.asid r.win a (bytesOf (fmtBytes fmt) v.bits) with
    | .error e => (({ r with done := k }, s), some (e, s.putStop r.frame r.asid a (bytesOf (fmtBytes fmt) v.bits)))
    | .ok s => s.emitFrom { r with flags := r.flags ||| v.fl } fmt n (k + 1)

/-- EMIT (R246): the boundary is written to the output address. Of a boundary without axes, before any LOAD, that is one element, the empty
product's: DESIGN CHOICE, the spec names no count there (log 70). -/
def execChainEmit (clu : Nat) (s : State) : Out :=
  s.chainTurn clu (fun st => match st with | .emit _ => true | _ => false) fun s r _ st ax =>
    match st with
    | .emit f =>
      if unaligned r.outA (fmtBytes (loadFmt f)) then s.runFreeze clu r 0x22 0 r.outA
      else
        let ((r, s), fault) := s.emitFrom r (loadFmt f) (axesSize ax - r.done) r.done
        match fault with
        | none => s.nextStep clu r ax
        | some (e, a) => (s.mapRun clu r.id fun _ => r).runFault clu r e a true
    | _ => s

/-- PERM (R246): an axis moves. -/
def execChainPerm (clu : Nat) (s : State) : Out :=
  s.chainTurn clu (fun st => match st with | .perm _ _ => true | _ => false) fun s r _ st ax =>
    match st with
    | .perm _ _ =>
      let y := (List.range (axesSize ax)).map fun n =>
        let ix := unflatten ax n
        BitVec.ofNat 32 (s.boundaryElem r (flatten r.axes (r.axes.map fun a => axisIndex ax ix a.kind a.idx)))
      (s.putYs clu y).formed clu r ax
    | _ => s

/-- END (R246, R249): the run ends; a word that is no step, or a step past 1,023, raises the chain-shape fault. -/
def execChainEnd (clu : Nat) (s : State) : Out :=
  s.chainTurn clu (fun st => st == .fin) fun s r _ _ _ => s.endRun clu r 0 r.step

end Sys2Proof.Machine
end

