-- ==== Sys2Proof/Machine/Rings.lean ====
section
/-! DEFINITION. Releases and acquires by instructions that act at issue, and rings (R182, R183, R271 to R273). -/

namespace Sys2Proof.Machine

open Sys2Proof

/-! Releases (R182). -/

/-- Frame f releases at a scope: its released lines are published; until a release at .sys they stay released, for what their home slices hold
of pool and host lines is still to be written through (R170). A line that cannot be written back holds the
instruction, which will do again what it has done (R367). -/
def State.tryRelease (s : State) (f : Nat) (sc : Scope) : PR :=
  match s.publishAll (cluOf (coreOf f)) sc (s.ctx f).released with
  | (s, some e) => .error (e.1, e.2, s)
  | (s, none) =>
    match sc with
    | .sys => .ok (s.mapCtx f fun c => { c with released := [] })
    | _ => .ok s

/-- The state after a release that is not held. -/
def State.releaseOf (s : State) (f : Nat) (sc : Scope) : Except MFault State := (s.tryRelease f sc).mapError (·.1)

/-- The line of a performed write is among the released writes. -/
def Ctx.noteWrite (c : Ctx) (asid va : Nat) : Ctx := { c with released := if c.released.contains (asid, va / 64) then c.released else c.released ++ [(asid, va / 64)] }

/-- The selected context's release, for an instruction that acts at issue: none while it must wait. -/
def State.releaseNow (s : State) (sc : Scope) : Option PR :=
  if s.c.unreleased s.nextId then none else some (s.tryRelease s.self sc)

/-- The selected context's instruction is held at a line that its release or acquire cannot write back. -/
def State.heldBack (x : MFault × Nat × State) : State := x.2.2.memFail x.1 (.ofNat 64 x.2.1) true

/-- An acquire by frame f, or where it is held. -/
def State.tryAcquire (s : State) (f : Nat) (sc : Scope) : PR :=
  match s.acquire (cluOf (coreOf f)) sc with
  | .ok s => .ok s
  | .error e => .error (e, s.stuckAt (dieOf (cluOf (coreOf f))), s)

/-- The scope with a code. -/
def scopeNum (n : Nat) : Option Scope := [Scope.core, .clu, .die, .dev, .pod, .sys][n]?

/-! Ring descriptors (R271). -/

/-- Write n bytes at offset o of a little-endian record. -/
def setFld (r o n v : Nat) : Nat := r - fld r o n * 2 ^ (8 * o) + v % 2 ^ (8 * n) * 2 ^ (8 * o)

/-- A ring descriptor breaks its limits. -/
def ringBad (r : Nat) : Bool :=
  let esize := fld r 8 4
  decide (fld r 0 8 % 64 ≠ 0 ∨ esize % 8 ≠ 0 ∨ esize < 8 ∨ 4096 < esize ∨ fld r 12 1 < 1 ∨ 6 < fld r 12 1 ∨ fld r 13 1 < 1 ∨ 5 < fld r 13 1 ∨ fld r 14 2 ≠ 0
    ∨ fld r 48 4 / 2 ^ 26 ≠ 0 ∨ fld r 48 4 / 2 % 4096 ≠ 0 ∨ fld r 52 4 ≠ 0)

/-- The difference of sequence numbers. -/
def seqSub (a b : Nat) : Nat := (a + 2 ^ 32 - b % 2 ^ 32) % 2 ^ 32

/-- The scope of a ring, and its slot count. -/
def ringScope (r : Nat) : Scope := (scopeNum (fld r 13 1)).getD .clu
/-- Slots of a ring. -/
def ringCap (r : Nat) : Nat := 2 ^ fld r 12 1

/-- RQRES on the descriptor: the sequence, and the new descriptor. -/
def ringRes (r : Nat) : Option (Nat × Nat) :=
  if ringCap r ≤ seqSub (fld r 16 4) (fld r 28 4) then none else some (fld r 16 4, setFld r 16 4 (fld r 16 4 + 1))

/-- RQTAKE on the descriptor. -/
def ringTake (r : Nat) : Option (Nat × Nat) :=
  if fld r 24 4 = fld r 20 4 then none else some (fld r 24 4, setFld r 24 4 (fld r 24 4 + 1))

/-- Advance a frontier past the set bits of its mask, at most 64 of them. -/
def advanceMask : Nat → Nat → Nat → Nat × Nat
  | 0, mask, fr => (mask, fr)
  | n + 1, mask, fr => if mask % 2 = 1 then advanceMask n (mask / 2) ((fr + 1) % 2 ^ 32) else (mask, fr)

/-- RQPUB on the descriptor at a time: none for the ring-protocol fault. -/
def ringPub (r seq time : Nat) : Option Nat :=
  let pubf := fld r 20 4
  let i := seqSub seq pubf
  let mask := fld r 32 8
  if seqSub (fld r 16 4) pubf ≤ i ∨ 64 ≤ i ∨ mask.testBit i then none
  else
    let m := advanceMask 64 (mask ||| 2 ^ i) pubf
    let r' := setFld (setFld r 32 8 m.1) 20 4 m.2
    some (if m.1 ≠ 0 ∧ (mask = 0 ∨ m.2 ≠ pubf) then setFld r' 56 8 time else r')

/-- RQDONE on the descriptor. -/
def ringDone (r seq : Nat) : Option Nat :=
  let donef := fld r 28 4
  let i := seqSub seq donef
  let mask := fld r 40 8
  if seqSub (fld r 24 4) donef ≤ i ∨ 64 ≤ i ∨ mask.testBit i then none
  else
    let m := advanceMask 64 (mask ||| 2 ^ i) donef
    some (setFld (setFld r 40 8 m.1) 28 4 m.2)

/-- Act on a ring's descriptor at its point (R271): the descriptor before, or none when it breaks a limit or the step is refused by `bad`. -/
def State.ringAt (s : State) (r : Req) (desc : Nat) (f : Nat → Option Nat) : MR Nat :=
  match s.readNum r .clu desc 64 with
  | .error e => .error e
  | .ok (d, s) =>
    let g := fun old => if ringBad old then none else f old
    s.orDevAtomic desc 64 g (s.atomicAt r (ringScope d) desc 64 g none)

/-- The owner's frame of an owner word. -/
def ownerFrame (w : Nat) : Nat := (((w / 2 ^ 24 % 4 * 16 + w / 2 ^ 20 % 16) * 8 + w / 2 ^ 17 % 8) * 11) + w / 2 ^ 13 % 16

/-- Keep the hole timer of a ring whose descriptor now reads so (R273). The wait for a hole samples its owner's cr.ringhole when it begins (R98). -/
def State.ringTimer (s : State) (asid desc r : Nat) : State :=
  let rest := s.rings.filter fun t => !(t.asid == asid && t.desc == desc)
  let old := s.rings.find? fun t => t.asid == asid && t.desc == desc
  if fld r 32 8 = 0 then { s with rings := rest }
  else
    let t : RingTimer := { asid := asid, desc := desc, pubf := fld r 20 4, start := .ofNat 64 (fld r 56 8), owner := fld r 48 4,
                           limit := (s.ctx (ownerFrame (fld r 48 4))).cr.ringhole, raised := old.bind (·.raised) }
    let t := match old with
      | some o => if o.pubf = t.pubf ∧ o.start = t.start ∧ o.owner = t.owner then { t with limit := o.limit } else t
      | none => t
    { s with rings := rest ++ [t] }

/-- A ring's descriptor is 64-byte aligned (R271). -/
def State.ringOp (s : State) (a : AReg) (k : Word → State → State) : Out :=
  let p := s.c.getA a
  if unaligned p 64 then .next (s.misaligned p) else .next (k p s)

/-- The ring-protocol fault. -/
def State.ringProtocol (s : State) (desc : Word) : State := s.raise 0x2C 0 desc

/-- Write the outcome of RQRES or RQTAKE. -/
def State.ringAnswer (s : State) (d : XReg) (p : PReg) (seq : Option Nat) : State :=
  s.done fun c =>
    match seq with
    | some n => (c.setX d (.ofNat 64 n)).setP p true
    | none => c.setP p false

/-- RQRES (R272). -/
def execRqres (d : XReg) (a : AReg) (p : PReg) (s : State) : Out :=
  s.ringOp a fun desc s =>
    match s.ringAt (s.req 12) desc.toNat (fun r => (ringRes r).map (·.2)) with
    | .error e => s.memFail e desc true
    | .ok (old, s) => if ringBad old then s.ringProtocol desc else s.ringAnswer d p ((ringRes old).map (·.1))

/-- RQTAKE (R272): the version steps follow, whether or not an entry was there; held at one of them, it has taken nothing. -/
def execRqtake (d : XReg) (a : AReg) (p : PReg) (s : State) : Out :=
  s.ringOp a fun desc s₀ =>
    match s₀.ringAt (s₀.req 12) desc.toNat (fun r => (ringTake r).map (·.2)) with
    | .error e => s₀.memFail e desc true
    | .ok (old, s) =>
      if ringBad old then s.ringProtocol desc
      else
        match s.tryAcquire s.self (ringScope old) with
        | .error e => State.heldBack (e.1, e.2.1, s₀)
        | .ok s => s.ringAnswer d p ((ringTake old).map (·.1))

/-- RQPUB (R272, R273): a release at the ring's scope, then the publication at its point. -/
def execRqpub (a : AReg) (b : XReg) (s : State) : Out :=
  s.ringOp a fun desc s =>
    let seq := (s.c.getX b).toNat % 2 ^ 32
    match s.readNum (s.req 12) .clu desc.toNat 64 with
    | .error e => s.memFail e desc true
    | .ok (d, s) =>
      if ringBad d then s.ringProtocol desc
      else
        match s.releaseNow (ringScope d) with
        | none => s.stall
        | some (.error e) => State.heldBack e
        | some (.ok s) =>
          match s.ringAt (s.req 12) desc.toNat (fun r => ringPub r seq s.time.toNat) with
          | .error e => s.memFail e desc true
          | .ok (old, s) =>
            if ringBad old then s.ringProtocol desc
            else
              match ringPub old seq s.time.toNat with
              | none => s.ringProtocol desc
              | some new => (s.ringTimer s.c.asid desc.toNat new).retire

/-- RQDONE (R272). -/
def execRqdone (a : AReg) (b : XReg) (s : State) : Out :=
  s.ringOp a fun desc s =>
    let seq := (s.c.getX b).toNat % 2 ^ 32
    match s.ringAt (s.req 12) desc.toNat (fun r => ringDone r seq) with
    | .error e => s.memFail e desc true
    | .ok (old, s) => if ringBad old ∨ (ringDone old seq).isNone then s.ringProtocol desc else s.retire

/-- RING_HOLE (R273): the n-th ring with a hole has not advanced for the cycles its wait sampled; once for each pubf. -/
def execRingHole (n : Nat) (s : State) : Out :=
  match s.rings[n]? with
  | none => .next s
  | some t =>
    let f := ownerFrame t.owner
    let c := s.ctx f
    if t.owner % 2 = 1 ∧ t.owner / 2 ^ 13 % 16 < 11 ∧ c.live ∧ t.raised ≠ some t.pubf ∧ t.limit ≠ 0 ∧ t.limit.toNat ≤ (s.time - t.start).toNat then
      let s := { s with rings := s.rings.map fun x => if x == t then { t with raised := some t.pubf } else x }
      .next (s.addUpcall f { code := 0x12, info := t.pubf, addr := .ofNat 64 t.desc, token := 0, whence := 0, soft := false, park := none })
    else .next s

end Sys2Proof.Machine
end

