-- ==== Sys2Proof/Machine/Vector.lean ====
section
/-! DEFINITION. The vector lane pool and the vector instructions (R129 to R151). -/

namespace Sys2Proof.Machine

open Sys2Proof

/-! Lanes (R134, R135). -/

/-- The active lanes under a mask register. -/
def Ctx.active (c : Ctx) (m : KReg) : BitVec 256 := c.getK m &&& c.lanes

/-- Write the lanes of a mask, from a function of the lane number. -/
def putLanes (v : BitVec 8192) (m : BitVec 256) (f : Nat → BitVec 32) : BitVec 8192 := (activeLanes m).foldl (fun v i => setLane v i (f i)) v

/-- The element of format fmt in a 32-bit lane. -/
def laneElem (fmt : Fmt) (w : BitVec 32) : Nat := w.toNat % 2 ^ fmtBits fmt

/-- An element as a signed number of n bits. -/
def sgn (n x : Nat) : Int := if x.testBit (n - 1) then (x : Int) - 2 ^ n else x

/-- Is the format a signed integer? -/
def isSi (fmt : Fmt) : Bool := fmtInt fmt == some true

/-- An integer result, modulo 2^n, with no flag. -/
def intRes (fmt : Fmt) (v : Int) : FR := ⟨intBits (fmtBits fmt) v, 0⟩

/-- A lane operation: format, rounding mode, the whole lanes of s1 and s2, and of d. -/
abbrev LaneOp := Fmt → Rm → BitVec 32 → BitVec 32 → BitVec 32 → FR

/-- The body of majors 0x00 and 0x01 (R133, R139). -/
def State.vecOp (s : State) (op : LaneOp) (m : KReg) (fmt : Fmt) (d a : VReg) (b : BitVec 8192) : State :=
  if s.c.grant = 0 then s.illegal
  else
    let k := s.c.active m
    let rm := rmOf s.c.cr.fctl
    let res := fun i => op fmt rm (laneOf (s.c.getV a) i) (laneOf b i) (laneOf (s.c.getV d) i)
    let fl := (activeLanes k).foldl (fun fl i => fl ||| (res i).fl) 0
    s.doneFl fl fun c => c.setV d (putLanes (c.getV d) k fun i => .ofNat 32 (res i).bits)

/-- A two-source operation. -/
def vec2 (op : LaneOp) (m : KReg) (fmt : Fmt) (d a : VReg) (b : VSrc) (s : State) : Out := .next (s.vecOp op m fmt d a (s.c.vsrc b))
/-- A one-source operation. -/
def vec1 (op : LaneOp) (m : KReg) (fmt : Fmt) (d a : VReg) (s : State) : Out := .next (s.vecOp op m fmt d a 0)

/-- An operation with a float and an integer reading. -/
def laneArith (fl : Fmt → Rm → Nat → Nat → Nat → FR) (int : Int → Int → Int → Int) : LaneOp := fun fmt rm a b c =>
  if (fmtInt fmt).isNone then fl fmt rm (laneElem fmt a) (laneElem fmt b) (laneElem fmt c)
  else intRes fmt (int (laneElem fmt a) (laneElem fmt b) (laneElem fmt c))

/-- Minimum or maximum: R124, signed for SI, unsigned for UI. -/
def laneMinMax (isMax : Bool) : LaneOp := fun fmt _ a b _ =>
  let x := laneElem fmt a
  let y := laneElem fmt b
  if (fmtInt fmt).isNone then fMinMax isMax fmt x y
  else
    let less := if isSi fmt then decide (sgn (fmtBits fmt) x < sgn (fmtBits fmt) y) else decide (x < y)
    ⟨if less != isMax then x else y, 0⟩

/-- A bitwise operation. -/
def laneBits (f : Nat → Nat → Nat) : LaneOp := fun fmt _ a b _ => ⟨f (laneElem fmt a) (laneElem fmt b), 0⟩

/-- VSHL (R141). -/
def laneShl : LaneOp := fun fmt _ a b _ =>
  if fmtBits fmt ≤ b.toNat then ⟨0, 0⟩ else intRes fmt (laneElem fmt a * 2 ^ b.toNat)
/-- VSHR (R141). -/
def laneShr : LaneOp := fun fmt _ a b _ =>
  let n := fmtBits fmt
  let h := min b.toNat n
  if isSi fmt then intRes fmt (sgn n (laneElem fmt a) / 2 ^ h) else ⟨laneElem fmt a / 2 ^ h, 0⟩
/-- VFSH (R141). -/
def laneFsh : LaneOp := fun fmt _ a b c =>
  let n := fmtBits fmt
  ⟨(laneElem fmt a * 2 ^ n + laneElem fmt b) / 2 ^ (laneElem fmt c % n) % 2 ^ n, 0⟩
/-- VBEXT (R141). -/
def laneBext : LaneOp := fun fmt _ a b _ =>
  let pos := b.toNat % 32
  let w := b.toNat / 32 % 32 + 1
  let field := laneElem fmt a / 2 ^ pos % 2 ^ w
  if isSi fmt then intRes fmt (sgn w field) else intRes fmt field

/-- VADD (R139). -/
def execVadd (m : KReg) (fmt : Fmt) (d a : VReg) (b : VSrc) (s : State) : Out := vec2 (laneArith (fun f rm a b _ => fAdd f rm a b) (fun a b _ => a + b)) m fmt d a b s
/-- VSUB (R139). -/
def execVsub (m : KReg) (fmt : Fmt) (d a : VReg) (b : VSrc) (s : State) : Out := vec2 (laneArith (fun f rm a b _ => fSub f rm a b) (fun a b _ => a - b)) m fmt d a b s
/-- VMUL (R139). -/
def execVmul (m : KReg) (fmt : Fmt) (d a : VReg) (b : VSrc) (s : State) : Out := vec2 (laneArith (fun f rm a b _ => fMul f rm a b) (fun a b _ => a * b)) m fmt d a b s
/-- VFMA (R139). -/
def execVfma (m : KReg) (fmt : Fmt) (d a : VReg) (b : VSrc) (s : State) : Out := vec2 (laneArith (fun f rm a b c => fFma f rm c a b) (fun a b c => c + a * b)) m fmt d a b s
/-- VDIV (R139). -/
def execVdiv (m : KReg) (fmt : Fmt) (d a : VReg) (b : VSrc) (s : State) : Out := vec2 (fun f rm a b _ => fDiv f rm (laneElem f a) (laneElem f b)) m fmt d a b s
/-- VSQRT (R139). -/
def execVsqrt (m : KReg) (fmt : Fmt) (d a : VReg) (s : State) : Out := vec1 (fun f rm a _ _ => fSqrt f rm (laneElem f a)) m fmt d a s
/-- VMIN (R139). -/
def execVmin (m : KReg) (fmt : Fmt) (d a : VReg) (b : VSrc) (s : State) : Out := vec2 (laneMinMax false) m fmt d a b s
/-- VMAX (R139). -/
def execVmax (m : KReg) (fmt : Fmt) (d a : VReg) (b : VSrc) (s : State) : Out := vec2 (laneMinMax true) m fmt d a b s
/-- VAND (R139). -/
def execVand (m : KReg) (fmt : Fmt) (d a : VReg) (b : VSrc) (s : State) : Out := vec2 (laneBits (· &&& ·)) m fmt d a b s
/-- VOR (R139). -/
def execVor (m : KReg) (fmt : Fmt) (d a : VReg) (b : VSrc) (s : State) : Out := vec2 (laneBits (· ||| ·)) m fmt d a b s
/-- VXOR (R139). -/
def execVxor (m : KReg) (fmt : Fmt) (d a : VReg) (b : VSrc) (s : State) : Out := vec2 (laneBits (· ^^^ ·)) m fmt d a b s
/-- VSHL (R139). -/
def execVshl (m : KReg) (fmt : Fmt) (d a : VReg) (b : VSrc) (s : State) : Out := vec2 (laneShl) m fmt d a b s
/-- VSHR (R139). -/
def execVshr (m : KReg) (fmt : Fmt) (d a : VReg) (b : VSrc) (s : State) : Out := vec2 (laneShr) m fmt d a b s
/-- VFSH (R139). -/
def execVfsh (m : KReg) (fmt : Fmt) (d a : VReg) (b : VSrc) (s : State) : Out := vec2 (laneFsh) m fmt d a b s
/-- VBEXT (R139). -/
def execVbext (m : KReg) (fmt : Fmt) (d a : VReg) (b : VSrc) (s : State) : Out := vec2 (laneBext) m fmt d a b s
/-- VPOPC (R139). -/
def execVpopc (m : KReg) (fmt : Fmt) (d a : VReg) (s : State) : Out := vec1 (fun f _ a _ _ => ⟨popCount (laneElem f a) (fmtBits f), 0⟩) m fmt d a s
/-- VCLZ (R139). -/
def execVclz (m : KReg) (fmt : Fmt) (d a : VReg) (s : State) : Out := vec1 (fun f _ a _ _ => ⟨leadZeros (laneElem f a) (fmtBits f), 0⟩) m fmt d a s
/-- VSFN.sin (R128, R139). -/
def execVsfnSin (m : KReg) (fmt : Fmt) (d a : VReg) (s : State) : Out := vec1 (fun f _ a _ _ => fTrig false f (laneElem f a)) m fmt d a s
/-- VSFN.cos (R128, R139). -/
def execVsfnCos (m : KReg) (fmt : Fmt) (d a : VReg) (s : State) : Out := vec1 (fun f _ a _ _ => fTrig true f (laneElem f a)) m fmt d a s
/-- VSFN.exp2 (R128, R139). -/
def execVsfnExp2 (m : KReg) (fmt : Fmt) (d a : VReg) (s : State) : Out := vec1 (fun f _ a _ _ => fExp2 f (laneElem f a)) m fmt d a s
/-- VSFN.log2 (R128, R139). -/
def execVsfnLog2 (m : KReg) (fmt : Fmt) (d a : VReg) (s : State) : Out := vec1 (fun f _ a _ _ => fLog2 f (laneElem f a)) m fmt d a s
/-- VSFN.rcp (R128, R139). -/
def execVsfnRcp (m : KReg) (fmt : Fmt) (d a : VReg) (s : State) : Out := vec1 (fun f _ a _ _ => fRcp f (laneElem f a)) m fmt d a s
/-- VSFN.rsq (R128, R139). -/
def execVsfnRsq (m : KReg) (fmt : Fmt) (d a : VReg) (s : State) : Out := vec1 (fun f _ a _ _ => fRsq f (laneElem f a)) m fmt d a s

/-! Moves, permutations and lookups (R142, R143). -/

/-- An instruction that needs a grant (R133). -/
def State.granted (s : State) (g : Ctx → Ctx) : Out := .next (if s.c.grant = 0 then s.illegal else s.done g)

/-- VSEL: every lane below the grant. -/
def execVsel (k : KReg) (d a : VReg) (b : VSrc) (s : State) : Out :=
  s.granted fun c => c.setV d (putLanes (c.getV d) c.lanes fun i => if (c.getK k).getLsbD i then laneOf (c.getV a) i else laneOf (c.vsrc b) i)
/-- VBCAST. -/
def execVbcast (m : KReg) (d : VReg) (a : XReg) (s : State) : Out :=
  s.granted fun c => c.setV d (putLanes (c.getV d) (c.active m) fun _ => (c.getX a).truncate 32)
/-- VEXTR. -/
def execVextr (d : XReg) (a : VReg) (b : XSrc) (s : State) : Out :=
  s.granted fun c =>
    let j := (c.xsrcU b).toNat
    c.setX d (if j < c.grant then (laneOf (c.getV a) j).zeroExtend 64 else 0)
/-- VINS. -/
def execVins (d : VReg) (a : XReg) (b : XSrc) (s : State) : Out :=
  s.granted fun c =>
    let j := (c.xsrcU b).toNat
    if j < c.grant then c.setV d (setLane (c.getV d) j ((c.getX a).truncate 32)) else c
/-- VPERM. -/
def execVperm (m : KReg) (d a : VReg) (b : VSrc) (s : State) : Out :=
  s.granted fun c => c.setV d (putLanes (c.getV d) (c.active m) fun i =>
    let j := (laneOf (c.vsrc b) i).toNat % 256
    if j < c.grant then laneOf (c.getV a) j else 0)
/-- A byte of a lane. -/
def laneByte (w : BitVec 32) (b : Nat) : BitVec 8 := w.extractLsb' (8 * b) 8
/-- VLUT. -/
def execVlut (m : KReg) (d a : VReg) (b : VSrc) (s : State) : Out :=
  s.granted fun c =>
    let look := fun (x : BitVec 8) => if 64 ≤ x.toNat then (0 : BitVec 8) else laneByte (laneOf (c.vsrc b) (x.toNat / 4)) (x.toNat % 4)
    c.setV d (putLanes (c.getV d) (c.active m) fun i =>
      let w := laneOf (c.getV a) i
      look (laneByte w 3) ++ look (laneByte w 2) ++ look (laneByte w 1) ++ look (laneByte w 0))

/-! Conversions, compares and masks (R144 to R146). -/

/-- VCVT. -/
def execVcvt (m : KReg) (dst src : Fmt) (d a : VReg) (s : State) : Out :=
  .next (s.vecOp (fun _ _ a _ _ => convert dst src s.c.cr.fctl (laneElem src a)) m dst d a 0)

/-- A VCMP condition on one lane. -/
def laneCmp (fmt : Fmt) (cc : FCond) (x y : Nat) : Bool × Fl :=
  match fmtInt fmt with
  | none => fCompare cc fmt x y
  | some signed =>
    let lt := if signed then decide (sgn (fmtBits fmt) x < sgn (fmtBits fmt) y) else decide (x < y)
    (match cc with
      | .eq => x == y
      | .ne => x != y
      | .lt => lt
      | .le => lt || x == y
      | .gt => !lt && x != y
      | .ge => !lt
      | .un | .ord => false, 0)

/-- Write k and complete, with flags. -/
def State.doneK (s : State) (fl : Fl) (d : KReg) (v : BitVec 256) : State := s.doneFl fl fun c => c.setK d v

/-- VCMP; the conditions .un and .ord with an integer format are illegal and are refused by the decoder. -/
def execVcmp (m : KReg) (fmt : Fmt) (cc : FCond) (d : KReg) (a : VReg) (b : VSrc) (s : State) : Out :=
  .next (if s.c.grant = 0 then s.illegal
    else
      let res := fun i => laneCmp fmt cc (laneElem fmt (laneOf (s.c.getV a) i)) (laneElem fmt (laneOf (s.c.vsrc b) i))
      let ls := activeLanes (s.c.active m)
      let fl := ls.foldl (fun fl i => fl ||| (res i).2) 0
      s.doneK fl d (ls.foldl (fun v i => if (res i).1 then v ||| BitVec.twoPow 256 i else v) 0))

/-- KOP.and. -/
def execKopAnd (d a b : KReg) (s : State) : Out := .next (s.done fun c => let x := c.getK a; let y := c.getK b; c.setK d (x &&& y))
/-- KOP.or. -/
def execKopOr (d a b : KReg) (s : State) : Out := .next (s.done fun c => let x := c.getK a; let y := c.getK b; c.setK d (x ||| y))
/-- KOP.xor. -/
def execKopXor (d a b : KReg) (s : State) : Out := .next (s.done fun c => let x := c.getK a; let y := c.getK b; c.setK d (x ^^^ y))
/-- KOP.andn. -/
def execKopAndn (d a b : KReg) (s : State) : Out := .next (s.done fun c => let x := c.getK a; let y := c.getK b; c.setK d (x &&& ~~~y))
/-- KOP.not. -/
def execKopNot (d a : KReg) (s : State) : Out := .next (s.done fun c => c.setK d (~~~c.getK a))
/-- KPOPC. -/
def execKpopc (d : XReg) (a : KReg) (s : State) : Out := .next (s.done fun c => c.setX d (.ofNat 64 (popCount (c.getK a).toNat c.grant)))

/-! Reductions and scans (R147, R148). -/

/-- The operations that combine. -/
inductive RedOp where
  | add | min | max | and | or | xor
deriving DecidableEq, Repr

/-- Combine two elements. -/
def comb (op : RedOp) (fmt : Fmt) (rm : Rm) (x y : Nat) : FR :=
  match op with
  | .add => if (fmtInt fmt).isNone then fAdd fmt rm x y else intRes fmt ((x : Int) + y)
  | .min => laneMinMax false fmt rm (.ofNat 32 x) (.ofNat 32 y) 0
  | .max => laneMinMax true fmt rm (.ofNat 32 x) (.ofNat 32 y) 0
  | .and => ⟨x &&& y, 0⟩
  | .or => ⟨x ||| y, 0⟩
  | .xor => ⟨x ^^^ y, 0⟩

/-- The identity of an operation (R147). -/
def identity (op : RedOp) (fmt : Fmt) : Nat :=
  match op with
  | .and => 2 ^ fmtBits fmt - 1
  | .min => if (fmtInt fmt).isNone then exactBits fmt (.inf false) else intBits (fmtBits fmt) (intBounds fmt).2
  | .max => if (fmtInt fmt).isNone then exactBits fmt (.inf true) else intBits (fmtBits fmt) (intBounds fmt).1
  | _ => 0

/-- Combine with EMPTY on either side, gathering flags. -/
def combOpt (op : RedOp) (fmt : Fmt) (rm : Rm) : Option Nat × Fl → Option Nat × Fl → Option Nat × Fl
  | (none, f), (y, g) => (y, f ||| g)
  | (x, f), (none, g) => (x, f ||| g)
  | (some x, f), (some y, g) =>
    let r := comb op fmt rm x y
    (some r.bits, f ||| g ||| r.fl)

/-- One level: neighbours are combined in pairs. -/
def redLevel (op : RedOp) (fmt : Fmt) (rm : Rm) : List (Option Nat × Fl) → List (Option Nat × Fl)
  | a :: b :: t => combOpt op fmt rm a b :: redLevel op fmt rm t
  | t => t

/-- The levels. -/
def redTree (op : RedOp) (fmt : Fmt) (rm : Rm) : Nat → List (Option Nat × Fl) → List (Option Nat × Fl)
  | 0, w => w
  | n + 1, w => redTree op fmt rm n (redLevel op fmt rm w)

/-- VRED. -/
def State.vred (s : State) (op : RedOp) (m : KReg) (fmt : Fmt) (d : XReg) (a : VReg) : State :=
  if s.c.grant = 0 then s.illegal
  else
    let k := s.c.active m
    let w := (List.range 256).map fun i => (if k.getLsbD i then some (laneElem fmt (laneOf (s.c.getV a) i)) else none, (0 : Fl))
    let r := (redTree op fmt (rmOf s.c.cr.fctl) 8 w).headD (none, 0)
    s.doneFl r.2 fun c => c.setX d (.ofNat 64 (r.1.getD (identity op fmt)))

/-- The running fold of VSCAN over lanes: destination, run and flags. -/
def scanLanes (op : RedOp) (fmt : Fmt) (rm : Rm) (src : BitVec 8192) : List Nat → BitVec 8192 → Option Nat × Fl → BitVec 8192 × Fl
  | [], v, run => (v, run.2)
  | i :: is, v, run =>
    let run := combOpt op fmt rm run (some (laneElem fmt (laneOf src i)), 0)
    scanLanes op fmt rm src is (setLane v i (.ofNat 32 (run.1.getD 0))) run

/-- VSCAN. -/
def State.vscan (s : State) (op : RedOp) (m : KReg) (fmt : Fmt) (d a : VReg) : State :=
  if s.c.grant = 0 then s.illegal
  else
    let r := scanLanes op fmt (rmOf s.c.cr.fctl) (s.c.getV a) (activeLanes (s.c.active m)) (s.c.getV d) (none, 0)
    s.doneFl r.2 fun c => c.setV d r.1

/-- VRED.add. -/
def execVredAdd (m : KReg) (fmt : Fmt) (d : XReg) (a : VReg) (s : State) : Out := .next (s.vred .add m fmt d a)
/-- VRED.min. -/
def execVredMin (m : KReg) (fmt : Fmt) (d : XReg) (a : VReg) (s : State) : Out := .next (s.vred .min m fmt d a)
/-- VRED.max. -/
def execVredMax (m : KReg) (fmt : Fmt) (d : XReg) (a : VReg) (s : State) : Out := .next (s.vred .max m fmt d a)
/-- VRED.and. -/
def execVredAnd (m : KReg) (fmt : Fmt) (d : XReg) (a : VReg) (s : State) : Out := .next (s.vred .and m fmt d a)
/-- VRED.or. -/
def execVredOr (m : KReg) (fmt : Fmt) (d : XReg) (a : VReg) (s : State) : Out := .next (s.vred .or m fmt d a)
/-- VRED.xor. -/
def execVredXor (m : KReg) (fmt : Fmt) (d : XReg) (a : VReg) (s : State) : Out := .next (s.vred .xor m fmt d a)
/-- VSCAN.add. -/
def execVscanAdd (m : KReg) (fmt : Fmt) (d a : VReg) (s : State) : Out := .next (s.vscan .add m fmt d a)
/-- VSCAN.min. -/
def execVscanMin (m : KReg) (fmt : Fmt) (d a : VReg) (s : State) : Out := .next (s.vscan .min m fmt d a)
/-- VSCAN.max. -/
def execVscanMax (m : KReg) (fmt : Fmt) (d a : VReg) (s : State) : Out := .next (s.vscan .max m fmt d a)
/-- VSCAN.and. -/
def execVscanAnd (m : KReg) (fmt : Fmt) (d a : VReg) (s : State) : Out := .next (s.vscan .and m fmt d a)
/-- VSCAN.or. -/
def execVscanOr (m : KReg) (fmt : Fmt) (d a : VReg) (s : State) : Out := .next (s.vscan .or m fmt d a)
/-- VSCAN.xor. -/
def execVscanXor (m : KReg) (fmt : Fmt) (d a : VReg) (s : State) : Out := .next (s.vscan .xor m fmt d a)

/-! The partners of VNEIGH (R149, R150). -/

/-- The distance of a code. -/
def neighDelta (code : BitVec 3) : Int := if code < 4 then 2 ^ code.toNat else -(2 ^ (code.toNat - 4))

/-- The partner's frame: same identity and team, on the neighbouring core of the cluster. -/
def State.partner (s : State) (up : Bool) : Option Nat :=
  let pos := s.myCore % 8
  if (up ∧ pos = 7) ∨ (!up ∧ pos = 0) then none
  else (framesOf (if up then s.myCore + 1 else s.myCore - 1)).find? fun f =>
    let c := s.ctx f
    c.live && c.ids.ctx == s.c.ids.ctx && c.team.isSome && c.team == s.c.team && decide (0 < c.grant)

/-- Is the wait a VNEIGH's whose partner, for the selected context, is frame f? -/
def State.neighWaits (s : State) (f : Nat) (w : Wait) : Bool :=
  !w.wrap && (match w.instr with
    | some (.vneigh _ _ _ _ dist) => s.partner (decide (0 < neighDelta dist)) == some f
    | _ => false)

/-- Frame f ends, or leaves itself no lanes: the VNEIGHs that wait for an entry it has not published fail at once, and one whose entry it has published
still takes it from its latch (R150). Above the count, the wait's argument marks the failure, or holds the frame's number after the mark's place. -/
def State.failNeighs (s : State) (f : Nat) : State :=
  let hit := ((coresOf (cluOf (coreOf f))).filter fun k => k + 1 == coreOf f || k == coreOf f + 1).flatMap framesOf
  hit.foldl (fun s g =>
    let gone := fun (w : Wait) => if ((s.ctx f).ncount - .ofNat 32 w.arg).msb then w.arg + 2 ^ 40 else w.arg + 2 ^ 41 * (f + 1)
    let fail := fun (w : Wait) => if w.arg < 2 ^ 40 && (s.select g).neighWaits f w then { w with arg := gone w } else w
    s.mapCtx g fun c => { c with wait := c.wait.map fail, parks := c.parks.map fun (k, p) => (k, { p with wait := p.wait.map fail }) }) s

/-! Grants (R129 to R132). -/

/-- Do vector accesses of the context remain unperformed, in its stream or in a park slot? -/
def Ctx.vecPending (c : Ctx) : Bool := c.accAll.any fun a =>
  match a.op with
  | .vld _ _ _ | .vst _ _ _ | .vldx _ _ _ _ | .vstx _ _ _ _ => true
  | _ => false

/-- Lanes from `lo` up hold free values in every v-register (log 3). -/
def Ctx.freeLanes (c : Ctx) (lo fresh : Nat) : Ctx :=
  let m : BitVec 8192 := .ofNat 8192 (2 ^ (32 * lo) - 1)
  { c with v := .ofFn fun i => (c.v[i] &&& m) ||| (Config.freeVec (fresh + i.val) &&& ~~~m) }

/-- VCLAIM; the decoder refuses a request that is not a multiple of 16 from 16 to 256. Free groups are taken lowest number first. The lanes that a
smaller grant removes, and those that a greater one adds, are undefined (R91, R130). -/
def execVclaim (d : XReg) (q : BitVec 12) (s : State) : Out :=
  if s.c.vecPending then .next s.stall
  else
    let h := s.c.groups.length
    let want := q.toNat / 16
    let k := s.clu s.myClu
    if want ≤ h then
      let fresh := s.fresh
      let s := s.setClu s.myClu { k with lanesFree := (s.c.groups.drop want).foldl (fun l g => insNat g l) k.lanesFree }
      let s := if want = h then s else { s.mapC fun c => c.freeLanes (16 * want) fresh with fresh := s.fresh + 32 }
      .next (s.done fun c => let c := { c with groups := c.groups.take want }; c.setX d (.ofNat 64 c.grant))
    else
      let take := k.lanesFree.take (want - h)
      let fresh := s.fresh
      let s := s.setClu s.myClu { k with lanesFree := k.lanesFree.drop (want - h) }
      let s := { s with fresh := s.fresh + 32 }
      .next (s.done fun c => let c := { c.freeLanes (16 * h) fresh with groups := c.groups ++ take }; c.setX d (.ofNat 64 c.grant))

/-- The context of a frame gives back every group, and leaves itself no lanes. -/
def State.releaseLanes (s : State) (f : Nat) : State :=
  let s := s.failNeighs f
  let c := s.ctx f
  let s := s.mapClu (cluOf (coreOf f)) fun k => { k with lanesFree := c.groups.foldl (fun l g => insNat g l) k.lanesFree }
  s.setCtx f { c with groups := [] }

/-- VREL: v0 to v31 become free values. -/
def execVrel (s : State) : Out :=
  if s.c.vecPending then .next s.stall
  else
    let fresh := s.fresh
    let s := { s.releaseLanes s.self with fresh := s.fresh + 32 }
    .next (s.done fun c => c.freeLanes 0 fresh)

/-! Neighbour reads (R149 to R151). -/

/-- VNEIGH's outcome: the lanes it takes from its partner's entry, or its own. Lane G_partner + i + δ of an entry is the one that stood there when the
entry was published, whatever the partner's grant is now: DESIGN CHOICE (log 94). -/
def State.neighDone (s : State) (m : KReg) (d a : VReg) (p : PReg) (dist : BitVec 3) (entry : Option Neigh) (ok : Bool) : State :=
  let g := s.c.grant
  let delta := neighDelta dist
  s.done fun c =>
    let c' := c.setV d (putLanes (c.getV d) (c.active m) fun i =>
      let j := (i : Int) + delta
      if 0 ≤ j ∧ j < g then laneOf (c.getV a) j.toNat
      else
        match entry with
        | some e => if 0 < delta then e.lo.extractLsb' (32 * (j - g).toNat) 32 else e.hi.extractLsb' (32 * (8 + j).toNat) 32
        | none => laneOf (c.getV a) i)
    c'.setP p ok

/-- Was an entry published only after the selected context's VNEIGH had waited its limit? -/
def State.lateEntry (s : State) (e : Neigh) : Bool :=
  match s.c.wait with
  | some w => w.limit != 0 && decide (w.limit.toNat ≤ (e.time - w.since).toNat) && decide (w.since ≤ e.time)
  | none => false

/-- The entry a VNEIGH of a count takes from a frame's latch, and its outcome. -/
def State.neighTake (s : State) (m : KReg) (d a : VReg) (p : PReg) (dist : BitVec 3) (f n : Nat) : State :=
  let e := ((s.ctx f).nlatch.find? fun e => e.count == n).filter fun e => !s.lateEntry e
  s.neighDone m d a p dist e e.isSome

/-- VNEIGH: it publishes once, then waits for its partner's entry of the same count, which the wait keeps, for at most the cr.xltmo cycles that it
sampled: an entry published after them comes too late. -/
def execVneigh (m : KReg) (d a : VReg) (p : PReg) (dist : BitVec 3) (s : State) : Out :=
  if s.c.grant = 0 then .next s.illegal
  else
    let begun := match s.c.wait with
      | some w => w.begun
      | none => false
    let g := s.c.grant
    let s := if begun then s else s.mapC fun c =>
      let v := c.getV a
      let e : Neigh := { count := (c.ncount + 1).toNat, time := s.time, lo := v.truncate 256, hi := (v >>> (32 * (g - 8))).truncate 256 }
      { c with ncount := c.ncount + 1, nlatch := e :: c.nlatch.take 1 }
    let arg := match s.c.wait with
      | some w => if begun then w.arg else s.c.ncount.toNat
      | none => s.c.ncount.toNat
    let n : BitVec 32 := .ofNat 32 arg
    let delta := neighDelta dist
    let need := (activeLanes (s.c.active m)).any fun i => decide ((i : Int) + delta < 0 ∨ (g : Int) ≤ (i : Int) + delta)
    if need = false then .next (s.neighDone m d a p dist none true)
    else if 2 ^ 41 ≤ arg then .next (s.neighTake m d a p dist (arg / 2 ^ 41 - 1) n.toNat)
    else if 2 ^ 40 ≤ arg then .next (s.neighDone m d a p dist none false)
    else
      match s.partner (decide (0 < delta)) with
      | none => .next (s.neighDone m d a p dist none false)
      | some f =>
        let q := s.ctx f
        if (q.ncount - n).msb then
          if s.overLimit then .next (s.neighDone m d a p dist none false)
          else .next ((s.stallFor s.c.cr.xltmo true).mapWait fun w => { w with arg := arg })
        else .next (s.neighTake m d a p dist f n.toNat)

/-- VNEIGH_TIMEOUT (R150): a VNEIGH that has waited the cr.xltmo cycles it sampled falls back. -/
def execVneighTimeout (f : Nat) (s : State) : Out :=
  match s.waiting f with
  | some (.vneigh m d a p dist) => if (s.select f).overLimit then s.retry f (execVneigh m d a p dist) else .next s
  | _ => .next s

end Sys2Proof.Machine
end

