-- ==== Sys2Proof/Machine/Engines.lean ====
section
/-! DEFINITION. The cluster job queue and its engines: copy, tensor copy, transform and collective (R73 to R76, R251 to R268, R416). -/

namespace Sys2Proof.Machine

open Sys2Proof

/-! Jobs. -/

/-- Is a state terminal (R252)? -/
def terminal (st : Nat) : Bool := decide (5 ≤ st)

/-- A job's id (R256). -/
def jobId (clu q : Nat) : Nat := clu * 2 ^ 32 + q

/-- The job with a sequence number: the latest one. -/
def CluSt.job (k : CluSt) (q : Nat) : Option Job := (k.jobs.filter (·.q == q)).getLast?

/-- Change the job with a sequence number. -/
def State.mapJob (s : State) (clu q : Nat) (g : Job → Job) : State :=
  s.mapClu clu fun k => { k with jobs := k.jobs.map fun j => if j.q == q && !terminal j.state then g j else j }

/-- The state word of a job (R255); expired when more than 4,096 later jobs have been accepted. -/
def CluSt.stateWord (k : CluSt) (j : Job) : Word :=
  let later := ((k.jobs.reverse.takeWhile fun x => x != j)).length
  if terminal j.state ∧ 4096 < later then 9
  else .ofNat 64 (j.mark % 2 ^ 48 * 65536 + j.detail * 256 + j.state)

/-! Regions and edges (R74, R76). -/

/-- Do two regions overlap? -/
def overlaps (asidX asidY : Nat) (x y : Option Region) : Bool :=
  match x, y with
  | some a, some b => a.space == b.space && (if a.space = 0 then asidX == asidY else a.core == b.core)
      && decide (a.base < b.base + b.len ∧ b.base < a.base + a.len)
  | _, _ => false

/-- Does R76 order job y after the earlier job x? -/
def edge (x y : Job) : Bool :=
  let o := overlaps x.asid y.asid
  y.barrier || o x.wr y.rd0 || o x.wr y.rd1 || o x.rd0 y.wr || o x.rd1 y.wr || o x.wr y.wr

/-- The eligible jobs: every earlier job that orders one of them has completed (R253). -/
def eligibleJobs : List Job → List Job → List Job
  | _, [] => []
  | before, j :: js =>
    let ok := j.state == 1 && !(before.any fun x => !terminal x.state && edge x j)
    if ok then j :: eligibleJobs (before ++ [j]) js else eligibleJobs (before ++ [j]) js

/-- The jobs of a cluster that have not reached a terminal state: those in the queue's 64 hardware entries, or in its overflow area. -/
def CluSt.openJobs (k : CluSt) (spilled : Bool) : Nat := (k.jobs.filter fun j => !terminal j.state && j.spilled == spilled).length

/-- Spilled commands are taken back in acceptance order while there is room (R251, R283). -/
def takeBackJobs : Nat → List Job → List Job
  | _, [] => []
  | n, j :: js => if j.spilled && !terminal j.state && decide (n < 64) then { j with spilled := false } :: takeBackJobs (n + 1) js else j :: takeBackJobs n js

/-- After a change of the queue: spilled commands are taken back, and jobs that have become eligible count their wait from now (R253). -/
def CluSt.settleJobs (k : CluSt) (now : BitVec 64) : CluSt :=
  let js := takeBackJobs (k.openJobs false) k.jobs
  let el := eligibleJobs [] js
  { k with jobs := js.map fun j => if el.contains j && j.elig.isNone then { j with elig := some now } else j }

/-! Engine addresses (R260). -/

/-- The window of frame f on a core: physical base and size; none where it holds none. -/
def State.windowOn (s : State) (f core : Nat) : Option (Nat × Nat) :=
  let c := s.ctx f
  let w := (16384 * c.st.lsbase.toNat, c.window)
  match c.team with
  | some t => if s.teams.any fun x => x.id == t && x.clus.contains (cluOf core) then some w else none
  | none => if core = coreOf f then some w else none

/-- The core an engine address with bit 63 names, on a die. -/
def engCore (die : Nat) (a : Word) : Nat := (16 * die + bitsOf a 24 21) * 8 + bitsOf a 20 18

/-- An operand word that must be a virtual address and is none: bit 63 set, or at or above 2^52. -/
def notVirtual (a : Word) : Bool := decide (2 ^ 52 ≤ a.toNat)

/-- Is an engine address well formed for frame f: a local-store one names a core on which it holds a window, within the cluster if asked? -/
def State.engAddrOk (s : State) (f : Nat) (a : Word) (inClu : Bool) : Bool :=
  !isLs a || (bitsOf a 62 25 == 0 && (s.windowOn f (engCore s.myDie a)).isSome && (!inClu || cluOf (engCore s.myDie a) == s.myClu))

/-- Does a range of n bytes at an engine address end within the window? -/
def State.engRangeOk (s : State) (f : Nat) (a : Word) (n : Nat) : Bool :=
  !isLs a || (match s.windowOn f (engCore s.myDie a) with | some w => decide (lsOff a + n ≤ w.2) | none => false)

/-! Engine accesses (R254). -/

/-- Is the window of a job still its team's, or its task context's? It is free once the team has retired or migrated, or the context has ended (R159). -/
def State.windowOpen (s : State) (j : Job) : Bool :=
  match j.team with
  | some t => s.teams.any fun x => x.id == t
  | none => (s.ctx j.frame).owns j.gen

/-- Does every local-store window that a copy or tensor job names still belong to its submitter? Another window may hold the blocks of one that does
not. The spec has a job whose destination team is gone fail with detail 2 (R255, R261); that a job whose source's window is gone, or whose task
context has ended, fails alike is a DESIGN CHOICE (log 95). -/
def State.windowHeld (s : State) (j : Job) : Bool :=
  let source : Bool :=
    match j.engine with
    | 1 => j.cmd == 0 && isLs j.w1
    | 2 => j.shape.any fun sh => isLs sh.base
    | _ => false
  !(source || isLs j.w2) || s.windowOpen j

/-- Read n bytes within a line, as a load of the cluster: its L1 copy, or on a miss the L2 slice. -/
def State.engReadLine (s : State) (r : Req) (va n : Nat) : MR Nat :=
  match s.l1Hit r (va / 64) with
  | some l =>
    if let some e := s.tableFault l.pa then .error e
    else if l.poison then .error .poison
    else .ok (lineGet l.data (va % 64) n, s.firstRead l)
  | none => (s.cleanL1 r.clu r.asid (va / 64) true).readAt r .die va n

/-- Write n bytes within a line: into a valid copy in the L1, or else the L2 slice under a mask. -/
def State.engWriteLine (s : State) (r : Req) (va n v : Nat) : Except MFault State :=
  match s.l1Hit r (va / 64) with
  | some _ => s.writeL1 r va n v
  | none =>
    match (s.cleanL1 r.clu r.asid (va / 64) true).l2Get r (va / 64) with
    | .error e => .error e
    | .ok (l, s) => if l.img ∧ l.poison then .error .poison else .ok ((s.applyL2 r.die r.asid (va / 64) l.pa (lineSet 0 (va % 64) n v) (byteMask (va % 64) n) fun _ => false).leaveHost r.die r.asid (va / 64) l.pa)

/-- The codebook and map entry of a page with c, through the DMA port's view (R173); none for an ordinary page. -/
def State.dmaComp (s : State) (r : Req) (va : Nat) : MR (Option (Nat × Nat)) :=
  match s.translate r.die (s.served r.die (sliceOf va)) r.asid va r.need with
  | .error e => .error e
  | .ok (t, s) => .ok (if t.comp then some (t.cb, t.pa) else none, s)

/-- What an engine's access gives: what it read, with the state, or its fault and the address it is at. -/
abbrev ER (α : Type) := Except (MFault × Word) (α × State)

/-- Read bytes of virtual memory, a line's or a block's part at a time; `dma` is the view of a DMA port. -/
def State.engReadVa (s : State) (r : Req) (dma : Bool) : Nat → Nat → Nat → ER (List Byte)
  | 0, _, _ => .ok ([], s)
  | fuel + 1, va, n =>
    if n = 0 then .ok ([], s)
    else
      match (if dma then s.dmaComp r va else .ok (none, s)) with
      | .error e => .error (e, .ofNat 64 va)
      | .ok (some (cb, pa), s) =>
        let k := min n (4096 - va % 4096)
        match s.readBlock r.asid cb pa with
        | .error e => .error (e, .ofNat 64 va)
        | .ok none => .error (.poison, .ofNat 64 va)
        | .ok (some b) =>
          match s.engReadVa r dma fuel (va + k) (n - k) with
          | .error e => .error e
          | .ok (t, s) => .ok ((b.drop (va % 4096)).take k ++ t, s.tickBlock r.asid pa)
      | .ok (none, s) =>
        let k := min n (64 - va % 64)
        match s.orDevRead va k (s.engReadLine r va k) with
        | .error e => .error (e, .ofNat 64 va)
        | .ok (v, s) =>
          match s.engReadVa r dma fuel (va + k) (n - k) with
          | .error e => .error e
          | .ok (t, s) => .ok (bytesOf k v ++ t, s)

/-- Write bytes of virtual memory. Part of a block that cannot be expanded is not written: the rest of it would be lost. -/
def State.engWriteVa (s : State) (r : Req) (dma : Bool) : Nat → Nat → List Byte → Except (MFault × Word) State
  | 0, _, _ => .ok s
  | fuel + 1, va, bs =>
    if bs.isEmpty then .ok s
    else
      match (if dma then s.dmaComp r va else .ok (none, s)) with
      | .error e => .error (e, .ofNat 64 va)
      | .ok (some (cb, pa), s) =>
        let k := min bs.length (4096 - va % 4096)
        let old : Except MFault (Option (List Byte)) := if k = 4096 then .ok (some []) else s.rewritable r.asid cb pa
        match old with
        | .error e => .error (e, .ofNat 64 va)
        | .ok none => .error (.poison, .ofNat 64 va)
        | .ok (some b) =>
          match (if k = 4096 then s else s.tickBlock r.asid pa).writeBlock r.asid cb pa (b.take (va % 4096) ++ bs.take k ++ b.drop (va % 4096 + k)) with
          | .error e => .error (e, .ofNat 64 va)
          | .ok s => s.engWriteVa r dma fuel (va + k) (bs.drop k)
      | .ok (none, s) =>
        let k := min bs.length (64 - va % 64)
        match s.orDevWrite va k (wordOfBytes (bs.take k)) (s.engWriteLine r va k (wordOfBytes (bs.take k))) with
        | .error e => .error (e, .ofNat 64 va)
        | .ok s => s.engWriteVa r dma fuel (va + k) (bs.drop k)

/-- The request of a job's access. -/
def Job.req (j : Job) (clu : Nat) (need : BitVec 4) : Req := { clu := clu, asid := j.asid, who := none, need := if j.sup then need else need ||| 1 }

/-- Read bytes at an engine address; a local store is read through its core's port (R162). `ls` says which of the two the address is of. -/
def State.engRead (s : State) (clu : Nat) (j : Job) (dma : Bool) (a : Word) (n : Nat) (ls : Bool := isLs a) : ER (List Byte) :=
  let core := engCore (dieOf clu) a
  if ls then
    if j.win.2 < lsOff a + n then .error (.window, a) else .ok ((s.core core).ls.readBytes (j.win.1 + lsOff a) n, s.lsGrant core 2)
  else s.engReadVa (j.req clu 8) dma (n + 1) a.toNat n

/-- Write bytes at an engine address; a local-store write belongs to a range that ends at `stop` (R160). -/
def State.engWrite (s : State) (clu : Nat) (j : Job) (dma : Bool) (a : Word) (stop : Nat) (bs : List Byte) : Except (MFault × Word) State :=
  let core := engCore (dieOf clu) a
  if isLs a then
    if j.win.2 < lsOff a + bs.length then .error (.window, a)
    else .ok ((s.lsGrant core 2).lsEngineWrite core (j.win.1 + lsOff a) (j.win.1 + stop) bs)
  else s.engWriteVa (j.req clu 12) dma (bs.length + 1) a.toNat bs

/-- Write bytes of a scatter at an engine address: a granule becomes full once no later element of the box writes to it (R160). -/
def State.engScatter (s : State) (clu : Nat) (j : Job) (dma : Bool) (a : Word) (ls : Bool) (later : Nat → Bool) (bs : List Byte) : Except (MFault × Word) State :=
  if ls then
    let core := engCore (dieOf clu) a
    let off := j.win.1 + lsOff a
    if j.win.2 < lsOff a + bs.length then .error (.window, a)
    else
      let gs := ((List.range ((off + bs.length + 15) / 16 - off / 16)).map (off / 16 + ·)).filter fun g => !later (g - j.win.1 / 16)
      .ok (gs.foldl (fun s g => s.fillGranule core g) ((s.lsGrant core 2).lsWrite core off bs))
  else s.engWriteVa (j.req clu 12) dma (bs.length + 1) a.toNat bs

/-- A job's written lines join its released writes. -/
def Job.wrote (j : Job) (a : Word) (n : Nat) : Job :=
  if isLs a ∨ n = 0 then j
  else
    let ls := (List.range ((a.toNat + n - 1) / 64 - a.toNat / 64 + 1)).map fun k => (j.asid, a.toNat / 64 + k)
    { j with released := j.released ++ ls.filter fun l => !j.released.contains l }

/-! Footprints (R74, R416). -/

/-- A region of a footprint descriptor: 0 well formed, or the refusal reason. -/
def State.regionOf (s : State) (f : Nat) (space core base len : Nat) : Nat × Option Region :=
  if len = 0 then (0, none)
  else if space = 0 then (if core ≠ 0 ∨ 2 ^ 52 < base + len then 5 else 0, some { space := 0, core := 0, base := base, len := len })
  else if space = 1 then
    let w := s.windowOn f (8 * s.myClu + core)
    let ok := decide (core < 8) && (match w with | some w => decide (base + len ≤ w.2) | none => false)
    (if ok then 0 else 5, some { space := 1, core := core, base := base, len := len })
  else (5, none)

/-- The first non-zero reason. -/
def firstReason : List Nat → Nat
  | [] => 0
  | r :: rs => if r ≠ 0 then r else firstReason rs

/-! Shape records (R262, R264). -/

/-- A signed 32-bit field. -/
def fldS (r o : Nat) : Int := sgn 32 (fld r o 4)

/-- Parse a shape record; none when a field breaks its limit. -/
def parseShape (r : Nat) : Option Shape :=
  let dim := (List.range 4).map fun k => fld r (8 + 4 * k) 4
  let ext := (List.range 4).map fun k => fld r (40 + 2 * k) 2
  let fmt := fld r 48 1
  if dim.any (· == 0) ∨ ext.any (· == 0) ∨ 15 < fmt ∨ ¬ (fmt ≤ 6 ∨ (8 ≤ fmt ∧ fmt ≤ 13)) ∨ fld r 49 15 ≠ 0 ∨ (fmt = 6 ∧ (dim.getD 0 0 % 4 ≠ 0 ∨ ext.getD 0 0 % 4 ≠ 0)) then none
  else some { base := .ofNat 64 (fld r 0 8), dim := dim, stride := (List.range 4).map fun k => fldS r (24 + 4 * k), ext := ext, fmt := fmt }

/-- A record that has passed its checks becomes the most recent of the cluster's cache of 64. -/
def State.keepShape (s : State) (va : Nat) (sh : Shape) : State := s.mapClu s.myClu fun k =>
  let rest := k.shapes.filter fun e => !(e.1 == s.c.asid && e.2.1 == va)
  { k with shapes := rest.drop (rest.length - 63) ++ [(s.c.asid, va, sh)] }

/-- The shape record at an address, from the cluster's cache or from memory. -/
def State.shapeAt (s : State) (va : Nat) : MR (Option Shape) :=
  match (s.clu s.myClu).shapes.find? fun e => e.1 == s.c.asid && e.2.1 == va with
  | some e => .ok (some e.2.2, s)
  | none => (s.readNum (s.req 8) .clu va 64).map fun r => (parseShape r.1, r.2)

/-- SRFENCE (R265). -/
def execSrfence (a : Option AReg) (s : State) : Out :=
  let drop := match a with
    | none => fun (_ : Nat × Nat × Shape) => true
    | some a => fun e => e.1 == s.c.asid && e.2.1 == (s.c.getA a).toNat
  .next (s.mapClu s.myClu fun k => { k with shapes := k.shapes.filter fun e => !drop e }).retire

/-- The dense format of a tensor command byte. -/
def denseFmt (cmd : Nat) : Option Fmt := if (cmd / 16 ≤ 6 ∨ (8 ≤ cmd / 16 ∧ cmd / 16 ≤ 13)) then fmtNum (cmd / 16) else none

/-- Elements of a shape's box. -/
def Shape.count (sh : Shape) : Nat := sh.ext.foldl (· * ·) 1

/-! Collective records (R267). -/

/-- Parse a collective record for a command; none when it breaks its limits. -/
def parseColl (r cmd : Nat) : Option Coll :=
  let c : Coll := { group := fld r 0 4, seq := fld r 4 4, count := fld r 8 8, nranks := fld r 16 2, rank := fld r 18 2, root := fld r 20 2, fmt := fld r 22 1,
                    op := fld r 23 1, peers := .ofNat 64 (fld r 24 8) }
  if c.count = 0 ∨ 2 ^ 40 < c.count ∨ c.nranks = 0 ∨ 144 < c.nranks ∨ c.nranks ≤ c.rank ∨ (if cmd = 3 then decide (c.nranks ≤ c.root) else c.root != 0)
      ∨ [0, 1, 2, 12].contains c.fmt = false ∨ (if cmd = 0 ∨ cmd = 2 then decide (2 < c.op) else c.op != 0) ∨ fld r 32 32 ≠ 0 then none
  else some c

/-! ENQ (R257). -/

/-- An access of an instruction that issues again once it is performed. -/
def MemOp.isOther : MemOp → Bool
  | .other _ => true
  | _ => false

/-- A place in an overflow area is on a page whose fault another pushing context, of any die, already serves: its FRESUME releases the pushers of
all (R283). -/
def State.spillHeld (s : State) (asid va : Nat) : Bool :=
  (List.range 4).any fun d => (s.die d).replay.any fun e => e.frame != s.self && e.unit_.isNone && e.asid == asid && e.page == va / 65536
    && (s.ctx e.frame).accAll.any fun a => e.aids.contains a.aid && a.op.isOther

/-- A full queue spills its k-th entry to an area. None: the area is exhausted. -/
def State.spillTo (s : State) (r : Req) (area : Nat × Nat) (k : Nat) : Option (Except MFault State) :=
  if area.2 < 64 * (k + 1) then none
  else some (({ s with fresh := s.fresh + 1 } : State).writeNum r .die (area.1 + 64 * k) 64 (Config.spillEntry s.fresh).toNat)

/-- What a push does after an attempt to spill to an area at an address: exhausted, the umpire hears of it once and the pusher waits; a page fault
goes to the first pusher alone. -/
def State.afterSpill (s : State) (r : Req) (base va : Nat) (x : Option (Except MFault State)) (go : State → State) : State :=
  match x with
  | none => (if s.c.wait.isNone then s.machineEvent 0x43 (.ofNat 64 base) s.myCore s.self s.c.pc else s).stall
  | some (.error e) =>
    let at_ := s.writeStop r .die 3 va (bytesOf 64 0)
    if s.spillHeld r.asid at_ then s.stall else s.failAt (e, at_) true
  | some (.ok s) => go s

/-- A push that has to spill the k-th entry of an area. -/
def State.spill (s : State) (r : Req) (area : Nat × Nat) (k : Nat) (go : State → State) : State :=
  s.afterSpill r area.1 (area.1 + 64 * k) (s.spillTo r area k) go

/-- What an ENQ's operand checks give: the reason, a shape and a collective record. -/
abbrev OperandCheck := Nat × Option Shape × Option Coll

/-- The checks of reasons 6, 7 and 8 for a command; a record that cannot be read faults at its own address. -/
def State.enqOperands (s : State) (eng cmd : Nat) (w1 w2 w3 : Word) : ER OperandCheck :=
  let f := s.self
  let no (r : Nat) : ER OperandCheck := .ok ((r, none, none), s)
  match eng with
  | 1 =>
    let n := bitsOf w3 47 0
    if 1 < cmd then no 6
    else
      let ls := isLs w2 || (cmd == 0 && isLs w1)
      let src := cmd != 0 || (s.engAddrOk f w1 true && s.engRangeOk f w1 n)
      let mul := !ls || (n % 16 == 0 && !unaligned w2 16 && (cmd != 0 || !unaligned w1 16))
      if bitsOf w3 63 48 ≠ 0 ∨ (cmd = 1 ∧ n % 8 ≠ 0) ∨ src = false ∨ s.engAddrOk f w2 false = false ∨ s.engRangeOk f w2 n = false ∨ mul = false then no 7 else no 0
  | 2 =>
    match denseFmt cmd with
    | none => no 6
    | some fmt =>
      if 1 < cmd % 16 then no 6
      else if unaligned w1 64 ∨ notVirtual w1 ∨ s.engAddrOk f w2 (decide (cmd % 16 = 1)) = false then no 7
      else
        match s.shapeAt w1.toNat with
        | .error e => .error (e, w1)
        | .ok (none, s) => .ok ((8, none, none), s)
        | .ok (some sh, s) =>
          let t6 := sh.fmt == 6 && bitsOf w3 15 0 % 4 != 0
          if t6 || !s.engAddrOk f sh.base (decide (cmd % 16 = 0)) then .ok ((8, none, none), s)
          else
            let ok := s.engRangeOk f w2 (spanBytes fmt sh.count)
            .ok ((if ok then 0 else 7, if ok then some sh else none, none), s.keepShape w1.toNat sh)
  | 3 =>
    if cmd ≠ 0 then no 6
    else if unaligned w1 64 ∨ notVirtual w1 then no 7
    else
      match s.readNum (s.req 8) .clu w1.toNat 64 with
      | .error e => .error (e, w1)
      | .ok (r, s) => .ok ((if fld r 8 4 < 16 then 7 else 0, none, none), s)
  | _ =>
    if 3 < cmd then no 6
    else if notVirtual w1 ∨ notVirtual w2 ∨ notVirtual w3 then no 7
    else
      match s.readNum (s.req 8) .clu w3.toNat 64 with
      | .error e => .error (e, .ofNat 64 (s.readStop (s.req 8) .clu 3 w3.toNat 64))
      | .ok (r, s) =>
        match parseColl r cmd with
        | none => .ok ((7, none, none), s)
        | some c => .ok ((0, none, some c), s)

/-- ENQ: refused with a reason, or accepted. With the queue's 64 entries full the command is spilled; an exhausted overflow area holds the ENQ
(R251, R283). -/
def execEnq (d : XReg) (j : Fin 7) (b : AReg) (s : State) : Out :=
  let cw := s.c.cmdWord j 0
  let fpa := s.c.getA b + .ofNat 64 (bitsOf cw 63 32)
  match s.readNum (s.req 8) .clu fpa.toNat 64 with
  | .error e => .next (s.memFail e (.ofNat 64 (s.readStop (s.req 8) .clu 3 fpa.toNat 64)) false)
  | .ok (fp, s) =>
    let eng := bitsOf cw 7 0
    let sc := bitsOf cw 21 19
    let reg := fun (k : Nat) => s.regionOf s.self (fld fp 48 1 / 4 ^ k % 4) (fld fp (49 + k) 1) (fld fp (16 * k) 8) (fld fp (16 * k + 8) 8)
    let r1 := if eng = 0 ∨ 4 < eng then 1 else 0
    let r2 := if 5 < sc then 2 else 0
    let r3 := if bitsOf cw 63 32 % 64 ≠ 0 then 3 else 0
    let r4 := if bitsOf cw 31 23 ≠ 0 ∨ 64 ≤ fld fp 48 1 ∨ fld fp 52 12 ≠ 0 then 4 else 0
    let early := firstReason [r1, r2, r3, r4, (reg 0).1, (reg 1).1, (reg 2).1]
    let refuse (s : State) (r : Nat) : State := s.done fun c => c.setX d (.ofNat 64 (2 ^ 63 + r))
    if early ≠ 0 then .next (refuse s early)
    else
      match s.enqOperands eng (bitsOf cw 15 8) (s.c.cmdWord j 1) (s.c.cmdWord j 2) (s.c.cmdWord j 3) with
      | .error e => .next (s.memFail e.1 e.2 false)
      | .ok ((r, sh, co), s) =>
        if r ≠ 0 then .next (refuse s r)
        else
          let put (spilled : Bool) (s : State) : State :=
            let k := s.clu s.myClu
            let job : Job := { q := k.q, frame := s.self, gen := s.c.gen, asid := s.c.asid, pc := s.c.pc, engine := eng, cmd := bitsOf cw 15 8, barrier := cw.getLsbD 22,
                               scope := (scopeNum sc).getD .clu, prio := bitsOf cw 18 16, w1 := s.c.cmdWord j 1, w2 := s.c.cmdWord j 2, w3 := s.c.cmdWord j 3,
                               rd0 := (reg 0).2, rd1 := (reg 1).2, wr := (reg 2).2, fctl := s.c.cr.fctl, shape := sh, coll := co, sup := s.c.st.sup, state := 1,
                               detail := 0, mark := 0, elig := none, chan := none, team := s.c.team, saved := [], flags := 0, released := [], peers := [],
                               begun := false, fin := false, win := (16384 * s.c.st.lsbase.toNat, s.c.window), spilled := spilled, resume := false, ending := none }
            let q := if k.q = 2 ^ 32 - 1 then 1 else k.q + 1
            let s := s.setClu s.myClu (({ k with jobs := k.jobs ++ [job], q := q } : CluSt).settleJobs s.time)
            s.done fun c => c.setX d (.ofNat 64 (jobId s.myClu job.q))
          let k := s.clu s.myClu
          if k.openJobs false < 64 then .next (put false s) else .next (s.spill (s.req 12) k.ovf (k.openJobs true) (put true))

/-! Observing and cancelling (R258, R259). -/

/-- The job an id names in the issuing context's cluster. -/
def State.jobOf (s : State) (id : Word) : Option Job :=
  if bitsOf id 63 32 = s.myClu ∧ bitsOf id 31 0 ≠ 0 then (s.clu s.myClu).job (bitsOf id 31 0) else none

/-- Write a job's state word; a terminal state makes its writes released writes of the context (R182). -/
def State.observe (s : State) (d : XReg) (j : Option Job) : State :=
  match j with
  | none => s.done fun c => c.setX d 0
  | some j =>
    let w := (s.clu s.myClu).stateWord j
    s.done fun c =>
      let c := if terminal j.state && j.frame == s.self && j.gen == c.gen then
          { c with released := c.released ++ j.released.filter fun l => !c.released.contains l } else c
      c.setX d w

/-- JPOLL. -/
def execJpoll (d a : XReg) (s : State) : Out := .next (s.observe d (s.jobOf (s.c.getX a)))
/-- JWAIT. -/
def execJwait (d a : XReg) (s : State) : Out :=
  match s.jobOf (s.c.getX a) with
  | some j => if terminal j.state then .next (s.observe d (some j)) else .next s.stall
  | none => .next (s.observe d none)

/-- Free a job's channel, and its held accesses and pending upcall. -/
def State.dropJobUnits (s : State) (clu : Nat) (j : Job) : State :=
  let die := dieOf clu
  let mine := (s.die die).replay.filter fun e => e.unit_ == some (1, clu, j.q)
  let s := s.mapDie die fun d => { d with replay := d.replay.filter fun e => e.unit_ != some (1, clu, j.q) }
  let s := s.mapCtx j.frame fun c => { c with pending := c.pending.filter fun u => !(mine.any fun e => e.token die == u.token && u.code == e.code) }
  s.mapCore (coreOf j.frame) fun k => { k with chans := k.chans.filter (· != j.q) }

/-- A job ends in a terminal state with a detail; its flags go to the submitting context. Its place is free for a spilled command, and jobs it
ordered become eligible. -/
def State.endJob (s : State) (clu : Nat) (j : Job) (st detail : Nat) : State :=
  let s := s.dropJobUnits clu j
  let s := (s.mapJob clu j.q fun x => { x with state := st, detail := detail }).mapClu clu (·.settleJobs s.time)
  s.mapOwner j.frame j.gen (·.orFlags j.flags)

/-- The `where` word of a job (R365). -/
def jobWhere (clu : Nat) (j : Job) : Word := .ofNat 64 (2 ^ 63 + jobId clu j.q)

/-- The machine event of a job's physical-address fault or uncorrectable error (R255). -/
def State.jobEvent (s : State) (clu : Nat) (j : Job) : State :=
  s.machineEvent 0x41 (.ofNat 64 (jobId clu j.q)) (coreOf j.frame) j.frame (jobWhere clu j)

/-- A job is suspended by a replayable fault, with its upcall, if the replay buffer has a place (R255). -/
def State.suspendJob (s : State) (clu : Nat) (j : Job) (code kind : Nat) (va : Word) (wr : Bool) : State :=
  let h := s.holdUnit j.frame j.gen (1, clu, j.q) j.asid code kind va wr (jobWhere clu j)
  if h.2 then h.1.mapJob clu j.q fun x => { x with state := 3, resume := false } else s

/-- Has a job a write on its way to the device window? A supervisor's job alone may (R394). -/
def State.jobPosted (s : State) (j : Job) : Bool :=
  j.sup && s.agenda.any fun t => match t with
    | .posted _ _ => true
    | _ => false

/-- A job has no more to do but its completion release, after which it ends so. -/
def Job.closing (j : Job) (st detail : Nat) (written : List (Nat × Nat)) : Job :=
  { j with state := 2, fin := true, resume := false, ending := some (st, detail), released := written }

/-- A job comes to a terminal state. Before it does, what it wrote is performed at its command's scope (R203), its writes to the device window with it.
A line that cannot be written back is a fault of the job: a replayable one suspends it, and it comes to its end when it has resumed; another
fails it (R255). -/
def State.closeJob (s : State) (clu : Nat) (j : Job) (st detail : Nat) : State :=
  if s.jobPosted j then s.mapJob clu j.q (·.closing st detail j.released)
  else
    match s.publishAll clu j.scope j.released with
    | (s, none) => s.endJob clu j st detail
    | (s, some e) =>
      let s := (s.dropJobUnits clu j).mapJob clu j.q (·.closing st detail j.released)
      match e.1 with
      | .page k => s.suspendJob clu j 1 k (.ofNat 64 e.2) true
      | .comp code k => s.suspendJob clu j code k (.ofNat 64 e.2) true
      | .busy => s
      | _ => (if st = 8 ∧ detail = 5 then s else s.jobEvent clu j).endJob clu j 8 5

/-- Cancel a job, if it has not ended. -/
def State.cancelJob (s : State) (clu : Nat) (j : Job) : State :=
  if terminal j.state then s
  else
    match j.ending with
    | some x => s.closeJob clu j x.1 x.2
    | none => s.closeJob clu j 6 0

/-- JCANCEL. -/
def execJcancel (d a : XReg) (s : State) : Out :=
  match s.jobOf (s.c.getX a) with
  | none => .next (s.observe d none)
  | some j =>
    let w := (s.clu s.myClu).stateWord j
    .next ((s.cancelJob s.myClu j).done fun c => c.setX d w)

/-! Running jobs. -/

/-- A job fails: a machine event reports an access error, and what it wrote is published (R255). -/
def State.failJob (s : State) (clu : Nat) (j : Job) (detail : Nat) : State :=
  (if detail = 5 then s.jobEvent clu j else s).closeJob clu j 8 detail

/-- Is an address in a block of a compressed page whose stream is corrupt? -/
def State.corruptAt (s : State) (asid va : Nat) : Bool :=
  match s.walk asid va with
  | .error _ => false
  | .ok (leaf, size) =>
    let t := transOf leaf size va
    t.comp && (match s.readBlock asid t.cb t.pa with
      | .ok none => true
      | _ => false)

/-- Do the accesses of a job to virtual memory go through a DMA port (R173, R254)? -/
def Job.dma (j : Job) : Bool :=
  match j.engine with
  | 1 => j.cmd == 0 && (isLs j.w1 || isLs j.w2)
  | 2 => isLs j.w2 || j.shape.any fun sh => isLs sh.base
  | _ => false

/-- A fault of a job's access at an address (R255): it is suspended at its mark, with what it wrote published, or fails. A corrupt stream goes to the
umpire as well (R175). Where what it wrote cannot be published, that fault comes first: once it has resumed, the access is tried again. The misses
of the fill are counted (R362). -/
def State.jobFault (s : State) (clu : Nat) (j : Job) (e : MFault) (va : Word) (wr : Bool) : State :=
  let s := if e.missed then s.countMisses (j.req clu (if wr then 12 else 8)) .die va.toNat else s
  let held (code kind : Nat) : State :=
    match s.publishAll clu j.scope j.released with
    | (s, none) => s.suspendJob clu j code kind va wr
    | (s, some (.page k, a)) => s.suspendJob clu j 1 k (.ofNat 64 a) true
    | (s, some (.comp code k, a)) => s.suspendJob clu j code k (.ofNat 64 a) true
    | (s, some (.busy, _)) => s
    | (s, some _) => s.failJob clu j 5
  match e with
  | .page k => held 1 k
  | .comp code k => held code k
  | .busy => s
  | .poison =>
    let s := if !j.dma then s.keepFill (j.req clu 8) .die va.toNat j.frame (jobWhere clu j)
      else if s.corruptAt j.asid va.toNat then s.machineEvent 0x40 va (coreOf j.frame) j.frame (jobWhere clu j) else s
    s.failJob clu j 5
  | _ => s.failJob clu j 5

/-- The destination of a copy-engine job is a local store of another core (R261). -/
def Job.channel (j : Job) (clu : Nat) : Bool := j.engine == 1 && isLs j.w2 && engCore (dieOf clu) j.w2 != coreOf j.frame

/-- The progress measure's end. -/
def Job.total (j : Job) : Nat :=
  match j.engine with
  | 1 => bitsOf j.w3 47 0
  | 2 => match j.shape with | some sh => sh.count | none => 0
  | 4 => match j.coll with | some c => if j.cmd = 1 then c.nranks * c.count else c.count | none => 0
  | _ => 0

/-- The coordinates of element n of a box. -/
def boxCoord (ext : List Nat) (n : Nat) : List Nat :=
  match ext with
  | [] => []
  | e :: t => n % e :: boxCoord t (n / e)

/-- The origin of a tensor command. -/
def origin (w3 : Word) : List Nat := (List.range 4).map fun k => w3.toNat / 2 ^ (16 * k) % 65536

/-- Element n of a tensor job: its address, its place in a packed group, and whether it lies inside the tensor. -/
def tensorElem (sh : Shape) (w3 : Word) (n : Nat) : Word × Nat × Bool :=
  let g := (boxCoord sh.ext n).zipWith (· + ·) (origin w3)
  let inside := (g.zip sh.dim).all fun p => decide (p.1 < p.2)
  let gs := g.zip sh.stride
  let off : Int := if sh.fmt = 6 then ((gs.drop 1).foldl (fun (o : Int) (p : Nat × Int) => o + (p.1 : Int) * p.2) 0) + 3 * (g.getD 0 0 / 4 : Nat) else gs.foldl (fun (o : Int) (p : Nat × Int) => o + (p.1 : Int) * p.2) 0
  (sh.base + BitVec.ofInt 64 off, g.getD 0 0 % 4, inside)

/-- The element format of a shape. -/
def Shape.format (sh : Shape) : Fmt := (fmtNum sh.fmt).getD .f32

/-- A tensor job is malformed at its start (R263): an element address is not a multiple of the element size, inside the tensor or not, or one inside
it passes the window of a local-store base. -/
def Job.tensorBad (j : Job) (sh : Shape) : Bool :=
  let dfmt := (denseFmt j.cmd).getD .f32
  let e := if sh.fmt = 6 then 1 else fmtBytes sh.format
  let n := if sh.fmt = 6 then 3 else e
  (dfmt != .t6 && unaligned j.w2 (fmtBytes dfmt)) || (List.range sh.count).any fun k =>
    let x := tensorElem sh j.w3 k
    unaligned x.1 e || (x.2.2 && (isLs sh.base && (!isLs x.1 || bitsOf x.1 62 18 != bitsOf sh.base 62 18 || decide (j.win.2 < lsOff x.1 + n))))

/-- JOB_START (R253, R260, R261): if one of 4 places is free, the first job that may resume goes on; else, among eligible queued jobs, that of the
highest effective priority starts. A channel copy waits for a channel, and a spilled command to be taken back. A command of length 0 is done at once. -/
def execJobStart (clu : Nat) (s : State) : Out :=
  let k := s.clu clu
  let prio := fun (j : Job) => min 7 (j.prio + (match j.elig with | some t => (s.time - t).toNat / 4096 | none => 0))
  let ready := (eligibleJobs [] k.jobs).filter fun j => !j.spilled && (!j.channel clu || decide ((s.core (coreOf j.frame)).chans.length < 4))
  if 4 ≤ (k.jobs.filter (·.state == 2)).length then .next s
  else
    match k.jobs.find? fun j => j.resume && (j.state == 3 || j.state == 4) with
    | some j => .next (s.mapJob clu j.q fun x => { x with state := 2, resume := false })
    | none =>
    match ready.foldl (fun (b : Option Job) j => match b with | none => some j | some x => if prio x < prio j then some j else some x) none with
    | none => .next s
    | some j =>
      if j.engine == 2 && (match j.shape with | some sh => j.tensorBad sh | none => true) then .next (s.failJob clu j 1)
      else if j.engine == 1 && bitsOf j.w3 47 0 == 0 then .next (s.closeJob clu j 5 0)
      else
        let s := s.mapJob clu j.q fun x => { x with state := 2, chan := if j.channel clu then some (j.team.getD 0, s.dev.partition) else none }
        .next (if j.channel clu then s.mapCore (coreOf j.frame) fun c => { c with chans := c.chans ++ [j.q] } else s)

/-- Continue a running job of an engine and command that is not yet done. -/
def State.jobTurn (s : State) (clu q : Nat) (p : Job → Bool) (act : State → Job → State) : Out :=
  match (s.clu clu).job q with
  | some j => if j.state == 2 && !j.fin && p j then .next (act s j) else .next s
  | none => .next s

/-- A job's progress. -/
def State.progress (s : State) (clu : Nat) (j : Job) : State := s.mapJob clu j.q fun _ => { j with fin := decide (j.total ≤ j.mark) }

/-- The next stretch of a copy's destination: to the end of its line, or of its block in a compressed page. -/
def copySpan (dst : Word) (left : Nat) (comp : Bool) : Nat := min left (if comp then 4096 - dst.toNat % 4096 else 64 - dst.toNat % 64)

/-- The next stretch of a FILL's destination: whole elements of 8 bytes (R376). -/
def fillSpan (dst : Word) (left : Nat) : Nat := min left (max 8 ((64 - dst.toNat % 64) / 8 * 8))

/-- Write the next stretch of a copy-engine job's destination. While its channel's partition is switched out, its remainder is PENDING (R261). -/
def State.copyStep (s : State) (clu : Nat) (j : Job) (src : State → Nat → Nat → ER (List Byte)) : State :=
  let dst := j.w2 + .ofNat 64 j.mark
  let dma := isLs j.w1 && j.cmd == 0
  if (match j.chan with | some (_, p) => p != s.dev.partition | none => false) then s.mapJob clu j.q fun x => { x with state := 4 }
  else if s.windowHeld j = false then s.failJob clu j 2
  else
    let comp := match (if dma then s.dmaComp (j.req clu 12) dst.toNat else .ok (none, s)) with
      | .ok (some _, _) => true
      | _ => false
    let k := if j.cmd = 1 then fillSpan dst (j.total - j.mark) else copySpan dst (j.total - j.mark) comp
    match src s j.mark k with
    | .error e => s.jobFault clu j e.1 e.2 false
    | .ok (bs, s) =>
      match s.engWrite clu j dma dst (lsOff j.w2 + j.total) bs with
      | .error e => s.jobFault clu j e.1 e.2 true
      | .ok s => s.progress clu { (j.wrote dst k) with mark := j.mark + k }

/-- Do the source and destination of a copy overlap? -/
def Job.selfOverlap (j : Job) : Bool :=
  let n := bitsOf j.w3 47 0
  decide (j.w1.toNat < j.w2.toNat + n ∧ j.w2.toNat < j.w1.toNat + n) && j.w1 != j.w2

/-- COPY (R260): up to a line's bytes in ascending order; where the ranges overlap, the source is taken first as it stood. -/
def execCopyJob (clu q : Nat) (s : State) : Out :=
  s.jobTurn clu q (fun j => j.engine == 1 && j.cmd == 0) fun s j =>
    let dma := isLs j.w2
    if j.selfOverlap && j.saved.isEmpty && s.windowHeld j then
      match s.engRead clu j dma j.w1 j.total with
      | .error e => s.jobFault clu j e.1 e.2 false
      | .ok (bs, s) => s.mapJob clu q fun x => { x with saved := bs }
    else s.copyStep clu j fun s m k => if j.selfOverlap then .ok ((j.saved.drop m).take k, s) else s.engRead clu j dma (j.w1 + .ofNat 64 m) k

/-- FILL (R260). -/
def execFillJob (clu q : Nat) (s : State) : Out :=
  s.jobTurn clu q (fun j => j.engine == 1 && j.cmd == 1) fun s j =>
    s.copyStep clu j fun s m k => .ok ((List.range k).map fun i => .ofNat 8 (j.w1.toNat / 2 ^ (8 * ((m + i) % 8))), s)

/-- The elements a tensor job handles together: a packed group of 4, or one. -/
def Job.group (j : Job) (sh : Shape) : Nat := if denseFmt j.cmd = some .t6 ∨ sh.fmt = 6 then 4 else 1

/-- Read elements of the tensor for GATHER: converted dense values and flags; outside elements are +0. -/
def State.gatherElems (s : State) (clu : Nat) (j : Job) (sh : Shape) : List Nat → Except (MFault × Word) ((List Nat × Fl) × State)
  | [] => .ok (([], 0), s)
  | n :: ns =>
    let x := tensorElem sh j.w3 n
    let one : Except (MFault × Word) ((Nat × Fl) × State) :=
      if x.2.2 = false then .ok ((0, 0), s)
      else
        match s.engRead clu j (isLs j.w2) x.1 (if sh.fmt = 6 then 3 else fmtBytes sh.format) (isLs sh.base) with
        | .error e => .error e
        | .ok (bs, s) =>
          let v := convert ((denseFmt j.cmd).getD .f32) sh.format j.fctl (elemAt sh.format bs (if sh.fmt = 6 then x.2.1 else 0))
          .ok ((v.bits, v.fl), s)
    match one with
    | .error e => .error e
    | .ok (v, s) =>
      match s.gatherElems clu j sh ns with
      | .error e => .error e
      | .ok (vs, s) => .ok ((v.1 :: vs.1, v.2 ||| vs.2), s)

/-- GATHER (R263): the next element, or packed group, of the dense side. -/
def execGatherJob (clu q : Nat) (s : State) : Out :=
  s.jobTurn clu q (fun j => j.engine == 2 && j.cmd % 16 == 0) fun s j =>
    match j.shape with
    | none => s
    | some sh =>
      let dfmt := (denseFmt j.cmd).getD .f32
      let ns := ((List.range (j.group sh)).map (j.mark + ·)).filter (· < sh.count)
      if s.windowHeld j = false then s.failJob clu j 2
      else
        match s.gatherElems clu j sh ns with
        | .error (e, a) => s.jobFault clu j e a false
        | .ok (vs, s) =>
          let pad := if dfmt = .t6 then List.replicate (4 - vs.1.length) 0 else []
          let bs := packElems dfmt (vs.1 ++ pad)
          let dst := j.w2 + .ofNat 64 (elemOff dfmt j.mark)
          match s.engWrite clu j (isLs sh.base) dst (lsOff j.w2 + spanBytes dfmt sh.count) bs with
          | .error e => s.jobFault clu j e.1 e.2 true
          | .ok s => s.progress clu { (j.wrote dst bs.length) with mark := j.mark + ns.length, flags := j.flags ||| vs.2 }

/-- Does an element of a SCATTER from the n-th on write to a granule of the window? -/
def Job.laterIn (j : Job) (sh : Shape) (n g : Nat) : Bool :=
  let len := if sh.fmt = 6 then 3 else fmtBytes sh.format
  ((List.range (sh.count - n)).map (n + ·)).any fun k =>
    let x := tensorElem sh j.w3 k
    x.2.2 && decide (lsOff x.1 / 16 ≤ g) && decide (g ≤ (lsOff x.1 + len - 1) / 16)

/-- The writes of the elements of one turn of a SCATTER, converted, that lie inside the tensor: the number of the element, or of the last of a T6
group, its address and its bytes. -/
def Job.scatterWrites (j : Job) (sh : Shape) (vs : List (Nat × FR)) : List (Nat × Word × List Byte) :=
  if sh.fmt = 6 then
    match vs with
    | v :: _ => let x := tensorElem sh j.w3 v.1; if x.2.2 then [(v.1 + 3, x.1, packElems .t6 (vs.map (·.2.bits)))] else []
    | [] => []
  else vs.filterMap fun p => let x := tensorElem sh j.w3 p.1; if x.2.2 then some (p.1, x.1, bytesOf (fmtBytes sh.format) p.2.bits) else none

/-- Perform the writes of a turn of a SCATTER, one after another. -/
def State.scatterAll (s : State) (clu : Nat) (sh : Shape) (j : Job) : List (Nat × Word × List Byte) → ER Job
  | [] => .ok (j, s)
  | w :: ws =>
    match s.engScatter clu j (isLs j.w2) w.2.1 (isLs sh.base) (j.laterIn sh (w.1 + 1)) w.2.2 with
    | .error e => .error e
    | .ok s => s.scatterAll clu sh (j.wrote w.2.1 w.2.2.length) ws

/-- SCATTER (R263): the next element, or packed group, from the dense side. -/
def execScatterJob (clu q : Nat) (s : State) : Out :=
  s.jobTurn clu q (fun j => j.engine == 2 && j.cmd % 16 == 1) fun s j =>
    match j.shape with
    | none => s
    | some sh =>
      let dfmt := (denseFmt j.cmd).getD .f32
      let ns := ((List.range (j.group sh)).map (j.mark + ·)).filter (· < sh.count)
      let src := j.w2 + .ofNat 64 (elemOff dfmt j.mark)
      if s.windowHeld j = false then s.failJob clu j 2
      else
        match s.engRead clu j (isLs sh.base) src (spanBytes dfmt ns.length) with
        | .error e => s.jobFault clu j e.1 e.2 false
        | .ok (bs, s) =>
          let vs := ns.zipIdx.map fun (n, k) => (n, convert sh.format dfmt j.fctl (elemAt dfmt bs k))
          let fl := vs.foldl (fun (f : Fl) p => if (tensorElem sh j.w3 p.1).2.2 then f ||| p.2.fl else f) 0
          let next := j.mark + ns.length
          match s.scatterAll clu sh j (j.scatterWrites sh vs) with
          | .error e => s.jobFault clu j e.1 e.2 true
          | .ok (j, s) => s.progress clu { j with mark := next, flags := j.flags ||| fl }

/-- POST (R266): reserve a slot of the ring, write the chunk's words, publish. A descriptor that breaks a limit of R271 ends it FAILED with detail 5
and event 0x41: DESIGN CHOICE (log 79). -/
def execPostJob (clu q : Nat) (s : State) : Out :=
  s.jobTurn clu q (fun j => j.engine == 3) fun s j =>
    let r := j.req clu 12
    let desc := j.w1.toNat
    match s.readNum r .clu desc 64 with
    | .error e => s.jobFault clu j e j.w1 true
    | .ok (d, s') =>
      let owner := fld d 48 4
      if owner % 2 = 1 ∧ (s.core (coreOf (ownerFrame owner))).role.getLsbD 0 = false ∨ owner % 2 = 0 then s'.failJob clu j 3
      else
        match s'.ringAt r desc (fun x => (ringRes x).map (·.2)) with
        | .error e => s.jobFault clu j e j.w1 true
        | .ok (old, s1) =>
          if ringBad old then s.failJob clu j 5
          else
            match ringRes old with
            | none => s1
            | some (seq, _) =>
              let slot := fld old 0 8 + seq % ringCap old * fld old 8 4
              match s1.engWriteVa r false 3 slot (bytesOf 8 j.w2.toNat ++ bytesOf 8 j.w3.toNat) with
              | .error e => s.jobFault clu j e.1 e.2 true
              | .ok s2 =>
                let j := j.wrote (.ofNat 64 slot) 16
                match s2.publish clu (ringScope old) j.released with
                | .error e => s.jobFault clu j e (.ofNat 64 slot) true
                | .ok s3 =>
                  match s3.ringAt r desc (fun x => ringPub x seq s.time.toNat) with
                  | .error e => s.jobFault clu j e j.w1 true
                  | .ok (pre, s4) =>
                    let s5 := match ringPub pre seq s.time.toNat with
                      | some new => s4.ringTimer j.asid desc new
                      | none => s4
                    s5.mapJob clu q fun _ => { j with fin := true }

/-! Collectives (R267, R268). -/

/-- Do the peers cover every other rank once? -/
def peersFull (c : Coll) (peers : List Peer) : Bool :=
  ((List.range c.nranks).filter (· != c.rank)).all fun r => (peers.filter (·.rank == r)).length == 1

/-- A collective's destination becomes undefined, and the job ends aborted (R268). -/
def State.abortColl (s : State) (clu : Nat) (j : Job) (c : Coll) : State :=
  let n := j.total * fmtBytes ((fmtNum c.fmt).getD .f32)
  let bytes := (List.range n).map fun k => Config.freeByte (s.fresh + k)
  let s := { s with fresh := s.fresh + n }
  let s := match s.engWrite clu j false j.w2 0 bytes with
    | .ok s => s
    | .error _ => s
  s.closeJob clu (j.wrote j.w2 n) 7 0

/-- COLLECTIVE_START (R267): what the other ranks tell. When every rank's job has started, the collective starts; on ranks that disagree the job
fails. When a rank has left, because its context was killed or its job cancelled, the job ends aborted, whatever its state, and its destination is
undefined (R268). -/
def execCollectiveStart (clu q : Nat) (peers : List Peer) (s : State) : Out :=
  match (s.clu clu).job q with
  | none => .next s
  | some j =>
    match j.coll with
    | none => .next s
    | some c =>
      if terminal j.state ∨ j.fin then .next s
      else if peers.any (·.gone) ∨ (j.begun ∧ peersFull c peers = false) then .next (s.abortColl clu j c)
      else if j.state ≠ 2 then .next s
      else if j.begun = false then
        if peersFull c peers = false then .next s
        else if peers.all fun p => p.cmd == j.cmd && p.group == c.group && p.seq == c.seq && p.count == c.count && p.nranks == c.nranks && p.root == c.root
            && p.fmt == c.fmt && p.op == c.op then
          .next (s.mapJob clu q fun x => { x with begun := true, peers := peers })
        else .next (s.failJob clu j 4)
      else .next s

/-- An element for a reduction: FP16 and BF16 are converted exactly to FP32. -/
def collElem (fmt : Fmt) (v : Nat) : Nat := if fmt = .si32 then v else (convert .f32 fmt 0 v).bits

/-- The reduction of the ranks' elements, in rank order (R268). Its conversions and adds set no flag: a flag belongs to a context, and the spec names
none for work of several ranks: DESIGN CHOICE (log 93). -/
def collReduce (fmt : Fmt) (op : Nat) (vs : List Nat) : Nat :=
  let o : RedOp := if op = 1 then .min else if op = 2 then .max else .add
  let wide : Fmt := if fmt = .si32 then .si32 else .f32
  let leaves := vs.map fun v => (some (collElem fmt v), (0 : Fl))
  let r := (((redTree o wide .rne 8 leaves).headD (none, 0)).1).getD 0
  if fmt = .si32 then r else (convert fmt .f32 0 r).bits

/-- One element of a collective at this rank: element n, its source index here and in the peers, or the single rank it comes from. -/
def State.collStep (s : State) (clu : Nat) (j : Job) (c : Coll) (idx : Nat) (only : Option Nat) : State :=
  let fmt := (fmtNum c.fmt).getD .f32
  let sz := fmtBytes fmt
  let own : ER Nat :=
    match only with
    | some r => if r = c.rank then (s.engRead clu j false (j.w1 + .ofNat 64 (idx * sz)) sz).map fun p => (wordOfBytes p.1, p.2) else .ok (0, s)
    | none => (s.engRead clu j false (j.w1 + .ofNat 64 (idx * sz)) sz).map fun p => (wordOfBytes p.1, p.2)
  match own with
  | .error e => s.jobFault clu j e.1 e.2 false
  | .ok (mine, s) =>
    let at_ := fun (r : Nat) => if r = c.rank then mine else
      match j.peers.find? (·.rank == r) with
      | some p => (p.data.getD idx 0).toNat % 2 ^ (8 * sz)
      | none => 0
    let v := match only with
      | some r => at_ r
      | none => collReduce fmt c.op ((List.range c.nranks).map at_)
    let dst := j.w2 + .ofNat 64 (j.mark * sz)
    match s.engWrite clu j false dst 0 (bytesOf sz v) with
    | .error e => s.jobFault clu j e.1 e.2 true
    | .ok s => s.progress clu { (j.wrote dst sz) with mark := j.mark + 1 }

/-- A collective's turn. -/
def State.collTurn (s : State) (clu q cmd : Nat) (act : State → Job → Coll → State) : Out :=
  s.jobTurn clu q (fun j => j.engine == 4 && j.cmd == cmd && j.begun) fun s j =>
    match j.coll with
    | some c => act s j c
    | none => s

/-- ALL_REDUCE: the next element. -/
def execAllReduce (clu q : Nat) (s : State) : Out := s.collTurn clu q 0 fun s j c => s.collStep clu j c j.mark none
/-- ALL_GATHER: the next element, of the rank whose block it is in. -/
def execAllGather (clu q : Nat) (s : State) : Out := s.collTurn clu q 1 fun s j c => s.collStep clu j c (j.mark % c.count) (some (j.mark / c.count))
/-- REDUCE_SCATTER: the next element of this rank's block. -/
def execReduceScatter (clu q : Nat) (s : State) : Out := s.collTurn clu q 2 fun s j c => s.collStep clu j c (c.rank * c.count + j.mark) none
/-- BROADCAST: the root's next element. -/
def execBroadcast (clu q : Nat) (s : State) : Out := s.collTurn clu q 3 fun s j c => s.collStep clu j c j.mark (some c.root)

/-- JOB_COMPLETION (R203, R254): what the job wrote is published at its scope, and it is DONE, or what else it comes to. -/
def execJobCompletion (clu q : Nat) (s : State) : Out :=
  match (s.clu clu).job q with
  | none => .next s
  | some j =>
    if j.state = 2 ∧ j.fin then
      match j.ending with
      | some x => .next (s.closeJob clu j x.1 x.2)
      | none => .next (s.closeJob clu j 5 0)
    else .next s

end Sys2Proof.Machine
end

