-- ==== Sys2Proof/Machine/Delta.lean ====
section
/-! DEFINITION. Delta queues, arrangements and barriers (R274 to R283). -/

namespace Sys2Proof.Machine

open Sys2Proof

/-! Upcalls raised by an instruction that has performed its effect. -/

/-- Raise an upcall that holds no access, from the selected context's instruction (R366). -/
def State.softUpcall (s : State) (code info : Nat) (addr : Word) : State :=
  s.addUpcall s.self { code := code, info := info, addr := addr, token := 0, whence := s.c.pc, soft := false, park := none }

/-- The delta-order fault. -/
def State.deltaOrder (s : State) (desc : Word) : State := s.raise 0x2D 0 desc

/-! Records (R274). -/

/-- The record in 64 bytes; bytes 56 to 63 are ignored. -/
def drecOf (r : Nat) : DRec :=
  { key := fld r 0 8, time := fld r 8 4, mult := (BitVec.ofNat 32 (fld r 12 4)).toInt, value := fld r 16 40 }

/-- The 64 bytes the hardware writes for a record. -/
def DRec.num (d : DRec) : Nat :=
  d.key % 2 ^ 64 + d.time % 2 ^ 32 * 2 ^ 64 + (BitVec.ofInt 32 d.mult).toNat * 2 ^ 96 + d.value % 2 ^ 320 * 2 ^ 128

/-- The order of consolidation: time, key, value. -/
def DRec.le (a b : DRec) : Bool :=
  decide (a.time < b.time) || (a.time == b.time && (decide (a.key < b.key) || (a.key == b.key && decide (a.value ≤ b.value))))

/-- The same time, key and value. -/
def DRec.same (a b : DRec) : Bool := a.time == b.time && a.key == b.key && a.value == b.value

/-- Insert into a sorted list, after equal members. -/
def insertBy {α : Type} (le : α → α → Bool) (x : α) : List α → List α
  | [] => [x]
  | y :: ys => if le y x then y :: insertBy le x ys else x :: y :: ys

/-- Sort, stably. -/
def sortBy {α : Type} (le : α → α → Bool) (l : List α) : List α := l.foldl (fun acc x => insertBy le x acc) []

/-- Merge runs of a sorted list: exact sums. -/
def sumRuns : List DRec → List DRec
  | [] => []
  | r :: rs =>
    match sumRuns rs with
    | [] => [r]
    | q :: qs => if r.same q then { q with mult := r.mult + q.mult } :: qs else r :: q :: qs

/-- A multiplicity fits in SI32. -/
def si32 (m : Int) : Bool := decide (-2 ^ 31 ≤ m) && decide (m < 2 ^ 31)

/-- Consolidate records (R275); none when a sum lies outside SI32. -/
def consolidate (u : List DRec) : Option (List DRec) :=
  let rs := (sumRuns (sortBy DRec.le u)).filter (·.mult != 0)
  if rs.all fun r => si32 r.mult then some rs else none

/-! Queues and frontiers (R274, R276). -/

/-- A delta-queue descriptor breaks a limit. -/
def dqBad (r : Nat) : Bool :=
  let cap := fld r 24 4
  let thr := fld r 28 4
  decide (fld r 16 8 % 64 ≠ 0 ∨ cap < 64 ∨ 2 ^ 24 < cap ∨ thr < 1 ∨ cap < thr ∨ fld r 48 1 < 1 ∨ 16 < fld r 48 1 ∨ 7 < fld r 49 1 ∨ fld r 50 1 < 1
    ∨ 8 < fld r 50 1 ∨ 15 < fld r 51 1 ∨ fld r 52 12 ≠ 0)

/-- The queue of a descriptor, keeping the records and invocations of one already served. -/
def dqOf (asid desc die : Nat) (r : Nat) (old : Option DQ) : DQ :=
  { asid := asid, desc := desc, die := die, entry := .ofNat 64 (fld r 0 8), arr := fld r 8 8, buf := fld r 16 8, bufcap := fld r 24 4, thresh := fld r 28 4,
    ovf := fld r 32 8, ovflen := fld r 40 8, maxinv := fld r 48 1, prio := fld r 49 1, nslots := fld r 50 1, lsblk := fld r 51 1 + 1,
    front := (List.range 8).map (fun k => fld r (64 + 4 * k) 4), link := (List.range 8).map (fun k => fld r (96 + 8 * k) 8),
    raw := (old.map (·.raw)).getD [], cons := (old.map (·.cons)).getD [], counted := (old.map (·.counted)).getD [] }

/-- The unconsumed records. -/
def DQ.records (q : DQ) : List DRec := q.cons ++ q.raw

/-- The number of the queue of a descriptor. -/
def State.dqFind (s : State) (asid desc : Nat) : Option Nat := s.dqs.findIdx? fun q => q.asid == asid && q.desc == desc

/-- Change a queue. -/
def State.mapDq (s : State) (n : Nat) (g : DQ → DQ) : State := { s with dqs := s.dqs.modify n g }

/-- Add a queue, or replace the one of the same descriptor. -/
def State.putDq (s : State) (q : DQ) : State :=
  match s.dqFind q.asid q.desc with
  | some n => s.mapDq n fun _ => q
  | none => { s with dqs := s.dqs ++ [q] }

/-- The lesser of two frontiers, if both have a value. -/
def minFront : Option Nat → Option Nat → Option Nat
  | some a, some b => some (min a b)
  | _, _ => none

/-- Fout of a queue (R276), to a depth; none for a chain that is deeper. A queue the hardware does not serve has frontier 0. -/
def State.fout (s : State) (asid : Nat) : Nat → Nat → Option Nat
  | 0, _ => none
  | n + 1, desc =>
    match s.dqs.find? fun q => q.asid == asid && q.desc == desc with
    | none => some 0
    | some q =>
      let fin := ((List.range q.nslots).map fun k => if q.link.getD k 0 = 0 then some (q.front.getD k 0) else s.fout asid n (q.link.getD k 0)).foldl minFront
        (some (2 ^ 32 - 1))
      fin.map fun fin => (q.records.map (·.time) ++ q.counted).foldl min fin

/-- The frontier of an input slot. -/
def State.slotFront (s : State) (q : DQ) (k : Nat) : Option Nat :=
  if q.link.getD k 0 = 0 then some (q.front.getD k 0) else s.fout q.asid 16 (q.link.getD k 0)

/-- Does a queue take its frontier from the queue of a descriptor, over at most so many links? -/
def State.feeds (s : State) (asid desc : Nat) : Nat → Nat → Bool
  | 0, _ => false
  | n + 1, from_ =>
    from_ == desc || match s.dqs.find? fun q => q.asid == asid && q.desc == from_ with
      | none => false
      | some q => (List.range q.nslots).any fun k => q.link.getD k 0 != 0 && s.feeds asid desc n (q.link.getD k 0)

/-- Is a link chain deeper than 16 among those that a change of queue n evaluates: its own, and those that come from it (R276)? -/
def State.deepAt (s : State) (n : Nat) : Bool :=
  s.dqs[n]?.any fun q => s.dqs.any fun x => x.asid == q.asid && s.feeds q.asid q.desc 17 x.desc && (s.fout q.asid 17 x.desc).isNone

/-- The frontiers of the input slots of every queue. -/
def State.allFronts (s : State) : List (List (Option Nat)) := s.dqs.map fun q => (List.range q.nslots).map (s.slotFront q)

/-- Did a frontier rise? -/
def rose : Option Nat → Option Nat → Bool
  | some a, some b => decide (a < b)
  | _, _ => false

/-- A consolidation point of queue n, made by frame f at an address (R275). -/
def State.consolidateAt (s : State) (n f : Nat) (whence : Word) : State :=
  match s.dqs[n]? with
  | none => s
  | some q =>
    match consolidate q.records with
    | some rs => s.mapDq n fun q => { q with raw := [], cons := rs }
    | none => s.addUpcall f { code := 0x11, info := 0, addr := .ofNat 64 q.desc, token := 0, whence := whence, soft := false, park := none }

/-- Frontiers that rose since `old` are consolidation points, and so on along the links (R275). -/
def State.settle (f : Nat) (whence : Word) : Nat → List (List (Option Nat)) → State → State
  | 0, _, s => s
  | fuel + 1, old, s =>
    let now := s.allFronts
    let up := (List.range now.length).filter fun n => ((old.getD n []).zip (now.getD n [])).any fun p => rose p.1 p.2
    if up.isEmpty then s else State.settle f whence fuel now (up.foldl (fun s n => s.consolidateAt n f whence) s)

/-- Change the queues and take the consolidation points that follow. -/
def State.dqChange (s : State) (f : Nat) (whence : Word) (g : State → State) : State := State.settle f whence 20 s.allFronts (g s)

/-- Append a record to queue n: reaching thresh is a consolidation point. -/
def State.dqAppend (s : State) (n f : Nat) (whence : Word) (r : DRec) : State :=
  let s := s.mapDq n fun q => { q with raw := q.raw ++ [r] }
  match s.dqs[n]? with
  | some q => if q.thresh ≤ q.raw.length then s.consolidateAt n f whence else s
  | none => s

/-- How many records of a queue stand in its overflow area. -/
def DQ.over (q : DQ) : Nat := q.records.length - q.bufcap

/-- The request of an instruction's access at the queue's slice (R274, R280). -/
def State.dqReq (s : State) (q : DQ) (need : BitVec 4) : Req := { s.req need with clu := if s.myDie = q.die then s.myClu else 16 * q.die }

/-- Spill the record that a full buffer has no room for (R283): to the overflow area, in order. None: the area is exhausted. -/
def State.dqSpill (s : State) (r : Req) (q : DQ) (d : DRec) : Option (Except MFault State) :=
  if q.records.length < q.bufcap then some (.ok s)
  else if q.ovflen < 64 * (q.over + 1) then none
  else some (s.writeNum r .die (q.ovf + 64 * q.over) 64 d.num)

/-- The number of the queue of a descriptor, which is read if no instruction has named it before; then it is unbound. -/
def State.dqGet (s : State) (desc : Nat) : Except (MFault × Nat) (Option Nat × State) :=
  match s.dqFind s.c.asid desc with
  | some n => .ok (some n, s)
  | none =>
    match s.readNumAt (s.req 8) .die desc 160 with
    | .error e => .error e
    | .ok (r, s) =>
      if dqBad r then .ok (none, s)
      else
        let s := s.putDq { dqOf s.c.asid desc s.myDie r none with entry := 0 }
        .ok (s.dqFind s.c.asid desc, s)

/-- A delta-queue instruction on the queue at a descriptor. -/
def State.dqOp (s : State) (a : AReg) (k : Word → Nat → DQ → State → State) : Out :=
  let p := s.c.getA a
  if unaligned p 64 then .next (s.misaligned p)
  else
    match s.dqGet p.toNat with
    | .error e => .next (s.failAt e false)
    | .ok (none, s) => .next s.reservedField
    | .ok (some n, s) =>
      match s.dqs[n]? with
      | some q => .next (k p n q s)
      | none => .next s.reservedField

/-- Is the selected context an invocation of queue n; its time. -/
def Ctx.invTime (c : Ctx) (n : Nat) : Option Nat :=
  match c.kind, c.inv with
  | .invocation, some (m, t) => if m = n then some t else none
  | _, _ => none

/-- DQBIND (R279): the links that it reads are evaluated once the queue is bound (R276). -/
def execDqbind (d : XReg) (a : AReg) (b : XReg) (s : State) : Out :=
  let p := s.c.getA a
  let old := s.dqs.find? fun q => q.asid == s.c.asid && q.desc == p.toNat
  if unaligned p 64 then .next (s.misaligned p)
  else if (match old with | some q => !q.counted.isEmpty | none => false) then .next s.stall
  else
    match s.readNumAt (s.req 8) .die p.toNat 160 with
    | .error e => .next (s.failAt e false)
    | .ok (r, s) =>
      if dqBad r then .next s.reservedField
      else
        let r := setFld (setFld r 0 8 (s.c.getX d).toNat) 8 8 (s.c.getX b).toNat
        match s.writeNum (s.req 12) .die p.toNat 16 r with
        | .error e => .next (s.memFail e p true)
        | .ok s =>
          let s := s.dqChange s.self s.c.pc (fun s => s.putDq (dqOf s.c.asid p.toNat (match old with | some q => q.die | none => s.myDie) r old))
          if (s.dqFind s.c.asid p.toNat).any s.deepAt then .next (s.deltaOrder p) else .next s.retire

/-- The record at an address of the bit-63 rule: 64 bytes, aligned. -/
def State.dqRecord (s : State) (a : Word) (k : DRec → State → State) : State :=
  if unaligned a 64 then s.misaligned a
  else
    match s.readMemNum s.self s.c.asid .clu a 64 with
    | .error e => s.memFail e a false
    | .ok (r, s) => k (drecOf r) s

/-- DQPUSH (R275, R278, R279, R283). -/
def execDqpush (d : XReg) (a b : AReg) (s : State) : Out :=
  s.dqOp a fun desc n q s => s.dqRecord (s.c.getA b) fun r s =>
    let slot := (s.c.getX d).toNat
    let own := match s.c.inv with
      | some (_, t) => if s.c.kind = .invocation then t else 0
      | none => 0
    if q.nslots ≤ slot then s.deltaOrder desc
    else
      match s.slotFront q slot with
      | none => s.deltaOrder desc
      | some fr =>
        if r.time < fr ∨ r.time = 2 ^ 32 - 1 ∨ r.time < own ∨ s.deepAt n then s.deltaOrder desc
        else
          s.afterSpill (s.dqReq q 12) q.ovf (q.ovf + 64 * q.over) (s.dqSpill (s.dqReq q 12) q r) fun s => (s.dqChange s.self s.c.pc fun s => s.dqAppend n s.self s.c.pc r).retire

/-- Write records to the local store from a window offset. -/
def recordBytes (rs : List DRec) : List Byte := rs.flatMap fun r => bytesOf 64 r.num

/-- A 4 KiB local-store destination is malformed (R279); for DQLOOK too: DESIGN CHOICE (log 80). -/
def State.dqDestBad (s : State) (a : Word) : Bool := !isLs a || unaligned a 64 || s.c.lsBad a 4096

/-- DQPOP (R278, R279). -/
def execDqpop (d : XReg) (a b : AReg) (s : State) : Out :=
  s.dqOp a fun desc n q s =>
    let dst := s.c.getA b
    if (q.entry ≠ 0 ∧ (s.c.invTime n).isNone) ∨ s.deepAt n then s.deltaOrder desc
    else if s.dqDestBad dst then s.misaligned dst
    else
      let t := match s.c.invTime n with
        | some t => if q.entry ≠ 0 then some t else q.cons.head?.map (·.time)
        | none => q.cons.head?.map (·.time)
      let mine := (q.cons.filter fun r => some r.time == t).take 64
      let bytes := recordBytes mine
      let off := s.c.lsPhys (lsOff dst)
      let s := s.lsEngineWrite s.myCore off (off + bytes.length) bytes
      let s := s.dqChange s.self s.c.pc fun s => s.mapDq n fun q => { q with cons := q.cons.filter fun r => !mine.contains r }
      s.done fun c => c.setX d (if mine.isEmpty then 0 else .ofNat 64 (t.getD 0 * 2 ^ 32 + mine.length))

/-- DQCONS (R279). -/
def execDqcons (a : AReg) (s : State) : Out :=
  s.dqOp a fun desc n _ s =>
    if s.deepAt n then s.deltaOrder desc else (s.dqChange s.self s.c.pc fun s => s.consolidateAt n s.self s.c.pc).retire

/-! Arrangements (R280). -/

/-- Fold over the entries of an arrangement. -/
def State.arrFold {α : Type} (r : Req) (base : Nat) (g : α → Nat → DRec → α) : Nat → Nat → α → State → Except (MFault × Nat) (α × State)
  | 0, _, x, s => .ok (x, s)
  | n + 1, i, x, s =>
    match s.readNumAt r .die (base + 64 * i) 64 with
    | .error e => .error e
    | .ok (e, s) => State.arrFold r base g n (i + 1) (g x i (drecOf e)) s

/-- An arrangement's header: base, lcap and count. -/
def State.arrHead (s : State) (q : DQ) : Except (MFault × Nat) ((Nat × Nat × Nat) × State) :=
  match s.readNumAt (s.dqReq q 8) .die q.arr 64 with
  | .error e => .error e
  | .ok (h, s) => .ok ((fld h 0 8, fld h 8 1, fld h 12 4), s)

/-- What DQARR looks for: the matching entry, and the first free one. -/
def arrMatch (r : DRec) (x : Option (Nat × DRec) × Option Nat) (i : Nat) (e : DRec) : Option (Nat × DRec) × Option Nat :=
  if e.mult = 0 then (x.1, x.2 <|> some i) else if e.same r then (x.1 <|> some (i, e), x.2) else x

/-- Write an entry and, when the number of used entries changes, the header's count. -/
def State.arrWrite (s : State) (q : DQ) (base i : Nat) (e : DRec) (count : Option Nat) : Except (MFault × Nat) State :=
  match s.writeNumAt (s.dqReq q 12) .die (base + 64 * i) 64 (if e.mult = 0 then 0 else e.num) with
  | .error e => .error e
  | .ok s =>
    match count with
    | none => .ok s
    | some n => s.writeNumAt (s.dqReq q 12) .die (q.arr + 12) 4 n

/-- DQARR (R280). -/
def execDqarr (d : XReg) (a b : AReg) (s : State) : Out :=
  s.dqOp a fun desc _ q s => s.dqRecord (s.c.getA b) fun r s =>
    let answer (n : Nat) (s : State) : State := s.done fun c => c.setX d (.ofNat 64 n)
    let fail (e : MFault × Nat) : State := s.failAt e true
    if q.arr = 0 then answer 3 s
    else
      match s.arrHead q with
      | .error e => fail e
      | .ok ((base, lcap, count), s) =>
        if lcap < 1 ∨ 24 < lcap then s.reservedField
        else
          match State.arrFold (s.dqReq q 8) base (arrMatch r) (2 ^ lcap) 0 (none, none) s with
          | .error e => fail e
          | .ok ((some (i, e), _), s) =>
            if si32 (e.mult + r.mult) = false then (s.softUpcall 0x11 0 desc).retire
            else
              match s.arrWrite q base i { e with mult := e.mult + r.mult } (if e.mult + r.mult = 0 then some (count - 1) else none) with
              | .error e => fail e
              | .ok s => answer 0 s
          | .ok ((none, none), s) => answer 1 s
          | .ok ((none, some i), s) =>
            if 2 ^ lcap ≤ count then answer 1 s
            else if r.mult = 0 then answer 0 s
            else
              match s.arrWrite q base i r (some (count + 1)) with
              | .error e => fail e
              | .ok s => answer 0 s

/-- Gather an entry of a key up to a time. -/
def arrGather (key t : Nat) (x : List DRec) (_ : Nat) (e : DRec) : List DRec :=
  if e.mult ≠ 0 ∧ e.key = key ∧ e.time ≤ t then x ++ [{ e with time := t }] else x

/-- Records as DQLOOK writes them: a sum outside SI32 is a free value (log 19). -/
def lookBytes (fresh : Nat) (rs : List DRec) : List Byte :=
  rs.zipIdx.flatMap fun (r, k) => bytesOf 64 (if si32 r.mult then r.num else ({ r with mult := (Config.freeSum (fresh + k)).toInt } : DRec).num)

/-- DQLOOK (R280): it changes no full-empty bit (R160). On a queue without an arrangement it writes nothing and answers 0, and its local-store address
keeps the limits of DQPOP's: DESIGN CHOICE (log 80). -/
def execDqlook (d : XReg) (a b : AReg) (s : State) : Out :=
  s.dqOp a fun _ _ q s =>
    let p := s.c.getA b
    if s.dqDestBad p then s.misaligned p
    else
      let off := s.c.lsPhys (lsOff p)
      let key := (s.core s.myCore).ls.read off 8
      let t := (s.core s.myCore).ls.read (off + 8) 4
      let write (rs : List DRec) (s : State) : State :=
        let s := s.lsWrite s.myCore off (lookBytes s.fresh (rs.take 64))
        ({ s with fresh := s.fresh + 64 }).done fun c => c.setX d (.ofNat 64 (min rs.length 64 + if 64 < rs.length then 128 else 0))
      if q.arr = 0 then write [] s
      else
        match s.arrHead q with
        | .error e => s.failAt e false
        | .ok ((base, lcap, _), s) =>
          if lcap < 1 ∨ 24 < lcap then s.reservedField
          else
            match State.arrFold (s.dqReq q 8) base (arrGather key t) (2 ^ lcap) 0 [] s with
            | .error e => s.failAt e false
            | .ok (rs, s) => write ((sumRuns (sortBy DRec.le rs)).filter (·.mult != 0)) s

/-- DQADV (R278, R279). The descriptor's field is written too. -/
def execDqadv (d : XReg) (a : AReg) (b : XReg) (s : State) : Out :=
  s.dqOp a fun desc n q s =>
    let slot := (s.c.getX d).toNat
    let v := (s.c.getX b).toNat % 2 ^ 32
    if q.nslots ≤ slot ∨ q.link.getD slot 0 ≠ 0 ∨ s.deepAt n then s.deltaOrder desc
    else
      let new := max (q.front.getD slot 0) v
      match s.writeNumAt (s.dqReq q 12) .die (q.desc + 64 + 4 * slot) 4 new with
      | .error e => s.failAt e true
      | .ok s => (s.dqChange s.self s.c.pc fun s => s.mapDq n fun q => { q with front := q.front.set slot new }).retire

/-- DQFRONT (R276, R279). -/
def execDqfront (d : XReg) (a : AReg) (s : State) : Out :=
  s.dqOp a fun desc _ q s =>
    match s.fout q.asid 17 q.desc with
    | none => s.deltaOrder desc
    | some n => s.done fun c => c.setX d (.ofNat 64 n)

/-- DQWAIT (R276, R278, R279). -/
def execDqwait (a : AReg) (b : XReg) (s : State) : Out :=
  s.dqOp a fun desc n q s =>
    let t := (s.c.getX b).toNat
    if (match s.c.invTime n with | some own => decide (own ≤ t) | none => false) then s.deltaOrder desc
    else
      match s.fout q.asid 17 q.desc with
      | none => s.deltaOrder desc
      | some f => if t < f then s.retire else s.stall

/-! Ready queues (R283, R335). -/

/-- Enqueue an entry at a priority, in the die or in the overflow area. -/
def State.enqueue (s : State) (die prio : Nat) (e : DEntry) (spilled : Bool := false) : State :=
  s.mapDie die fun d => { d with queue := d.queue ++ [{ e := e, prio := prio, enq := s.time, head := none, passed := none, spilled := spilled }] }

/-- An entry of a launch queue. -/
def DQEnt.isLaunch (e : DQEnt) : Bool :=
  match e.e with
  | .launch _ => true
  | _ => false

/-- The entries of the launch queues (or of the ready queues) that stand in the die, or in the overflow area. -/
def DieSt.held (d : DieSt) (launch spilled : Bool) : Nat := (d.queue.filter fun e => e.isLaunch == launch && e.spilled == spilled).length

/-- Spilled entries are taken back in their order while there is room: 64 launches and 512 ready entries (R283, R335). -/
def takeBack : Nat → Nat → List DQEnt → List DQEnt
  | _, _, [] => []
  | l, r, e :: es =>
    if !e.spilled then e :: takeBack l r es
    else if e.isLaunch then (if l < 64 then { e with spilled := false } :: takeBack (l + 1) r es else e :: takeBack l r es)
    else if r < 512 then { e with spilled := false } :: takeBack l (r + 1) es
    else e :: takeBack l r es

/-- The entries at the head of a die's queues keep the time at which they came there. -/
def DieSt.heads (d : DieSt) (now : BitVec 64) : DieSt :=
  let d := { d with queue := takeBack (d.held true false) (d.held false false) d.queue }
  let isL := DQEnt.isLaunch
  let go := fun (st : List (Bool × Nat) × List DQEnt) (e : DQEnt) =>
    if e.spilled || st.1.contains (isL e, e.prio) then (st.1, st.2 ++ [e])
    else ((isL e, e.prio) :: st.1, st.2 ++ [if e.head.isNone then { e with head := some now } else e])
  { d with queue := (d.queue.foldl go ([], [])).2 }

/-- Enqueue at the dispatcher. -/
def State.enter (s : State) (die prio : Nat) (e : DEntry) : State := (s.enqueue die prio e).mapDie die (·.heads s.time)

/-- The least time with consolidated unconsumed records and no counted invocation. -/
def DQ.nextTime (q : DQ) : Option Nat := ((q.cons.map (·.time)).filter fun t => !q.counted.contains t).min?

/-- INVOCATION_CREATE (R277): queue n creates an invocation of its least such time. With 512 ready entries in the die it spills; the engine itself
waits for no overflow area, and the umpire hears of one without room (log 32). -/
def execInvocationCreate (n : Nat) (s : State) : Out :=
  match s.dqs[n]? with
  | none => .next s
  | some q =>
    if q.entry = 0 ∨ q.maxinv ≤ q.counted.length then .next s
    else
      match q.nextTime with
      | none => .next s
      | some t =>
        let s := s.mapDq n fun q => { q with counted := t :: q.counted }
        let d := s.die q.die
        if d.held false false < 512 then .next (s.enter q.die q.prio (.inv n t))
        else
          let r : Req := { clu := 16 * q.die, asid := q.asid, who := none, need := 12 }
          let s := match s.spillTo r d.readyOvf (d.held false true) with
            | none => s.machineEvent 0x43 (.ofNat 64 d.readyOvf.1) (128 * q.die) 0
            | some (.error _) => s
            | some (.ok s) => s
          .next (s.enqueue q.die q.prio (.inv n t) true)

/-- An invocation has retired: it counts no longer (R277), and frontiers may rise, evaluated for the frame that retired (R276). -/
def State.invDone (s : State) (f : Nat) : State :=
  let c := s.ctx f
  match c.kind, c.inv with
  | .invocation, some (n, t) =>
    let s := s.dqChange f c.pc fun s => s.mapDq n fun q => { q with counted := q.counted.erase t }
    if s.deepAt n then s.freezeRec f 0x2D 0 (.ofNat 64 ((s.dqs[n]?.map (·.desc)).getD 0)) 0 c.pc false else s
  | _, _ => s

/-! Barriers (R281, R282). -/

/-- The number of a scope. -/
def scopeCode : Scope → Nat
  | .core => 0
  | .clu => 1
  | .die => 2
  | .dev => 3
  | .pod => 4
  | .sys => 5

/-- The launch of a frame's team. -/
def State.launchOf (s : State) (team : Option Nat) : Option Nat := team.bind fun t => (s.teams.find? (·.id == t)).map (·.launch)

/-- The place of a core among the cores of its team, or of a cluster among its clusters, which a move of the team keeps (R35). -/
def State.teamPlace (s : State) (team : Nat) (sc : Scope) (core : Nat) : Nat :=
  match s.teams.find? (·.id == team) with
  | none => 0
  | some t => if sc = .core then (t.clus.flatMap coresOf).idxOf core else t.clus.idxOf (cluOf core)

/-- Whose barrier it is: the team on the core or cluster, the team, or the launch; a context without a team stands alone. Generations are counted per
team and scope (R282), and so for each core or cluster of the team whose barrier it is: DESIGN CHOICE (log 40). -/
def State.barKey (s : State) (f : Nat) (sc : Scope) : Nat :=
  match (s.ctx f).team with
  | none => 2 ^ 60 + f
  | some t =>
    match sc with
    | .core | .clu => t * 2 ^ 20 + s.teamPlace t sc (coreOf f)
    | .die => t
    | _ => (s.launchOf (some t)).getD 0

/-- Every frame of the device. -/
def allFrames : List Nat := List.range (Config.dies * Config.clusPerDie * Config.coresPerClu * Config.framesPerCore)

/-- Frames that may hold a live context. -/
def State.liveFrames (s : State) : List Nat := (sortBy (fun a b => decide (a ≤ b)) (s.self :: s.frames.map (·.1))).dedup.filter fun f => (s.ctx f).live

/-- The participants of a barrier (R281). -/
def State.barParts (s : State) (f : Nat) (sc : Scope) : List Nat :=
  let c := s.ctx f
  match c.team with
  | none => [f]
  | some t =>
    s.liveFrames.filter fun g =>
      let d := s.ctx g
      match sc with
      | .core => coreOf g == coreOf f && d.team == some t && (d.kind == .control || d.kind == .helper)
      | .clu => cluOf (coreOf g) == cluOf (coreOf f) && d.team == some t && d.kind == .control
      | .die => d.team == some t && d.kind == .control
      | _ => d.kind == .control && d.team.isSome && s.launchOf d.team == s.launchOf (some t)

/-- The same barrier. -/
def Bar.is (b : Bar) (sc : Scope) (key : Nat) : Bool := b.scope == scopeCode sc && b.key == key

/-- The open generation of a barrier. DESIGN CHOICE (log 40): the first is number 0. -/
def State.barOf (s : State) (sc : Scope) (key : Nat) : Bar :=
  (s.bars.find? fun b => b.is sc key).getD { scope := scopeCode sc, key := key, gen := 0, parts := [], arrived := [] }

/-- Every participant of an opened generation has arrived: the next generation follows. -/
def Bar.complete (b : Bar) : Bar :=
  if !b.arrived.isEmpty && b.parts.all fun f => b.arrived.contains f then { b with gen := (b.gen + 1) % 2 ^ 32, parts := [], arrived := [] } else b

/-- Is it a barrier of a team, or of its cores or clusters? -/
def Bar.ofTeam (team : Nat) (b : Bar) : Bool :=
  match b.scope with
  | 0 | 1 => b.key / 2 ^ 20 == team
  | 2 => b.key == team
  | _ => false

/-- A team's barrier under the team's new number and its contexts' new frames. -/
def Bar.forTeam (team : Nat) (new : Nat → Nat) (b : Bar) : Bar :=
  { b with key := if b.scope < 2 then team * 2 ^ 20 + b.key % 2 ^ 20 else team, parts := b.parts.map new, arrived := b.arrived.map new }

/-- Write a barrier. -/
def State.putBar (s : State) (b : Bar) : State := { s with bars := b :: s.bars.filter fun x => !(x.scope == b.scope && x.key == b.key) }

/-- A context that ends before arriving leaves the set (R281). -/
def State.barLeave (s : State) (f : Nat) : State :=
  { s with bars := s.bars.map fun b => ({ b with parts := b.parts.filter fun g => g != f || b.arrived.contains g } : Bar).complete }

/-- Generation g of a barrier has completed, its open one being `cur`; the upper bits of the word are ignored (R39). -/
def genDone (cur : Nat) (g : Word) : Bool := decide (1 ≤ seqSub cur (g.toNat % 2 ^ 32) ∧ seqSub cur (g.toNat % 2 ^ 32) ≤ 2 ^ 31)

/-- The selected context arrives, after its release: the generation, or none while it must wait. -/
def State.arrive (s : State) (sc : Scope) : Option (Except (MFault × Nat × State) (Nat × State)) :=
  let key := s.barKey s.self sc
  let b := s.barOf sc key
  if b.arrived.contains s.self ∨ (!b.arrived.isEmpty ∧ !(b.parts.contains s.self)) then none
  else
    match s.releaseNow sc with
    | none => none
    | some (.error e) => some (.error e)
    | some (.ok s) =>
      let parts := if b.arrived.isEmpty then s.barParts s.self sc else b.parts
      let s := s.putBar ({ b with parts := parts, arrived := b.arrived ++ [s.self] } : Bar).complete
      some (.ok (b.gen, s.mapC fun c => { c with barGen := tset c.barGen (scopeCode sc) b.gen }))

/-- BARW's part: wait for a generation, then the version steps (R183). -/
def State.barWait (s : State) (sc : Scope) (g : Word) (begun : Bool) : State :=
  let b := s.barOf sc (s.barKey s.self sc)
  if genDone b.gen g then
    match s.tryAcquire s.self sc with
    | .error e => (State.heldBack e).mapWait fun w => { w with begun := begun }
    | .ok s => s.retire
  else s.stall begun

/-- BARA (R282). -/
def execBara (scope : Scope) (d : XReg) (s : State) : Out :=
  match s.arrive scope with
  | none => .next s.stall
  | some (.error e) => .next (State.heldBack e)
  | some (.ok (g, s)) => .next (s.done fun c => c.setX d (.ofNat 64 g))

/-- BARW (R282). -/
def execBarw (scope : Scope) (a : XReg) (s : State) : Out := .next (s.barWait scope (s.c.getX a) false)

/-- BAR (R281): BARA, then BARW of its generation. -/
def execBar (scope : Scope) (s : State) : Out :=
  if (match s.c.wait with | some w => w.begun | none => false) then .next (s.barWait scope (.ofNat 64 (tget 0 s.c.barGen (scopeCode scope))) true)
  else
    match s.arrive scope with
    | none => .next s.stall
    | some (.error e) => .next (State.heldBack e)
    | some (.ok (g, s)) => .next (s.barWait scope (.ofNat 64 g) true)

end Sys2Proof.Machine
end

