-- ==== Sys2Proof/Machine/Heap.lean ====
section
/-! DEFINITION. The symbolic heap: insert, merge, restoration, matching, ranking, costs and extraction (R312 to R333, R415). -/

namespace Sys2Proof.Machine

open Sys2Proof

/-! Access to the tables (R313, R314): at the home, after the recall of what L2 slices hold masked. -/

/-- A step of a class engine, the anchor or the controller. -/
abbrev HM := StateT State (Except MFault)

/-- Every die's L2 copy of a physical line is written back and invalidated, its clean L1 copies with it (R289). What an L1 holds dirty stays there (R314). -/
def State.recallL2 (s : State) (pa : Nat) : State :=
  let s := { s with l1 := s.l1.filter fun l => l.img || l.pa / 64 != pa / 64 || l.mask != 0 }
  (s.l2.filter fun l => !l.img && l.pa / 64 == pa / 64).foldl (fun s l =>
    ((s.homeWrite l.pa l.data l.mask).cutL2 l).dropPushes l.die fun a n => a == l.asid && n == l.line) s

/-- A read, and a write if `f` gives one, that a unit makes from a slice at the home of the address, in that home's single order (R314). -/
def State.homeAtomic (s : State) (die slice asid va n : Nat) (f : Nat → Option Nat) : MR Nat :=
  match s.translate die (s.served die slice) asid va 12 with
  | .error e => .error e
  | .ok (t, s) =>
    if t.comp then .error .unsupported
    else
      match s.paFault false t.pa with
      | some e => .error e
      | none =>
        let s := s.recallL2 t.pa
        if s.poison.contains (t.pa / 64) then .error .poison
        else
          let s := s.heatTick t.pa
          let old := s.homeRead t.pa n
          match f old with
          | none => .ok (old, s)
          | some v => .ok (old, s.homeWrite (t.pa / 64 * 64) (lineSet 0 (t.pa % 64) n v) (byteMask (t.pa % 64) n))

/-- The request of a heap's units. -/
def Heap.req (h : Heap) : Req := { clu := 16 * h.die, asid := h.asid, who := none, need := 12 }

/-- The die and slice of the class engine that owns class c (R314). -/
def ownerOf (c : Nat) : Nat × Nat :=
  let x := c * 0x9E3779B1 % 2 ^ 32 / 2 ^ 24
  (x % 4, x / 4)

/-- Read n bytes of a table or of the header, from the slice of the address on the anchor's die. -/
def hGet (h : Heap) (va n : Nat) : HM Nat := fun s => s.homeAtomic h.die (sliceOf va) h.asid va n fun _ => none

/-- Write n bytes of a table or of the header. -/
def hPut (h : Heap) (va n v : Nat) : HM Unit := fun s => (s.homeAtomic h.die (sliceOf va) h.asid va n fun _ => some v).map fun r => ((), r.2)

/-- Read n bytes at offset o of a class entry, by its owner. -/
def hCls (h : Heap) (c o n : Nat) : HM Nat := fun s => s.homeAtomic (ownerOf c).1 (ownerOf c).2 h.asid (fld h.hdr 8 8 + 32 * c + o) n fun _ => none

/-- Write n bytes at offset o of a class entry, by its owner. -/
def hSetCls (h : Heap) (c o n v : Nat) : HM Unit := fun s =>
  (s.homeAtomic (ownerOf c).1 (ownerOf c).2 h.asid (fld h.hdr 8 8 + 32 * c + o) n fun _ => some v).map fun r => ((), r.2)

/-- Address of a node entry. -/
def Heap.nodeAt (h : Heap) (c : Nat) : Nat := fld h.hdr 0 8 + 16 * c
/-- Address of a parent-pool entry. -/
def Heap.poolAt (h : Heap) (e : Nat) : Nat := fld h.hdr 24 8 + 8 * e

/-- Change heap number n of the device's list. -/
def State.mapHeap (s : State) (n : Nat) (g : Heap → Heap) : State := { s with heaps := s.heaps.modify n g }

/-- Heap n as it stands. -/
def hNow (n : Nat) (h : Heap) : HM Heap := do
  let s ← get
  return (s.heaps[n]?).getD h

/-- nextid; 0 is read as 1. -/
def hNext (h : Heap) : HM Nat := do
  let v ← hGet h (h.header + 64) 4
  return if v = 0 then 1 else v

/-- Find (R318): follow parents to a root; a parent is below its child. -/
def hFind (h : Heap) : Nat → Nat → HM Nat
  | 0, c => pure c
  | k + 1, c => do
    let p ← hCls h c 0 4
    if p = c then pure c else hFind h k p

/-- The root of a class. -/
def hRoot (h : Heap) (c : Nat) : HM Nat := hFind h (c + 1) c

/-- The key of a term: children's roots, a leaf's literal kept. -/
def hKey (h : Heap) (op ar c0 c1 c2 cls : Nat) : HM HKey := do
  let r0 ← if 1 ≤ ar then hRoot h c0 else pure c0
  let r1 ← if 2 ≤ ar then hRoot h c1 else pure 0
  let r2 ← if 3 ≤ ar then hRoot h c2 else pure 0
  return { op := op, arity := ar, c0 := r0, c1 := r1, c2 := r2, cls := cls }

/-- The same key, whatever its class. -/
def HKey.same (a b : HKey) : Bool := a.op == b.op && a.arity == b.arity && a.c0 == b.c0 && a.c1 == b.c1 && a.c2 == b.c2

/-! The hash-cons table (R313): 2^lhc entries of 32 bytes at hcbase. The layout is the hardware's own; DESIGN CHOICE (log 46): the key in the layout of
a node entry, whose flags are 0 for an entry never used, 1 for a held key and 2 for one that was retired, then the class in bytes 16 to 19. -/

/-- A node entry as a key held by a class. -/
def nodeKey (v cls : Nat) : HKey := { op := fld v 0 2, arity := fld v 2 1, c0 := fld v 4 4, c1 := fld v 8 4, c2 := fld v 12 4, cls := cls }

/-- A key in the layout of a node entry, with its flags. -/
def HKey.node (k : HKey) (flags : Nat) : Nat := k.op + k.arity * 2 ^ 16 + flags * 2 ^ 24 + k.c0 * 2 ^ 32 + k.c1 * 2 ^ 64 + k.c2 * 2 ^ 96

/-- Entries of the hash-cons table. -/
def Heap.slots (h : Heap) : Nat := 2 ^ fld h.hdr 45 1
/-- Address of an entry. -/
def Heap.slotAt (h : Heap) (i : Nat) : Nat := fld h.hdr 16 8 + 32 * i
/-- The entry at which the search for a key begins. -/
def Heap.hash (h : Heap) (k : HKey) : Nat := (k.op + 31 * (k.arity + 31 * (k.c0 + 31 * (k.c1 + 31 * k.c2)))) * 0x9E3779B1 % 2 ^ 32 / 4 % h.slots

/-- Search for a key from an entry on, over so many entries: where it is held and with which class, and the first entry that may take it. -/
def hSearch (h : Heap) (k : HKey) : Nat → Nat → Option Nat → HM (Option (Nat × HKey) × Option Nat)
  | 0, _, place => pure (none, place)
  | n + 1, i, place => do
    let v ← hGet h (h.slotAt i) 32
    let e := nodeKey v (fld v 16 4)
    if fld v 3 1 = 1 then (if e.same k then return (some (i, e), place) else hSearch h k n ((i + 1) % h.slots) place)
    else if fld v 3 1 = 2 then hSearch h k n ((i + 1) % h.slots) (place <|> some i)
    else return (none, place <|> some i)

/-- Where a key is held, and the entry that may take it. -/
def hHeld (h : Heap) (k : HKey) : HM (Option (Nat × HKey) × Option Nat) := hSearch h k h.slots (h.hash k) none

/-- The change queue's number, its descriptor being read if it is not served yet. -/
def hQueue (h : Heap) : HM (Option Nat) := fun s =>
  let desc := fld h.hdr 32 8
  match s.dqFind h.asid desc with
  | some n => .ok (some n, s)
  | none =>
    match s.readNum h.req .die desc 160 with
    | .error e => .error e
    | .ok (r, s) =>
      if dqBad r then .ok (none, s)
      else
        let s := s.putDq { dqOf h.asid desc h.die r none with entry := 0 }
        .ok (s.dqFind h.asid desc, s)

/-- A key is entered (+1) or retired (−1): the change record (R322), which spills when the queue's buffer is full; with its overflow area exhausted
the unit waits (R283). -/
def hChange (h : Heap) (k : HKey) (mult : Int) : HM Unit := do
  if fld h.hdr 32 8 = 0 then return
  match ← hQueue h with
  | none => return
  | some q =>
    let seq ← hGet h (h.header + 72) 8
    let r : DRec := { key := k.cls, time := seq % 2 ^ 32, mult := mult, value := k.node 0 }
    let s ← get
    match (s.dqs[q]?).map fun dq => s.dqSpill h.req dq r with
    | some none => throw .busy
    | some (some (.ok s)) => set s
    | _ => pure ()
    modify fun s => s.dqChange s.self 0 fun s => s.dqAppend q s.self 0 r

/-- Send a message. -/
def hSend (n : Nat) (m : HMsg) (tag : HTag) : HM Unit := modify fun s => s.mapHeap n fun h => { h with msgs := h.msgs ++ [{ msg := m, tag := tag }] }

/-- The parent-pool entries from one on, to `last` or the list's end: entry and node. -/
def hList (h : Heap) (last : Nat) : Nat → Nat → HM (List (Nat × Nat))
  | 0, _ => pure []
  | _, 0 => pure []
  | k + 1, e => do
    let v ← hGet h (h.poolAt e) 8
    if e = last then return [(e, v % 2 ^ 32)]
    let rest ← hList h last k (v / 2 ^ 32)
    return (e, v % 2 ^ 32) :: rest

/-- Send REHASH for every node of a list. -/
def hRehashAll (n k s : Nat) (tag : HTag) : List (Nat × Nat) → HM Unit
  | [] => pure ()
  | p :: ps => do
    hSend n (.rehash p.2 k s) tag
    hRehashAll n k s tag ps

/-! Restoration (R318). -/

/-- UNION. -/
def hUnion (n : Nat) (h : Heap) (x y k s : Nat) (tag : HTag) : HM Unit := do
  let rx ← hRoot h x
  let ry ← hRoot h y
  if rx = ry then return
  let hi := max rx ry
  let lo := min rx ry
  let size ← hCls h hi 8 4
  let first ← hCls h hi 12 4
  let rh ← hCls h hi 4 1
  let rl ← hCls h lo 4 1
  hSetCls h hi 0 4 lo
  hSetCls h hi 5 1 (min k 255)
  hSetCls h hi 16 8 s
  hSetCls h lo 4 1 (max rl (min 255 (rh + 1)))
  let nodes ← hList h 0 h.poolNext first
  hSend n (.adopt hi lo k s size first ((nodes.getLast?.map (·.1)).getD 0)) tag
  hRehashAll n k s tag nodes

/-- ADOPT. -/
def hAdopt (n : Nat) (h : Heap) (hi c size first last : Nat) (tag : HTag) : HM Unit := do
  let sz ← hCls h c 8 4
  hSetCls h c 8 4 (sz + size)
  let nodes ← hList h last h.poolNext first
  if first ≠ 0 then
    let old ← hCls h c 12 4
    hPut h (h.poolAt last + 4) 4 old
    hSetCls h c 12 4 first
  let p ← hCls h c 0 4
  if p = c then return
  let level ← hCls h c 5 1
  let stamp ← hCls h c 16 8
  hRehashAll n level stamp tag nodes
  hSend n (.adopt hi p level stamp size first last) tag

/-- Enter a key at a free entry (R318, R319). -/
def hEnter (h : Heap) (place : Option Nat) (k : HKey) : HM Unit := do
  match place with
  | some i => hPut h (h.slotAt i) 32 (k.node 1 + k.cls * 2 ^ 128)
  | none => pure ()
  hChange h k 1

/-- REHASH. -/
def hRehash (n : Nat) (h : Heap) (p k s : Nat) (tag : HTag) : HM Unit := do
  let v ← hGet h (h.nodeAt p) 16
  let old := nodeKey v p
  match (← hHeld h old).1 with
  | some (i, e) =>
    if e.cls = p then
      hPut h (h.slotAt i) 32 (2 * 2 ^ 24)
      hChange h old (-1)
  | none => pure ()
  let key ← hKey h old.op old.arity old.c0 old.c1 old.c2 p
  match ← hHeld h key with
  | (some (_, q), _) =>
    let rq ← hRoot h q.cls
    let rp ← hRoot h p
    if rq ≠ rp then hSend n (.union q.cls p (k + 1) s) tag
  | (none, place) =>
    hPut h (h.nodeAt p + 4) 4 key.c0
    hPut h (h.nodeAt p + 8) 4 key.c1
    hPut h (h.nodeAt p + 12) 4 key.c2
    hEnter h place key

/-- The append of an EGINS (R319): a class that is no root any more rehashes the node and forwards it as ADOPT does. -/
def hAppend (n : Nat) (h : Heap) (node r e : Nat) (tag : HTag) : HM Unit := do
  let old ← hCls h r 12 4
  hPut h (h.poolAt e) 8 (node + old * 2 ^ 32)
  hSetCls h r 12 4 e
  let p ← hCls h r 0 4
  if p = r then return
  let level ← hCls h r 5 1
  let stamp ← hCls h r 16 8
  hSend n (.rehash node level stamp) tag
  hSend n (.adopt r p level stamp 0 e e) tag

/-- The anchor raises closed as far as it can (R318, R320); the change queue's front0 follows (R322), in its
descriptor as DQADV's does. -/
def hClose (n : Nat) (h : Heap) : HM Unit := do
  let h ← hNow n h
  let seq ← hGet h (h.header + 72) 8
  let closed ← hGet h (h.header + 80) 8
  let open_ := h.msgs.filterMap fun m => match m.tag with
    | .merge s => some s
    | .ins _ => none
  let top := open_.min?.elim seq (· - 1)
  if closed < top then
    hPut h (h.header + 80) 8 top
    if fld h.hdr 32 8 ≠ 0 then
      match ← hQueue h with
      | some q => modify fun s =>
          let s := match s.writeNum h.req .die (fld h.hdr 32 8 + 64) 4 (top + 1) with
            | .ok s => s
            | .error _ => s
          s.dqChange s.self 0 fun s => s.mapDq q fun q => { q with front := q.front.set 0 ((top + 1) % 2 ^ 32) }
      | none => pure ()

/-- A table access failed: the heap is broken, and a machine event goes to the umpire (R312). -/
def State.breakHeap (s : State) (n : Nat) : State :=
  match s.heaps[n]? with
  | none => s
  | some h => (s.mapHeap n fun h => { h with broken := true }).toUmpire h.die
      { code := 0x42, fault := [0x42, .ofNat 64 h.header, 0, 0], core := 128 * h.die, frame := 0 }

/-- A unit that waits for room in the change queue's overflow area: the umpire hears of it while it has not yet taken the report (R283). -/
def State.changeWait (s : State) (n : Nat) : State :=
  match s.heaps[n]? with
  | none => s
  | some h =>
    match (s.dqFind h.asid (fld h.hdr 32 8)).bind fun q => s.dqs[q]? with
    | none => s
    | some q =>
      let e : UEvent := { code := 0x43, fault := [0x43, .ofNat 64 q.ovf, 0, 0], core := 128 * h.die, frame := 0 }
      if q.records.length < q.bufcap ∨ 64 * (q.over + 1) ≤ q.ovflen ∨ (s.die h.die).umpire.contains e then s else s.toUmpire h.die e

/-- Run a step of a heap's units; a failing access breaks the heap, and a unit in use leaves the step for later. -/
def State.heapRun {α : Type} (s : State) (n : Nat) (m : HM α) (k : α → State → State) (bad busy : State → State) : State :=
  match m s with
  | .ok (a, s) => k a s
  | .error .busy => busy s
  | .error _ => bad (s.breakHeap n)

/-- Consume the first message of a kind. -/
def State.consume (s : State) (n : Nat) (kind : HMsg → Bool) : State :=
  match s.heaps[n]? with
  | none => s
  | some h =>
    match h.msgs.find? (fun m => kind m.msg) with
    | none => s
    | some m =>
      if h.broken then s
      else
        let act : HM Unit := do
          modify fun s => s.mapHeap n fun h => { h with msgs := h.msgs.erase m }
          match m.msg with
          | .union x y k q => hUnion n h x y k q m.tag
          | .adopt hi c _ _ size first last => hAdopt n h hi c size first last m.tag
          | .rehash p k q => hRehash n h p k q m.tag
          | .append node r e => hAppend n h node r e m.tag
          hClose n h
        s.heapRun n act (fun _ s => s) id (·.changeWait n)

/-- UNION (R318). -/
def execHeapUnion (h : Nat) (s : State) : Out := .next (s.consume h fun m => match m with | .union .. => true | _ => false)
/-- ADOPT (R318), and the append of an EGINS, which a class that is no root any more forwards as one (R319). -/
def execHeapAdopt (h : Nat) (s : State) : Out := .next (s.consume h fun m => match m with | .adopt .. => true | .append .. => true | _ => false)
/-- REHASH (R318). -/
def execHeapRehash (h : Nat) (s : State) : Out := .next (s.consume h fun m => match m with | .rehash .. => true | _ => false)

/-! Heap instructions (R315 to R321). -/

/-- A failing heap instruction (R316). -/
def State.heapFail (s : State) (d : XReg) (reason : Nat) : State := s.done fun c => c.setX d (.ofNat 64 (2 ^ 63 + reason))

/-- A result of a heap whose tables a program has written (log 8). -/
def State.heapFree (s : State) (d : XReg) : State := ({ s with fresh := s.fresh + 1 }).done fun c => c.setX d (Config.heapUnspecified s.fresh)

/-- The heap that cr.egheap binds, with its number, or the reason why there is none to use. -/
def State.boundHeap (s : State) : Except Nat (Nat × Heap) :=
  let e := s.c.cr.egheap
  if e.getLsbD 4 = false then .error 1
  else
    match s.heaps.findIdx? fun h => h.asid == s.c.asid && h.num == bitsOf e 3 0 with
    | none => .error 1
    | some n =>
      match s.heaps[n]? with
      | none => .error 1
      | some h => if h.broken then .error 8 else .ok (n, h)

/-- A heap instruction with an x result. -/
def State.heapOp (s : State) (d : XReg) (k : Nat → Heap → State) : State :=
  match s.boundHeap with
  | .error r => s.heapFail d r
  | .ok (n, h) => if h.spoiled then s.heapFree d else k n h

/-- A step of a heap instruction: reason 8 when it breaks the heap. -/
def State.heapStep {α : Type} (s : State) (n : Nat) (d : XReg) (m : HM α) (k : α → State → State) : State :=
  s.heapRun n m k (fun s => s.heapFail d 8) (fun s => (s.changeWait n).stall)

/-! The anchor's order (R314, R332). -/

/-- The ticket of the selected context's request, once it has reached the anchor; 0 before. -/
def State.ticket (s : State) : Nat :=
  match s.c.wait with
  | some w => w.ticket
  | none => 0

/-- Does the request of a frame and ticket still wait at the anchor: in its streams, beside them, or in a park slot while a handler runs (R367)? It
keeps its place while its core is frozen. -/
def State.asking (s : State) (q : Nat × Nat) : Bool := (s.ctx q.1).live && (s.ctx q.1).allWaits.any fun w => !w.wrap && w.ticket == q.2

/-- May the anchor serve the selected context's request now: it is the EGEXTR that is held there, or none is, and no request that came before it
waits? -/
def State.anchorTurn (s : State) (h : Heap) : Bool :=
  let me := (s.self, s.ticket)
  let first := !((h.queue.takeWhile (· != me)).any s.asking)
  match h.extr with
  | some q => q == me || (!s.asking q && first)
  | none => first

/-- The selected context's request waits at the anchor, in the order of its arrival. -/
def State.anchorWait (s : State) (n : Nat) : State :=
  let s := s.stall true
  if s.ticket = 0 then (s.newId.mapWait fun w => { w with ticket := s.nextId }).mapHeap n fun h => { h with queue := h.queue ++ [(s.self, s.nextId)] } else s

/-- The anchor serves the selected context's request, which waits no longer. -/
def State.anchorServe (s : State) (n : Nat) : State := s.mapHeap n fun h => { h with queue := h.queue.filter (· != (s.self, s.ticket)) }

/-- The selected context's EGEXTR is held at the anchor: no request that comes after it is served until it has finished (R332). -/
def State.anchorHold (s : State) (n : Nat) : State :=
  let s := (s.anchorServe n).stall true
  let t := if s.ticket = 0 then s.nextId else s.ticket
  (s.newId.mapWait fun w => { w with ticket := t }).mapHeap n fun h => { h with extr := some (s.self, t) }

/-- A header breaks R312. -/
def headerBad (addr r : Nat) : Bool :=
  decide (addr % 64 ≠ 0 ∨ fld r 0 8 % 64 ≠ 0 ∨ fld r 8 8 % 64 ≠ 0 ∨ fld r 16 8 % 64 ≠ 0 ∨ fld r 24 8 % 64 ≠ 0 ∨ fld r 32 8 % 64 ≠ 0 ∨ fld r 40 4 < 2
    ∨ fld r 44 1 < 8 ∨ 28 < fld r 44 1 ∨ fld r 45 1 < fld r 44 1 + 1 ∨ 30 < fld r 45 1 ∨ fld r 46 18 ≠ 0 ∨ fld r 68 4 ≠ 0)

/-- EGOPEN (R317). A header lies in virtual memory: an address with bit 63 breaks R312. -/
def execEgopen (d a : XReg) (b : AReg) (s : State) : Out :=
  let v := s.c.getX a
  let p := (s.c.getA b).toNat
  let bind (w : Word) (s : State) : Out := .next (s.done fun c => ({ c with cr := { c.cr with egheap := w } }).setX d 0)
  if v = BitVec.allOnes 64 then bind 0 s
  else if 15 < v.toNat then .next (s.heapFail d 5)
  else
    match s.heaps.find? fun h => h.asid == s.c.asid && h.num == v.toNat with
    | some h => if h.header ≠ p then .next (s.heapFail d 5) else if h.broken then .next (s.heapFail d 8) else bind (0x10 + v) s
    | none =>
      if p % 64 ≠ 0 ∨ 2 ^ 63 ≤ p then .next (s.heapFail d 5)
      else
        match s.readNum (s.req 8) .dev p 256 with
        | .error e => .next (s.memFail e (s.memStop s.self s.c.asid .dev (.ofNat 64 p) 256) false)
        | .ok (r, s) =>
          if headerBad p r then .next (s.heapFail d 5)
          else
            let h : Heap := { asid := s.c.asid, num := v.toNat, header := p, hdr := r % 2 ^ 512, die := s.myDie, broken := false, spoiled := false, msgs := [],
                              extr := none, queue := [], poolNext := 1 }
            bind (0x10 + v) { s with heaps := s.heaps ++ [h] }

/-- A term record breaks R319. -/
def termBad (r : Nat) : Bool :=
  decide (3 < fld r 2 1 ∨ fld r 3 1 ≠ 0 ∨ (fld r 2 1 < 2 ∧ fld r 8 4 ≠ 0) ∨ (fld r 2 1 < 3 ∧ fld r 12 4 ≠ 0))

/-- The outcome of an insertion: the class of a held key, a node just made, a failure's reason, or that the anchor makes it wait. -/
inductive InsOut where
  | found (c : Nat) | made (c : Nat) | fail (r : Nat) | wait
deriving DecidableEq, Repr

/-- Send the appends of a node to the parent lists of its children's roots, each with the next pool entry. -/
def hSendAppends (n node : Nat) : Nat → List Nat → HM Unit
  | _, [] => pure ()
  | e, r :: rs => do
    hSend n (.append node r e) (.ins node)
    hSendAppends n node (e + 1) rs

/-- EGINS's effect until its key is entered and its appends are sent (R319). -/
def hInsert (n : Nat) (h : Heap) (turn : Bool) (r : Nat) : HM InsOut := do
  let next ← hNext h
  let ar := fld r 2 1
  let kids := ([fld r 4 4, fld r 8 4, fld r 12 4]).take ar
  if kids.any fun c => c == 0 || decide (next ≤ c) then return .fail 2
  let key ← hKey h (fld r 0 2) ar (fld r 4 4) (fld r 8 4) (fld r 12 4) next
  match ← hHeld h key with
  | (some (_, q), _) => return .found (← hRoot h q.cls)
  | (none, place) =>
    let roots := (([key.c0, key.c1, key.c2]).take ar).dedup
    if !turn then return .wait
    if next = 2 ^ fld h.hdr 44 1 then return .fail 3
    if fld h.hdr 40 4 < h.poolNext + roots.length then return .fail 4
    hPut h (h.header + 64) 4 (next + 1)
    hPut h (h.nodeAt next) 16 (key.node 1)
    hSetCls h next 0 32 (next + 2 ^ 64)
    hEnter h place key
    modify fun s => s.mapHeap n fun h => { h with poolNext := h.poolNext + roots.length }
    hSendAppends n next h.poolNext roots
    return .made next

/-- Do messages remain that count toward the EGINS of a node? -/
def Heap.inserting (h : Heap) (node : Nat) : Bool := h.msgs.any (·.tag == .ins node)

/-- EGINS (R319): once its key is entered it waits until no message tagged with it remains. -/
def execEgins (d : XReg) (a : AReg) (s : State) : Out :=
  let p := s.c.getA a
  if unaligned p 16 ∨ (isLs p ∧ s.c.lsBad p 16) then .next (s.misaligned p)
  else .next <| s.heapOp d fun n h =>
    let finish (c : Nat) (s : State) : State := (s.anchorServe n).done fun k => k.setX d (.ofNat 64 c)
    match s.c.wait.bind fun w => if w.arg = 0 then none else some w.arg with
    | some node => if h.inserting node then s.stall true else finish node s
    | none =>
      match s.readMemNum s.self s.c.asid .clu p 16 with
      | .error e => s.memFail e p false
      | .ok (r, s) =>
        if termBad r then s.heapFail d 5
        else s.heapStep n d (hInsert n h (s.anchorTurn h) r) fun o s =>
          match o with
          | .found c => finish c s
          | .made c =>
            let s := s.anchorServe n
            if (s.heaps[n]?.any fun h => h.inserting c) then (s.stall true).mapWait fun w => { w with arg := c } else finish c s
          | .fail r => (s.anchorServe n).heapFail d r
          | .wait => s.anchorWait n

/-- An id operand is 0 or not below nextid. -/
def idBad (w : Word) (next : Nat) : Bool := w == 0 || decide (next ≤ w.toNat)

/-- EGMRG's effect (R320): the sequence, or none while the anchor makes it wait. -/
def hMerge (n : Nat) (h : Heap) (turn : Bool) (x y : Word) : HM (Except Nat (Option Nat)) := do
  let next ← hNext h
  if idBad x next || idBad y next then return .error 2
  if !turn then return .ok none
  let seq ← hGet h (h.header + 72) 8
  hPut h (h.header + 72) 8 (seq + 1)
  hSend n (.union x.toNat y.toNat 1 (seq + 1)) (.merge (seq + 1))
  return .ok (some (seq + 1))

/-- EGMRG (R320). -/
def execEgmrg (d a b : XReg) (s : State) : Out :=
  .next <| s.heapOp d fun n h => s.heapStep n d (hMerge n h (s.anchorTurn h) (s.c.getX a) (s.c.getX b)) fun o s =>
    match o with
    | .error r => (s.anchorServe n).heapFail d r
    | .ok none => s.anchorWait n
    | .ok (some q) => (s.anchorServe n).done fun c => c.setX d (.ofNat 64 q)

/-- The root of an id operand, or reason 2. -/
def hRootOf (h : Heap) (x : Word) : HM (Except Nat Nat) := do
  let next ← hNext h
  if idBad x next then return .error 2
  return .ok (← hRoot h x.toNat)

/-- EGFIND (R321). -/
def execEgfind (d a : XReg) (s : State) : Out :=
  .next <| s.heapOp d fun n h => s.heapStep n d (hRootOf h (s.c.getX a)) fun o s =>
    match o with
    | .error r => s.heapFail d r
    | .ok c => s.done fun k => k.setX d (.ofNat 64 c)

/-- Two id operands have one root. -/
def hSame (h : Heap) (x y : Word) : HM Bool := do
  match ← hRootOf h x with
  | .error _ => return false
  | .ok rx =>
    match ← hRootOf h y with
    | .error _ => return false
    | .ok ry => return rx == ry

/-- EGSAME (R321): a failing one writes false. -/
def execEgsame (d : PReg) (a b : XReg) (s : State) : Out :=
  match s.boundHeap with
  | .error _ => .next (s.done fun c => c.setP d false)
  | .ok (n, h) =>
    if h.spoiled then .next (({ s with fresh := s.fresh + 1 }).done fun c => c.setP d ((Config.heapUnspecified s.fresh).getLsbD 0))
    else .next (s.heapRun n (hSame h (s.c.getX a) (s.c.getX b)) (fun v s => s.done fun c => c.setP d v) (fun s => s.done fun c => c.setP d false) fun s => s.stall)

/-- EGSYNC (R320). -/
def execEgsync (a : XReg) (s : State) : Out :=
  match s.boundHeap with
  | .error _ => .next s.retire
  | .ok (n, h) =>
    let act : HM (Nat × Nat) := do
      return (← hGet h (h.header + 72) 8, ← hGet h (h.header + 80) 8)
    .next <| s.heapRun n act (fun v s =>
      let x := (s.c.getX a).toNat
      let goal := if x = 2 ^ 64 - 1 then (match s.c.wait with | some w => w.arg | none => v.1) else x
      if goal ≤ v.2 then s.retire else s.stall.mapC fun c => { c with wait := c.wait.map fun w => { w with arg := goal } }) (fun s => s.retire) fun s => s.stall

/-- Free bytes, for what a spoiled heap writes. -/
def freeBytes (fresh n : Nat) : List Byte := (List.range n).map fun k => (Config.heapUnspecified (fresh + k)).truncate 8

/-- EGNODE's record and root (R321). -/
def hNode (h : Heap) (x : Word) : HM (Except Nat (Nat × Nat)) := do
  match ← hRootOf h x with
  | .error r => return .error r
  | .ok root =>
    let v ← hGet h (h.nodeAt x.toNat) 16
    let o := nodeKey v 0
    let k ← hKey h o.op o.arity o.c0 o.c1 o.c2 0
    return .ok (root, k.node 1)

/-- Write a record of the instruction, then complete. -/
def State.heapRecord (s : State) (p : Word) (bs : List Byte) (k : State → State) : State :=
  match s.writeMem s.self s.c.asid p bs with
  | .error e => s.memFail e p true
  | .ok s => k s

/-- EGNODE (R321). -/
def execEgnode (d a : XReg) (b : AReg) (s : State) : Out :=
  let p := s.c.getA b
  if unaligned p 16 ∨ (isLs p ∧ s.c.lsBad p 16) then .next (s.misaligned p)
  else
    match s.boundHeap with
    | .error r => .next (s.heapFail d r)
    | .ok (n, h) =>
      if h.spoiled then .next (({ s with fresh := s.fresh + 16 }).heapRecord p (freeBytes s.fresh 16) fun s => s.heapFree d)
      else .next <| s.heapStep n d (hNode h (s.c.getX a)) fun o s =>
        match o with
        | .error r => s.heapFail d r
        | .ok (root, r) => s.heapRecord p (bytesOf 16 r) fun s => s.done fun c => c.setX d (.ofNat 64 root)

/-! A view of the whole heap, read at one instant. -/

/-- The class and node entries of ids 0 to n − 1; those of id 0 stand for nothing. -/
structure HView where
  n : Nat
  cls : List Nat
  node : List Nat
deriving DecidableEq, Repr

/-- Read something of consecutive ids. -/
def hEntries (get : Nat → HM Nat) : Nat → Nat → HM (List Nat)
  | 0, _ => pure []
  | k + 1, c => do
    let v ← get c
    return v :: (← hEntries get k (c + 1))

/-- Read the heap. -/
def hView (h : Heap) : HM HView := do
  let next ← hNext h
  let cls ← hEntries (fun c => hCls h c 0 32) (next - 1) 1
  let node ← hEntries (fun c => hGet h (h.nodeAt c) 16) (next - 1) 1
  return { n := next, cls := 0 :: cls, node := 0 :: node }

/-- The ids. -/
def HView.ids (v : HView) : List Nat := (List.range (v.n - 1)).map (· + 1)
/-- Find, in the view. -/
def HView.find (v : HView) : Nat → Nat → Nat
  | 0, c => c
  | k + 1, c =>
    let p := fld (v.cls.getD c 0) 0 4
    if p = c then c else v.find k p
/-- The root of a class. -/
def HView.root (v : HView) (c : Nat) : Nat := v.find (c + 1) c
/-- A node. -/
def HView.key (v : HView) (c : Nat) : HKey := nodeKey (v.node.getD c 0) c
/-- The size of a class. -/
def HView.size (v : HView) (c : Nat) : Nat := fld (v.cls.getD c 0) 8 4
/-- The members of a root's tree. -/
def HView.members (v : HView) (r : Nat) : List Nat := v.ids.filter fun n => v.root n == r
/-- The children of a node, as stored. -/
def HKey.kids (k : HKey) : List Nat := ([k.c0, k.c1, k.c2]).take k.arity

/-- EGCLASS (R321). -/
def execEgclass (d a b : XReg) (s : State) : Out :=
  .next <| s.heapOp d fun n h => s.heapStep n d (hView h) fun v s =>
    if idBad (s.c.getX a) v.n then s.heapFail d 2
    else
      let r := v.root (s.c.getX a).toNat
      s.done fun c => c.setX d (.ofNat 64 ((v.ids.find? fun m => decide ((s.c.getX b).toNat < m) && v.root m == r).getD 0))

/-! Pattern programs (R325, R326). -/

/-- The words of a pattern from one on: what is left after one tree, and the tree's depth. -/
def parsePattern : Nat → List Nat → Option (List Nat × Nat)
  | 0, _ => none
  | _, [] => none
  | k + 1, w :: ws =>
    if w / 2 ^ 30 = 0 then
      let ar := w / 2 ^ 16 % 4
      if ar = 0 then none
      else ((List.range ar).foldl (fun (st : Option (List Nat × Nat)) _ =>
        match st with
        | none => none
        | some (ws, dep) => (parsePattern k ws).map fun r => (r.1, max dep r.2)) (some (ws, 0))).map fun r => (r.1, r.2 + 1)
    else some (ws, 1)

/-- The depth of a pattern that forms exactly one tree. -/
def patternDepth (ws : List Nat) : Option Nat :=
  match parsePattern 4 ws with
  | some ([], n) => some n
  | _ => none

/-- Reserved bits of a pattern word are zero. -/
def wordOk (w : Nat) : Bool :=
  match w / 2 ^ 30 with
  | 0 => w / 2 ^ 18 % 2 ^ 12 == 0
  | 3 => w / 2 ^ 20 % 2 ^ 10 == 0
  | _ => w / 2 ^ 3 % 2 ^ 27 == 0

/-- The variable a word binds. -/
def bindsVar (w : Nat) : Option Nat :=
  match w / 2 ^ 30 with
  | 1 => some (w % 8)
  | 3 => if w / 2 ^ 19 % 2 = 1 then some (w / 2 ^ 16 % 8) else none
  | _ => none

/-- Variables are in range, and each SAME names one bound earlier: the variables bound. -/
def varsOk (nvars : Nat) : List Nat → List Nat → Option (List Nat)
  | [], bound => some bound
  | w :: ws, bound =>
    if w / 2 ^ 30 = 2 ∧ (nvars ≤ w % 8 ∨ !(bound.contains (w % 8))) then none
    else
      match bindsVar w with
      | some v => if nvars ≤ v then none else varsOk nvars ws (v :: bound)
      | none => varsOk nvars ws bound

/-- A rule of 64 bytes, if it keeps R325 and R326. -/
def ruleOf (r : Nat) : Option Rule :=
  let nw := fld r 2 1
  let nvars := fld r 3 1
  let words := (List.range (min nw 14)).map fun k => fld r (4 + 4 * k) 4
  let top := words.headD 0 / 2 ^ 30
  let vars := varsOk nvars words []
  if nw < 1 ∨ 14 < nw ∨ 8 < nvars ∨ fld r 60 4 ≠ 0 ∨ fld r (4 + 4 * nw) (56 - 4 * nw) ≠ 0 ∨ !(words.all wordOk) ∨ (top ≠ 0 ∧ top ≠ 3)
      ∨ (patternDepth words).isNone ∨ !(vars.elim false fun b => (List.range nvars).all b.contains) then none
  else some { rule := fld r 0 2, nvars := nvars, words := words }

/-- The rules of a pattern program: its bytes from the header on. -/
def rulesOf (bytes : List Byte) (n : Nat) : Option (List Rule) :=
  (List.range n).foldr (fun k acc =>
    match ruleOf (wordOfBytes ((bytes.drop (64 + 64 * k)).take 64)), acc with
    | some r, some rs => some (r :: rs)
    | _, _ => none) (some [])

/-! Matching (R325 to R328). -/

/-- An environment: the bindings of v0 to v7. -/
abbrev VEnv := List (Option Nat)

/-- Bind a variable to a class, or hold it to its binding. -/
def bindVar (e : VEnv) (v r : Nat) : Option VEnv :=
  match e.getD v none with
  | some q => if q = r then some e else none
  | none => some (e.set v (some r))

/-- Match the tree at the head of the words on a class: what is left of the words, and the environment, for each way. -/
def HView.matchTree (v : HView) : Nat → List Nat → Nat → VEnv → List (List Nat × VEnv)
  | 0, _, _, _ => []
  | _, [], _, _ => []
  | k + 1, w :: ws, x, e =>
    let r := v.root x
    match w / 2 ^ 30 with
    | 0 =>
      (v.members r).flatMap fun m =>
        let key := v.key m
        if key.op = w % 65536 ∧ key.arity = w / 2 ^ 16 % 4 then
          key.kids.foldl (fun st c => st.flatMap fun se => v.matchTree k se.1 c se.2) [(ws, e)]
        else []
    | 1 =>
      match bindVar e (w % 8) r with
      | some e => [(ws, e)]
      | none => []
    | 2 => if e.getD (w % 8) none = some r then [(ws, e)] else []
    | _ =>
      if (v.members r).any fun m => (v.key m).op == w % 65536 && (v.key m).arity == 0 then
        match bindsVar w with
        | none => [(ws, e)]
        | some i =>
          match bindVar e i r with
          | some e => [(ws, e)]
          | none => []
      else []

/-- The order of tuples. -/
def tupleLt : List Nat → List Nat → Bool
  | [], [] => false
  | [], _ => true
  | _, [] => false
  | a :: as, b :: bs => decide (a < b) || (a == b && tupleLt as bs)

/-- The bindings of a rule on a root, ascending. -/
def HView.bindings (v : HView) (r : Rule) (root : Nat) : List (List Nat) :=
  sortBy (fun a b => !tupleLt b a) (((v.matchTree 4 r.words root (List.replicate 8 none)).map fun se => (se.2.take r.nvars).map fun o => o.getD 0).dedup)

/-- The classes a match considers, ascending. -/
def HView.considered (v : HView) (m : Match) : List Nat :=
  match m.roots with
  | some rs => sortBy (fun a b => decide (a ≤ b)) ((rs.map v.root).dedup)
  | none => v.ids.filter fun c => decide (m.lo ≤ c) && decide (c < m.hi) && v.root c == c

/-- A place in the stream comes after another. -/
def placeLt (a b : Nat × Nat × List Nat) : Bool :=
  decide (a.1 < b.1) || (a.1 == b.1 && (decide (a.2.1 < b.2.1) || (a.2.1 == b.2.1 && tupleLt a.2.2 b.2.2)))

/-- The next binding of the stream. -/
def HView.nextBinding (v : HView) (m : Match) : Option (Nat × Nat × List Nat) :=
  let after := fun p => match m.last with
    | some l => placeLt l p
    | none => true
  m.rules.zipIdx.findSome? fun (r, pos) => (v.considered m).findSome? fun root =>
    if (match m.last with | some l => decide (pos < l.1) || (pos == l.1 && decide (root < l.2.1)) | none => false) then none
    else ((v.bindings r root).find? fun t => after (pos, root, t)).map fun t => (pos, root, t)

/-! Ranking (R329). -/

/-- Round to BF16. -/
def toBf16 (v : Val) : Val := (decodeFl .bf16 (encodeVal .bf16 .rne false false v).bits).1

/-- The BF16 value of a weight. -/
def weight (ws : List (BitVec 16)) (n : Nat) : Val := (decodeFl .bf16 (ws.getD n 0).toNat).1

/-- Max(0, v). -/
def relu : Val → Val
  | .fin true _ _ => .fin false 0 0
  | .inf true => .fin false 0 0
  | v => v

/-- A number's BF16 value. -/
def featureVal (n : Nat) : Val := toBf16 (.fin false (min n 65535) 0)

/-- The network's score of sixteen features. -/
def score (ws : List (BitVec 16)) (f : List Nat) : Val :=
  let x := f.map featureVal
  let dot := fun (start : Val) (base : Nat) (xs : List Val) => xs.zipIdx.foldl (fun acc p => (addVal .rne acc (mulVal (weight ws (base + p.2)) p.1).1).1) start
  let hid := (List.range 32).map fun j => toBf16 (relu (dot (weight ws (512 + j)) (16 * j) x))
  toBf16 (dot (weight ws 576) 544 hid)

/-- The encoding of a score. -/
def scoreBits (v : Val) : BitVec 16 := .ofNat 16 (encodeVal .bf16 .rne false false v).bits

/-- The features of a binding; `entries` is the length of the root's parent list. -/
def HView.features (v : HView) (b : Binding) (entries : Nat) : List Nat :=
  let data := fld (v.cls.getD b.root 0) 24 8
  [b.rule, b.nvars, v.size b.root] ++ (List.range 8).map (fun k => if k < b.nvars then v.size (v.root (b.vs.getD k 0)) else 0) ++
    [entries, b.topOp, b.depth, data % 65536, data / 65536 % 65536]

/-- Score the bindings of a batch. -/
def hScore (h : Heap) (v : HView) (ws : List (BitVec 16)) : List Binding → HM (List (Val × Binding))
  | [] => pure []
  | b :: bs => do
    let entries ← hList h 0 h.poolNext (fld (v.cls.getD b.root 0) 12 4)
    let y := score ws (v.features b entries.length)
    return (y, { b with ranked := true, score := scoreBits y }) :: (← hScore h v ws bs)

/-- The order of delivery: descending score, NaN last, then the lower root. -/
def rankLe (a b : Val × Binding) : Bool :=
  if a.1.isNan ∨ b.1.isNan then (if a.1.isNan && b.1.isNan then decide (a.2.root ≤ b.2.root) else b.1.isNan)
  else
    match cmpVal a.1 b.1 with
    | .gt => true
    | .lt => false
    | .eq => decide (a.2.root ≤ b.2.root)

/-- A step of a match: a binding is formed, or a full or last batch is featurised and ranked at once (R329), or what the queue has room for of a ranked
one is queued. -/
def hDeliver (h : Heap) (m : Match) : HM Match := do
  let v ← hView h
  if m.batch.any (·.ranked) then
    let room := 256 - m.queue.length
    return { m with batch := m.batch.drop room, queue := m.queue ++ m.batch.take room }
  if m.ranked ∧ !m.batch.isEmpty ∧ (m.done ∨ 64 ≤ m.batch.length) then
    let ys ← hScore h v m.weights m.batch
    return { m with batch := (sortBy rankLe ys).map (·.2) }
  if m.done ∨ 256 ≤ m.queue.length then return m
  match v.nextBinding m with
  | none => return { m with done := true }
  | some (pos, root, t) =>
    let closed ← hGet h (h.header + 80) 8
    let r := m.rules.getD pos { rule := 0, nvars := 0, words := [] }
    let b : Binding := { pos := pos, rule := r.rule, nvars := r.nvars, root := root, vs := t, stamp := closed, ranked := false, score := 0,
                         topOp := r.words.headD 0 % 65536, depth := (patternDepth r.words).getD 1 }
    let m := { m with last := some (pos, root, t) }
    return if m.ranked then { m with batch := m.batch ++ [b] } else { m with queue := m.queue ++ [b] }

/-- MATCHER_DELIVER (R327 to R329): the match of frame f goes on, as room allows. -/
def execMatcherDeliver (f : Nat) (s : State) : Out :=
  match (s.ctx f).mtch with
  | none => .next s
  | some m =>
    match s.heaps[m.heap]? with
    | none => .next s
    | some h => if h.broken ∨ (m.done ∧ m.batch.isEmpty) then .next s else
        .next (s.heapRun m.heap (hDeliver h m) (fun m' s => if m' = m then s else s.mapCtx f fun c => { c with mtch := some m' }) id id)

/-! Matches (R324, R327, R328, R330). -/

/-- Classes that have a node with a child of a root's tree: one step from a class to its ancestors. -/
def HView.parents (v : HView) (rs : List Nat) : List Nat := ((v.ids.filter fun n => (v.key n).kids.any fun c => rs.contains (v.root c)).map v.root).dedup

/-- The classes of a delta match: those of the changed nodes, and their ancestors to three steps. -/
def HView.deltaRoots (v : HView) (nodes : List Nat) : List Nat :=
  let r0 := (nodes.map v.root).dedup
  let r1 := v.parents r0
  let r2 := v.parents r1
  (r0 ++ r1 ++ r2 ++ v.parents r2).dedup

/-- Consolidate and consume the change queue's records with time below front0: the nodes of the +1 records. -/
def hTakeChanges (h : Heap) : HM (List Nat) := do
  if fld h.hdr 32 8 = 0 then return []
  match ← hQueue h with
  | none => return []
  | some q =>
    modify fun s => s.dqChange s.self 0 fun s => s.consolidateAt q s.self 0
    let s ← get
    match s.dqs[q]? with
    | none => return []
    | some dq =>
      let front := dq.front.getD 0 0
      modify fun s => s.dqChange s.self 0 fun s => s.mapDq q fun dq => { dq with cons := dq.cons.filter fun r => decide (front ≤ r.time) }
      return ((dq.cons.filter fun r => decide (r.time < front) && decide (0 < r.mult)).map (·.key)).dedup

/-- The matter of a new match that the heap gives. -/
def hOpenMatch (n : Nat) (h : Heap) (r : Nat) (rules : List Rule) (ws : List (BitVec 16)) : HM Match := do
  let next ← hNext h
  let delta := (fld r 16 1).testBit 0
  let roots ← if delta then do
      let nodes ← hTakeChanges h
      let v ← hView h
      pure (some (v.deltaRoots (nodes.filter fun c => decide (c < v.n))))
    else pure none
  return { heap := n, ranked := (fld r 16 1).testBit 1, lo := fld r 8 4, hi := if fld r 12 4 = 0 then next else fld r 12 4, roots := roots, rules := rules,
           weights := ws, last := none, batch := [], done := false, queue := [] }

/-- A match record breaks R324. -/
def matchBad (r : Nat) : Bool :=
  let delta := (fld r 16 1).testBit 0
  decide (fld r 0 8 % 64 ≠ 0 ∨ 3 < fld r 16 1 ∨ fld r 17 47 ≠ 0 ∨ (delta ∧ (fld r 8 4 ≠ 0 ∨ fld r 12 4 ≠ 0)) ∨ (!delta ∧ fld r 8 4 = 0))

/-- The 577 BF16 weights of a block. -/
def weightsOf (bs : List Byte) : List (BitVec 16) := (List.range 577).map fun k => .ofNat 16 (wordOfBytes ((bs.drop (2 * k)).take 2))

/-- Read the weight block at cr.egmodel. -/
def State.readWeights (s : State) : MR (List (BitVec 16)) :=
  match s.readMem s.self s.c.asid .clu s.c.cr.egmodel 1154 with
  | .error e => .error e
  | .ok (bs, s) => .ok (weightsOf bs, s)

/-- EGMATCH (R324). -/
def execEgmatch (d : XReg) (a : AReg) (s : State) : Out :=
  let p := s.c.getA a
  if unaligned p 64 ∨ (isLs p ∧ s.c.lsBad p 64) then .next (s.misaligned p)
  else .next <| s.heapOp d fun n h =>
    if s.c.mtch.isSome then s.heapFail d 6
    else
      match s.readMemNum s.self s.c.asid .clu p 64 with
      | .error e => s.memFail e p false
      | .ok (r, s) =>
        let prog : Word := .ofNat 64 (fld r 0 8)
        if matchBad r then s.heapFail d 5
        else
          match s.readMem s.self s.c.asid .clu prog 64 with
          | .error e => s.memFail e prog false
          | .ok (hd, s) =>
            let nr := wordOfBytes hd
            if nr < 1 ∨ 64 < nr then s.heapFail d 7
            else
              match s.readMem s.self s.c.asid .clu prog (64 + 64 * nr) with
              | .error e => s.memFail e (s.memStop s.self s.c.asid .clu prog (64 + 64 * nr)) false
              | .ok (bytes, s) =>
                match rulesOf bytes nr with
                | none => s.heapFail d 7
                | some rules =>
                  let ws := if (fld r 16 1).testBit 1 then s.readWeights else .ok ([], s)
                  match ws with
                  | .error e => s.memFail e (s.memStop s.self s.c.asid .clu s.c.cr.egmodel 1154) false
                  | .ok (ws, s) => s.heapStep n d (hOpenMatch n h r rules ws) fun m s => s.done fun c => ({ c with mtch := some m }).setX d 0

/-- The 64 bytes of a binding record (R327). -/
def Binding.num (b : Binding) : Nat :=
  b.rule + b.nvars * 2 ^ 16 + b.ranked.toNat * 2 ^ 24 + b.root * 2 ^ 32 + (b.vs.zipIdx.foldl (fun acc p => acc + p.1 * 2 ^ (64 + 32 * p.2)) 0)
    + b.stamp * 2 ^ 320 + b.score.toNat * 2 ^ 384

/-- EGNEXT (R328). -/
def execEgnext (d : XReg) (a : AReg) (s : State) : Out :=
  let p := s.c.getA a
  if unaligned p 64 ∨ (isLs p ∧ s.c.lsBad p 64) then .next (s.misaligned p)
  else
    match s.boundHeap with
    | .error r => .next (s.heapFail d r)
    | .ok (_, h) =>
      match s.c.mtch with
      | none => .next (s.heapFail d 6)
      | some m =>
        match m.queue with
        | b :: rest =>
          let bytes := if h.spoiled then freeBytes s.fresh 64 else bytesOf 64 b.num
          let s := if h.spoiled then { s with fresh := s.fresh + 64 } else s
          .next (s.heapRecord p bytes fun s => s.done fun c => ({ c with mtch := some { m with queue := rest } }).setX d 0)
        | [] =>
          if m.done ∧ m.batch.isEmpty then .next (s.done fun c => ({ c with mtch := none }).setX d 1)
          else .next s.stall

/-- The roots of several ids, or reason 2. -/
def hRoots (h : Heap) : List Nat → HM (Except Nat (List Nat))
  | [] => pure (.ok [])
  | c :: cs => do
    match ← hRootOf h (.ofNat 64 c) with
    | .error r => return .error r
    | .ok q =>
      match ← hRoots h cs with
      | .error r => return .error r
      | .ok qs => return .ok (q :: qs)

/-- A binding record breaks R330. -/
def bindingBad (r : Nat) : Bool := decide (8 < fld r 2 1 ∨ 1 < fld r 3 1 ∨ fld r 50 14 ≠ 0)

/-- EGCHK (R330). -/
def execEgchk (d : XReg) (a : AReg) (s : State) : Out :=
  let p := s.c.getA a
  if unaligned p 64 ∨ (isLs p ∧ s.c.lsBad p 64) then .next (s.misaligned p)
  else
    match s.boundHeap with
    | .error r => .next (s.heapFail d r)
    | .ok (n, h) =>
      if h.spoiled then .next (({ s with fresh := s.fresh + 64 }).heapRecord p (freeBytes s.fresh 64) fun s => s.heapFree d)
      else
        match s.readMemNum s.self s.c.asid .clu p 64 with
        | .error e => .next (s.memFail e p false)
        | .ok (r, s) =>
          if bindingBad r then .next (s.heapFail d 5)
          else
            let ids := fld r 4 4 :: (List.range (fld r 2 1)).map fun k => fld r (8 + 4 * k) 4
            .next <| s.heapStep n d (hRoots h ids) fun o s =>
              match o with
              | .error q => s.heapFail d q
              | .ok qs =>
                let r' := qs.zipIdx.foldl (fun r q => setFld r (4 + 4 * q.2) 4 q.1) r
                s.heapRecord p (bytesOf 64 r') fun s => s.done fun c => c.setX d (if qs = ids then 0 else 1)

/-! Costs and extraction (R331, R332). -/

/-- EGCOST (R331). -/
def execEgcost (d : XReg) (a : AReg) (b : XReg) (s : State) : Out :=
  let p := (s.c.getA a).toNat
  let n := (s.c.getX b).toNat
  .next <| s.heapOp d fun k h =>
    if (p ≠ 0 ∧ (p % 4 ≠ 0 ∨ n < 1 ∨ 65536 < n)) ∨ (p = 0 ∧ n ≠ 0) then s.heapFail d 5
    else
      let act : HM Unit := do
        hPut h (h.header + 88) 8 p
        hPut h (h.header + 96) 4 n
        hPut h (h.header + 100) 1 (if p = 0 then 1 else 0)
      s.heapStep k d act fun _ s => s.done fun c => c.setX d 0

/-- Where costs come from. -/
inductive CostSrc where
  | table (base count : Nat)
  | model (ws : List (BitVec 16))
deriving DecidableEq, Repr

/-- The integer nearest a score, ties to even, from 0 to 65,535; NaN gives 65,535. -/
def scoreCost (v : Val) : Nat :=
  match v with
  | .nan _ => 65535
  | .inf neg => if neg then 0 else 65535
  | .fin neg m e => if neg then 0 else min 65535 (roundAt .rne false m e 0).1

/-- The features of a node in model mode. -/
def HView.nodeFeatures (v : HView) (c : Nat) : List Nat :=
  let k := v.key c
  let sizes := (List.range 3).map fun i => if i < k.arity then v.size (v.root (k.kids.getD i 0)) else 0
  [k.op, k.arity] ++ sizes ++ (if k.arity = 0 then [k.c0 % 65536, k.c0 / 65536] else [0, 0]) ++ List.replicate 9 0

/-- The largest cost. -/
def costMax : Nat := 2 ^ 32 - 1

/-- The costs of the nodes' operators in table mode; a cost that cannot be read faults at its own address. -/
def State.tableCosts (s : State) (base count : Nat) : List Nat → Except (MFault × Nat) (List Nat × State)
  | [] => .ok ([], s)
  | op :: ops =>
    if op < count then
      match s.readNum (s.req 8) .clu (base + 4 * op) 4 with
      | .error e => .error (e, base + 4 * op)
      | .ok (v, s) =>
        match s.tableCosts base count ops with
        | .error e => .error e
        | .ok (vs, s) => .ok (v :: vs, s)
    else
      match s.tableCosts base count ops with
      | .error e => .error e
      | .ok (vs, s) => .ok (costMax :: vs, s)

/-- The cost of a node under the best costs of the roots so far. -/
def HView.cost (v : HView) (own : List Nat) (best : List Nat) (c : Nat) : Nat :=
  let kids := if (v.key c).arity = 0 then [] else (v.key c).kids
  min costMax (kids.foldl (fun acc k => acc + best.getD (v.root k) costMax) (own.getD c costMax))

/-- One sweep over the nodes. -/
def HView.sweep (v : HView) (own best : List Nat) : List Nat :=
  v.ids.foldl (fun best c => best.set (v.root c) (min (best.getD (v.root c) costMax) (v.cost own best c))) best

/-- Sweep until nothing changes. -/
def HView.bestCosts (v : HView) (own : List Nat) : Nat → List Nat → List Nat
  | 0, best => best
  | k + 1, best => let b := v.sweep own best; if b = best then best else v.bestCosts own k b

/-- The output table: 8 bytes for each id from 1. -/
def HView.table (v : HView) (own : List Nat) : List Byte :=
  let best := v.bestCosts own v.n (List.replicate v.n costMax)
  v.ids.flatMap fun id =>
    let r := v.root id
    let cost := best.getD r costMax
    let node := if cost = costMax then 0 else (v.ids.find? fun n => v.root n == r && v.cost own best n == cost).getD 0
    bytesOf 4 node ++ bytesOf 4 cost

/-- Write bytes at .dev, or in the local store. -/
def State.writeDev (s : State) (a : Word) (bs : List Byte) : Except MFault State :=
  if isLs a then s.writeMem s.self s.c.asid a bs else s.writeBytesAt (s.req 12) .dev (bs.length / 64 + 2) a.toNat bs

/-- Where such a write fails: the first line's part that cannot be written. -/
def State.devStop (s : State) (a : Word) (n : Nat) : Word :=
  if isLs a then a else .ofNat 64 (s.readStop (s.req 12) .dev (n / 64 + 2) a.toNat n)

/-- The EGEXTR of the selected context has finished: the anchor is free (R332). -/
def State.anchorFree (s : State) (n : Nat) : State := s.mapHeap n fun h => { h with extr := none }

/-- A fault of an EGEXTR that the anchor holds: it has begun, and stays issued (R332, R367). -/
def State.extractFail (s : State) (e : MFault × Nat) (write : Bool) : State := (s.failAt e write).mapWait fun w => { w with begun := true }

/-- EGEXTR once the heap is closed and canonical. -/
def State.extract (s : State) (d : XReg) (n : Nat) (p : Word) (h : Heap) (v : HView) (src : CostSrc) : State :=
  let fin (bytes : List Byte) (s : State) : State :=
    match s.writeDev (p + 8) bytes with
    | .error e => s.extractFail (e, (s.devStop (p + 8) bytes.length).toNat) true
    | .ok s =>
      let s := s.anchorFree n
      if h.spoiled then s.heapFree d else s.done fun c => c.setX d 0
  if h.spoiled then fin (freeBytes s.fresh (8 * (v.n - 1))) { s with fresh := s.fresh + 8 * (v.n - 1) }
  else
    match src with
    | .table base count =>
      match s.tableCosts base count (v.ids.map fun c => (v.key c).op) with
      | .error e => s.extractFail e false
      | .ok (own, s) => fin (v.table (0 :: own)) s
    | .model ws => fin (v.table (0 :: v.ids.map fun c => scoreCost (score ws (v.nodeFeatures c)))) s

/-- EGEXTR (R332). A local-store table that passes the end of the window is found before anything else is read or written but nextid, which gives its
length (R315). -/
def execEgextr (d : XReg) (a : AReg) (s : State) : Out :=
  let p := s.c.getA a
  if unaligned p 8 ∨ (isLs p ∧ s.c.lsBad p 8) then .next (s.misaligned p)
  else
    match s.boundHeap with
    | .error r => .next (s.heapFail d r)
    | .ok (n, h) => .next <| s.heapStep n d (hNext h) fun next s =>
      if isLs p ∧ s.c.lsBad p (8 * next) then (s.anchorServe n).misaligned p
      else
        let src : HM (Nat × Nat × Nat) := do
          return (← hGet h (h.header + 88) 8, ← hGet h (h.header + 96) 4, ← hGet h (h.header + 100) 1)
        s.heapStep n d src fun (tab, cnt, mode) s =>
          if tab = 0 ∧ mode = 0 then (s.anchorServe n).heapFail d 9
          else if !(s.anchorTurn h) then s.anchorWait n
          else
            let s := s.anchorHold n
            if !h.msgs.isEmpty then s.stall true
            else s.heapStep n d (hView h) fun v s =>
              if mode = 0 then s.extract d n p h v (.table tab cnt)
              else
                match s.readWeights with
                | .error e => s.extractFail (e, (s.memStop s.self s.c.asid .clu s.c.cr.egmodel 1154).toNat) false
                | .ok (ws, s) => s.extract d n p h v (.model ws)

/-- A context that ends closes its match and gives up the anchor (R328, R332). -/
def State.heapLeave (s : State) (f : Nat) : State :=
  let s := { s with heaps := s.heaps.map fun (h : Heap) => { h with extr := h.extr.filter (·.1 != f), queue := h.queue.filter (·.1 != f) } }
  s.mapCtx f fun c => { c with mtch := none }

end Sys2Proof.Machine
end

