-- ==== Sys2Proof/Machine/Records.lean ====
section
/-! DEFINITION. FRESUME and PTFENCE, recording tables and pushes, sweepers, page moves and the log collector (R174, R201, R204, R292 to
R298, R300, R302 to R311). -/

namespace Sys2Proof.Machine

open Sys2Proof

/-! FRESUME and PTFENCE. -/

/-- FRESUME (R293): the entry's replay is accepted; it is made by REPLAY_ATTEMPT. -/
def execFresume (d a : XReg) (s : State) : Out :=
  let t := s.c.getX a
  let die := bitsOf t 9 8
  let answer (n : Nat) (s : State) : Out := .next (s.done fun c => c.setX d (.ofNat 64 n))
  match (s.die die).replay.find? fun e => e.is (bitsOf t 15 10) (bitsOf t 23 16) with
  | none => answer 1 s
  | some e =>
    if bitsOf t 63 32 ≠ 0 ∨ bitsOf t 3 0 ≠ 0 ∨ e.replaying ∨ (e.notice.isSome ∧ e.aids = []) ∨ e.gen.toNat ≠ bitsOf t 31 24 then answer 1 s
    else if e.asid ≠ s.c.asid then answer 2 s
    else answer 0 (s.mapReplay die (·.is e.slice e.entry) fun e => { e with replaying := true, mark := none })

/-- Write back and drop L2 lines one after another; a line whose writeback fails stays. -/
def State.dropEach (s : State) (ls : List L2Line) : State :=
  ls.foldl (fun s l => match s.dropL2 l with
    | .ok s => s
    | .error _ => s) s

/-- Every L1 and L2 line of a range of virtual addresses of an address space is written back and dropped. -/
def State.flushRange (s : State) (asid lo hi : Nat) : State :=
  let s := (s.l1.filter fun l => l.asid == asid && decide (lo ≤ 64 * l.line) && decide (64 * l.line < hi)).foldl State.dropL1 s
  s.dropEach (s.l2.filter fun l => l.asid == asid && decide (lo ≤ 64 * l.line) && decide (64 * l.line < hi))

/-- PTFENCE (R294): it raises no fault. A released line that cannot be written back stays released, and every other is published. -/
def execPtfence (a : AReg) (b : XReg) (s : State) : Out :=
  let len := (s.c.getX b).toNat
  let start := (s.c.getA a).toNat
  let lo := if len = 0 then 0 else start / 65536 * 65536
  let hi := if len = 0 then 2 ^ 52 else min (2 ^ 52) ((start + len + 65535) / 65536 * 65536)
  if s.c.unreleased s.nextId then .next s.stall
  else
    let s := match s.publishAll s.myClu .dev s.c.released with
      | (s, none) => s.mapC fun c => { c with released := [] }
      | (s, some _) => s
    let asid := s.c.asid
    let s := { s with tlb := s.tlb.filter fun t => !(t.asid == asid && decide (t.page * 2 ^ t.size < hi) && decide (lo < (t.page + 1) * 2 ^ t.size)) }
    .next (s.flushRange asid lo hi).retire

/-! Regions (R302, R307 to R310). -/

/-- The region descriptor at 64 bytes breaks a limit (R302). -/
def regionBad (r : Nat) : Bool :=
  decide (fld r 0 8 % 64 ≠ 0 ∨ fld r 8 8 % 64 ≠ 0 ∨ fld r 8 8 < 64 ∨ 2 ^ 40 < fld r 8 8 ∨ fld r 16 4 < 1 ∨ fld r 20 4 < 1 ∨ fld r 24 40 ≠ 0)

/-- A region holds the descriptor of 64 bytes. -/
def RegionSt.holds (g : RegionSt) (r : Nat) : Bool :=
  g.base == fld r 0 8 && g.len == fld r 8 8 && g.thrmiss == fld r 16 4 && g.threvict == fld r 20 4 && fld r 24 40 == 0

/-- Write a region of a die. -/
def State.setRegion (s : State) (die n : Nat) (g : RegionSt) : State := s.mapDie die fun d => { d with regions := tset d.regions n g }

/-- The first member of an iteration starts it: a pending rr takes effect, and a replay's counts start at 0 (R307). -/
def State.startIter (s : State) (die n : Nat) (replay : Bool) : State :=
  let g := (s.die die).region n
  if !g.members.isEmpty then s
  else
    let g' := { g with pend := [], wrote := [], pushed := [], got := [], rr := false, fb := g.fb && !g.rr, ovf := g.ovf && !g.rr,
                       miss := if g.rr || replay then 0 else g.miss, evict := if g.rr || replay then 0 else g.evict }
    let s := s.setRegion die n g'
    if g.rr then s.mapDie die fun d => { d with recs := d.recs.filter (·.region != n) } else s

/-- The selected context joins a region: as recording, or as replaying. -/
def State.joinRegion (s : State) (n : Nat) (replay : Bool) : State :=
  let s := s.startIter s.myDie n replay
  let g := (s.die s.myDie).region n
  let s := s.setRegion s.myDie n { g with state := if replay then 3 else 1, members := insNat s.self g.members }
  s.mapC fun c => { c with region := some n, sidx := 0, st := { c.st with recording := !replay, rpl := replay } }

/-- A frame's context leaves its region if it is the one named: the last member closes the iteration (R308). -/
def State.leaveRegion (s : State) (f : Nat) (id : Option Nat) : State :=
  match (s.ctx f).region with
  | none => s
  | some n =>
    if id.isSome ∧ id ≠ some n then s
    else
      let die := dieOf (cluOf (coreOf f))
      let g := (s.die die).region n
      let ms := g.members.filter (· != f)
      let s := s.setRegion die n { g with members := ms, state := if ms.isEmpty && g.state != 0 then 2 else g.state }
      s.mapCtx f fun c => { c with region := none, st := { c.st with recording := false, rpl := false } }

/-- A region id is x[5:0], with no other bit set. -/
def regionId (w : Word) : Option Nat := if bitsOf w 63 6 = 0 then some (bitsOf w 5 0) else none

/-- RECBEG (R302, R307). -/
def execRecbeg (d a : XReg) (b : AReg) (s : State) : Out :=
  let answer (n : Nat) (s : State) : Out := .next (s.done fun c => c.setX d (.ofNat 64 n))
  let p := s.c.getA b
  match regionId (s.c.getX a) with
  | none => .next s.reservedField
  | some n =>
    if s.c.st.recording ∨ s.c.st.rpl then answer 5 s
    else if unaligned p 64 then .next (s.misaligned p)
    else
      match s.readNumAt (s.req 8) .clu p.toNat 64 with
      | .error e => .next (s.failAt e false)
      | .ok (r, s) =>
        let g := (s.die s.myDie).region n
        if g.state ≠ 0 ∧ (g.asid ≠ s.c.asid ∨ !(g.holds r)) then answer 1 s
        else if regionBad r then answer 4 s
        else
          let s := if g.state = 0 then s.setRegion s.myDie n
              { RegionSt.reset with asid := s.c.asid, base := fld r 0 8, len := fld r 8 8, thrmiss := fld r 16 4, threvict := fld r 20 4, state := 1 } else s
          answer 0 (s.joinRegion n false)

/-- RPLBEG (R307). -/
def execRplbeg (d a : XReg) (s : State) : Out :=
  let answer (n : Nat) (s : State) : Out := .next (s.done fun c => c.setX d (.ofNat 64 n))
  match regionId (s.c.getX a) with
  | none => .next s.reservedField
  | some n =>
    let g := (s.die s.myDie).region n
    if s.c.st.recording ∨ s.c.st.rpl then answer 5 s
    else if g.state = 0 ∨ g.asid ≠ s.c.asid then answer 2 s
    else if g.rr ∨ g.state = 1 then answer 3 (s.joinRegion n false)
    else answer 0 (s.joinRegion n true)

/-- Leave the region that x[s1] names. -/
def State.recLeave (s : State) (a : XReg) : State :=
  match regionId (s.c.getX a) with
  | none => s.reservedField
  | some n => (s.leaveRegion s.self (some n)).retire

/-- RECEND (R308). -/
def execRecend (a : XReg) (s : State) : Out := .next (s.recLeave a)
/-- RPLEND (R308). -/
def execRplend (a : XReg) (s : State) : Out := .next (s.recLeave a)

/-- RERECORD (R309): rr is set; with the free flag it waits until the region has no member, then frees it. -/
def State.rerecord (s : State) (a : XReg) : State :=
  let w := s.c.getX a
  let n := bitsOf w 5 0
  if bitsOf w 63 9 ≠ 0 ∨ bitsOf w 7 6 ≠ 0 then s.reservedField
  else
    let g := (s.die s.myDie).region n
    if g.state = 0 ∨ g.asid ≠ s.c.asid then s.retire
    else if w.getLsbD 8 then
      if g.members.isEmpty then
        (s.mapDie s.myDie fun d => { d with regions := tset d.regions n RegionSt.reset, recs := d.recs.filter (·.region != n) }).retire
      else (s.setRegion s.myDie n { g with rr := true, freeing := true }).stall
    else (s.setRegion s.myDie n { g with rr := true }).retire

/-- RERECORD (R309). -/
def execRerecord (a : XReg) (s : State) : Out := .next (s.rerecord a)
/-- RERECORD with the free flag (R309): the flag is in the operand. -/
def execRerecordFree (a : XReg) (s : State) : Out := .next (s.rerecord a)

/-- The RECSTAT word (R310). -/
def RegionSt.stat (g : RegionSt) : Nat :=
  min g.miss (2 ^ 24 - 1) * 2 ^ 40 + min g.evict (2 ^ 24 - 1) * 2 ^ 16 + g.fb.toNat * 1024 + g.rr.toNat * 512 + g.ovf.toNat * 256 + g.state

/-- RECSTAT (R310). -/
def execRecstat (d a : XReg) (s : State) : Out :=
  match regionId (s.c.getX a) with
  | none => .next s.reservedField
  | some n => .next (s.done fun c => c.setX d (.ofNat 64 ((s.die s.myDie).region n).stat))

/-! Pushes and sweepers. -/

/-- The dies of the device. -/
def allDies : List Nat := List.range Config.dies

/-- The n-th push on its way, with its die. -/
def State.pushAt (s : State) (n : Nat) : Option (Nat × Push) := (allDies.flatMap fun d => (s.die d).pushes.map fun p => (d, p))[n]?

/-- PUSH_ARRIVAL (R204): the n-th push on its way arrives; it is dropped where a valid, non-stale copy stands. The line holds what a demand fill
from the slice would return, a stale copy's own bytes included. -/
def execPushArrival (n : Nat) (s : State) : Out :=
  match s.pushAt n with
  | none => .next s
  | some (die, p) =>
    let s := s.mapDie die fun d => { d with pushes := d.pushes.erase p }
    let s := s.mapClu p.clu fun c => { c with pPush := c.pPush / 2 ^ 24 * 2 ^ 24 + min (c.pPush % 2 ^ 24 + 1) (2 ^ 24 - 1) }
    let held := match s.l2Find die p.asid p.line with
      | some l => !s.l2Stale l && !l.img
      | none => false
    let found := s.l1Find p.clu p.asid p.line
    if held = false ∨ found.any (fun l => !s.l1Stale l) then .next s
    else
      let s := match found with
        | some l => s.dropL1 l
        | none => s.roomL1 p.clu p.line
      match s.l2Find die p.asid p.line with
      | none => .next s
      | some m =>
        let l : L1Line := { clu := p.clu, asid := p.asid, line := p.line, pa := m.pa, data := m.data, mask := 0, ver := (s.clu p.clu).vc, pushed := true,
                            perms := m.perms, img := false, poison := m.poison }
        let g := (s.die die).region p.region
        .next ((s.putL1 l).setRegion die p.region { g with got := (p.line, p.clu) :: g.got })

/-- A version is 8 or more steps old. -/
def aged (cur ver : BitVec 4) : Bool := decide (8 ≤ (cur - ver).toNat)

/-- SWEEPER_VISIT (R201): a slice of a cluster's L1, or of a die's L2, visits its lines. -/
def execSweeperVisit (l2 : Bool) (cu slice : Nat) (s : State) : Out :=
  if l2 then .next (s.dropEach (s.l2.filter fun l => l.die == cu && s.served cu (sliceOf (64 * l.line)) == slice && aged (s.die cu).vd l.ver))
  else .next ((s.l1.filter fun l => l.clu == cu && l.line % 8 == slice && aged (s.clu cu).vc l.ver).foldl State.dropL1 s)

/-! Page moves (R295 to R298). -/

/-- A frame's 64 KiB lie in stacked memory or the pool window. -/
def frameOk (dst : Nat) : Bool := dst % 65536 == 0 && (paClass dst == .stack || paClass dst == .pool)

/-- The refusal of a move request, given its 32 bytes and the entry it names (R295). A pte address that is not 8-byte aligned, which the rule bounds
and its list of refusals does not name, is refused too: DESIGN CHOICE (log 96). -/
def moveBad (req e : Nat) : Bool :=
  decide (fld req 0 8 % 8 ≠ 0 ∨ 1 < fld req 16 1 ∨ fld req 20 12 ≠ 0) || !(e.testBit 63) || pteBad 3 e || e.testBit 58 || decide (e / 2 ^ 51 % 4 = 3)
    || !frameOk (fld req 8 8)

/-- Every die's L2 copies of a frame, after its L1 copies, are written back and invalidated; what a home holds of it goes to its memory. -/
def State.recallFrame (s : State) (frame : Nat) : State :=
  let s := (s.l1.filter fun l => !l.img && l.pa / 65536 == frame).foldl State.dropL1 s
  let s := s.dropEach (s.l2.filter fun l => !l.img && l.pa / 65536 == frame)
  (s.homes.filter fun h => h.line / 1024 == frame).foldl (fun s h => s.writeThrough (64 * h.line)) s

/-- Translations of a frame leave every slice. -/
def State.dropTrans (s : State) (frame : Nat) : State :=
  { s with tlb := s.tlb.filter fun t => !(t.leaf.testBit 58 == false && t.size == 16 && t.leaf % 2 ^ 48 / 65536 == frame) }

/-- A poisoned line lies in a frame. -/
def State.framePoisoned (s : State) (frame : Nat) : Bool := s.poison.any fun l => l / 1024 == frame

/-- Copy bytes of physical memory, which no heat counter counts (R359); the lines written whole are clear of poison. -/
def State.copyPa (s : State) (src dst n : Nat) : State :=
  s.quietPut dst (n / 64 + 2) (s.homeBytesOf src n)

/-- The entry of a page that has moved to dst: its pool bit agrees with the new range. -/
def movedPte (e dst : Nat) : Nat :=
  e / 2 ^ 54 * 2 ^ 54 + (if paClass dst = .pool then 2 ^ 53 else 0) + e / 2 ^ 48 % 32 * 2 ^ 48 + dst

/-- End the move at the head of a die's queue with a status. -/
def State.endMove (s : State) (die addr st : Nat) : State :=
  (s.homeWrite (addr / 64 * 64) (lineSet 0 (addr % 64 + 17) 1 st) (byteMask (addr % 64 + 17) 1)).mapDie die fun d => { d with moves := d.moves.tail }

/-- A wait for a future in a frame that has moved is for its new address. -/
def FutWait.moved (src dst : Nat) (w : FutWait) : FutWait := if w.entry / 65536 = src then { w with entry := dst + w.entry % 65536 } else w

/-- Switch a page to its new frame, all bytes being copied: the entry at its home, then the translations. Contexts that wait for a future in the
frame, those of a parked partition among them, wait for it at its new address (R298). -/
def State.switchPage (s : State) (pte e dst : Nat) : State :=
  let src := e % 2 ^ 48 / 65536
  let s := s.homeNum pte 8 (movedPte e dst)
  let s := { s with futs := s.futs.map (FutWait.moved src dst),
                    dev := { s.dev with parked := s.dev.parked.map fun (p : Parked) => { p with futs := p.futs.map (FutWait.moved src dst) } } }
  s.dropTrans src

/-- MOVE_DOORBELL (R295): a die receives the address of a move request, which is 32-byte aligned; that of another address the low 5 bits are dropped, and
all bits from 48 up, is a DESIGN CHOICE (log 96). -/
def execMoveDoorbell (die : Nat) (addr : BitVec 48) (s : State) : Out :=
  .next (s.mapDie die fun d => { d with moves := d.moves ++ [{ addr := addr.toNat / 32 * 32, copied := 0, pass := 0, frame := none, marked := [] }] })

/-- The move at the head of a die's queue, of a kind: its request and entry, or the state after its refusal. An access of it to an unmapped or refused
segment (R385, R386) ends it with status 3, or, where the request itself cannot be reached, without a status: DESIGN CHOICE (log 96). -/
def State.headMove (s : State) (die kind : Nat) (k : Move → Nat → Nat → State → State) : State :=
  match (s.die die).moves with
  | [] => s
  | m :: _ =>
    let req := s.homeRead m.addr 32
    let e := s.homeRead (fld req 0 8 % 2 ^ 48) 8
    let shut := fun (pa : Nat) => (s.tableFault pa).isSome
    if shut m.addr then s.mapDie die fun d => { d with moves := d.moves.tail }
    else if fld req 16 1 ≠ kind ∧ fld req 16 1 < 2 then s
    else if shut (fld req 0 8 % 2 ^ 48) then s.endMove die m.addr 3
    else if moveBad req e then s.endMove die m.addr 2
    else if shut (e % 2 ^ 48) || shut (fld req 8 8) then s.endMove die m.addr 3
    else k m req e s

/-- FRAME_MOVE (R296): the die serves a move of kind 0. -/
def execFrameMove (die : Nat) (s : State) : Out :=
  .next (s.headMove die 0 fun m req e s =>
    let src := e % 2 ^ 48
    let s := s.recallFrame (src / 65536)
    if s.framePoisoned (src / 65536) then s.endMove die m.addr 3
    else ((s.copyPa src (fld req 8 8) 65536).switchPage (fld req 0 8 % 2 ^ 48) e (fld req 8 8)).endMove die m.addr 1)

/-- COPY_WHILE_WRITABLE (R297): a line of the first copy, a pass over the marked lines, or the switch. -/
def execCopyWhileWritable (die : Nat) (s : State) : Out :=
  .next (s.headMove die 1 fun m req e s =>
    let src := e % 2 ^ 48
    let dst := fld req 8 8
    let again (m : Move) (s : State) : State := s.mapDie die fun d => { d with moves := m :: d.moves.tail }
    let copyLines (ls : List Nat) (s : State) : State := ls.foldl (fun s k => s.copyPa (src + 64 * k) (dst + 64 * k) 64) s
    if m.copied < 1024 then copyLines [m.copied] (again { m with copied := m.copied + 1, frame := some (src / 65536) } s)
    else if m.pass < 4 ∧ 64 < m.marked.length then copyLines m.marked (again { m with pass := m.pass + 1, marked := [] } s)
    else
      let s := s.recallFrame (src / 65536)
      if s.framePoisoned (src / 65536) then s.endMove die m.addr 3
      else
        let marked := ((s.die die).moves.head?.map (·.marked)).getD []
        ((copyLines marked s).switchPage (fld req 0 8 % 2 ^ 48) e dst).endMove die m.addr 1)

/-! The log collector (R174). -/

/-- The 8-byte words of a range of memory that hold a byte that is listed: word number and value. -/
def State.wordsIn (s : State) (base n : Nat) : List (Nat × Nat) :=
  let inside := fun (a : Nat) => decide (base ≤ a) && decide (a < base + 8 * n)
  let held := s.homes.flatMap fun h => ((List.range 8).map fun k => 64 * h.line + 8 * k).filter inside
  (((s.mem.map (·.1)).filter inside ++ held).map fun a => (a - base) / 8).dedup.map fun k => (k, s.homeRead (base + 8 * k) 8)

/-- The map entries of the compressed pages under a table; none where a table of them lies in an unmapped or refused segment (R385, R386). -/
def State.mapsUnder (s : State) : Nat → Nat → Option (List Nat)
  | 0, _ => some []
  | n + 1, table =>
    let level := 3 - n
    if (s.tableFault table).isSome then none
    else
      ((s.wordsIn table 4096).mapM fun (w : Nat × Nat) =>
        let e := w.2
        if e.testBit 63 = false ∨ pteBad level e then some []
        else if level = 3 ∨ (level = 2 ∧ e.testBit 50) then
          if e.testBit 58 = false then some []
          else if (s.tableFault (e % 2 ^ 48)).isSome then none
          else some ((s.wordsIn (e % 2 ^ 48) (if level = 3 then 16 else 65536)).map fun w => e % 2 ^ 48 + 8 * w.1)
        else s.mapsUnder n (e % 2 ^ 48)).map List.flatten

/-- The map entries of an address space, if its record and its tables can be reached. -/
def State.mapsOf (s : State) (asid : Nat) : Option (List Nat) :=
  if (s.tableFault (s.recordAt asid)).isSome then none
  else
    let root := s.homeRead (s.recordAt asid) 8
    if root.testBit 0 = false then some [] else s.mapsUnder 3 (root % 2 ^ 48 / 32768 * 32768)

/-- The map entry of an address space whose block holds the sector at the log's tail. -/
def State.tailBlock (s : State) (asid : Nat) : Option Nat :=
  let l := s.log asid
  if l.len = 0 ∨ l.head = l.tail then none
  else ((s.mapsOf asid).getD []).find? fun pa =>
    let e := s.mapEntry pa
    e.valid && (l.sectors e.sector e.nsec).contains (l.base + 256 * l.tail)

/-- A sector is copied to another, which no heat counter counts (R359): its poison goes with it. -/
def State.copySector (s : State) (p : Nat × Nat) : State :=
  let bad := (List.range 4).filter fun k => s.poison.contains (p.1 / 64 + k)
  let s := s.quietPut p.2 6 (s.homeBytesOf p.1 256)
  { s with poison := s.poison ++ bad.map (p.2 / 64 + ·) }

/-- COLLECTOR_COPY (R174): the live block at the log's tail is copied to its head and its map entry replaced. Where a sector or a table
lies in an unmapped or refused segment (R385, R386), nothing is copied or freed. -/
def execCollectorCopy (asid : Nat) (s : State) : Out :=
  match s.tailBlock asid with
  | none => .next s
  | some pa =>
    let l := s.log asid
    let e := s.mapEntry pa
    let moved := (l.sectors e.sector e.nsec).zip (l.sectors (l.base + 256 * l.head) e.nsec)
    if l.free < e.nsec || moved.any (fun p => (s.tableFault p.1).isSome || (s.tableFault p.2).isSome) then .next s
    else
      let s := moved.foldl State.copySector s
      let new := s.homeRead pa 8 / 2 ^ 40 * 2 ^ 40 + (l.base + 256 * l.head) / 256 % 2 ^ 40
      .next ((s.homeNum (s.recordAt asid + 20) 4 ((l.head + e.nsec) % l.len)).homeNum pa 8 new)

/-- SECTOR_FREE (R174): the sector at the tail holds no live block, and no access begun under an old entry remains between steps. -/
def execSectorFree (asid : Nat) (s : State) : Out :=
  let l := s.log asid
  if l.len = 0 ∨ l.head = l.tail ∨ (s.tailBlock asid).isSome ∨ (s.mapsOf asid).isNone then .next s
  else .next (s.homeNum (s.recordAt asid + 24) 4 ((l.tail + 1) % l.len))

end Sys2Proof.Machine
end

