-- ==== Sys2Proof/Machine/Tasks.lean ====
section
/-! DEFINITION. Contexts starting and ending, helpers, gangs, launches, task control blocks, futures, parking, the dispatcher and
migration (R16 to R27, R31 to R36, R334 to R356). -/

namespace Sys2Proof.Machine

open Sys2Proof

/-! Starting a context (R17, R18, R92, R355). -/

/-- The identity of a frame placed where it is, on the device of a number. -/
def placeIds (dev f : Nat) (ids : Ids) : Ids :=
  { ids with core := .ofNat 64 (coreOf f % 8), clu := .ofNat 64 (cluOf (coreOf f) % 16), die := .ofNat 64 (dieOf (cluOf (coreOf f))), dev := .ofNat 64 dev }

/-- A context starts in a frame with a state by R18: entry, x1, address space, window, kind and team. The frame's generation rises. -/
def State.startCtx (s : State) (f : Nat) (kind : CtxKind) (team : Option Nat) (entry x1 : Word) (asid block blocks : Nat) (ids : Ids) : State :=
  let old := s.ctx f
  let c : Ctx := { Ctx.reset with
    live := true, kind := kind, team := team, pc := entry, gen := old.gen + 1, ids := placeIds s.dev.num f ids, placed := s.time, deadline := s.time.toNat + 10,
    st := { Status.reset with lsbase := .ofNat 4 block, lsblk := .ofNat 5 blocks }, cr := { Crs.reset with asid := .ofNat 64 asid },
    v := old.v, exitv := old.exitv }
  let s := s.setCtx f (c.setX 1 x1)
  s.mapCtx f fun c => { c with deadline := s.nextDeadline f }

/-! Gangs (R19 to R21, R344, R345). -/

/-- Dissolve the gang of a frame; its members go on where they stand, or after the GSPLIT that they execute. -/
def State.dissolve (s : State) (f : Nat) (pc : Option Word) : State :=
  if (s.ctx f).st.gang = 0 then s
  else (s.gangOf f).foldl (fun s g => s.mapCtx g fun c => { c with pc := pc.getD c.pc, st := { c.st with gang := 0, lead := false } }) s

/-- The code of a gang size. -/
def gangCode (n : Nat) : BitVec 2 := if n = 2 then 1 else if n = 4 then 2 else 3

/-- The control contexts of a team on the group of cores of a size that holds a core. -/
def State.groupCtxs (s : State) (core n : Nat) (team : Option Nat) : List (Option Nat) :=
  (List.range n).map fun k => s.controlOn (core / n * n + k) team

/-- Every core of the group has a waiting GFUSE of the size, none is frozen, and none has failed: its members. A gang does not form while a member's GFUSE
is parked and its handler runs: DESIGN CHOICE (log 82). -/
def State.gangReady (s : State) (core n : Nat) (team : Option Nat) : Option (List Nat) :=
  let ms := (s.groupCtxs core n team).filterMap id
  if ms.length = n ∧ ms.all fun g => (s.fusing g).any (·.2 == n) && !(s.core (coreOf g)).frozen && !((s.ctx g).wait.any fun w => w.arg % 2 == 1) then some ms else none

/-- The gang forms: every member's predicate is true, and all go on after the leader's GFUSE, ready from now (R336). -/
def State.formGang (s : State) (n : Nat) (ms : List Nat) : State :=
  let next := match ms.head? with
    | some l => match (s.ctx l).wait with
      | some w => w.npc
      | none => 0
    | none => 0
  ms.foldl (fun s g =>
    match s.fusing g with
    | some (d, _) => s.mapCtx g fun c =>
        let c := (c.setP d true).dropLatch
        { c with pc := next, wait := none, deadline := s.nextDeadline g, st := { c.st with gang := gangCode n, lead := ms.head? == some g } }
    | none => s) s

/-- GFUSE (R344). A member that ended or froze while it waited has left a 1 in the lowest bit of its wait's argument. -/
def execGfuse (d : PReg) (a : XReg) (s : State) : Out :=
  let n := match s.c.wait with
    | some w => s.c.fuseSize w a
    | none => (s.c.getX a).toNat
  let group := s.groupCtxs s.myCore n s.c.team
  let other := ((coresOf s.myClu).filterMap fun k => s.controlOn k s.c.team).any fun g =>
    g != s.self && (s.fuses g).any fun x => x.2 != n && (coreOf g / max x.2 1 == s.myCore / max x.2 1 || coreOf g / max n 1 == s.myCore / max n 1)
  let waits := s.c.wait.isSome
  let bad := s.c.kind != .control || !(n == 2 || n == 4 || n == 8) || s.c.st.gang != 0 || group.any (·.isNone) || (!waits && other)
    || s.c.wait.any fun w => w.arg % 2 == 1
  if bad then .next (s.done fun c => c.setP d false)
  else
    let s := s.stall true
    match s.gangReady s.myCore n s.c.team with
    | some ms => .next (s.formGang n ms)
    | none => .next (s.mapWait fun w => { w with arg := 2 * n })

/-- GANG_FORM (R344): every core of the group has a waiting GFUSE of the size. -/
def execGangForm (core size : Nat) (s : State) : Out :=
  let team := (framesOf core).findSome? fun f => if (s.fusing f).any (·.2 == size) then (s.ctx f).team else none
  if team.isNone ∨ !(size == 2 || size == 4 || size == 8) then .next s
  else
    match s.gangReady core size team with
    | some ms => .next (s.formGang size ms)
    | none => .next s

/-- GSPLIT (R345): outside a gang, no effect. A member whose upcall handler executes it leaves the others where they stand. -/
def execGsplit (s : State) : Out :=
  let s := s.retire
  .next (s.dissolve s.self (if s.c.st.upc then none else some s.c.pc))

/-! Ending a context (R22, R342, R379). -/

/-- A window of a core is free from a block on. -/
def CoreSt.runFree (k : CoreSt) (first n : Nat) : Bool :=
  decide (first + n ≤ 16) && k.windows.all fun w => decide (w.1 + w.2.1 ≤ first) || decide (first + n ≤ w.1)

/-- Zero a window and set its granules empty (R158). -/
def State.clearWindow (s : State) (core first n : Nat) : State :=
  s.mapCore core fun k =>
    { k with ls := k.ls.filter (fun c => decide (c.1 < 16384 * first) || decide (16384 * (first + n) ≤ c.1)),
             full := k.full.filter fun g => decide (g < 1024 * first) || decide (1024 * (first + n) ≤ g) }

/-- An owner's windows on a core are free again. -/
def State.freeWindow (s : State) (core owner : Nat) : State := s.mapCore core fun k => { k with windows := k.windows.filter (·.2.2 != owner) }

/-- The accesses of a frame leave the replay buffers. -/
def State.dropHeld (s : State) (f : Nat) : State :=
  s.mapDie (dieOf (cluOf (coreOf f))) fun d => { d with replay := d.replay.filter fun e => !(e.frame == f && e.unit_.isNone) }

/-- A frame that is given to a team, or that a team leaves: nothing but its generation, exit value and v-registers stays. -/
def Ctx.cleared (c : Ctx) : Ctx := { Ctx.reset with gen := c.gen, exitv := c.exitv, v := c.v }

/-- The accesses of a context that are on their way: issued for good, and neither held nor taken back nor of an instruction that waits for them. -/
def Ctx.inFlight (c : Ctx) : List Access := c.acc.filter fun a => !a.held && !a.back && !a.op.blocks && !c.speculative a.aid

/-- A context has ended: it issues nothing more, what it has on its way is performed yet (R372), and its registers keep their values (R4, R88, R94). -/
def Ctx.emptied (c : Ctx) : Ctx :=
  { c.cleared with pc := c.pc, npc := c.npc, x := c.x, a := c.a, p := c.p, k := c.k, st := { c.st with gang := 0, lead := false, recording := false, rpl := false }, cr := c.cr,
                   ids := c.ids, mprio := c.mprio, ncount := c.ncount, nlatch := c.nlatch, chEnd := c.chEnd, chStep := c.chStep, chRun := c.chRun,
                   acc := c.inFlight, released := c.released }

/-- The registers of a helper that has ended are not preserved (R17): free values (log 3). -/
def Ctx.unpreserved (c : Ctx) (fresh : Nat) : Ctx :=
  { c with x := .ofFn fun (i : Fin 32) => (Config.freeVec (fresh + i.val)).setWidth 64, a := .ofFn fun (i : Fin 16) => (Config.freeVec (fresh + 32 + i.val)).setWidth 64,
           p := .ofFn fun (i : Fin 8) => (Config.freeVec (fresh + 48 + i.val)).getLsbD 0, k := .ofFn fun (i : Fin 8) => (Config.freeVec (fresh + 88 + i.val)).setWidth 256,
           v := .ofFn fun (i : Fin 32) => Config.freeVec (fresh + 56 + i.val) }

/-- A launch is forgotten once it has no team to place, none here, and, as long as its records may be dealt, none on another device (R27). -/
def State.dropLaunches (s : State) : State :=
  { s with launches := s.launches.filter fun (l : Launch) => decide (l.placed < l.teams) || s.teams.any (·.launch == l.id) || s.dev.away.any (·.launch == l.id) }

/-- A team whose every control context has ended retires: its frames, windows and slots are free (R22). -/
def State.retireTeam (s : State) (t : Team) : State :=
  if t.frames.all fun f => t.ended.contains f then
    let cores := t.clus.flatMap coresOf
    let s := (cores.flatMap framesOf).foldl (fun s f => if (s.ctx f).team = some t.id then s.mapCtx f fun c => { c.emptied with exitv := 0 } else s) s
    let s := cores.foldl (fun s k => s.freeWindow k t.id) s
    let s := t.clus.foldl (fun s k => s.mapClu k fun c => { c with slots := c.slots.filter (· != t.id) }) s
    ({ s with teams := s.teams.filter (·.id != t.id) } : State).dropLaunches
  else s

/-- What ends with a context in any case: gang, lanes, region, match, port bindings, barriers, waits. -/
def State.leaveAll (s : State) (f : Nat) : State :=
  let s := if (s.ctx f).kind = .control then s.failFuses (coreOf f) fun t => t == (s.ctx f).team else s
  let s := (s.keepRuns f).dissolve f none
  let s := ((s.releaseLanes f).leaveRegion f none).heapLeave f
  let s := (s.ctx f).bound.foldl (fun s n => s.mapCore (coreOf f) fun k => k.setPort n { k.port n with binding := none }) s
  let s := { (s.barLeave f) with futs := s.futs.filter (·.frame != f) }
  s.dropHeld f

/-- The context of a frame ends. A helper keeps its frame and exit value; a control context's team may retire; a task's window is freed. -/
def State.endContext (s : State) (f : Nat) (exit : Option Word) : State :=
  let s := s.leaveAll f
  let c := s.ctx f
  match c.kind with
  | .helper =>
    ({ s with fresh := s.fresh + 96 } : State).mapCtx f fun c => { c.emptied.unpreserved s.fresh with kind := .helper, team := c.team, exitv := exit.getD c.exitv }
  | .control =>
    let s := s.mapCtx f fun c => { c.emptied with team := c.team }
    match s.teams.find? fun t => some t.id == c.team with
    | none => s.mapCtx f Ctx.emptied
    | some t =>
      let t := { t with ended := f :: t.ended }
      ({ s with teams := s.teams.map fun (x : Team) => if x.id == t.id then t else x } : State).retireTeam t
  | .task => (s.mapCtx f Ctx.emptied).freeWindow (coreOf f) (2 ^ 32 + f)
  | .invocation => ((s.invDone f).mapCtx f Ctx.emptied).freeWindow (coreOf f) (2 ^ 32 + f)
  | .supervisor => s.mapCtx f Ctx.emptied

/-- The helper frames of a team on a core. -/
def State.helpersOn (s : State) (core : Nat) (team : Option Nat) : List Nat :=
  (framesOf core).filter fun f => (s.ctx f).kind == .helper && (s.ctx f).team == team && team.isSome

/-- HEXIT (R342): the count that its own set slot added is not waited for; instructions that wait beside the streams are. -/
def execHexit (a : XReg) (s : State) : Out :=
  let idle := (List.finRange 16).all fun i => s.c.sb[i] == (if s.c.latch = some i then 1 else 0)
  let helpers := s.c.kind == .control && (s.helpersOn s.myCore s.c.team).any fun f => (s.ctx f).live
  if !idle ∨ helpers ∨ !s.c.works.isEmpty then .next s.stall else .next (s.endContext s.self (some (s.c.getX a)))

/-! Helpers (R341, R343). -/

/-- The frame of helper j of the selected context's team on its core. -/
def State.helperFrame (s : State) (j : Nat) : Option Nat := (s.helpersOn s.myCore s.c.team).find? fun f => (s.ctx f).ids.ctx.toNat == j

/-- An instruction of major 0x27 fails (R338). -/
def State.taskFail (s : State) (d : XReg) (reason : Nat) : State := s.done fun c => c.setX d (.ofNat 64 (2 ^ 63 + reason))

/-- HSTART (R341). -/
def execHstart (d a : XReg) (b : AReg) (s : State) : Out :=
  let j := (s.c.getX d).toNat
  match s.c.kind with
  | .helper | .task | .invocation => .next (s.taskFail d 5)
  | _ =>
    if j = 0 then .next (s.taskFail d 1)
    else
      match s.helperFrame j with
      | none => .next (s.taskFail d 1)
      | some f =>
        let h := s.ctx f
        if h.live then .next (s.taskFail d 2)
        else
          let me := s.c
          let s := s.startCtx f .helper me.team (me.getA b) (me.getX a) me.asid me.st.lsbase.toNat me.st.lsblk.toNat { me.ids with ctx := h.ids.ctx }
          let s := s.mapCtx f fun c => { c with cr := { me.cr with fflags := 0, fault0 := 0, fault1 := 0, fault2 := 0, fault3 := 0 } }
          .next (s.done fun c => c.setX d 0)

/-- HJOIN (R343). -/
def execHjoin (d a : XReg) (s : State) : Out :=
  let j := (s.c.getX a).toNat
  let answer (w : Word) : Out := .next (s.done fun c => c.setX d w)
  if j = 0 then answer 0
  else
    match s.helperFrame j with
    | none => answer 0
    | some f => if f = s.self then answer 0 else if (s.ctx f).live then .next s.stall else answer (s.ctx f).exitv

/-! Launches (R23 to R27, R339, R340). -/

/-- Tiles along each dimension of a grid. -/
def tilesOf (ext tile : List Nat) : List Nat := (ext.zip tile).map fun p => (p.1 + p.2 - 1) / max p.2 1

/-- A launch card of 64 bytes breaks a limit of R23. -/
def cardBad (r : Nat) : Bool :=
  let deal := fld r 16 1 == 1
  let ext := (List.range 4).map fun k => fld r (24 + 4 * k) 4
  let tile := (List.range 4).map fun k => fld r (40 + 2 * k) 2
  decide (1 < fld r 16 1 ∨ 7 < fld r 17 1 ∨ 16 < fld r 18 1 ∨ 10 < fld r 19 1 ∨ fld r 20 2 < 1 ∨ 7 < fld r 22 1 ∨ 16 < fld r 23 1 ∨ fld r 48 16 ≠ 0) ||
    (if deal then decide (fld r 0 8 % 64 ≠ 0 ∨ fld r 8 8 ≠ 0) || ext.any (· != 0) || tile.any (· != 0)
     else decide (fld r 0 8 % 4 ≠ 0) || ext.any (· == 0) || tile.any (· == 0))

/-- A job card of 32 bytes breaks R26. -/
def jobCardBad (r : Nat) : Bool := decide (fld r 0 8 % 4 ≠ 0 ∨ fld r 16 4 < 1 ∨ 65536 < fld r 16 4 ∨ fld r 24 4 < 1 ∨ fld r 28 4 ≠ 0)

/-- The launch of an accepted card and, for a deal launch, its job card. -/
def launchOfCard (id die asid r job : Nat) : Launch :=
  let deal := fld r 16 1 == 1
  let flags := fld r 22 1
  { id := id, die := die, asid := asid, entry := .ofNat 64 (if deal then fld job 0 8 else fld r 0 8), arg := .ofNat 64 (if deal then fld r 0 8 else fld r 8 8),
    deal := deal, prio := fld r 17 1, cpt := max 1 (fld r 18 1), helpers := fld r 19 1, teams := fld r 20 2, migrate := flags.testBit 1 || flags.testBit 2,
    migratePod := flags.testBit 2, cosched := flags.testBit 0, lsb := if fld r 23 1 = 0 then 16 else fld r 23 1,
    ext := (List.range 4).map fun k => fld r (24 + 4 * k) 4, tile := (List.range 4).map fun k => fld r (40 + 2 * k) 2, placed := 0, next := 0,
    remaining := if deal then fld job 20 4 else 0, minchunk := fld job 24 4 }

/-- The reason for which LAUNCH refuses a card whose fields keep R23. -/
def Launch.refusal (l : Launch) (flags : Nat) : Option Nat :=
  if l.cosched ∧ (flags.testBit 1 ∨ flags.testBit 2) then some 8
  else if l.cosched ∧ 64 < l.teams * l.cpt then some 9
  else if !l.deal ∧ l.teams * l.cpt * 8 < (tilesOf l.ext l.tile).prod then some 10
  else none

/-- What a LAUNCH keeps in its wait once it has read its card, and its job card (R339: it reads each once). No card that is kept is 0. -/
def keptCards (r jr : Nat) : Nat := 2 ^ 768 + jr * 2 ^ 512 + r

/-- The card at p and, of a deal launch, its job card, each read once; a read that fails leaves what stands before it: its address, and the card if
it has been read. -/
def State.readCards (s : State) (p : Nat) : Except ((MFault × Nat) × Nat) ((Nat × Nat) × State) :=
  let known := match s.c.wait with
    | some w => w.arg
    | none => 0
  if 2 ^ 768 ≤ known then .ok ((known % 2 ^ 512, known / 2 ^ 512 % 2 ^ 256), s)
  else
    match if known = 0 then s.readNumAt (s.req 8) .clu p 64 else .ok (known, s) with
    | .error e => .error (e, 0)
    | .ok (r, s) =>
      if cardBad r || fld r 16 1 != 1 || ((launchOfCard 0 0 0 r 0).refusal (fld r 22 1)).isSome then .ok ((r, 0), s)
      else
        match s.readNumAt (s.req 8) .clu (fld r 0 8) 32 with
        | .error e => .error (e, r)
        | .ok (jr, s) => .ok ((r, jr), s)

/-- LAUNCH (R339). With 64 entries in the launch queues it spills (R283). -/
def execLaunch (d : XReg) (a : AReg) (s : State) : Out :=
  let p := s.c.getA a
  if unaligned p 64 || decide (2 ^ 52 ≤ p.toNat) then .next (s.taskFail d 1)
  else
    match s.readCards p.toNat with
    | .error (e, r) => .next ((s.failAt e false).mapWait fun w => { w with arg := r, begun := w.begun || r != 0 })
    | .ok ((r, jr), s) =>
      if cardBad r then .next (s.taskFail d 1)
      else
        let l := launchOfCard s.nextId s.myDie s.c.asid r jr
        match l.refusal (fld r 22 1) with
        | some n => .next (s.taskFail d n)
        | none =>
          if l.deal ∧ jobCardBad jr then .next (s.taskFail d 11)
          else
            let put (spilled : Bool) (s : State) : State :=
              let s := { s.newId with launches := s.launches ++ [l] }
              let s := (s.enqueue s.myDie l.prio (.launch l.id) spilled).mapDie s.myDie (·.heads s.time)
              s.done fun c => c.setX d 0
            let q := s.die s.myDie
            if q.held true false < 64 then .next (put false s)
            else .next ((s.spill (s.req 12) q.launchOvf (q.held true true) (put true)).mapWait fun w => { w with arg := keptCards r jr, begun := true })

/-- The cores with a live control context of a launch (R27), those of its teams on other devices with them. -/
def State.liveControls (s : State) (launch : Nat) : Nat :=
  ((s.dev.away.filter (·.launch == launch)).map (·.cores)).sum + ((s.liveFrames.filter fun f => (s.ctx f).kind == .control && (s.ctx f).team.isSome && s.launchOf (s.ctx f).team == some launch).map coreOf).dedup.length

/-- The next chunk of a deal launch: its first index and its count, and the state after it (R27). -/
def State.deal (s : State) (l : Launch) : (Nat × Nat) × State :=
  let p := max 1 (s.liveControls l.id)
  let n := if l.remaining = 0 then 0 else min l.remaining (max l.minchunk ((l.remaining + 2 * p - 1) / (2 * p)))
  ((l.next, n), { s with launches := s.launches.map fun (x : Launch) => if x.id == l.id then { x with next := (l.next + n) % 2 ^ 32, remaining := l.remaining - n } else x })

/-- DNEXT (R27, R340). The deal counter of a launch that came from another device is there: what it deals is a free value (log 66). -/
def execDnext (d : XReg) (s : State) : Out :=
  match (s.launchOf s.c.team).bind fun id => s.launches.find? fun l => l.id == id && l.deal with
  | none => .next (s.done fun c => c.setX d 0)
  | some l =>
    if 4 ≤ l.die then .next (({ s with fresh := s.fresh + 1 } : State).done fun c => c.setX d (Config.remoteDeal s.fresh)) else
    let r := s.deal l
    .next (r.2.done fun c => c.setX d (.ofNat 64 (r.1.1 * 2 ^ 32 + r.1.2)))

/-! Task control blocks and futures (R346 to R354): every operation at the home of its block. -/

/-- An operation over task control blocks and futures; a failing access with its address. -/
abbrev TM := StateT State (Except (MFault × Nat))

/-- Read n bytes of a block. -/
def tGet (r : Req) (va n : Nat) : TM Nat := fun s => (s.orDevAtomic va n (fun _ => none) (s.atomicAt r .dev va n (fun _ => none) none)).mapError (·, va)
/-- Write n bytes of a block. -/
def tPut (r : Req) (va n v : Nat) : TM Unit := fun s =>
  ((s.orDevAtomic va n (fun _ => some v) (s.atomicAt r .dev va n (fun _ => some v) none)).map fun x => ((), x.2)).mapError (·, va)

/-- A block address is misaligned or at or above 2^46. -/
def blockBad (a : Nat) : Bool := a % 64 != 0 || decide (2 ^ 46 ≤ a)

/-- The outcome of a step: an answer, a failure's reason, or that room is awaited. -/
inductive TOut where
  | ok (n : Nat) | fail (r : Nat)
deriving DecidableEq, Repr

/-- A TCB has a reserved bit set or a field beyond its limit (R346). -/
def tcbBad (t : Nat) : Bool := decide (fld t 0 8 % 4 ≠ 0 ∨ 7 < fld t 21 1 ∨ 6 < fld t 22 1 ∨ 31 < fld t 23 1 ∨ fld t 63 1 ≠ 0)

/-- Are there more ready entries in a die than its ready queues hold? -/
def DieSt.overReady (d : DieSt) : Bool := decide (512 < d.held false false)

/-- The ready entry behind the first n that stand in the die goes to the overflow area. -/
def spillBehind : Nat → List DQEnt → List DQEnt
  | _, [] => []
  | n, e :: es =>
    if e.isLaunch || e.spilled then e :: spillBehind n es
    else
      match n with
      | 0 => { e with spilled := true, head := none } :: es
      | n + 1 => e :: spillBehind n es

/-- Why entries could not be spilled: the area's base, the place in it, and the fault of the write, or that the area is exhausted. -/
abbrev SpillStop := Nat × Nat × Option MFault

/-- The first ready entries of a die that are too many go to the overflow area, in their order (R283, R335). -/
def State.spillReady (r : Req) (die : Nat) : Nat → State → Except SpillStop State
  | 0, s => .ok s
  | n + 1, s =>
    let d := s.die die
    let k := d.held false true
    if d.overReady then
      match s.spillTo r d.readyOvf k with
      | some (.ok s) => State.spillReady r die n (s.mapDie die fun d => { d with queue := spillBehind 512 d.queue })
      | some (.error e) => .error (d.readyOvf.1, d.readyOvf.1 + 64 * k, some e)
      | none => .error (d.readyOvf.1, d.readyOvf.1 + 64 * k, none)
    else .ok s

/-- What the ready queues of several dies do not hold spills. -/
def State.spillDies (r : Req) : List Nat → State → Except SpillStop State
  | [], s => .ok s
  | d :: ds, s =>
    match State.spillReady r d (s.die d).queue.length s with
    | .ok s => s.spillDies r ds
    | .error e => .error e

/-- Run the operations of an instruction: a failing access is the instruction's, and what full ready queues do not hold spills (R283). -/
def State.taskRun (s : State) (d : XReg) (m : TM TOut) (k : Nat → State → State) : State :=
  match m s with
  | .error e => s.failAt e true
  | .ok (.fail r, _) => s.taskFail d r
  | .ok (.ok n, t) =>
    match t.spillDies (s.req 12) allDies with
    | .ok t => k n t
    | .error (base, va, e) => s.afterSpill (s.req 12) base va (e.map .error) id

/-- TKNEW (R347). -/
def execTknew (d : XReg) (a : AReg) (s : State) : Out :=
  let p := (s.c.getA a).toNat
  if blockBad p then .next (s.taskFail d 1)
  else
    let r := s.req 12
    let act : TM TOut := do
      let t ← tGet r p 64
      if tcbBad t then return .fail 1
      if fld t 20 1 ≠ 0 ∧ fld t 20 1 ≠ 4 then return .fail 2
      let t := setFld (setFld (setFld t 16 4 1) 20 1 1) 22 1 0
      let t := setFld (setFld t 23 1 (fld t 23 1 / 2 * 2 + 1)) 28 35 0
      tPut r p 64 t
      return .ok 0
    .next (s.taskRun d act fun _ s => s.done fun c => c.setX d 0)

/-- A task is ready: it joins the ready queue of its priority on the die of its TCB's home (R349). -/
def tReady (r : Req) (p t : Nat) : TM Unit := do
  tPut r (p + 20) 1 2
  fun s =>
    match s.paOf r p with
    | .error e => .error (e, p)
    | .ok (tr, s) => .ok ((), s.enter (homeOf tr.pa).1 (fld t 21 1 % 8) (.task (.ofNat 64 p) (.ofNat 64 (fld t 0 8)) (.ofNat 64 (fld t 8 8)) r.asid (fld t 23 1 / 2 % 16 + 1)))

/-- Take 1 from a task's count: at 0 it is ready (R350). -/
def tDec (r : Req) (p : Nat) : TM Unit := do
  let t ← tGet r p 64
  let n := (fld t 16 4 + 2 ^ 32 - 1) % 2 ^ 32
  tPut r (p + 16) 4 n
  if n = 0 then tReady r p t

/-- Take 1 from each of several tasks. -/
def tDecAll (r : Req) : List Nat → TM Unit
  | [] => pure ()
  | p :: ps => do
    tDec r p
    tDecAll r ps

/-- The references of a block that are in use, in order. -/
def blockRefs (b : Nat) : List Nat := ((List.range 11).map fun k => fld b (5 * k) 5).filter (· != 0)

/-- The successors of a chain of blocks, from an address. -/
def tChain (r : Req) : Nat → Nat → TM (List Nat)
  | 0, _ => pure []
  | k + 1, p => do
    if p = 0 then return []
    let b ← tGet r p 64
    let rest ← tChain r k (64 * fld b 55 5)
    return (blockRefs b).map (64 * ·) ++ rest

/-- More blocks than memory holds. -/
def chainMax : Nat := 2 ^ 40

/-- The last block of a chain: its address and contents. -/
def tLast (r : Req) : Nat → Nat → TM (Option (Nat × Nat))
  | 0, _ => pure none
  | k + 1, p => do
    if p = 0 then return none
    let b ← tGet r p 64
    if fld b 55 5 = 0 then return some (p, b) else tLast r k (64 * fld b 55 5)

/-- Append a reference to a chain that starts at `first`; a new block's address goes where `link` writes it. None: a spare is needed. -/
def tAppend (r : Req) (first ref spare : Nat) (link : Nat → TM Unit) : TM (Option Nat) := do
  let last ← tLast r chainMax first
  let free := match last with
    | some (_, b) => (List.range 11).find? fun k => fld b (5 * k) 5 == 0
    | none => none
  match last, free with
  | some (p, _), some k =>
    tPut r (p + 5 * k) 5 ref
    return some 0
  | _, _ =>
    if spare = 0 then return none
    tPut r spare 64 ref
    match last with
    | some (p, _) => tPut r (p + 55) 5 (spare / 64)
    | none => link spare
    return some 1

/-- TKDEP (R348). -/
def execTkdep (d : XReg) (a b : AReg) (s : State) : Out :=
  let pw := s.c.getA a
  let sp := (s.c.getA b).toNat
  let fut := pw.getLsbD 63
  let p := if fut then bitsOf pw 51 0 else pw.toNat
  let spare := (s.c.getX d).toNat
  let r := s.req 12
  if blockBad sp ∨ (fut = false ∧ blockBad p) ∨ (fut ∧ (p % 32 ≠ 0 ∨ bitsOf pw 54 52 ≠ 0)) then .next (s.taskFail d 1)
  else
    let act : TM TOut := do
      let t ← tGet r sp 64
      if fld t 20 1 ≠ 1 ∨ fld t 23 1 % 2 ≠ 1 then return .fail 2
      if pw = s.c.getA b then return .fail 1
      let append (first ref : Nat) (inline : Option Nat) (link : Nat → TM Unit) : TM TOut := do
        match inline with
        | some k =>
          tPut r (p + 28 + 5 * k) 5 ref
          tPut r (p + 22) 1 (k + 1)
          tPut r (sp + 16) 4 (fld t 16 4 + 1)
          return .ok 0
        | none =>
          if spare ≠ 0 ∧ blockBad spare then return .fail 1
          match ← tAppend r first ref spare link with
          | none => return .fail 4
          | some n =>
            let t ← tGet r (sp + 16) 4
            tPut r (sp + 16) 4 (t + 1)
            return .ok n
      if fut then
        let e ← tGet r p 32
        let st := fld e 8 1
        if st = 3 ∨ st = 4 then return .ok 2
        if fld e 9 1 ≠ bitsOf pw 62 55 then return .fail 3
        if st ≠ 1 ∧ st ≠ 2 then return .fail 2
        append (fld e 16 8) (sp / 64) none (fun b => tPut r (p + 16) 8 b)
      else
        let e ← tGet r p 64
        if fld e 20 1 = 4 then return .ok 2
        let n := fld e 22 1
        append (64 * fld e 58 5) (sp / 64) (if n < 6 then some n else none) (fun b => tPut r (p + 58) 5 (b / 64))
    .next (s.taskRun d act fun n s => s.done fun c => c.setX d (.ofNat 64 n))

/-- TKREL (R349). -/
def execTkrel (d : XReg) (a : AReg) (s : State) : Out :=
  let p := (s.c.getA a).toNat
  let r := s.req 12
  if blockBad p then .next (s.taskFail d 1)
  else
    let act : TM TOut := do
      let t ← tGet r p 64
      if fld t 23 1 % 2 ≠ 1 then return .fail 2
      tPut r (p + 23) 1 (fld t 23 1 - 1)
      tDec r p
      return .ok 0
    .next (s.taskRun d act fun _ s => s.done fun c => c.setX d 0)

/-- A future table header of 64 bytes breaks R351. -/
def futBad (addr h : Nat) : Bool :=
  decide (addr % 64 ≠ 0 ∨ fld h 0 8 % 64 ≠ 0 ∨ fld h 8 1 < 1 ∨ 24 < fld h 8 1 ∨ fld h 9 7 ≠ 0 ∨ fld h 24 40 ≠ 0)

/-- The entry a handle names in a table: its address and contents, or the reason it has none. -/
def futEntry (r : Req) (table handle : Nat) : TM (Except Nat (Nat × Nat × Nat)) := do
  if table % 64 ≠ 0 then return .error 1
  let h ← tGet r table 64
  if futBad table h then return .error 1
  let idx := handle % 2 ^ 24
  if idx = 0 ∨ 2 ^ fld h 8 1 ≤ idx ∨ 2 ^ 32 ≤ handle then return .error 3
  let p := fld h 0 8 + 32 * idx
  let e ← tGet r p 32
  if fld e 9 1 ≠ handle / 2 ^ 24 then return .error 3
  return .ok (p, e, h)

/-- FTNEW (R352). -/
def execFtnew (d : XReg) (a : AReg) (b : XReg) (s : State) : Out :=
  let p := (s.c.getA a).toNat
  let st := (s.c.getX b).toNat
  let r := s.req 12
  if p % 64 ≠ 0 ∨ (st ≠ 1 ∧ st ≠ 2) then .next (s.taskFail d 1)
  else
    let act : TM TOut := do
      let h ← tGet r p 64
      if futBad p h then return .fail 1
      let take (idx : Nat) : TM TOut := do
        let e ← tGet r (fld h 0 8 + 32 * idx) 32
        tPut r (fld h 0 8 + 32 * idx + 8) 1 st
        return .ok (fld e 9 1 * 2 ^ 24 + idx)
      if fld h 20 4 ≠ 0 then
        let e ← tGet r (fld h 0 8 + 32 * fld h 20 4) 32
        tPut r (p + 20) 4 (fld e 12 4)
        take (fld h 20 4)
      else
        let idx := if fld h 16 4 = 0 then 1 else fld h 16 4
        if 2 ^ fld h 8 1 ≤ idx then return .fail 7
        tPut r (p + 16) 4 (idx + 1)
        take idx
    .next (s.taskRun d act fun n s => s.done fun c => c.setX d (.ofNat 64 n))

/-- Release the contexts that wait on the entry at a physical address: each has its answer, the value or POISON, from then on (R354). -/
def State.wakeFut (s : State) (entry : Nat) (value : Option Nat) : State :=
  let s' := (s.futs.filter (·.entry == entry)).foldl (fun s w =>
    s.mapCtx w.frame fun c =>
      match c.wait with
      | some t => match t.instr with
        | some (.ftget _ _ _) => { c with parked := false, wait := some { t with arg := match value with | some v => v % 2 ^ 64 + 1 | none => 2 ^ 64 + 1 } }
        | _ => c
      | none => c) s
  { s' with futs := s'.futs.filter (·.entry != entry) }

/-- The physical address of a block. -/
def tPa (r : Req) (va : Nat) : TM Nat := fun s => ((s.paOf r va).map fun x => (x.1.pa, x.2)).mapError (·, va)

/-- Set a future READY with a value or POISON, and release its waiters (R353). -/
def futSet (r : Req) (p e : Nat) (value : Option Nat) : TM TOut := do
  if fld e 8 1 ≠ 1 ∧ fld e 8 1 ≠ 2 then return .fail 2
  match value with
  | some v => tPut r p 8 v
  | none => pure ()
  tPut r (p + 8) 1 (if value.isSome then 3 else 4)
  let pa ← tPa r p
  modify fun s => s.wakeFut pa value
  let ws ← tChain r chainMax (fld e 16 8)
  tPut r (p + 16) 8 0
  tDecAll r ws
  return .ok 0

/-- FTSET (R353): the operation is in the operand. -/
def State.ftset (s : State) (d : XReg) (a : AReg) (j : Fin 15) : State :=
  let w := s.c.getX (evenX j)
  let op := bitsOf w 33 32
  let r := s.req 12
  if bitsOf w 63 34 ≠ 0 ∨ op = 3 then s.taskFail d 1
  else
    let act (free : Bool) : TM TOut := do
      match ← futEntry r (s.c.getA a).toNat (bitsOf w 31 0) with
      | .error n => return .fail n
      | .ok (p, e, h) =>
        if free then
          if fld e 8 1 ≠ 3 ∧ fld e 8 1 ≠ 4 then return .fail 2
          tPut r (p + 8) 2 ((fld e 9 1 + 1) % 256 * 256)
          tPut r (p + 12) 4 (fld h 20 4)
          tPut r ((s.c.getA a).toNat + 20) 4 (bitsOf w 23 0)
          return .ok 0
        else futSet r p e (if op = 0 then some (s.c.getX (oddX j)).toNat else none)
    if op = 2 then s.taskRun d (act true) fun _ s => s.done fun c => c.setX d 0
    else
      match act false s with
      | .error e => s.failAt e true
      | .ok (.fail n, _) => s.taskFail d n
      | .ok (.ok _, _) =>
        match s.releaseNow .dev with
        | none => s.stall
        | some (.error e) => State.heldBack e
        | some (.ok s) => s.taskRun d (act false) fun _ s => s.done fun c => c.setX d 0

/-- FTSET READY (R353). -/
def execFtsetReady (d : XReg) (a : AReg) (j : Fin 15) (s : State) : Out := .next (s.ftset d a j)
/-- FTSET POISON (R353). -/
def execFtsetPoison (d : XReg) (a : AReg) (j : Fin 15) (s : State) : Out := .next (s.ftset d a j)
/-- FTSET FREE (R353). -/
def execFtsetFree (d : XReg) (a : AReg) (j : Fin 15) (s : State) : Out := .next (s.ftset d a j)

/-- TKDONE's effect after the release (R350). -/
def tDone (r : Req) (p table value : Nat) : TM TOut := do
  let t ← tGet r p 64
  if fld t 20 1 ≠ 3 then return .fail 2
  tPut r (p + 20) 1 4
  let inline := ((List.range (min 6 (fld t 22 1))).map fun k => fld t (28 + 5 * k) 5).map (64 * ·)
  let blocks ← tChain r chainMax (64 * fld t 58 5)
  tDecAll r (inline ++ blocks)
  if fld t 24 4 = 0 then return .ok 0
  match ← futEntry r table (fld t 24 4) with
  | .error _ => return .ok 1
  | .ok (p, e, _) =>
    match ← futSet r p e (some value) with
    | .ok _ => return .ok 0
    | .fail _ => return .ok 1

/-- TKDONE (R350). -/
def execTkdone (d : XReg) (a b : AReg) (s : State) : Out :=
  let p := (s.c.getA a).toNat
  let r := s.req 12
  if blockBad p then .next (s.taskFail d 1)
  else
    match tGet r (p + 20) 1 s with
    | .error e => .next (s.failAt e true)
    | .ok (st, s) =>
      if st ≠ 3 then .next (s.taskFail d 2)
      else
        match s.releaseNow .dev with
        | none => .next s.stall
        | some (.error e) => .next (State.heldBack e)
        | some (.ok s) =>
          .next (s.taskRun d (tDone r p (s.c.getA b).toNat (s.c.getX d).toNat) fun n s => s.done fun c => c.setX d (.ofNat 64 n))

/-- FTGET (R354): it waits parked while the state is EMPTY or PENDING; FTSET gives it its answer. -/
def execFtget (d : XReg) (a : AReg) (p : PReg) (s : State) : Out :=
  let r := s.req 12
  let fail (n : Nat) (s : State) : Out := .next (s.done fun c => (c.setX d (.ofNat 64 (2 ^ 63 + n))).setP p false)
  let ready (v : Nat) (s : State) : Out :=
    match s.tryAcquire s.self .dev with
    | .error e => .next (State.heldBack e)
    | .ok s => .next (s.done fun c => (c.setX d (.ofNat 64 v)).setP p true)
  let act : TM (Except Nat (Nat × Nat)) := do
    match ← futEntry r (s.c.getA a).toNat (s.c.getX d).toNat with
    | .error n => return .error n
    | .ok (q, e, _) => return .ok (q, e)
  let told := match s.c.wait with
    | some w => w.arg
    | none => 0
  if told = 2 ^ 64 + 1 then fail 6 s
  else if told ≠ 0 then ready (told - 1) s
  else
  match act s with
  | .error e => .next (s.failAt e true)
  | .ok (.error n, s) => fail n s
  | .ok (.ok (q, e), s) =>
    match fld e 8 1 with
    | 3 => ready (fld e 0 8) s
    | 1 | 2 =>
      match s.paOf r q with
      | .error e => .next (s.failAt (e, q) true)
      | .ok (t, s) =>
        let w : FutWait := { frame := s.self, entry := t.pa }
        let s := { s with futs := if s.futs.contains w then s.futs else s.futs ++ [w] }
        .next (s.stall.mapC fun c => { c with parked := true })
    | 4 => fail 6 s
    | _ => fail 3 s

/-! Yielding, parking and waking (R355, R356). -/

/-- A frame's context reference. -/
def State.reference (s : State) (f : Nat) : Word :=
  let core := coreOf f
  let clu := cluOf core
  .ofNat 64 ((s.ctx f).gen.toNat * 2 ^ 24 + dieOf clu * 2 ^ 22 + clu % 16 * 2 ^ 18 + core % 8 * 2 ^ 15 + f % 11 * 2 ^ 11 + 1)

/-- The frame of a valid reference to a live context. -/
def State.referred (s : State) (w : Word) : Option Nat :=
  let f := ((bitsOf w 23 22 * 16 + bitsOf w 21 18) * 8 + bitsOf w 17 15) * 11 + bitsOf w 14 11
  if w.getLsbD 0 = false ∨ bitsOf w 63 32 ≠ 0 ∨ bitsOf w 10 1 ≠ 0 ∨ 10 < bitsOf w 14 11 ∨ (s.ctx f).live = false ∨ (s.ctx f).gen.toNat ≠ bitsOf w 31 24 then none
  else some f

/-- YIELD (R355): its deadline is that of the issue of the YIELD itself. -/
def execYieldRef (d : XReg) (s : State) : Out := .next (s.done fun c => { c.setX d (s.reference s.self) with yielded := true })

/-- PARK (R356). -/
def execPark (d a : XReg) (s : State) : Out :=
  let n := s.c.getX a
  if bitsOf n 63 32 ≠ 0 then .next (s.taskFail d 1)
  else if s.c.wake then .next (s.done fun c => { c.setX d 0 with wake := false, parked := false })
  else if s.c.wait.isSome ∧ s.expired n then .next (s.done fun c => { c.setX d 1 with parked := false })
  else .next (s.stall.mapC fun c => { c with parked := true })

/-- WAKE (R356): a context parked in PARK goes on at once. -/
def execWake (d a : XReg) (s : State) : Out :=
  match s.referred (s.c.getX a) with
  | none => .next (s.done fun c => c.setX d 1)
  | some f =>
    let s := (s.mapCtx f fun c => { c with wake := true }).done fun c => c.setX d 0
    let parked := (s.ctx f).parked
    match (if parked then (s.ctx f).wait.bind (·.instr) else none) with
    | some (.park d' a') => s.retry f (execPark d' a')
    | _ => .next s

/-- PARK_TIMEOUT (R356). -/
def execParkTimeout (f : Nat) (s : State) : Out :=
  match s.waiting f with
  | some (.park d a) => if (s.ctx f).parked && (s.select f).expired ((s.ctx f).getX a) then s.retry f (execPark d a) else .next s
  | _ => .next s

/-! The dispatcher (R25, R31, R32, R334, R335). -/

/-- A frame that no team or context holds. -/
def State.frameFree (s : State) (f : Nat) : Bool := let c := s.ctx f; !c.live && c.team.isNone
/-- The free frames of a core. -/
def State.freeFrames (s : State) (core : Nat) : List Nat := (framesOf core).filter s.frameFree
/-- A core on which work may be placed: not fenced, and no transform core. -/
def State.coreUsable (s : State) (core : Nat) : Bool := let k := s.core core; !k.fenced && !(k.role.getLsbD 0) && !(s.clu (cluOf core)).fenced

/-- A cluster has room for a team of a launch with its window from a block on. -/
def State.cluFits (s : State) (l : Launch) (block clu : Nat) : Bool :=
  decide ((s.clu clu).slots.length < 4) && (coresOf clu).all fun k => s.coreUsable k && decide (1 + l.helpers ≤ (s.freeFrames k).length) && (s.core k).runFree block l.lsb

/-- The clusters and first block of the next team of a launch on a die: the lowest-numbered set that fits for some block, then the lowest
block. -/
def State.teamFit (s : State) (l : Launch) (die : Nat) : Option (List Nat × Nat) :=
  let opts := (List.range (17 - l.lsb)).filterMap fun b =>
    let cs := (clusOf die).filter (s.cluFits l b)
    if l.cpt ≤ cs.length then some (cs.take l.cpt, b) else none
  opts.foldl (fun best o => match best with
    | none => some o
    | some x => if tupleLt o.1 x.1 then some o else some x) none

/-- The identity and extents of tile q, if there is such a tile (R25). -/
def tileIds (l : Launch) (q : Nat) : Option Ids :=
  if l.deal then some Ids.reset
  else
    let n := tilesOf l.ext l.tile
    if q < n.prod then
      let is := (n.foldl (fun (st : Nat × List Nat) m => (st.1 / m, st.2 ++ [st.1 % m])) (q, [])).2
      let org := fun (k : Nat) => is.getD k 0 * l.tile.getD k 0
      let ext := fun (k : Nat) => min (l.tile.getD k 0) (l.ext.getD k 0 - org k)
      some { Ids.reset with org := .ofFn fun (k : Fin 4) => .ofNat 64 (org k), ext := .ofFn fun (k : Fin 4) => .ofNat 64 (ext k) }
    else none

/-- The runtime loader copies the .lstore image of a launch to a core's window, and sets full each granule that it covers (R80, R160). A larger
image than the window is never loaded. A last granule that the image covers in part is set full: DESIGN CHOICE (log 84). -/
def State.loadImage (s : State) (l : Launch) (core block : Nat) : State :=
  match s.dev.loader.find? fun (i : LsImage) => i.asid == l.asid && i.entry == l.entry && decide (i.bytes.length ≤ 16384 * l.lsb) with
  | none => s
  | some i => s.mapCore core fun k =>
      { k with ls := k.ls.writeBytes (16384 * block) i.bytes,
               full := (List.range ((i.bytes.length + 15) / 16)).foldl (fun l g => insNat (1024 * block + g) l) k.full }

/-- Place a team's contexts on one core. -/
def State.placeCore (s : State) (l : Launch) (t : Team) (c core : Nat) : State :=
  let s := (s.clearWindow core t.block l.lsb).mapCore core fun k => { k with windows := k.windows ++ [(t.block, l.lsb, t.id)] }
  match tileIds l ((t.j * l.cpt + c) * 8 + core % 8), s.freeFrames core with
  | some ids, f :: rest =>
    let s := s.startCtx f .control (some t.id) l.entry l.arg l.asid t.block l.lsb ids
    let s := (s.mapCtx f fun x => { x with exitv := 0 }).loadImage l core t.block
    let s := (rest.take l.helpers).zipIdx.foldl (fun s p => s.mapCtx p.1 fun x =>
      { x.cleared with kind := .helper, team := some t.id, exitv := 0, ids := { placeIds s.dev.num p.1 ids with ctx := .ofNat 64 (p.2 + 1) } }) s
    { s with teams := s.teams.map fun (x : Team) => if x.id == t.id then { x with frames := x.frames ++ [f] } else x }
  | _, _ => s

/-- Place the next team of a launch on clusters, with its window from a block on. -/
def State.placeTeam (s : State) (l : Launch) (clus : List Nat) (block : Nat) : State :=
  let t : Team := { id := s.nextId, launch := l.id, j := l.placed, clus := clus, block := block, helpers := l.helpers, frames := [], ended := [] }
  let s := { s.newId with teams := s.teams ++ [t], launches := s.launches.map fun (x : Launch) => if x.id == l.id then { x with placed := l.placed + 1 } else x }
  clus.zipIdx.foldl (fun s p =>
    let s := s.mapClu p.1 fun k => { k with slots := k.slots ++ [t.id] }
    (coresOf p.1).foldl (fun s core => s.placeCore l t p.2 core) s) s

/-- The teams of a launch that got no tile, and so no control context, retire after the step that placed them. -/
def State.retireEmpty (s : State) (launch : Nat) : State :=
  (s.teams.filter fun t => t.launch == launch && t.frames.isEmpty).foldl State.retireTeam s

/-- Place several teams of a launch, one after another; none if they do not all fit. -/
def State.placeAll (die id : Nat) : Nat → State → Option State
  | 0, s => some s
  | n + 1, s =>
    match s.launches.find? (·.id == id) with
    | none => none
    | some l =>
      match s.teamFit l die with
      | none => none
      | some (cs, b) => State.placeAll die id n (s.placeTeam l cs b)

/-- The frame and first block for a task context of some blocks on a die: the core with most free frames, then the lowest. -/
def State.taskFit (s : State) (die blocks : Nat) : Option (Nat × Nat) :=
  let opts := ((clusOf die).flatMap coresOf).filterMap fun k =>
    match s.freeFrames k, (List.range 17).find? fun b => (s.core k).runFree b blocks with
    | f :: _, some b => if s.coreUsable k then some ((s.freeFrames k).length, f, b) else none
    | _, _ => none
  (opts.foldl (fun (best : Option (Nat × Nat × Nat)) o => match best with
    | none => some o
    | some x => if x.1 < o.1 then some o else some x) none).map fun x => x.2

/-- Start a task context or an invocation in a frame: its window is cleared, the acquire steps are taken, the TCB is RUNNING (R334). None: one
of these accesses is not performed, so the task does not start; it is tried again at a later dispatch step (log 47). -/
def State.startTask (s : State) (f block blocks : Nat) (kind : CtxKind) (entry x1 x2 : Word) (asid : Nat) (inv : Option (Nat × Nat)) : Option State :=
  let core := coreOf f
  let s := (s.clearWindow core block blocks).mapCore core fun k => { k with windows := k.windows ++ [(block, blocks, 2 ^ 32 + f)] }
  let s := s.startCtx f kind none entry x1 asid block blocks Ids.reset
  let s := s.mapCtx f fun c => { c.setX 2 x2 with task := x2, inv := inv }
  match s.acquire (cluOf core) .dev with
  | .error _ => none
  | .ok s =>
    if kind = .task then
      match tPut ((s.ctx f).req f 12) (x2.toNat + 20) 1 3 s with
      | .ok (_, s) => some s
      | .error _ => none
    else some s

/-- Place a ready entry, if a core has room. -/
def State.placeReady (s : State) (die : Nat) (e : DEntry) : Option State :=
  match e with
  | .launch _ => none
  | .task tcb entry arg asid blocks => (s.taskFit die blocks).bind fun p => s.startTask p.1 p.2 blocks .task entry arg tcb asid none
  | .inv n t =>
    match s.dqs[n]? with
    | none => none
    | some q => (s.taskFit die q.lsblk).bind fun p => s.startTask p.1 p.2 q.lsblk .invocation q.entry (.ofNat 64 q.desc) (.ofNat 64 t) q.asid (some (n, t))

/-- Place a queue entry: the state after it, and whether the entry leaves the queue. -/
def State.placeEntry (s : State) (die : Nat) (e : DQEnt) : Option (State × Bool) :=
  match e.e with
  | .launch id =>
    match s.launches.find? (·.id == id) with
    | none => some (s, true)
    | some l =>
      if l.teams ≤ l.placed then some (s, true)
      else if l.cosched then (State.placeAll die id (l.teams - l.placed) s).map fun s => (s.retireEmpty id, true)
      else
        match s.teamFit l die with
        | none => none
        | some (cs, b) => some ((s.placeTeam l cs b).retireEmpty id, decide (l.teams ≤ l.placed + 1))
  | e => (s.placeReady die e).map fun s => (s, true)

/-- The heads of a die's queues, in the order in which the dispatcher tries them. -/
def DieSt.order (d : DieSt) (now : BitVec 64) : List DQEnt :=
  let eff := fun (e : DQEnt) => min 7 (e.prio + (match e.head with | some t => (now - t).toNat / 4096 | none => 0))
  sortBy (fun a b => decide (eff b < eff a) || (eff a == eff b && decide (a.enq ≤ b.enq))) (d.queue.filter (·.head.isSome))

/-- The head that has been passed over for not fitting for 65,536 cycles, the oldest if there are several. -/
def DieSt.overdue (d : DieSt) (now : BitVec 64) : Option DQEnt :=
  ((sortBy (fun (a b : DQEnt) => decide (a.enq ≤ b.enq)) (d.queue.filter (·.head.isSome))).find? fun e => match e.passed with
    | some t => decide (65536 ≤ (now - t).toNat)
    | none => false)

/-- Try heads in order: the first that fits is placed, and those before it have been passed over. -/
def State.tryHeads (s : State) (die : Nat) : List DQEnt → State
  | [] => s
  | e :: es =>
    match s.placeEntry die e with
    | some (t, gone) => t.mapDie die fun d => ({ d with queue := if gone then d.queue.erase e else d.queue.map fun x => if x == e then { e with passed := none } else x } : DieSt).heads s.time
    | none =>
      let e' := if e.passed.isNone then { e with passed := some s.time } else e
      (s.mapDie die fun d => { d with queue := d.queue.map fun x => if x == e then e' else x }).tryHeads die es

/-- One dispatch step of a die. -/
def State.dispatch (s : State) (die : Nat) : State :=
  let s := s.mapDie die (·.heads s.time)
  match (s.die die).overdue s.time with
  | some e => s.tryHeads die [e]
  | none => s.tryHeads die ((s.die die).order s.time)

/-- DISPATCH_STEP (R335). -/
def execDispatchStep (die : Nat) (s : State) : Out := .next (s.dispatch die)

/-- DISPATCH_PASSOVER (R335): a dispatch step for the overdue head alone. -/
def execDispatchPassover (die : Nat) (s : State) : Out :=
  match (s.die die).overdue s.time with
  | some e => .next (s.tryHeads die [e])
  | none => .next s

/-! Migration (R34 to R36). -/

/-- FREE_SLOT_ADVERT (R34): a die learns another's free slots; numbers from 4 on are dies of other devices of the pod. What the device had
refused may be offered again (R36). -/
def execFreeSlotAdvert (die fromDie slots : Nat) (s : State) : Out :=
  .next (s.mapDie die fun d => { d with adverts := tset d.adverts fromDie slots, refusals := d.refusals.filter fun r => r.2.2 != fromDie / 4 })

/-- The die holds an unplaced team that the free slots of some other die fit. An advert is a count of free slots alone, so a set of them fits a team
of as many clusters: DESIGN CHOICE (log 83). -/
def State.overloaded (s : State) (die : Nat) : Bool :=
  let d := s.die die
  d.queue.any fun e => match e.e with
    | .launch id => s.launches.any fun l => l.id == id && decide (l.placed < l.teams) && d.adverts.any fun a => a.1 != die && decide (l.cpt ≤ a.2)
    | _ => false

/-- The frames of a team, helpers among them. -/
def State.teamFrames (s : State) (t : Team) : List Nat := ((t.clus.flatMap coresOf).flatMap framesOf).filter fun f => (s.ctx f).team == some t.id

/-- A team is suspended (R34, R308, R333). -/
def State.suspended (s : State) (t : Team) : Bool :=
  let live := (s.teamFrames t).filter fun f => (s.ctx f).live
  let cores := t.clus.flatMap coresOf
  live.all (fun f =>
    let c := s.ctx f
    c.parked && c.sb.all (· == 0) && c.region.isNone && (match c.mtch with | some m => m.done && m.batch.isEmpty | none => true))
    && t.clus.all (fun k => let c := s.clu k
      !(c.jobs.any fun j => (j.team == some t.id && !terminal j.state) || (j.state == 4 && j.chan.isSome && cores.contains (coreOf j.frame)))
        && !(c.runs.any fun r => r.team == some t.id) && !(c.huddles.any fun h => h.team == some t.id))
    && cores.all fun k => let c := s.core k
      c.rc == 0 && !(c.ports.any fun p => p.2.binding.isSome)

/-- The grants of a team's contexts fit the pools of the clusters they go to. -/
def State.grantsFit (s : State) (m : TeamMsg) (clus : List Nat) : Bool :=
  clus.zipIdx.all fun p => decide (((m.ctxs.filter fun x => x.1 / 8 == p.2).map fun x => x.2.2.groups.length).sum ≤ (s.clu p.1).lanesFree.length)

/-- The releases of a team's stores (R35). -/
def State.releaseAll (s : State) (sc : Scope) : List Nat → Except MFault State
  | [] => .ok s
  | f :: fs =>
    match s.releaseOf f sc with
    | .ok s => s.releaseAll sc fs
    | .error e => .error e

/-- The acquires of the clusters a team has come to (R35). -/
def State.acquireAll (s : State) (sc : Scope) : List Nat → Except MFault State
  | [] => .ok s
  | k :: ks =>
    match s.acquire k sc with
    | .ok s => s.acquireAll sc ks
    | .error e => .error e

/-- A core's window: its bytes and full granules, from the window's start on. -/
def CoreSt.window (k : CoreSt) (first n : Nat) : Memory × List Nat :=
  ((k.ls.filter fun c => decide (16384 * first ≤ c.1) && decide (c.1 < 16384 * (first + n))).map fun c => (c.1 - 16384 * first, c.2),
    (k.full.filter fun g => decide (1024 * first ≤ g) && decide (g < 1024 * (first + n))).map (· - 1024 * first))

/-- A suspended team as it is sent: its images, by core of the team and frame, and its windows. -/
def State.pack (s : State) (t : Team) (l : Launch) : TeamMsg :=
  let cores := t.clus.flatMap coresOf
  { launch := l, team := t, resident := true, windows := cores.map fun k => (s.core k).window t.block l.lsb, bars := s.bars.filter (Bar.ofTeam t.id),
    ctxs := cores.zipIdx.flatMap fun p => ((framesOf p.1).filter fun f => (s.ctx f).team == some t.id).map fun f => (p.2, f, s.ctx f) }

/-- A team leaves the clusters it stood on: its frames, grants, windows and slots are free. -/
def State.unplace (s : State) (t : Team) : State :=
  let cores := t.clus.flatMap coresOf
  let s := (s.teamFrames t).foldl (fun s f => (s.releaseLanes f).mapCtx f fun c => { c.cleared with exitv := 0 }) s
  let s := cores.foldl (fun s k => s.freeWindow k t.id) s
  t.clus.foldl (fun s k => s.mapClu k fun c => { c with slots := c.slots.filter (· != t.id) }) s

/-- Put a window's contents on a core. -/
def State.fillWindow (s : State) (core first n : Nat) (w : Memory × List Nat) : State :=
  (s.clearWindow core first n).mapCore core fun k =>
    { k with ls := w.1.foldl (fun m c => m.set (16384 * first + c.1) c.2) k.ls, full := w.2.foldl (fun l g => insNat (1024 * first + g) l) k.full }

/-- Give a frame as many lane groups of its new cluster as it had. -/
def State.regrant (s : State) (f n : Nat) : State :=
  let clu := cluOf (coreOf f)
  let gs := (s.clu clu).lanesFree.take n
  (s.mapClu clu fun k => { k with lanesFree := k.lanesFree.drop n }).mapCtx f fun c => { c with groups := gs }

/-- The frames into which the contexts of a team that has been sent go: free ones of its core, in order. -/
def State.frameMap (s : State) (m : TeamMsg) (clus : List Nat) : List ((Nat × Nat × Ctx) × Nat) :=
  (clus.flatMap coresOf).zipIdx.flatMap fun p => (m.ctxs.filter fun x => x.1 == p.2).zip (s.freeFrames p.1)

/-- The new number of a frame. -/
def newFrame (maps : List ((Nat × Nat × Ctx) × Nat)) (f : Nat) : Nat := ((maps.find? fun x => x.1.2.1 == f).map (·.2)).getD f

/-- Place a team that has been sent: each context in a free frame of its core, with a window at a block. -/
def State.unpack (s : State) (m : TeamMsg) (clus : List Nat) (block : Nat) : State :=
  let t := m.team
  let maps := s.frameMap m clus
  let s := clus.foldl (fun s k => s.mapClu k fun c => { c with slots := c.slots ++ [t.id] }) s
  let s := ((clus.flatMap coresOf).zip m.windows).foldl (fun s p =>
    (s.fillWindow p.1 block m.launch.lsb p.2).mapCore p.1 fun k => { k with windows := k.windows ++ [(block, m.launch.lsb, t.id)] }) s
  let s := maps.foldl (fun s x =>
    let c := x.1.2.2
    let c' := { c with team := some t.id, ids := placeIds s.dev.num x.2 c.ids, gen := (s.ctx x.2).gen + 1, groups := [], st := { c.st with lsbase := .ofNat 4 block } }
    (s.setCtx x.2 c').regrant x.2 c.groups.length) s
  { s with teams := s.teams ++ [{ t with clus := clus, block := block, frames := t.frames.map (newFrame maps), ended := t.ended.map (newFrame maps) }] }

/-- Move a suspended team to clusters of another die of the device: its release, its images and windows, and the acquire before its first
issue (R35). A release or an acquire that is not performed leaves the team where it was (log 66). -/
def State.moveTeam (s : State) (t : Team) (l : Launch) (clus : List Nat) (block : Nat) : State :=
  match s.releaseAll .dev (s.teamFrames t) with
  | .error _ => s
  | .ok s' =>
    let m := s'.pack t l
    let s' := s'.unplace t
    let new := newFrame (s'.frameMap m clus)
    let s' := { s' with teams := s'.teams.filter (·.id != t.id), futs := s'.futs.map (fun (w : FutWait) => { w with frame := new w.frame }),
                        bars := s'.bars.map fun (b : Bar) => { b with parts := b.parts.map new, arrived := b.arrived.map new } }
    let s' := s'.unpack m clus block
    match s'.acquireAll .dev clus with
    | .ok s' => s'
    | .error _ => s

/-- A team of a launch leaves for another device: while it is there, its launch's records may be dealt to it (R27). -/
def State.leftFor (s : State) (l : Launch) (j cores : Nat) : State :=
  if l.deal ∧ l.die < 4 then { s with dev := { s.dev with away := s.dev.away ++ [{ launch := l.id, j := j, cores := cores }] } } else s

/-- A team leaves for a die of another device with its images: its place here is freed (R35). -/
def State.sendTeam (s : State) (t : Team) (l : Launch) (die : Nat) : State :=
  match s.releaseAll .pod (s.teamFrames t) with
  | .error _ => s
  | .ok s' =>
    let m := s'.pack t l
    let cores := (((s'.teamFrames t).filter fun f => (s'.ctx f).live && (s'.ctx f).kind == .control).map coreOf).dedup.length
    let s' := { s' with futs := s'.futs.filter fun (w : FutWait) => !((s'.ctx w.frame).team == some t.id) }
    let s' := ((s'.leftFor l t.j cores).unplace t).retireTeam { t with ended := t.frames }
    { s' with out := s'.out ++ [.teamSent die m], bars := s'.bars.filter fun b => !b.ofTeam t.id }

/-- The pod's fabric is reached: there is a partner, and a plane is up (R30, R388). -/
def DevSt.podUp (d : DevSt) : Bool := d.pods && decide (d.planesDown.length < 16)

/-- The offer of a team to another device: refused before, it is offered to no other device until the one that refused has advertised again;
a device that does not hold the address space refuses (R36). The pod has 144 devices (R9). -/
def State.offer (s : State) (l : Launch) (src j die : Nat) (send : State) : State :=
  if !l.migratePod ∨ !s.dev.podUp ∨ 144 ≤ die / 4 ∨ (s.die src).refusals.any (fun r => r.1 == l.id && r.2.1 == j) then s
  else if Config.peerHolds (die / 4) l.asid = false then s.mapDie src fun d => { d with refusals := d.refusals ++ [(l.id, j, die / 4)] }
  else send

/-- A team that another device has sent, as it comes here: a context that is parked on a future issues its FTGET again, which enters it in this
device's waiter list (R35, R354). -/
def TeamMsg.arrive (m : TeamMsg) : TeamMsg :=
  { m with ctxs := m.ctxs.map fun x =>
      match x.2.2.wait.bind (·.instr) with
      | some (.ftget _ _ _) => (x.1, x.2.1, { x.2.2 with parked := false })
      | _ => x }

/-- The advert that a die has of the free slots of another fits a team of a launch (R34). -/
def DieSt.hasRoom (d : DieSt) (die cpt : Nat) : Bool := d.adverts.any fun a => a.1 == die && decide (cpt ≤ a.2)

/-- A team of another device comes to a die: refused where its address space is not held; placed where it fits, with the acquire at .pod
before its first issue (R35, R36). The launch of a team that comes back is the one kept here, whose deal counter it draws from as before (R35); the launch of
another stays where it was submitted, and what is kept here of it places no further team. A message names a launch of this device by a die below 4 and by
its number here (log 61). -/
def State.receiveTeam (s : State) (m : TeamMsg) (die : Nat) : State :=
  let rest := { s with dev := { s.dev with arrivals := s.dev.arrivals.filter (· != m) } }
  if (s.homeRead (s.recordAt m.launch.asid) 8).testBit 0 = false then { rest with out := s.out ++ [.teamRefused m] }
  else
    match s.teamFit m.launch die with
    | none => s
    | some (cs, b) =>
      let own := s.launches.find? fun x => decide (m.launch.die < 4) && x.id == m.launch.id
      let l := own.getD { m.launch with id := s.nextId, die := max 4 m.launch.die, placed := m.team.j }
      let s' := if own.isSome then { rest with dev := { rest.dev with away := rest.dev.away.filter fun a => !(a.launch == l.id && a.j == m.team.j) } }
        else { rest.newId with launches := s.launches ++ [l] }
      let full := fun (s : State) =>
        { s with launches := s.launches.map fun (x : Launch) => if x.id == l.id then { x with placed := if own.isSome then l.placed else x.teams } else x }
      let placed : Option State :=
        if !m.resident then some ((full (s'.placeTeam { l with placed := m.team.j } cs b)).retireEmpty l.id)
        else if s.grantsFit m cs then
          let t := (full s').newId.unpack { m.arrive with team := { m.team with id := s'.nextId, launch := l.id } } cs b
          let new := newFrame (s'.frameMap m cs)
          some { t with bars := t.bars ++ m.bars.map (Bar.forTeam s'.nextId new) }
        else none
      match placed with
      | none => s
      | some t =>
        match t.acquireAll .pod cs with
        | .ok t => t
        | .error _ => s

/-- TEAM_MIGRATION (R34 to R36): `team` is a resident suspended team, a launch of which the next unplaced team moves, or a team that another
device has sent; `die` from 4 on is a die of another device. -/
def execTeamMigration (team die : Nat) (s : State) : Out :=
  let away := decide (4 ≤ die)
  match s.teams.find? (·.id == team) with
  | some t =>
    match s.launches.find? (·.id == t.launch), (t.clus.head?).map dieOf with
    | some l, some src =>
      if !l.migrate ∨ l.cosched ∨ src = die ∨ !(s.overloaded src) ∨ !(s.suspended t) then .next s
      else if away then .next (if (s.die src).hasRoom die l.cpt then s.offer l src t.j die (s.sendTeam t l die) else s)
      else
        match s.teamFit l die with
        | some (cs, b) => .next (if s.grantsFit (s.pack t l) cs then s.moveTeam t l cs b else s)
        | none => .next s
    | _, _ => .next s
  | none =>
    match s.launches.find? (·.id == team) with
    | none =>
      match s.dev.arrivals.find? fun m => m.team.id == team with
      | some m => .next (if away then s else s.receiveTeam m die)
      | none => .next s
    | some l =>
      let leave (s : State) : State :=
        if l.placed + 1 < l.teams then s
        else s.mapDie l.die fun d => ({ d with queue := d.queue.filter fun e => !(e.e == .launch l.id) } : DieSt).heads s.time
      if !l.migrate ∨ l.cosched ∨ l.teams ≤ l.placed ∨ l.die = die ∨ !(s.overloaded l.die) then .next s
      else if away then
        let m : TeamMsg := { launch := l, team := { id := s.nextId, launch := l.id, j := l.placed, clus := [], block := 0, helpers := l.helpers, frames := [], ended := [] },
                             resident := false, ctxs := [], windows := [], bars := [] }
        let ls := s.launches.map fun (x : Launch) => if x.id == l.id then { x with placed := l.placed + 1 } else x
        let sent := (leave (({ s.newId with out := s.out ++ [.teamSent die m], launches := ls } : State).leftFor l l.placed 0)).dropLaunches
        .next (if (s.die l.die).hasRoom die l.cpt then s.offer l l.die l.placed die sent else s)
      else
        match s.teamFit l die with
        | none => .next s
        | some (cs, b) =>
          match (leave ((s.placeTeam l cs b).retireEmpty l.id)).acquireAll .dev cs with
          | .ok s => .next s
          | .error _ => .next s

end Sys2Proof.Machine
end

