-- ==== Sys2Proof/Machine/Counters.lean ====
section
/-! DEFINITION. Counters: CTRD and PMRD, page heat, soft errors and the local-store port's pass-over counts (R162, R357 to R363). -/

namespace Sys2Proof.Machine

open Sys2Proof

/-! CTRD and PMRD (R363). -/

/-- The value a CTRD selector names, or none. -/
def State.ctrSelect (s : State) (sel : Word) : Option Word :=
  let k := bitsOf sel 15 8
  let i := bitsOf sel 7 0
  if bitsOf sel 63 16 ≠ 0 then none
  else if k = 1 then (if h : i < 16 then some ((s.c.sb[i]'h).setWidth 64) else none)
  else if i ≠ 0 then none
  else
    match k with
    | 0 => some s.time
    | 2 => some ((s.clu s.myClu).vc.setWidth 64)
    | 3 => some ((s.die s.myDie).vd.setWidth 64)
    | 4 => some (s.c.ncount.setWidth 64)
    | _ => none

/-- CTRD: x[s1] selects; any other selector raises reserved field. -/
def State.ctrd (s : State) (d a : XReg) : State :=
  match s.ctrSelect (s.c.getX a) with
  | some v => s.done fun c => c.setX d v
  | none => s.reservedField

/-- CTRD of the timestamp. -/
def execCtrdTimestamp (d a : XReg) (s : State) : Out := .next (s.ctrd d a)
/-- CTRD of a slot. -/
def execCtrdSlot (d a : XReg) (s : State) : Out := .next (s.ctrd d a)
/-- CTRD of the die-scope version. -/
def execCtrdVc (d a : XReg) (s : State) : Out := .next (s.ctrd d a)
/-- CTRD of the device-scope version. -/
def execCtrdVd (d a : XReg) (s : State) : Out := .next (s.ctrd d a)
/-- CTRD of the neighbour count. -/
def execCtrdNeighbour (d a : XReg) (s : State) : Out := .next (s.ctrd d a)

/-- The value of a performance event for the selected context, and whether it is for the supervisor alone (R362). -/
def State.perfEvent (s : State) (e : Nat) : Option (Nat × Bool) :=
  let k := s.core s.myCore
  let l := s.clu s.myClu
  let d := s.die s.myDie
  match e with
  | 0x00 => some (k.pIssued, false)
  | 0x01 => some (k.pIdle, false)
  | 0x02 => some (k.pQueue, false)
  | 0x03 => some (k.pSquash, false)
  | 0x10 => some (l.pMiss, false)
  | 0x11 => some (l.pStale, false)
  | 0x12 => some (l.pPush, false)
  | 0x13 => some (k.pKsteps, false)
  | 0x40 => some (d.pMiss, true)
  | 0x41 => some (d.pSweep, true)
  | 0x42 => some (d.pSoft, true)
  | 0x43 => some (d.pReplay, true)
  | _ => none

/-- PMRD: an unassigned event raises reserved field, a supervisor's event in user mode privilege. -/
def execPmrd (d a : XReg) (s : State) : Out :=
  let e := s.c.getX a
  match if bitsOf e 63 8 = 0 then s.perfEvent e.toNat else none with
  | none => .next s.reservedField
  | some (n, sup) => if sup ∧ s.c.st.sup = false then .next s.privilege else .next (s.done fun c => c.setX d (.ofNat 64 n))

/-! Page heat (R359, R360). -/

/-- The number of a frame's counter in a heat table. -/
def heatIndex (frame : Nat) : Nat := if frame < 0x800000 then frame else frame - 0x800000
/-- The frame of a counter. -/
def heatFrame (n : Nat) : Nat := if n < 0x800000 then n else n + 0x800000

/-- Home recalls a line of a heat table, then a counter is written there; what the home holds of a pool line is first written through. -/
def State.heatPut (s : State) (pa : Nat) (f : Nat → Nat) : State :=
  match s.recall (pa / 64 * 64) with
  | .ok s =>
    let s := s.writeThrough pa
    { s with mem := s.mem.write pa 2 (f (s.mem.read pa 2)) }
  | .error _ => s

/-- HEAT_SAMPLE (R359): a sample that a home slice has taken adds 1, saturating, to its frame's counter. -/
def execHeatSample (die slice frame : Nat) (s : State) : Out :=
  let d := s.die die
  if d.heat.contains (slice, frame) then
    let s := s.setDie die { d with heat := d.heat.erase (slice, frame) }
    .next (if d.heatctl.getLsbD 9 then s.heatPut (d.heatbase.toNat + 2 * heatIndex frame) fun n => min (n + 1) 65535 else s)
  else .next s

/-- The decay epoch of a die at a time. -/
def DieSt.epoch (d : DieSt) (now : BitVec 64) : Nat := now.toNat / (2100 * 2 ^ bitsOf d.heatctl 8 4)

/-- The addresses of a die's counters that may not be 0 and whose frames a slice homes. -/
def State.heatCounters (s : State) (die slice : Nat) : List Nat :=
  let base := (s.die die).heatbase.toNat
  let within := fun (a : Nat) => decide (base ≤ a ∧ a < base + 2 ^ 26)
  let cached := ((s.l2.filter fun l => !l.img && within l.pa).map (·.pa)) ++ ((s.l1.filter fun l => !l.img && within l.pa).map (·.pa)) ++ (s.homes.map (64 * ·.line)).filter within
  let cells := (s.mem.filterMap fun c => if within c.1 then some (c.1 / 2 * 2) else none) ++ cached.flatMap fun p => (List.range 32).map fun k => p + 2 * k
  cells.dedup.filter fun a =>
    let h := homeOf (heatFrame ((a - base) / 2) * 65536)
    h.1 == die && s.served die h.2 == slice

/-- Counter k of the counters of a home slice in ascending order of their frames: F' of its frame. Every 64 stacked frames of the die, and every 256
pool frames, hold one for each slice whose lines this one serves. -/
def State.heatCounter (s : State) (die slice k : Nat) : Option Nat :=
  let mine := (List.range 64).filter fun x => s.served die x == slice
  let block := k / max 1 mine.length
  let frames := if block < 32768 then (List.range 64).map (2097152 * die + 64 * block + ·) else (List.range 256).map (0x800000 + 256 * (block - 32768) + ·)
  if mine.isEmpty ∨ 131072 ≤ block then none
  else (frames.filter fun n => let h := homeOf (heatFrame n * 65536); h.1 == die && mine.contains h.2)[k % mine.length]?

/-- The sweep of a slice halves its next 32 counters; at its end, an epoch that has fallen during it is swept at once, and counts (R360). -/
def State.sweepOn (s : State) (die slice k : Nat) : State :=
  let base := (s.die die).heatbase.toNat
  let old := s.heatCounters die slice
  let s' := ((List.range 32).filterMap fun n => s.heatCounter die slice (k + n)).foldl (fun s n =>
    if old.contains (base + 2 * n) then s.heatPut (base + 2 * n) (· / 2) else s) s
  let d := s'.die die
  let last := tget 0 d.sweeps slice
  s'.setDie die (
    if (s.heatCounter die slice (k + 32)).isSome then { d with sweepAt := tset d.sweepAt slice (k + 32) }
    else if last < d.epoch s.time then { d with sweeps := tset d.sweeps slice (last + 1), sweepAt := tset d.sweepAt slice 0, pSweep := sat48 d.pSweep 1 }
    else { d with sweepAt := terase d.sweepAt slice })

/-- HEAT_DECAY_EPOCH (R360): a cycle of a slice's sweep. With no sweep under way, one begins when an epoch has come. -/
def execHeatDecayEpoch (die slice : Nat) (s : State) : Out :=
  let d := s.die die
  let last := tget 0 d.sweeps slice
  if d.heatctl.getLsbD 9 then
    match d.sweepAt.find? (·.1 == slice) with
    | some (_, k) => .next (s.sweepOn die slice k)
    | none => .next (if last < d.epoch s.time then (s.setDie die { d with sweeps := tset d.sweeps slice (last + 1) }).sweepOn die slice 0 else s)
  else .next s

/-- CORRECTED_SOFT_ERROR (R361). -/
def execCorrectedSoftError (die : Nat) (s : State) : Out := .next (s.mapDie die fun d => { d with pSoft := sat48 d.pSoft 1 })

/-! The local-store port (R162). -/

/-- LS_PORT_PASSOVER: a source passed over for 64 grants moves next, ahead of all others, and its count begins again; of two such sources the
earlier in the port's order (R162). -/
def execLsPortPassover (core source : Nat) (s : State) : Out :=
  let late := fun (n : Nat) => decide (64 ≤ tget 0 (s.core core).lsPass n)
  if late source = true ∧ ((List.range source).any late) = false then
    .next { s.mapCore core fun k => { k with lsPass := tset k.lsPass source 0 } with agenda := .port core source :: s.agenda }
  else .next s

end Sys2Proof.Machine
end

