-- ==== Sys2Proof/Machine/Faults.lean ====
section
/-! DEFINITION. Upcalls and their return, software raises, the watchdog, the umpire's debug control, killing, fencing, and partition
switches (R131, R364 to R381). -/

namespace Sys2Proof.Machine

open Sys2Proof

/-! UPRET (R370) and FRAISE (R371). -/

/-- A wait begins afresh (R151, R374). -/
def Wait.renew (w : Wait) (now : BitVec 64) : Wait := { w with since := now, barked := 0 }

/-- The waits of a context's streams begin afresh. -/
def Ctx.comeBack (c : Ctx) (now : BitVec 64) : Ctx :=
  { c with wait := c.wait.map (·.renew now), works := c.works.map fun (w : Work) => { w with wait := w.wait.renew now } }

/-- A park slot's state as it comes back: accesses taken back issue again, behind those issued meanwhile, and its waits begin afresh. -/
def Park.renew (p : Park) (next : Nat) (now : BitVec 64) : Park :=
  let new := fun (id : Nat) => match p.acc.findIdx? fun a => a.back && a.aid == id with
    | some n => next + n
    | none => id
  { p with acc := p.acc.map (fun (a : Access) => { a with aid := new a.aid }), win := p.win.map fun (e : Passed) => { e with id := if e.issued then new e.id else e.id },
           wait := p.wait.map (·.renew now), works := p.works.map fun (w : Work) => { w with wait := w.wait.renew now } }

/-- UPRET: upc falls; the stream state named is reinstated once the counts fit, for which it waits, or the handler's stream goes on. -/
def State.upret (s : State) (a : XReg) : State :=
  let v := s.c.getX a
  let low := fun (c : Ctx) => { c with st := { c.st with upc := false } }
  if !s.c.returning ∧ s.c.st.upc = false ∨ bitsOf v 63 9 ≠ 0 ∨ bitsOf v 7 2 ≠ 0 then s.reservedField
  else if v.getLsbD 8 then s.done low
  else
    match s.c.parks.find? fun kp => kp.1 == bitsOf v 1 0 with
    | none => (s.mapC low).reservedField
    | some (k, p) =>
      if s.c.fits p then ({ s with nextId := s.nextId + p.acc.length } : State).mapC fun c => c.retire.reinstate k (p.renew s.nextId s.time)
      else (s.mapC low).stall true

/-- UPRET with bit 8 clear. -/
def execUpret (a : XReg) (s : State) : Out := .next (s.upret a)
/-- UPRET with bit 8 set. -/
def execUpretContinue (a : XReg) (s : State) : Out := .next (s.upret a)

/-- FRAISE: raise the code x[s1] names, as software. -/
def State.fraise (s : State) (a b : XReg) : State :=
  let v := s.c.getX a
  let code := bitsOf v 7 0
  let info := bitsOf v 63 32
  let addr := s.c.getX b
  if bitsOf v 31 8 ≠ 0 then s.reservedField
  else if (1 ≤ code ∧ code ≤ 4) ∨ (0x10 ≤ code ∧ code ≤ 0x12) then
    let u : Upcall := { code := code, info := info, addr := addr, token := 0, whence := s.c.pc, soft := true, park := none }
    (s.retire.addUpcall s.self u).deliverUpcall s.self
  else if 0x20 ≤ code ∧ code ≤ 0x2D then
    (s.freezeRec s.self code info addr 0 s.c.pc true).mapC fun c => { c.dropLatch with wait := none, go := false }
  else s.reservedField

/-- FRAISE of an upcall's code. -/
def execFraiseUpcall (a b : XReg) (s : State) : Out := .next (s.fraise a b)
/-- FRAISE of a freeze's code. -/
def execFraiseFreeze (a b : XReg) (s : State) : Out := .next (s.fraise a b)

/-- UPCALL_DELIVERY (R367): to a context whose core is not stopped. One that escalates ends the chain run whose access it reports (R250). -/
def execUpcallDelivery (f : Nat) (s : State) : Out :=
  let k := s.core (coreOf f)
  if k.frozen ∨ k.fenced then .next s
  else
    let t := s.deliverUpcall f
    match (s.ctx f).pending.head? with
    | some u => .next (if (t.core (coreOf f)).frozen then t.endHeldRun f u.token else t)
    | none => .next t

/-! The watchdog (R374). -/

/-- The instructions whose waits the watchdog does not count. -/
def unwatched : Instr → Bool
  | .park _ _ | .ftget _ _ _ => true
  | _ => false

/-- The cycles frame f's wait has lasted; in a frozen core the count stands. -/
def State.waitedBy (s : State) (f : Nat) (w : Wait) : Nat :=
  let k := s.core (coreOf f)
  ((if k.frozen then k.frozeAt else s.time) - w.since).toNat

/-- The arrival of frame f in a huddle that has not opened (R229): the job, and the cycles it has waited. -/
def State.arrivalOf (s : State) (f : Nat) : Option (MJob × Nat) :=
  let k := s.core (coreOf f)
  (k.mjobs.find? fun j => j.frame == f && j.gen == (s.ctx f).gen && (match s.huddleOf (coreOf f) j with | some h => h.opened.isNone | none => false)).map fun j =>
    (j, j.waited + (s.time - j.last).toNat)

/-- Has a wait of frame f passed its core's limit, at which it has not been reported yet? -/
def State.overdue (s : State) (f : Nat) (w : Wait) : Bool :=
  let k := s.core (coreOf f)
  k.wdlim != w.barked && !(w.instr.any unwatched) && decide (k.wdlim.toNat < min (s.waitedBy f w) (2 ^ 32 - 1))

/-- The wait of frame f is reported. -/
def State.bark (s : State) (f : Nat) (w : Wait) : State := s.freezeRec f 0x26 (min (s.waitedBy f w) (2 ^ 32 - 1) / 65536) 0 0 w.pc false

/-- WATCHDOG: the count of a wait passes the core's limit: of the streams, of an instruction that waits beside them, or of an MGANG that has arrived
and waits in the matrix ring for its huddle. -/
def execWatchdog (f : Nat) (s : State) : Out :=
  let k := s.core (coreOf f)
  let c := s.ctx f
  if c.live ∧ !k.frozen ∧ !k.fenced ∧ k.wdlim ≠ 0 then
    match c.wait.filter (s.overdue f), c.works.find? (fun w => s.overdue f w.wait), s.arrivalOf f with
    | some w, _, _ => .next ((s.mapCtx f fun c => { c with wait := some { w with barked := k.wdlim } }).bark f w)
    | none, some x, _ =>
      let mark := fun (y : Work) => if y.id = x.id then { y with wait := { y.wait with barked := k.wdlim } } else y
      .next ((s.mapCtx f fun c => { c with works := c.works.map mark }).bark f x.wait)
    | none, none, some (j, n) => .next (if k.wdlim.toNat < n then s.freezeRec f 0x26 (min n (2 ^ 32 - 1) / 65536) 0 0 j.pc false else s)
    | none, none, none => .next s
  else .next s

/-! Killing (R379). -/

/-- Cancel the engine jobs that frame f submitted. -/
def State.cancelJobs (s : State) (f : Nat) : State :=
  let gen := (s.ctx f).gen
  let clu := cluOf (coreOf f)
  ((s.clu clu).jobs.filter fun j => j.frame == f && j.gen == gen).foldl (fun s j => s.cancelJob clu j) s

/-- Kill one context: a huddle it takes part in aborts, its own MGANG arrived or not (R233); its jobs are cancelled, its held and
parked accesses are dropped, those on their way are performed as the next turns (R372), and it ends. -/
def State.killOne (s : State) (f : Nat) : State :=
  if (s.ctx f).live then
    let s := s.cancelJobs f
    let c := s.ctx f
    let way := c.inFlight.map fun a => Turn.perform f a.aid
    let sole := fun (h : Huddle) => h.parts.contains (coreOf f) && c.kind == .control && h.joined.any fun g => (s.ctx g).team == c.team
    let s := ((s.abortHuddles (cluOf (coreOf f)) fun h => h.joined.contains f || sole h).endContext f none).dropUnready f
    { s with agenda := s.agenda ++ way }
  else s

/-- Kill a context, and its helpers before it. -/
def State.kill (s : State) (f : Nat) : State :=
  let c := s.ctx f
  if c.live then
    let hs := if c.kind = .control then s.helpersOn (coreOf f) c.team else []
    (hs.foldl State.killOne s).killOne f
  else s

/-! The control word of the debug window (R373). -/

/-- Resume one core: it goes on, and the counts of its waits go on from where they stood, the one that cr.xltmo bounds with them: DESIGN CHOICE
(log 86). -/
def State.thaw (s : State) (core : Nat) : State :=
  let k := s.core core
  if k.frozen ∧ !k.fenced then
    let gone := s.time - k.frozeAt
    let s := s.setCore core { k with frozen := false, byGang := false }
    ((framesOf core).filter fun f => (s.ctx f).live).foldl (fun s f => s.mapCtx f fun c =>
      { c with wait := c.wait.map (fun (w : Wait) => { w with since := w.since + gone }), deadline := s.nextDeadline f,
               works := c.works.map fun (x : Work) => { x with wait := { x.wait with since := x.wait.since + gone } } }) s
  else s

/-- Resume: the core and the cores of its gang; a fenced core and one without contexts stay (R373, R375). -/
def State.resumeCore (s : State) (core : Nat) : State :=
  let k := s.core core
  let live := (framesOf core).filter fun f => (s.ctx f).live
  if !k.frozen ∨ k.fenced ∨ live.isEmpty then s
  else ((core :: (live.flatMap s.gangOf).map coreOf).dedup).foldl State.thaw s

/-- A core without contexts holds nothing that is frozen: its freeze is over, so a resume finds nothing to do (R372, R373). -/
def State.unfrozenIfEmpty (s : State) (core : Nat) : State :=
  if (framesOf core).any fun f => (s.ctx f).live then s else s.mapCore core fun k => { k with frozen := false, byGang := false }

/-- End the context of the frame the window selects. -/
def State.killFrame (s : State) (core : Nat) : State := (s.kill (11 * core + (s.core core).dbgFrame)).unfrozenIfEmpty core
/-- End every context of a core. -/
def State.killCore (s : State) (core : Nat) : State := ((framesOf core).foldl State.kill s).unfrozenIfEmpty core

/-- Set a core's fence bit: the contexts frozen on it are killed (R380). -/
def State.fenceCore (s : State) (core : Nat) : State :=
  let t := s.mapCore core fun k => { k with fenced := true }
  if (s.core core).frozen then t.killCore core else t

/-- DEBUG_RESUME. -/
def execDebugResume (core : Nat) (s : State) : Out := .next (s.resumeCore core)
/-- DEBUG_FENCE. -/
def execDebugFence (core : Nat) (s : State) : Out := .next (s.fenceCore core)
/-- DEBUG_KILL_FRAME. -/
def execDebugKillFrame (core : Nat) (s : State) : Out := .next (s.killFrame core)
/-- DEBUG_KILL_CORE. -/
def execDebugKillCore (core : Nat) (s : State) : Out := .next (s.killCore core)

/-- Write the next address of a stream of the selected frame of a frozen core: its queues are emptied, and what it waited in with them. The streams
stand together where their addresses are one. -/
def State.pcWrite (s : State) (core : Nat) (epc : Bool) (v : Word) : State :=
  let f := 11 * core + (s.core core).dbgFrame
  if (s.core core).frozen then
    let t := ({ s with futs := s.futs.filter (·.frame != f) } : State).mapCtx f fun c =>
      let e := if epc then v else c.pc
      let a := if epc then c.apc.getD c.pc else v
      { c.dropLatch with pc := e, apc := if a = e then none else some a, win := [], wait := none, parked := false }
    t.dropUnready f
  else s

/-- DEBUG_PC_WRITE: apc or epc. -/
def execDebugPcWrite (core : Nat) (epc : Bool) (v : Word) (s : State) : Out := .next (s.pcWrite core epc v)

/-- DEBUG_LSDATA_ACCESS. -/
def execDebugLsdataAccess (core : Nat) (v : Option Word) (s : State) : Out := .next (s.lsdata core v).2

/-! Uncorrectable errors of units (R131, R375, R380). -/

/-- The context of a core that an error of the core itself is raised in: a control context first. -/
def State.victim (s : State) (core : Nat) : Option Nat :=
  ((framesOf core).find? fun f => (s.ctx f).live && (s.ctx f).kind == .control) <|> (framesOf core).find? fun f => (s.ctx f).live

/-- A context that holds a lane group that has been lost freezes with 0x28; every v-register is undefined, and the group is gone (R131). -/
def State.loseLanes (s : State) (f : Nat) (lost : List Nat) : State :=
  let fresh := s.fresh
  let left := (s.ctx f).groups.filter fun g => !(lost.contains g)
  let s := if left.isEmpty then s.failNeighs f else s
  let s := { s with fresh := s.fresh + 32 }
  (s.freezeRec f 0x28 0 0 0 (s.ctx f).pc false).mapCtx f fun c => { c.freeLanes 0 fresh with groups := left }

/-- An uncorrectable error of a core: every gang with a member there freezes and is dissolved (R375). -/
def State.failCore (s : State) (core : Nat) : State :=
  match s.victim core with
  | none => s
  | some f =>
    let s := s.freezeRec f 0x28 0 0 0 (s.ctx f).pc false
    ((framesOf core).filter fun g => (s.ctx g).live && (s.ctx g).kind == .control).foldl (fun s g => s.dissolve g none) s

/-- UNIT_UNCORRECTABLE_ERROR. A core: its gang freezes and is dissolved, and it is fenced. A lane group: the context that holds it
freezes and loses it, every v-register undefined. A cluster: the contexts of its cores freeze and are killed, and it is fenced. A slice: its fence bit is set. -/
def execUnitUncorrectableError (u : DevUnit) (s : State) : Out :=
  match u with
  | .core core => .next ((s.failCore core).fenceCore core)
  | .cluster clu =>
    let s := (coresOf clu).foldl (fun s k => (s.failCore k).killCore k) s
    .next (s.mapClu clu fun k => { k with fenced := true })
  | .laneGroup clu g =>
    let s := s.mapClu clu fun k => { k with lanesFree := k.lanesFree.filter (· != g), lanesLost := insNat g k.lanesLost }
    match ((coresOf clu).flatMap framesOf).find? fun f => (s.ctx f).live && (s.ctx f).groups.contains g with
    | none => .next s
    | some f => .next (s.loseLanes f [g])
  | .slice die slice => .next (s.mapDie die fun d => { d with failedSlices := insNat slice d.failedSlices })

/-! Partition switches (R99, R377, R378, R380). -/

/-- The partition whose images the dugouts hold, if they hold any (R171: one parked partition). -/
def State.parkedPart (s : State) : Option Nat := (s.dugouts.head?).map fun d => d.2.part

/-- PREEMPT_SCHEDULE: Weward writes a timestamp at least 2,048 cycles ahead, and the partition that returns: the parked one, or a new one
where none is parked (R171, log 21). -/
def execPreemptSchedule (t : Word) (next : Nat) (s : State) : Out :=
  .next (if s.time.toNat + 2048 ≤ t.toNat ∧ next ≠ s.dev.partition ∧ (s.parkedPart.isNone ∨ s.parkedPart = some next) then
    { s with dev := { s.dev with switchAt := some (t, next) } } else s)

/-- A context's streams stop: what waits and has begun nothing is taken back, as into a park slot (R377). A waiting FTGET is saved (R354). -/
def Ctx.stopStreams (c : Ctx) : Ctx :=
  match c.wait.bind (·.instr) with
  | some (.ftget _ _ _) => c.squash
  | _ => { c.takeBack with parked := c.parked && c.wait.isNone }

/-- What a slice holds as a home slice is written through, but for lines of an unmapped or refused segment (R385, R386). -/
def State.drainHomes (s : State) (die slice : Nat) : State :=
  let mine := fun (h : HomeLine) => let x := homeOf (64 * h.line); x.1 == die && s.served die x.2 == slice && (s.tableFault (64 * h.line)).isNone
  (s.homes.filter mine).foldl (fun s h => s.writeThrough (64 * h.line)) s

/-- The lines of a failing slice leave it, the dirty ones written back. -/
def State.drainSlice (s : State) (die slice : Nat) : State :=
  let s := s.dropEach (s.l2.filter fun l => l.die == die && s.served die (sliceOf (64 * l.line)) == slice)
  { s with tlb := s.tlb.filter fun (t : Tlb) => !(t.die == die && t.slice == slice) }

/-- How many numbers below n satisfy a test. -/
def countTo (n : Nat) (p : Nat → Bool) : Nat := ((List.range n).filter p).length

/-- The device status word (R380): replace-requested stands for every fenced unit, stack and port (R15, R391). -/
def State.fenceStatus (s : State) : Word :=
  let cores := countTo 512 fun k => (s.core k).fenced
  let clus := countTo 64 fun k => (s.clu k).fenced
  let slices := ((List.range 4).map fun d => (s.die d).fencedSlices.length).sum
  let any := decide (0 < cores + clus + slices) || !s.dev.stacksDown.isEmpty || !s.dev.portsDown.isEmpty || (List.range 64).any fun k => !(s.clu k).lanesLost.isEmpty
  .ofNat 64 (any.toNat + 256 * min cores 255 + 65536 * min clus 255 + 16777216 * min slices 255)

/-- The scope table of the topology and of the units that are fenced (R15, R30, R388): radius 2 for .pod and .sys in a pod, narrowed to 0 with no
port up; with a unit fenced, the radius of a code from .clu on is a free value, at most the full one (log 65). -/
def State.scopeNow (s : State) (status : Word) : List Word :=
  let fenced := decide (status.toNat / 256 ≠ 0)
  let full := [0, 1, 14, 1, if s.dev.pods then 2 else 0, if s.dev.pods then 2 else 0]
  (full.zip [(0, 0), (1, 1), (2, 2), (3, 2), (4, 3), (5, 3)]).zipIdx.map fun (e, k) =>
    let up := if k < 4 ∨ s.dev.planesDown.length < 16 then e.1 else 0
    let r := if fenced ∧ 0 < k then min up (Config.fencedRadius k status) else up
    scopeEntry r e.2.1 e.2.2 + (if r < e.1 then 4 else 0)

/-- Weward writes the scope table, and every umpire mirror with it (R29, R301). -/
def State.writeScopes (s : State) : State :=
  let t := s.scopeNow s.dev.status
  (List.range 4).foldl (fun s d => s.mapDie d fun x => { x with mirror := t }) { s with dev := { s.dev with scopes := t } }

/-- At a halt Weward may remap the segments whose port has failed to other ports; until then they stay refused (R386). -/
def State.remap (s : State) : State :=
  if s.dev.refusedPorts.isEmpty then s
  else
    let segments := (List.range 6144).foldl (fun t n =>
      let g := s.segment n
      if s.dev.refusedPorts.contains g.port then
        match Config.remapPort s.fresh n with
        | some p => tset t n { g with port := p % 4 }
        | none => t
      else t) s.dev.segments
    { s with dev := { s.dev with segments := segments }, fresh := s.fresh + 1 }

/-- At a halt, failed slices pass their lines on, the status word and the scope table are written, and pool segments may be remapped (R30, R301,
R380, R386). -/
def State.degrade (s : State) : State :=
  let failed := (List.range 4).flatMap fun d => (s.die d).failedSlices.map fun k => (d, k)
  let s := failed.foldl (fun s x => s.drainSlice x.1 x.2) s
  let s := failed.foldl (fun s x => s.drainHomes x.1 x.2) s
  let s := (List.range 4).foldl (fun s d =>
    let bad := (s.die d).failedSlices
    s.mapDie d fun x => { x with fencedSlices := bad.foldl (fun l k => insNat k l) x.fencedSlices, failedSlices := [] }) s
  ({ s with dev := { s.dev with status := s.fenceStatus } } : State).writeScopes.remap

/-- The writes in flight that the agenda holds, in their order. -/
def flying (l : List Turn) : List (BitVec 48 × Word) :=
  l.filterMap fun t => match t with
    | .posted pa v => some (pa, v)
    | _ => none

/-- Is the turn no write in flight? -/
def Turn.stays (t : Turn) : Bool :=
  match t with
  | .posted _ _ => false
  | _ => true

/-- PARTITION_HALT: at the scheduled time every context stops, writes in flight stop in the routers' spill buffers, and the package halts. -/
def execPartitionHalt (s : State) : Out :=
  match s.dev.switchAt with
  | none => .next s
  | some (t, _) =>
    if s.time < t ∨ s.dev.halted then .next s
    else
      let s := { s with c := s.c.stopStreams, frames := s.frames.map fun (x : Nat × Ctx) => (x.1, x.2.stopStreams) }
      let s := s.degrade
      .next { s with dev := { s.dev with halted := true, spill := s.dev.spill ++ flying s.agenda }, agenda := s.agenda.filter Turn.stays }

/-- The die whose routers hold a write in flight: the one whose register it is for (log 21). -/
def spillDie (pa : Nat) : Nat :=
  match devReg pa with
  | .doorbell d => d
  | .window core _ => core / 128
  | .ctl kind unit => if kind < 2 then unit / 16 else unit
  | _ => 0

/-- The writes that stand in the spill buffers of a die, in their order. -/
def State.spillOf (s : State) (die : Nat) : List (BitVec 48 × Word) := s.dev.spill.filter fun w => min 3 (spillDie w.1.toNat) == die

/-- What a partition leaves in a die's dugout (R378): the umpire core's context is not the partition's. -/
def State.dieImage (s : State) (die : Nat) (t : BitVec 64) : DieImage :=
  let here := fun (f : Nat) => decide (f < 5632) && dieOf (cluOf (coreOf f)) == die
  let frames := (tset s.frames s.self s.c).filter fun x => here x.1
  { part := s.dev.partition, t := t, dev := s.dev.num, asids := ((frames.filter fun x => x.2.live).map fun x => x.2.asid).dedup, frames := frames,
    cores := s.cores.filter fun x => here (11 * x.1), clus := s.clus.filter fun x => here (88 * x.1),
    replay := (s.die die).replay, queue := (s.die die).queue, spill := s.spillOf die, valid := true }

/-- What comes up for a partition that no dugout holds: every frame, core and cluster as at reset, and nothing queued. The spec does not say
what a partition that has never run comes up as: DESIGN CHOICE (log 21). -/
def DieImage.fresh (part : Nat) : DieImage :=
  { part := part, t := 0, dev := 0, asids := [], frames := [], cores := [], clus := [], replay := [], queue := [], spill := [], valid := false }

/-- The parts of a die's image (R378). -/
inductive ImagePart where
  | header | contexts | vectors | clusters | rings | stores | spill
deriving DecidableEq, Repr

/-- Where a part begins and how many bytes it has (R378). -/
def imagePart : ImagePart → Nat × Nat
  | .header => (0, 4096)
  | .contexts => (4096, 1408 * 2048)
  | .vectors => (2820 * 1024, 16 * 72 * 1024)
  | .clusters => (3972 * 1024, 16 * 160 * 1024)
  | .rings => (6532 * 1024, 128 * 128 * 1024)
  | .stores => (22916 * 1024, 128 * 258 * 1024)
  | .spill => (55940 * 1024, 1024 * 1024)

/-- The context control registers in the order of their numbers (R94). -/
def Ctx.crList (c : Ctx) : List Word :=
  [c.status, c.cr.fctl, c.cr.fflags, c.cr.fmta, c.cr.fmtb, c.cr.upcall, c.cr.fault0, c.cr.fault1, c.cr.fault2, c.cr.fault3, c.cr.bbase, c.cr.bsize, c.cr.chprog,
   c.cr.asid, c.cr.ptmo, c.cr.xltmo, c.cr.ringhole, c.cr.replaylim, c.cr.egheap, c.cr.egmodel]

/-- A doubleword of a context record (R378). Within the parts whose inner layout R378 does not give, the places are the model's, or the word is a free
value of what stands there (log 21). -/
def Ctx.record (c : Ctx) (o : Nat) : Word :=
  let flags := fun (l : List Bool) => (l.zipIdx.map fun x => if x.1 then 2 ^ x.2 else 0).sum
  if o = 0 then .ofNat 64 (flags [c.live, c.parked, c.wait.isSome] + 256 * c.gen.toNat)
  else if o = 8 then c.apc.getD c.pc
  else if o = 16 then c.pc
  else if o < 272 then c.getX ⟨((o - 24) / 8 + 1) % 32, by omega⟩
  else if o < 400 then c.getA ⟨(o - 272) / 8 % 16, by omega⟩
  else if o < 408 then .ofNat 64 (flags (c.p.toList))
  else if o < 632 then dword (c.getK ⟨((o - 408) / 32 + 1) % 8, by omega⟩).toNat ((o - 408) % 32 / 8)
  else if o < 648 then dword (((List.finRange 16).map fun i => c.sb[i].toNat * 2 ^ (8 * i.val)).sum) ((o - 632) / 8)
  else if o < 808 then c.crList.getD ((o - 648) / 8) 0
  else if o = 808 then c.ncount.setWidth 64
  else if o < 960 then
    match c.nlatch[(o - 816) / 72]? with
    | none => 0
    | some e =>
      let w := (o - 816) % 72 / 8
      if w = 0 then .ofNat 64 (e.count % 2 ^ 32 + 2 ^ 63) else dword (e.lo.toNat + 2 ^ 256 * e.hi.toNat) (w - 1)
  else if o = 960 then .ofNat 64 c.deadline
  else if o = 968 then .ofNat 64 (flags [c.wake])
  else if o = 976 then c.exitv
  else if o < 1024 then Config.packed _ (c.mtch, c.pending) (o - 984)
  else Config.packed _ (c.win, c.works, c.acc, c.wait, c.latch, c.owes, c.parks) (o - 1024)

/-- A doubleword of a core's 258 KiB: its local store, then its full-empty bits. -/
def CoreSt.stored (k : CoreSt) (o : Nat) : Word :=
  .ofNat 64 (if o < 262144 then k.ls.read o 8 else ((List.range 64).map fun n => if k.isFull (8 * (o - 262144) + n) then 2 ^ n else 0).sum)

/-- A frame and its context, of those of a die's image, that holds a lane group of a cluster. -/
def DieImage.holder (im : DieImage) (clu group : Nat) : Option (Nat × Ctx) :=
  im.frames.find? fun x => cluOf (coreOf x.1) == clu && x.2.live && x.2.groups.contains group

/-- The element of a v-register in a physical lane of a cluster; that of a group which no context holds is given as 0. -/
def DieImage.lane (im : DieImage) (clu r lane : Nat) : Nat :=
  match im.holder clu (lane / 16) with
  | some (_, c) => (laneOf (c.getV ⟨r % 32, by omega⟩) (16 * c.groups.idxOf (lane / 16) + lane % 16)).toNat
  | none => 0

/-- A doubleword of a cluster's 72 KiB of vector state: for each lane group the frame that holds it, plus 1, and the lanes of each v-register. -/
def DieImage.vectors (im : DieImage) (clu o : Nat) : Word :=
  if o < 8192 then .ofNat 64 (match im.holder clu (o / 8) with | some (f, _) => f + 1 | none => 0)
  else
    let n := (o - 8192) / 4
    .ofNat 64 (im.lane clu (n / 512) (n % 512) + 2 ^ 32 * im.lane clu (n / 512) (n % 512 + 1))

/-- A doubleword of a cluster's record: its queues and registers and the heads, counts and windows of its cores, then the step store. -/
def DieImage.record (im : DieImage) (clu o : Nat) : Word :=
  let k := tget CluSt.reset im.clus clu
  if o < 32768 then
    let cores := (coresOf clu).map fun n => let c := tget CoreSt.reset im.cores n; (c.rh, c.rc, c.windows)
    Config.packed _ (k.jobs, k.desc, k.runs, k.bd, cores) o
  else .ofNat 64 ((tget 0 k.step ((o - 32768) / 4)).toNat + 2 ^ 32 * (tget 0 k.step ((o - 32768) / 4 + 1)).toNat)

/-- A doubleword of a core's ring slots. -/
def CoreSt.ringWord (k : CoreSt) (o : Nat) : Word := .ofNat 64 ((tget 0 k.ring (o / 4)).toNat + 2 ^ 32 * (tget 0 k.ring (o / 4 + 1)).toNat)

/-- A doubleword of a die's image, at a multiple of 8 within it (R378, log 21). -/
def DieImage.word (im : DieImage) (die o : Nat) : Option Word :=
  let at_ := fun (p : ImagePart) => (imagePart p).1
  let core := fun (n : Nat) => tget CoreSt.reset im.cores (128 * die + n)
  if o % 8 ≠ 0 ∨ 56964 * 1024 ≤ o then none
  else if o = 0 then some (.ofNat 64 im.part)
  else if o = 8 then some im.t
  else if o = 16 then some (.ofNat 64 im.dev)
  else if o < at_ .contexts then some (Config.packed _ (im.asids, im.valid) (o - 24))
  else if o < at_ .vectors then some ((tget Ctx.reset im.frames (1408 * die + (o - 4096) / 2048)).record ((o - 4096) % 2048))
  else if o < at_ .clusters then some (im.vectors (16 * die + (o - at_ .vectors) / 73728) ((o - at_ .vectors) % 73728))
  else if o < at_ .rings then some (im.record (16 * die + (o - at_ .clusters) / 163840) ((o - at_ .clusters) % 163840))
  else if o < at_ .stores then some ((core ((o - at_ .rings) / 131072)).ringWord ((o - at_ .rings) % 131072))
  else if o < at_ .spill then some ((core ((o - at_ .stores) / 264192)).stored ((o - at_ .stores) % 264192))
  else some (Config.packed _ (im.spill, im.cores.map fun x => (x.1, x.2.ports, x.2.chans)) (o - at_ .spill))

/-- The package's tables of a partition. -/
def State.tables (s : State) : Parked :=
  { launches := s.launches, teams := s.teams, bars := s.bars, dqs := s.dqs, rings := s.rings, futs := s.futs, heaps := s.heaps,
    away := s.dev.away }

/-- A partition with no launch, team or table. -/
def Parked.empty : Parked := { launches := [], teams := [], bars := [], dqs := [], rings := [], futs := [], heaps := [], away := [] }

/-- A core with a partition's contents in place of another's; limits, counters and the fence bit stay (R99). A frozen one counts its freeze from its
return, as its waits do (R374). -/
def CoreSt.swap (hw im : CoreSt) (now : BitVec 64) : CoreSt :=
  { im with frozeAt := now, fenced := hw.fenced, wdlim := hw.wdlim, dbgFrame := hw.dbgFrame, dbgVsel := hw.dbgVsel, dbgLsaddr := hw.dbgLsaddr, pIssued := hw.pIssued,
            pIdle := hw.pIdle, pQueue := hw.pQueue, pSquash := hw.pSquash, pKsteps := hw.pKsteps, lsPass := hw.lsPass }

/-- A cluster with a partition's contents; the shape-record cache starts empty. -/
def CluSt.swap (hw im : CluSt) : CluSt :=
  { im with vc := hw.vc, pMiss := hw.pMiss, pStale := hw.pStale, pPush := hw.pPush, fenced := hw.fenced, lanesLost := hw.lanesLost, shapes := [], ovf := hw.ovf,
            lanesFree := im.lanesFree.filter (fun g => !(hw.lanesLost.contains g)) }

/-- The contexts that hold a group their cluster has lost while they were switched out. -/
def State.losers (s : State) : List Nat :=
  (insNat s.self (s.frames.map (·.1))).filter fun f => let c := s.ctx f; c.live && c.groups.any fun g => (s.clu (cluOf (coreOf f))).lanesLost.contains g

/-- A die with a partition's image in place of another's. -/
def State.loadDie (s : State) (die : Nat) (im : DieImage) : State :=
  let here := fun (f : Nat) => decide (f < 5632) && dieOf (cluOf (coreOf f)) == die
  let all := tset s.frames s.self s.c
  let frames := (all.filter fun x => !(here x.1)) ++ im.frames.map fun (x : Nat × Ctx) => (x.1, (x.2.comeBack s.time).reissue)
  let frames := frames.foldl (fun t x => tset t x.1 x.2) []
  let cores := (List.range 128).foldl (fun t k =>
    let n := 128 * die + k
    if t.any (·.1 == n) || im.cores.any (·.1 == n) then tset t n ((s.core n).swap (tget CoreSt.reset im.cores n) s.time) else t) s.cores
  let clus := (List.range 16).foldl (fun t k =>
    let n := 16 * die + k
    if t.any (·.1 == n) || im.clus.any (·.1 == n) then tset t n ((s.clu n).swap (tget CluSt.reset im.clus n)) else t) s.clus
  ({ s with c := tget Ctx.reset frames s.self, frames := terase frames s.self, cores := cores, clus := clus } : State).mapDie die
    fun d => { d with replay := im.replay, queue := im.queue }

/-- A channel's PENDING remainder may go on when its partition has returned, as soon as there is a place for it (R253, R261). -/
def CluSt.wake (k : CluSt) (part : Nat) : CluSt :=
  { k with jobs := k.jobs.map fun (j : Job) => if j.state == 4 && j.chan.any (·.2 == part) then { j with resume := true } else j }

/-- PARTITION_RESUME: each die exchanges what ran with what its dugout holds, and the returning partition goes on (R171, R377). -/
def execPartitionResume (s : State) : Out :=
  match s.dev.switchAt with
  | none => .next s
  | some (t, next) =>
    if !s.dev.halted then .next s
    else
      let out := (List.range 4).map fun d => (d, s.dieImage d t)
      let tables := s.tables
      let back := s.dev.parked.getD Parked.empty
      let spill := (List.range 4).flatMap fun d => (tget (DieImage.fresh next) s.dugouts d).spill
      let s := (List.range 4).foldl (fun s d => s.loadDie d (tget (DieImage.fresh next) s.dugouts d)) s
      let s := { s with dugouts := out, launches := back.launches, teams := back.teams, bars := back.bars, dqs := back.dqs, rings := back.rings, futs := back.futs, heaps := back.heaps,
                        dev := { s.dev with partition := next, switchAt := none, halted := false, parked := some tables, away := back.away, spill := [] },
                        agenda := (spill.map fun (w : BitVec 48 × Word) => Turn.posted w.1 w.2) ++ s.agenda }
      let s := (s.clus.map (·.1)).foldl (fun s n => s.mapClu n fun k => k.wake next) s
      let s := { s with l2 := s.l2.map fun (l : L2Line) => { l with pin := [] } }
      .next (s.losers.foldl (fun s f => s.loseLanes f (s.clu (cluOf (coreOf f))).lanesLost) s)

/-- The device is frozen: every clock stops, and Weward shifts the scan chains out to the host (R381). -/
def State.freezeDevice (s : State) : State :=
  { s with dev := { s.dev with stopped := true }, out := s.out ++ [.scan (Config.scanChain s.fresh)], fresh := s.fresh + 1 }

/-- FREEZE_SIGNAL (R381). -/
def execFreezeSignal (s : State) : Out := .next s.freezeDevice

end Sys2Proof.Machine
end

