-- ==== Sys2Proof/Machine/Device.lean ====
section
/-! DEFINITION. Device registers and debug windows, the host, pools, the fabric, power and boot (R157, R169, R284, R295, R373, R382 to
R393). -/

namespace Sys2Proof.Machine

open Sys2Proof

/-! Writing debug windows (R373). -/

/-- The control word: kill core, kill frame, fence, resume, in this order. -/
def State.control (s : State) (core : Nat) (v : Word) : State :=
  let s := if v.getLsbD 3 then s.killCore core else s
  let s := if v.getLsbD 2 then s.killFrame core else s
  let s := if v.getLsbD 1 then s.fenceCore core else s
  if v.getLsbD 0 then s.resumeCore core else s

/-- Write a register of the selected frame. A control register that is read-only, or a value it does not take, is ignored. -/
def State.winSetReg (s : State) (core o : Nat) (v : Word) : State :=
  let k := s.core core
  let f := 11 * core + k.dbgFrame
  let onCtx := fun (g : Ctx → Ctx) => s.mapCtx f g
  if o = 0x108 then s.pcWrite core false v
  else if o = 0x110 then s.pcWrite core true v
  else if 0x200 ≤ o ∧ o < 0x300 then onCtx fun c => c.setX ⟨(o - 0x200) / 8 % 32, by omega⟩ v
  else if 0x300 ≤ o ∧ o < 0x380 then onCtx fun c => c.setA ⟨(o - 0x300) / 8 % 16, by omega⟩ v
  else if 0x380 ≤ o ∧ o < 0x398 then onCtx fun c => c.setFlagWord (setDword c.flagWord ((o - 0x380) / 8) v)
  else if 0x400 ≤ o ∧ o < 0x700 then
    let r := (o - 0x400) / 8
    if crAccess r = .no ∨ crAccess r = .ro ∨ crOk r v = false then s else s.onFrame f fun s => s.crWrite r v
  else if 0x700 ≤ o ∧ o < 0x800 then
    let i : KReg := ⟨(o - 0x700) / 32 % 8, by omega⟩
    onCtx fun c => c.setK i (.ofNat 256 (setDword (c.getK i).toNat (o % 32 / 8) v))
  else if o = 0x800 then s.setCore core { k with dbgVsel := v }
  else if 0x840 ≤ o ∧ o < 0x880 then onCtx fun c => c.setV k.vsel.1 (.ofNat 8192 (setDword (c.getV k.vsel.1).toNat (8 * k.vsel.2 + (o - 0x840) / 8) v))
  else s

/-- Write a doubleword of a core's window. -/
def State.winWrite (s : State) (core o : Nat) (v : Word) : State :=
  let k := s.core core
  if o = 0x008 then s.control core v
  else if o = 0x030 then s.setCore core { k with wdlim := v }
  else if k.frozen = false then s
  else if o = 0x100 then (if v.toNat ≤ 10 then s.setCore core { k with dbgFrame := v.toNat } else s)
  else if o = 0xC00 then s.setCore core { k with dbgLsaddr := v.toNat % 2 ^ 18 / 8 * 8 }
  else if o = 0xC08 then (s.lsdata core (some v)).2
  else if o = 0xC10 then (if v.getLsbD 0 then s.fillGranule core (k.dbgLsaddr / 16) else s.mapCore core (·.mark (k.dbgLsaddr / 16) false))
  else s.winSetReg core o v

/-! Writing the device-register range (R157). -/

/-- Write a register of a control block: an overflow area, or fence bits, which take effect at the next halt (R380). A fence bit is not cleared. -/
def State.ctlWrite (s : State) (kind unit v : Nat) : State :=
  match kind with
  | 0 => s.mapClu unit fun c => { c with ovf := (v, c.ovf.2) }
  | 1 => s.mapClu unit fun c => { c with ovf := (c.ovf.1, v) }
  | 2 => s.mapDie unit fun d => { d with launchOvf := (v, d.launchOvf.2) }
  | 3 => s.mapDie unit fun d => { d with launchOvf := (d.launchOvf.1, v) }
  | 4 => s.mapDie unit fun d => { d with readyOvf := (v, d.readyOvf.2) }
  | 5 => s.mapDie unit fun d => { d with readyOvf := (d.readyOvf.1, v) }
  | _ => s.mapDie unit fun d => { d with failedSlices := ((List.range 64).filter fun k => v.testBit k && !(d.fencedSlices.contains k)).foldl (fun l k => insNat k l) d.failedSlices }

/-- Write a doubleword: the table's base, a doorbell, a window or a control block; the status word and a register with no stated behaviour do nothing. -/
def State.devWrite (s : State) (pa : Nat) (v : Word) : State :=
  match devReg pa with
  | .asidTable => { s with dev := { s.dev with asidTable := v.toNat % 2 ^ 48 } }
  | .doorbell die => s.mapDie die fun d => { d with moves := d.moves ++ [{ addr := v.toNat % 2 ^ 48 / 32 * 32, copied := 0, pass := 0, frame := none, marked := [] }] }
  | .window core o => s.winWrite core o v
  | .ctl k u => if u < 64 then s.ctlWrite k u v.toNat else s
  | .status | .other => s

/-- A supervisor's store of n bytes within a doubleword: the other bytes are written as 0. -/
def State.devStore (s : State) (pa n v : Nat) : State := s.devWrite pa (.ofNat 64 (v % 2 ^ (8 * n) * 2 ^ (8 * (pa % 8))))

/-- DEVICE_REGISTER_WRITE: a supervisor's write to the range. -/
def execDeviceRegisterWrite (pa : BitVec 48) (v : Word) (s : State) : Out :=
  .next (if paClass pa.toNat = .dev then s.devWrite pa.toNat v else s)

/-! The host and other agents at the homes (R169, R170, R383 to R388). -/

/-- For a host's access, home recalls a line from every die's L2 as a .dev atomic does; clean L1 copies stay (R383). -/
def State.hostRecall (s : State) (pa : Nat) : State :=
  let s := (s.l1.filter fun l => !l.img && l.mask != 0 && l.pa / 64 == pa / 64).foldl State.dropL1 s
  (s.l2.filter fun l => !l.img && l.pa / 64 == pa / 64).foldl (fun s l => match s.flushL2 l with
    | .ok s => (s.cutL2 l).dropPushes l.die fun a n => a == l.asid && n == l.line
    | .error _ => s) s

/-- Bytes are applied at their homes, a line's part at a time, each after an act of the home. -/
def State.homeBytes (s : State) (pre : State → Nat → State) : Nat → Nat → List Byte → State
  | 0, _, _ => s
  | fuel + 1, pa, bs =>
    if bs.isEmpty then s
    else
      let k := min bs.length (64 - pa % 64)
      let s := pre s pa
      let s := s.homeWrite (pa / 64 * 64) (lineSet 0 (pa % 64) k (wordOfBytes (bs.take k))) (byteMask (pa % 64) k)
      s.homeBytes pre fuel (pa + k) (bs.drop k)

/-- The host stores to its own memory, a line's part at a time: it takes each line from the device first, whose home slice holds nothing of it
after that (R384). -/
def State.hostStore : Nat → State → Nat → List Byte → State
  | 0, s, _, _ => s
  | fuel + 1, s, pa, bs =>
    if bs.isEmpty then s
    else
      let k := min bs.length (64 - pa % 64)
      let s := (s.hostRecall pa).writeThrough pa
      let s := { s with mem := s.mem.writeBytes pa (bs.take k), poison := if k = 64 then s.poison.filter (· != pa / 64) else s.poison }
      State.hostStore fuel s (pa + k) (bs.drop k)

/-- Is a stack that failed in training among the lines of a range? -/
def State.rangeShut (s : State) (pa n : Nat) : Bool := (List.range ((pa % 64 + n + 63) / 64)).any fun k => (s.tableFault (pa + 64 * k)).isSome

/-- HOST_WRITE: to device memory, or the host's store to a line of its own that the device may hold. A write to a stack that failed in training is dropped,
and a read of it answers as poisoned: DESIGN CHOICE (log 88). -/
def execHostWrite (pa : BitVec 48) (v : List Byte) (s : State) : Out :=
  let p := pa.toNat
  let n := v.length / 64 + 2
  .next (
    if paClass p = .stack ∧ p + v.length ≤ 2 ^ 39 then if s.rangeShut p v.length then s else s.homeBytes State.hostRecall n p v
    else if paClass p = .host ∧ p + v.length ≤ 2 ^ 47 then State.hostStore n s p v
    else s)

/-- HOST_READ: of device memory; a poisoned line answers as poisoned. -/
def execHostRead (pa : BitVec 48) (n : Nat) (s : State) : Out :=
  let p := pa.toNat
  if paClass p = .stack ∧ p + n ≤ 2 ^ 39 then
    let lines := (List.range ((p % 64 + n + 63) / 64)).map fun k => p / 64 * 64 + 64 * k
    if s.rangeShut p n then .next { s with out := s.out ++ [.poisoned p] } else
    let s := lines.foldl (fun s l => (s.hostRecall l).heatTick l) s
    let o := match lines.find? fun l => s.poison.contains (l / 64) with
      | some l => HostOut.poisoned l
      | none => .readData p (s.mem.readBytes p n)
    .next { s with out := s.out ++ [o] }
  else .next s

/-- HOST_SNOOP: of a line of host memory. -/
def execHostSnoop (pa : BitVec 48) (s : State) : Out :=
  let p := pa.toNat / 64 * 64
  if paClass p = .host then
    let s := (s.hostRecall p).writeThrough p
    .next { s with out := s.out ++ [if s.poison.contains (p / 64) then HostOut.poisoned p else .snoopData p (s.mem.readBytes p 64)] }
  else .next s

/-- POISONED_LINE: an uncorrectable error in memory, or poison that CXL reports. -/
def execPoisonedLine (pa : BitVec 48) (s : State) : Out :=
  let p := pa.toNat
  .next (if paClass p = .stack ∨ paClass p = .pool ∨ paClass p = .host then { s with poison := insNat (p / 64) s.poison } else s)

/-- An atomic of another device, at the home: the line is recalled (R189), and the old value is the answer. -/
def State.remoteAtomic (s : State) (p n : Nat) (f : Nat → Option Nat) (reply : State → List Byte → State) : State :=
  if p % 64 + n ≤ 64 then
    match s.recall (p / 64 * 64) with
    | .error _ => s
    | .ok s =>
      let old := s.homeRead p n
      if s.poison.contains (p / 64) then reply s []
      else
        match f old with
        | some v => reply (s.homeBytes (fun s _ => s) 2 p (bytesOf n v)) (bytesOf n old)
        | none => reply (s.heatTick (p / 64 * 64)) (bytesOf n old)
  else s

/-- REMOTE_HOME_REQUEST: served at the home in its single order; a DNEXT of a team that has gone to another device, at the dispatcher of the die
its launch was submitted to (R27), and what that device reports of the team's live control contexts. A write to a failed stack or to an unmapped or refused
segment is dropped, and another request of it answers as poisoned: DESIGN CHOICE (log 88). -/
def execRemoteHomeRequest (pa : BitVec 48) (r : RemoteReq) (s : State) : Out :=
  let p := pa.toNat
  let here := paClass p = .stack ∨ paClass p = .pool
  let shut := (s.tableFault p).isSome
  let reply (s : State) (bs : List Byte) : State :=
    { s with out := s.out ++ [if s.poison.contains (p / 64) then HostOut.poisoned p else .remoteData p bs] }
  let gone := fun (l j : Nat) => s.dev.away.any fun a => a.launch == l && a.j == j
  match r with
  | .write v => .next (if here ∧ shut = false ∧ p % 64 + v.length ≤ 64 then s.homeBytes (fun s _ => s) 2 p v else s)
  | .read n => .next (if here ∧ shut then { s with out := s.out ++ [.poisoned p] } else if here ∧ p % 64 + n ≤ 64 then reply (s.heatTick (p / 64 * 64)) (s.homeBytesOf p n) else s)
  | .amo n op v => .next (if here ∧ shut then { s with out := s.out ++ [.poisoned p] } else if here then s.remoteAtomic p n (fun old => some (amoNew op n old v).1) reply else s)
  | .cas n old new => .next (if here ∧ shut then { s with out := s.out ++ [.poisoned p] } else if here then s.remoteAtomic p n (fun x => if x = old % 2 ^ (8 * n) then some (new % 2 ^ (8 * n)) else none) reply else s)
  | .dnext l j =>
    match s.launches.find? (·.id == l) with
    | some x =>
      if gone l j then
        let d := s.deal x
        .next { d.2 with out := d.2.out ++ [.dealt l j d.1.1 d.1.2] }
      else .next s
    | none => .next s
  | .controls l j n =>
    if gone l j then
      let away := if n = 0 then s.dev.away.filter fun a => !(a.launch == l && a.j == j)
        else s.dev.away.map fun (a : Away) => if a.launch == l && a.j == j then { a with cores := n } else a
      .next ({ s with dev := { s.dev with away := away } } : State).dropLaunches
    else .next s

/-- POOL_AGENT_WRITE: the bytes reach a mapped pool frame, and a copy of it that is under way marks its lines (R297); cached copies here stay until an acquire at .sys. -/
def execPoolAgentWrite (pa : BitVec 48) (v : List Byte) (s : State) : Out :=
  let p := pa.toNat
  .next (if paClass p = .pool ∧ s.paFault true p = none ∧ p + v.length ≤ 0x28000000000 then
    (List.range ((p % 64 + v.length + 63) / 64)).foldl (fun s k => s.noteMoved (p + 64 * k)) { s with mem := s.mem.writeBytes p v }
  else s)

/-- POOL_LINK_FAIL: every access to the port's segments is refused. -/
def execPoolLinkFail (port : Nat) (s : State) : Out :=
  .next (if port < 4 then { s with dev := { s.dev with refusedPorts := insNat port s.dev.refusedPorts } } else s)

/-- CRIRAS_PLANE_FAIL: its traffic goes on the next plane. With every plane down .pod is narrowed to the device (R30, R388), in the scope table
as soon as the dies are halted or stopped (R301). -/
def execCrirasPlaneFail (plane : Nat) (s : State) : Out :=
  if plane < 16 then
    let s := { s with dev := { s.dev with planesDown := insNat plane s.dev.planesDown } }
    .next (if s.dev.halted ∨ s.dev.stopped then s.writeScopes else s)
  else .next s

/-! Power, boot and management (R382, R389 to R393). -/

/-- THERMAL_TRIP (R393): Weward freezes the device and reports the die. -/
def execThermalTrip (die : Nat) (s : State) : Out :=
  let t := s.freezeDevice
  .next { t with dev := { t.dev with tripped := some die } }

/-- POWER_CAP_SET: a lower cap. -/
def execPowerCapSet (watts : Nat) (s : State) : Out := .next { s with dev := { s.dev with capW := min watts 1900 } }

/-- FUNCTION_LEVEL_RESET: the host link's function state alone. -/
def execFunctionLevelReset (s : State) : Out := .next { s with dev := { s.dev with link := { s.dev.link with function := [] } } }

/-- The bytes that an attestation report's signature covers, in the order of R390; each part little-endian: DESIGN CHOICE (log 7). -/
def reportBytes (d : DevSt) (nonce : BitVec 256) : List Byte :=
  (d.stages.flatMap fun h => bytesOf 32 h.toNat) ++ (d.scopes.flatMap fun w => bytesOf 8 w.toNat) ++ bytesOf 8 d.rollback ++ bytesOf 8 d.status.toNat
    ++ bytesOf 32 nonce.toNat

/-- ATTESTATION_REQUEST: a report signed with the device identity key, in arrival order. -/
def execAttestationRequest (nonce : BitVec 256) (s : State) : Out :=
  let d := s.dev
  .next { s with out := s.out ++ [.attestation nonce d.scopes d.rollback d.status d.stages (Config.slhSign Config.identityKey (reportBytes d nonce))] }

/-- SUPPLY_REMOVAL: the supplies fall one after another, in the reverse order of their sequencing; nothing runs until they are back (R393). -/
def execSupplyRemoval (s : State) : Out :=
  let n := s.dev.rails - 1
  .next { s with dev := { s.dev with rails := n, released := false }, agenda := if n = 0 then s.agenda else .event .supplyRemoval :: s.agenda }

/-- The checks of a firmware stage (R389): its public key, its signature over its image, and its version. -/
def stageOk (st : Stage) (rollback : Nat) : Bool :=
  Config.sha256 (bytesOf 48 st.key.toNat) == Config.keyHash && st.signature.length == 16224 && Config.slhVerify st.key st.image st.signature
    && decide (rollback ≤ st.version)

/-- The stages that pass their checks, up to the first that does not, and the number of that one. -/
def bootStages (rollback : Nat) : Nat → List Stage → List Stage × Option Nat
  | _, [] => ([], none)
  | k, st :: sts => if stageOk st rollback then let r := bootStages rollback (k + 1) sts; (st :: r.1, r.2) else ([], some k)

/-- A failed unit of those that training found is fenced (R15, R391). -/
def State.fenceUnit (s : State) (u : DevUnit) : State :=
  match u with
  | .core n => s.mapCore n fun k => { k with fenced := true }
  | .cluster n => s.mapClu n fun k => { k with fenced := true }
  | .laneGroup n g => s.mapClu n fun k => { k with lanesFree := k.lanesFree.filter (· != g), lanesLost := insNat g k.lanesLost }
  | .slice d n => s.mapDie d fun k => { k with fencedSlices := insNat n k.fencedSlices }

/-- The device comes up after its boot ROM has run the stages, and the link, the stacks and the ports have trained: with its state at reset, its
fenced units fenced, those that training found to have failed with them, and the scope table of what it finds (R29, R389, R391). Memory outside the
device, the host's replies and the steps to come are not the device's. A stage that fails a check is not run: the link stays in configuration
retry, and the compute dies are not released. -/
def State.comeUp (s : State) (t : Training) : State :=
  let boot := bootStages s.dev.rollback 0 Config.firmware
  let failed := boot.2.isSome
  let d := { DevSt.reset with
    refusedPorts := (t.ports.filter (decide <| · < 4)).foldl (fun l n => insNat n l) s.dev.refusedPorts,
    portsDown := (t.ports.filter (decide <| · < 4)) ++ (t.planes.filter (decide <| · < 16)).map (4 + ·),
    planesDown := (t.planes.filter (decide <| · < 16)).foldl (fun l n => insNat n l) s.dev.planesDown,
    stacksDown := (t.badStacks.filter (decide <| · < 8)).foldl (fun l n => insNat n l) s.dev.stacksDown,
    segments := s.dev.segments, pooled := s.dev.pooled, pods := t.pods, rollback := s.dev.rollback, num := if t.pods then t.num % 144 else 0, loader := s.dev.loader,
    arrivals := s.dev.arrivals, stages := boot.1.map fun st => Config.sha256 st.image, failedStage := boot.2, released := !failed,
    link := { Link.reset with width := if t.width = 8 ∨ t.width = 4 then t.width else 16, retry := failed, ide := t.ide } }
  let cores := (s.cores.filter fun (x : Nat × CoreSt) => x.2.fenced).map fun (x : Nat × CoreSt) => (x.1, { CoreSt.reset with fenced := true })
  let clus := (s.clus.filter fun (x : Nat × CluSt) => x.2.fenced || !x.2.lanesLost.isEmpty).map fun (x : Nat × CluSt) =>
    (x.1, { CluSt.reset with fenced := x.2.fenced, lanesLost := x.2.lanesLost, lanesFree := CluSt.reset.lanesFree.filter fun g => !(x.2.lanesLost.contains g) })
  let dies := (s.dies.filter fun (x : Nat × DieSt) => !(x.2.fencedSlices ++ x.2.failedSlices).isEmpty).map fun (x : Nat × DieSt) =>
    (x.1, { DieSt.reset with fencedSlices := x.2.failedSlices.foldl (fun l k => insNat k l) x.2.fencedSlices })
  let mem : Memory := s.mem.filter fun (c : Host.Cell) => paClass c.1 == PaClass.pool || paClass c.1 == PaClass.host
  let u := { State.reset with dev := d, mem := mem, out := s.out, agenda := s.agenda, fresh := s.fresh, nextId := s.nextId, cores := cores, clus := clus, dies := dies }
  let u := t.units.foldl State.fenceUnit u
  ({ u with dev := { u.dev with status := u.fenceStatus } } : State).writeScopes

/-- BRING_UP: the supplies rise one after another, in their order (R393); then a device that is stopped or held comes up (R391). What training finds is a
free value (log 89). -/
def execBringUp (s : State) : Out :=
  .next (
    if s.dev.powered = false then { s with dev := { s.dev with rails := s.dev.rails + 1 }, agenda := .event .bringUp :: s.agenda }
    else if s.dev.stopped ∨ !s.dev.released then ({ s with fresh := s.fresh + 1 } : State).comeUp (Config.training s.fresh)
    else s)

end Sys2Proof.Machine
end

