-- ==== Sys2Proof/Machine/Perform.lean ====
section
/-! DEFINITION. Performing issued accesses, and replays of held ones (R89, R90, R152 to R154, R161, R179, R182 to R195, R290, R291, R369). -/

namespace Sys2Proof.Machine

open Sys2Proof

/-- Change an access of a context, wherever it stands. -/
def Ctx.mapAcc (c : Ctx) (aid : Nat) (g : Access → Access) : Ctx :=
  let h := fun (a : Access) => if a.aid == aid then g a else a
  { c with acc := c.acc.map h, parks := c.parks.map fun (k, p) => (k, { p with acc := p.acc.map h }) }

/-- The request of an issued access. -/
def Access.req (a : Access) (c : Ctx) (f : Nat) (need : BitVec 4) : Req := { c.req f need with asid := a.asid }

/-- A read of n bytes by a context's access: in memory at a scope, or of a device register. -/
def State.accRead (s : State) (r : Req) (sc : Scope) (va n : Nat) : MR Nat :=
  match s.readAt r sc va n with
  | .error (.device pa) => .ok (s.devLoad (devPa pa va) n)
  | x => x

/-- A write of n bytes by a context's access: in memory at a scope, or to a device register. -/
def State.accWrite (s : State) (r : Req) (sc : Scope) (va n v : Nat) (recNo : Option (Nat × Nat)) : Except MFault State :=
  match s.writeAt r sc va n v recNo with
  | .error (.device pa) => .ok (s.devStore (devPa pa va) n v)
  | x => x

/-- An indivisible read and write by a context's access: in memory, or of a device register. -/
def State.accAtomic (s : State) (r : Req) (sc : Scope) (va n : Nat) (f : Nat → Option Nat) (recNo : Option (Nat × Nat)) : MR Nat :=
  match s.atomicAt r sc va n f recNo with
  | .error (.device pa) =>
    let x := s.devLoad (devPa pa va) n
    match f x.1 with
    | some v => .ok (x.1, x.2.devStore (devPa pa va) n v)
    | none => .ok x
  | x => x

/-- A performed write to virtual memory by ST, STRL, AMO or CAS is one of the released writes (R182). -/
def State.note (s : State) (f asid va : Nat) : State := s.mapCtx f fun c => if c.live then c.noteWrite asid va else c

/-! Atomic operations (R187, R189). -/

/-- An atomic access: the old value reaches the data register with the operation's flags. `f` gives the new value, or none. -/
def State.performAtomic (s : State) (f : Nat) (a : Access) (sc : Scope) (n : Nat) (d : XReg) (new : Nat → Option Nat) (fl : Nat → Fl) : PR :=
  let c := s.ctx f
  if sc = .core ∧ isLs a.ea then
    let core := coreOf f
    let o := c.lsPhys (lsOff a.ea)
    let old := (s.core core).ls.read o n
    let s := match new old with
      | some v => s.mapCore core fun k => { k with ls := k.ls.write o n v }
      | none => s
    .ok ((s.finish f a.aid [(.x d, .ofNat 64 old)]).mapCtx f (·.orFlags (fl old)))
  else
    match s.accAtomic (a.req c f 12) sc a.ea.toNat n new a.recNo with
    | .error e => .error (e, a.ea.toNat, s)
    | .ok (old, s) => .ok (((s.note f a.asid a.ea.toNat).finish f a.aid [(.x d, .ofNat 64 old)]).mapCtx f (·.orFlags (fl old)))

/-! Vector accesses (R152 to R154). -/

/-- Read the element of one lane. -/
def State.laneRead (s : State) (f : Nat) (a : Access) (addr : Word) (e : Nat) : MR Nat :=
  let c := s.ctx f
  if isLs addr then .ok ((s.core (coreOf f)).ls.read (c.lsPhys (lsOff addr)) e, s) else s.accRead (a.req c f 8) .clu addr.toNat e

/-- Write the element of one lane. -/
def State.laneWrite (s : State) (f : Nat) (a : Access) (addr : Word) (e v : Nat) : Except MFault State :=
  let c := s.ctx f
  if isLs addr then .ok (s.mapCore (coreOf f) fun k => { k with ls := k.ls.write (c.lsPhys (lsOff addr)) e v })
  else s.accWrite (a.req c f 12) .clu addr.toNat e v a.recNo

/-- A vector load's lanes in ascending order; a fault leaves those before it loaded. -/
def State.loadLanes (s : State) (f : Nat) (a : Access) (m : BitVec 256) (e : Nat) (idx : Option (BitVec 8192)) (d : VReg) : List Nat → PR
  | [] => .ok (s.finish f a.aid [] (some (d, m, a.got)))
  | i :: is =>
    let addr := laneAddr a.ea idx e i
    match s.laneRead f a addr e with
    | .error x => .error (x, addr.toNat, s.mapCtx f (·.mapAcc a.aid fun _ => a))
    | .ok (v, s) => s.loadLanes f { a with done := a.done + 1, got := setLane a.got i (.ofNat 32 v) } m e idx d is

/-- A vector store's lanes in ascending order; a fault leaves those before it performed. Other agents may observe some lanes before others
(R153); here all lanes of one attempt are performed in one step: DESIGN CHOICE (log 68). -/
def State.storeLanes (s : State) (f : Nat) (a : Access) (e : Nat) (idx : Option (BitVec 8192)) (data : BitVec 8192) : List Nat → PR
  | [] => .ok (s.finish f a.aid [])
  | i :: is =>
    let addr := laneAddr a.ea idx e i
    match s.laneWrite f a addr e ((laneOf data i).toNat % 2 ^ (8 * e)) with
    | .error x => .error (x, addr.toNat, s.mapCtx f (·.mapAcc a.aid fun _ => a))
    | .ok s => s.storeLanes f { a with done := a.done + 1 } e idx data is

/-! Fences of compressed memory, codebooks and block status (R192 to R194). -/

/-- CZFENCE of one block: on every die its image lines are written back, then dropped. Poisoned lines, and the lines of a block whose stream is
corrupt, are skipped and kept (R195), but poisoned ones of a block that can be read, since the compressed view has rewritten it, are dropped (R192). -/
def State.czBlock (s : State) (asid va : Nat) : Except MFault State :=
  let all := s.l2.filter fun l => l.img && l.asid == asid && l.line / 64 == va / 4096
  let ls := all.filter fun l => !l.poison
  let rewritten := fun (s : State) => all.filter fun l => l.poison && (match s.readBlock asid l.cb l.pa with
    | .ok (some _) => true
    | _ => false)
  let drop : Except MFault State := match s.dropL2s ls with
    | .error e => .error e
    | .ok t => t.dropL2s (rewritten s)
  match ls.find? (·.mask != 0) with
  | none => drop
  | some l =>
    match s.rewritable asid l.cb l.pa with
    | .error e => .error e
    | .ok none => .ok s
    | .ok (some _) => drop

/-- CZFENCE of the blocks from one on: an unmapped page stops it there. -/
def State.czBlocks (s : State) (f : Nat) (a : Access) : Nat → Nat → PR
  | 0, _ => .ok (s.finish f a.aid [])
  | n + 1, k =>
    let va := a.ea.toNat + 4096 * k
    let r := a.req (s.ctx f) f 0
    match s.translate r.die (s.served r.die (sliceOf va)) a.asid va r.need with
    | .error e => .error (e, va, s.mapCtx f (·.mapAcc a.aid fun x => { x with done := k }))
    | .ok (t, s) =>
      match if t.comp then s.czBlock a.asid va else .ok s with
      | .error e => .error (e, va, s.mapCtx f (·.mapAcc a.aid fun x => { x with done := k }))
      | .ok s => s.czBlocks f a n (k + 1)

/-- CZFENCE: the range's released writes are published, the cluster's lines of it leave L1, then its blocks follow. A user's CZFENCE needs u on
the pages of its range; what has been written back before a failure stays so. -/
def State.performCzfence (s : State) (f : Nat) (a : Access) (len : Word) : PR :=
  let n := (len.toNat + 4095) / 4096
  let lo := a.ea.toNat / 64
  let clu := cluOf (coreOf f)
  let mine := (s.ctx f).released.filter fun l => l.1 == a.asid && decide (lo ≤ l.2) && decide (l.2 < lo + 64 * n)
  if len = 0 then .ok (s.finish f a.aid [])
  else if (s.ctx f).unreleased a.aid then .error (.busy, 0, s)
  else
    match s.publishAll clu .dev mine with
    | (s, some e) => .error (e.1, e.2, s)
    | (s, none) =>
      let s := (s.l1.filter fun l => l.clu == clu && l.asid == a.asid && decide (lo ≤ l.line) && decide (l.line < lo + 64 * n)).foldl State.dropL1 s
      s.czBlocks f a (n - a.done) a.done

/-- The lengths of a codebook record (R193), or none where it breaks its limits: its id and lengths. -/
def codebookOf (bs : List Byte) : Option (Nat × List Nat) :=
  let b := fun (k : Nat) => (bs.getD k 0).toNat
  let lens := (List.range 256).map fun k => b (64 + k / 2) / 2 ^ (4 * (k % 2)) % 16
  if 16 ≤ b 0 ∨ ((List.range 63).any fun k => b (k + 1) != 0) ∨ (lens.all (· == 0)) ∨ 2 ^ 15 < kraft lens then none else some (b 0, lens)

/-- Install a codebook: of its id, the version before it stays live, and the older one is retired once no tile of it is in flight; until then
the CBLOAD waits. The versions and counts are those of the id's cbtab entry (R193, R300). -/
def State.installBook (s : State) (asid id : Nat) (lens : List Nat) : Option (Nat × State) :=
  let v := s.cbVersions asid id
  if v.2 ≠ 0 ∧ s.cbInFlight asid id ≠ 0 then none
  else
    let ver := v.1 % 255 + 1
    let at_ := s.cbAt asid id
    let keep := s.books.filter fun b => !(b.asid == asid && b.id == id) || (b.ver == v.1 && v.1 != ver)
    let s : State := { s with books := keep ++ [{ asid := asid, id := id, ver := ver, lens := lens }] }
    let moving := s.homeRead (at_ + 8) 4
    some (ver, (s.homeNum at_ 2 (ver + 256 * v.1)).homeNum (at_ + 8) 8 (moving * 2 ^ 32))

/-- The status word of a block (R194). -/
def MapEntry.status (e : MapEntry) : Nat :=
  if e.valid then 1 + 2 + 4 * e.raw.toNat + 8 * e.nsec + 256 * (if e.raw then 0 else e.ver) else 2

/-! Performing. -/

/-- Does an access wait for nothing but its own turn at a line: a fetch or an access of an instruction that issues again? -/
def State.probe (s : State) (f : Nat) (a : Access) (need : BitVec 4) : PR :=
  let r := a.req (s.ctx f) f need
  let va := a.ea.toNat
  match s.translate r.die (s.served r.die (sliceOf va)) a.asid va r.need with
  | .error e => .error (e, va, s)
  | .ok (t, s) =>
    match if t.comp then ((if need.getLsbD 2 then s.rewritable a.asid t.cb t.pa else s.readBlock a.asid t.cb t.pa).map fun _ => ()) else .ok () with
    | .error e => .error (e, va, s)
    | .ok _ => .ok (s.finish f a.aid [])

/-- Perform an issued access of frame f, or say what stops it. -/
def State.performE (s : State) (f : Nat) (a : Access) : PR :=
  let c := s.ctx f
  let core := coreOf f
  let va := a.ea.toNat
  let off := c.lsPhys (lsOff a.ea)
  match a.op with
  | .ld n sx d =>
    match s.accRead (a.req c f 8) .clu va n with
    | .error e => .error (e, va, s)
    | .ok (v, s) => .ok (s.finish f a.aid [(d, if sx then sextBytes n v else .ofNat 64 v)])
  | .st n v =>
    match s.accWrite (a.req c f 12) .clu va n (v.toNat % 2 ^ (8 * n)) a.recNo with
    | .error e => .error (e, va, s)
    | .ok s => .ok ((s.note f a.asid va).finish f a.aid [])
  | .ldl n d => .ok (s.finish f a.aid [(d, .ofNat 64 ((s.core core).ls.read off n))])
  | .stl n v =>
    .ok ((s.mapCore core fun k => { k with ls := k.ls.write off n (v.toNat % 2 ^ (8 * n)) }).finish f a.aid [])
  | .ldfe consume d =>
    if (s.core core).isFull (off / 16) = false ∨ s.feReady core f a = false then .error (.busy, va, s)
    else
      let s := s.finish f a.aid [(d, s.ldfeData f a)]
      .ok (if consume then s.mapCore core (·.mark (off / 16) false) else s)
  | .stfe v =>
    if s.feReady core f a = false then .error (.busy, va, s)
    else .ok (((s.finish f a.aid []).mapCore core fun k => { k with ls := k.ls.write off 8 v.toNat }).fillGranule core (off / 16))
  | .femark full n =>
    if s.feReady core f a = false then .error (.busy, va, s)
    else .ok ((List.range n.toNat).foldl (fun s k => if full then s.fillGranule core (off / 16 + k) else s.mapCore core (·.mark (off / 16 + k) false)) (s.finish f a.aid []))
  | .pref l2 =>
    -- A prefetch that finds every way of its set pinned is dropped: DESIGN CHOICE (log 81).
    let r : Req := { a.req c f 8 with who := none }
    let t := if l2 then (s.l2Get r (va / 64)).map fun x => (x.1.poison, x.2) else (s.l1Get r (va / 64)).map fun x => (x.1.poison, x.2)
    .ok ((match t with
      | .ok (false, t) => t.leaveHost r.die r.asid (va / 64) ((s.lineAt r.asid (va / 64)).getD 0)
      | _ => s.countMisses r (if l2 then .die else .clu) va).finish f a.aid [])
  | .fence sc =>
    if c.unreleased a.aid then .error (.busy, va, s)
    else
      match s.tryRelease f sc with
      | .error e => .error e
      | .ok s =>
        match s.tryAcquire f sc with
        | .error e => .error e
        | .ok s => .ok (s.finish f a.aid [])
  | .czfence len => s.performCzfence f a len
  | .cbload d =>
    match s.readBytesAt (a.req c f 8) .clu 5 va 192 with
    | .error e => .error (e, s.readStop (a.req c f 8) .clu 5 va 192, s)
    | .ok (bs, s) =>
      match codebookOf bs with
      | none => .ok (s.finish f a.aid [(d, 0)])
      | some (id, lens) =>
        match s.installBook a.asid id lens with
        | none => .error (.busy, va, s)
        | some r => .ok (r.2.finish f a.aid [(d, .ofNat 64 r.1)])
  | .czstat d =>
    let r := a.req c f 8
    match s.translate r.die (s.served r.die (sliceOf va)) a.asid va r.need with
    | .error e => .error (e, va, s)
    | .ok (t, s) => .ok (s.finish f a.aid [(d, .ofNat 64 (if t.comp then (s.mapEntry t.pa).status else 0))])
  | .lda n sc d =>
    match s.accRead (a.req c f 8) sc va n with
    | .error e => .error (e, va, s)
    | .ok (v, s) =>
      match s.tryAcquire f sc with
      | .error e => .error e
      | .ok s => .ok (s.finish f a.aid [(d, .ofNat 64 v)])
  | .strl n sc v =>
    if c.unreleased a.aid then .error (.busy, va, s)
    else
      match s.tryRelease f sc with
      | .error e => .error e
      | .ok s =>
        match s.accWrite (a.req c f 12) sc va n (v.toNat % 2 ^ (8 * n)) a.recNo with
        | .error e => .error (e, va, s)
        | .ok s => .ok ((s.note f a.asid va).finish f a.aid [])
  | .amo n op sc opnd d => s.performAtomic f a sc n d (fun old => some (amoNew op n old opnd.toNat).1) fun old => (amoNew op n old opnd.toNat).2
  | .cas n sc old new j =>
    s.performAtomic f a sc n (evenX j) (fun v => if v = old.toNat % 2 ^ (8 * n) then some (new.toNat % 2 ^ (8 * n)) else none) fun _ => 0
  | .vld m fmt d => s.loadLanes f a m (fmtBytes fmt) none d ((activeLanes m).drop a.done)
  | .vst m fmt v => s.storeLanes f a (fmtBytes fmt) none v ((activeLanes m).drop a.done)
  | .vldx m fmt idx d => s.loadLanes f a m (fmtBytes fmt) (some idx) d ((activeLanes m).drop a.done)
  | .vstx m fmt idx v => s.storeLanes f a (fmtBytes fmt) (some idx) v ((activeLanes m).drop a.done)
  | .fetch => s.probe f a 2
  | .other w => s.probe f a (if w then 12 else 8)

/-- Would a load read a device register? That may change it, so a speculative one waits (R180; log 23). -/
def State.atDevice (s : State) (f : Nat) (a : Access) : Bool :=
  match a.op with
  | .ld n _ _ =>
    match s.readAt (a.req (s.ctx f) f 8) .clu a.ea.toNat n with
    | .error (.device _) => true
    | _ => false
  | _ => false

/-- SCOREBOARD_DECREMENT (R89): an issued access of frame f that is neither held nor taken back is performed, or takes its fault. A speculative one is
performed only if it is a load or a prefetch, and its fault is deferred (R138, R180). One of a context that has been killed which cannot be performed is
dropped (log 52). -/
def execScoreboardDecrement (f id : Nat) (s : State) : Out :=
  match (s.ctx f).accAll.find? fun a => a.aid == id && !a.held && !a.back with
  | none => .next s
  | some a =>
    let spec := (s.ctx f).speculative id
    if spec && (!a.op.early || s.atDevice f a) then .next s
    else
      match s.performE f a with
      | .ok t => .next (t.lsServe (coreOf f) a.lsSource)
      | .error (e, va, t) =>
        if (s.ctx f).live = false then .next (s.finish f id [])
        else if e = .busy ∨ spec then .next s
        else .next (t.accFault f (((t.ctx f).accAll.find? (·.aid == id)).getD a) e va)

/-! Replays (R291, R293, R369). -/

/-- Let a suspended job, matrix job, chain run or epilogue go on. A job goes on as soon as there is a place among the 4 (R253). -/
def State.resumeUnit (s : State) (u : Nat × Nat × Nat) : State :=
  match u.1 with
  | 1 => s.mapJob u.2.1 u.2.2 fun j => if j.state = 3 then { j with resume := true } else j
  | 2 =>
    match (s.core u.2.1).mjobs.find? (·.id == u.2.2) with
    | some j =>
      match j.kind with
      | .joint h => (coresOf (cluOf u.2.1)).foldl (fun s k => s.mapCore k fun c => c.suspend s.time false (·.kind == .joint h)) s
      | _ => s.suspMatrix u.2.1 u.2.2 false
    | none => s
  | 3 =>
    match (s.clu u.2.1).runs.find? (·.id == u.2.2) with
    | some r => s.suspRun u.2.1 r false
    | none => s
  | _ => s.mapE u.2.1 u.2.2 fun j => { j with susp := false }

/-- An entry is free. -/
def State.freeEntry (s : State) (die : Nat) (e : Replay) : State := s.mapDie die fun d => { d with replay := d.replay.filter fun x => !(x.is e.slice e.entry) }

/-- The park slot that holds an access. -/
def Ctx.parkOf (c : Ctx) (aid : Nat) : Option Nat := (c.parks.find? fun kp => kp.2.acc.any (·.aid == aid)).map (·.1)

/-- An access of an entry is performed, or gone: after the last, the entry is free, or its notice is due. A notice names the last park slot whose
accesses it performed. -/
def State.leaveEntry (s : State) (die : Nat) (e : Replay) (aid : Nat) (park : Option Nat) : State :=
  let left := e.aids.filter (· != aid)
  let note := park <|> e.notice
  if left.isEmpty ∧ note.isNone then s.freeEntry die e
  else s.mapReplay die (·.is e.slice e.entry) fun x => { x with aids := left, notice := note }

/-- Does a cached translation of a die serve a page? -/
def Tlb.serves (t : Tlb) (die asid page : Nat) : Bool := t.die == die && t.asid == asid && t.page == 65536 * page / 2 ^ t.size

/-- The state in which a replay walks afresh: no slice of the die finds a cached translation of the page (R293). -/
def State.uncached (s : State) (die asid page : Nat) : State := { s with tlb := s.tlb.filter fun t => !t.serves die asid page }

/-- After such a walk: of the translations that were set aside, each comes back that none has replaced (R287). -/
def State.recache (t s : State) (die asid page : Nat) : State :=
  let mine := fun (o : Tlb) => t.tlb.filter fun n => n.die == die && n.slice == o.slice
  { t with tlb := (s.tlb.filter fun o => o.serves die asid page && !((mine o).any (·.serves die asid page)) && decide ((mine o).length < 2048)) ++ t.tlb }

/-- The replay of one held access of a context. A replayable fault at the entry's page and slice is a repeat (R291); at another, which a later lane or
block meets, the access leaves the entry for one of that page or slice. -/
def State.replayAccess (s : State) (die : Nat) (e : Replay) (a : Access) : State :=
  let park := (s.ctx e.frame).parkOf a.aid
  match (s.uncached die e.asid e.page).performE e.frame a with
  | .ok t => (t.recache s die e.asid e.page).leaveEntry die e a.aid park
  | .error (.busy, _, _) => s
  | .error (x, va, t) =>
    let t := t.recache s die e.asid e.page
    let now := ((t.ctx e.frame).accAll.find? (·.aid == a.aid)).getD a
    let same := va / 65536 == e.page && t.served die (sliceOf va) == e.slice
    let other := ((t.mapCtx e.frame (·.mapAcc a.aid fun y => { y with held := false })).leaveEntry die e a.aid none).accFault e.frame { now with held := false } x va
    let again (code k : Nat) : State :=
      (t.countMisses { (t.ctx e.frame).req e.frame a.op.need with asid := a.asid } a.op.scope va).refault die e (min (e.count + 1) 256) code k (.ofNat 64 va) a.pc
    match x with
    | .page k => if same then again 1 k else other
    | .comp code k => if same then again code k else other
    | _ => other

/-- After a walk that has found a leaf: every slice of the die that had a translation of the page has the new one in its place, of its size (R287). -/
def State.refreshed (t s : State) (die asid page : Nat) (n : Tlb) : State :=
  let had := (s.tlb.filter fun o => o.serves die asid page && o.slice != n.slice).map (·.slice)
  { t with tlb := had.dedup.map (fun k => { n with slice := k }) ++ t.tlb }

/-- A unit's fresh walk has faulted again (R291). A chain run whose fault escalates so ends there (R250). -/
def State.refaultUnit (s : State) (die : Nat) (e : Replay) (u : Nat × Nat × Nat) (k : Nat) : State :=
  let t := s.refault die e (min (e.count + 1) 256) 1 k e.va e.pc
  if u.1 = 3 then
    match (t.clu u.2.1).runs.find? (·.id == u.2.2) with
    | some r => if t.runEscalated u.2.1 r then t.endRun u.2.1 r 4 r.step else t
    | none => t
  else t

/-- A unit goes on after a fresh walk of the page: the translations that the slices hold of it are replaced. A walk that faults is a repeat. -/
def State.resumeFresh (s : State) (die : Nat) (e : Replay) (u : Nat × Nat × Nat) (mark : Nat) : State :=
  let r := s.workReq e.frame e.asid (if e.wr then 12 else 8)
  match (s.uncached die e.asid e.page).translate die e.slice e.asid e.va.toNat r.need with
  | .error (.page k) => s.refaultUnit die e u k
  | .error _ => (s.resumeUnit u).mapReplay die (·.is e.slice e.entry) fun x => { x with mark := some mark }
  | .ok (_, t) =>
    let t := match t.tlb.find? fun n => n.slice == e.slice && n.serves die e.asid e.page with
      | some n => t.refreshed s die e.asid e.page n
      | none => t.recache s die e.asid e.page
    (t.resumeUnit u).mapReplay die (·.is e.slice e.entry) fun x => { x with mark := some mark }

/-- REPLAY_ATTEMPT: an entry whose replay was accepted, and that has not escalated since, performs its next access, or lets its unit go on until
it has made progress. -/
def execReplayAttempt (die slice entry : Nat) (s : State) : Out :=
  match (s.die die).replay.find? fun e => e.is slice entry && e.replaying && !e.escalated && !(e.aids.isEmpty && e.notice.isSome) with
  | none => .next s
  | some e =>
    match e.unit_ with
    | some u =>
      match s.unitMark u, e.mark with
      | none, _ => .next (s.freeEntry die e)
      | some m, none => .next (s.resumeFresh die e u m)
      | some m, some n => .next (if m = n then s else s.freeEntry die e)
    | none =>
      match e.aids with
      | [] => .next (s.freeEntry die e)
      | aid :: _ =>
        match (s.ctx e.frame).accAll.find? (·.aid == aid) with
        | none => .next (s.leaveEntry die e aid none)
        | some a => .next (s.replayAccess die e a)

/-- RESUME_NOTICE (R369): the notice becomes pending, and the entry is free. -/
def execResumeNotice (die slice entry : Nat) (s : State) : Out :=
  match (s.die die).replay.find? fun e => e.is slice entry && e.aids.isEmpty with
  | none => .next s
  | some e =>
    match e.notice with
    | none => .next s
    | some k =>
      let u : Upcall := { code := 0x13, info := 0, addr := e.va, token := e.token die, whence := e.pc, soft := false, park := some k }
      .next ((s.freeEntry die e).addUpcall e.frame u)

end Sys2Proof.Machine
end

