-- ==== Sys2Proof/Machine/Dispatch.lean ====
section
/-! DEFINITION. One arm per instruction or step: each is one call of its meaning. -/

namespace Sys2Proof.Machine

open Sys2Proof

/-- The effect of an instruction issued by the selected context, or of a step of another agent. -/
def exec (i : Instr) (s : State) : Host.Outcome State Fault Refusal :=
  match i with
  | .add d a b => Sys2Proof.Machine.execAdd d a b s
  | .sub d a b => Sys2Proof.Machine.execSub d a b s
  | .mul d a b => Sys2Proof.Machine.execMul d a b s
  | .mulh d a b => Sys2Proof.Machine.execMulh d a b s
  | .mulhu d a b => Sys2Proof.Machine.execMulhu d a b s
  | .div d a b => Sys2Proof.Machine.execDiv d a b s
  | .divu d a b => Sys2Proof.Machine.execDivu d a b s
  | .rem d a b => Sys2Proof.Machine.execRem d a b s
  | .remu d a b => Sys2Proof.Machine.execRemu d a b s
  | .and d a b => Sys2Proof.Machine.execAnd d a b s
  | .or d a b => Sys2Proof.Machine.execOr d a b s
  | .xor d a b => Sys2Proof.Machine.execXor d a b s
  | .andn d a b => Sys2Proof.Machine.execAndn d a b s
  | .shl d a b => Sys2Proof.Machine.execShl d a b s
  | .shr d a b => Sys2Proof.Machine.execShr d a b s
  | .sar d a b => Sys2Proof.Machine.execSar d a b s
  | .rol d a b => Sys2Proof.Machine.execRol d a b s
  | .ror d a b => Sys2Proof.Machine.execRor d a b s
  | .min d a b => Sys2Proof.Machine.execMin d a b s
  | .max d a b => Sys2Proof.Machine.execMax d a b s
  | .minu d a b => Sys2Proof.Machine.execMinu d a b s
  | .maxu d a b => Sys2Proof.Machine.execMaxu d a b s
  | .addI d a imm => Sys2Proof.Machine.execAddI d a imm s
  | .mulI d a imm => Sys2Proof.Machine.execMulI d a imm s
  | .andI d a imm => Sys2Proof.Machine.execAndI d a imm s
  | .orI d a imm => Sys2Proof.Machine.execOrI d a imm s
  | .xorI d a imm => Sys2Proof.Machine.execXorI d a imm s
  | .shlI d a n => Sys2Proof.Machine.execShlI d a n s
  | .shrI d a n => Sys2Proof.Machine.execShrI d a n s
  | .sarI d a n => Sys2Proof.Machine.execSarI d a n s
  | .rolI d a n => Sys2Proof.Machine.execRolI d a n s
  | .rorI d a n => Sys2Proof.Machine.execRorI d a n s
  | .li d imm => Sys2Proof.Machine.execLi d imm s
  | .bext d a w pos => Sys2Proof.Machine.execBext d a w pos s
  | .bextu d a w pos => Sys2Proof.Machine.execBextu d a w pos s
  | .bins d a w pos => Sys2Proof.Machine.execBins d a w pos s
  | .mov d a => Sys2Proof.Machine.execMov d a s
  | .popc d a => Sys2Proof.Machine.execPopc d a s
  | .clz d a => Sys2Proof.Machine.execClz d a s
  | .ctz d a => Sys2Proof.Machine.execCtz d a s
  | .brev d a => Sys2Proof.Machine.execBrev d a s
  | .abs d a => Sys2Proof.Machine.execAbs d a s
  | .sext8 d a => Sys2Proof.Machine.execSext8 d a s
  | .sext16 d a => Sys2Proof.Machine.execSext16 d a s
  | .sext32 d a => Sys2Proof.Machine.execSext32 d a s
  | .zext8 d a => Sys2Proof.Machine.execZext8 d a s
  | .zext16 d a => Sys2Proof.Machine.execZext16 d a s
  | .zext32 d a => Sys2Proof.Machine.execZext32 d a s
  | .atx d a => Sys2Proof.Machine.execAtx d a s
  | .rdtime d => Sys2Proof.Machine.execRdtime d s
  | .cmp cc d a b => Sys2Proof.Machine.execCmp cc d a b s
  | .pand d a b => Sys2Proof.Machine.execPand d a b s
  | .por d a b => Sys2Proof.Machine.execPor d a b s
  | .pnot d a => Sys2Proof.Machine.execPnot d a s
  | .sel d p a b => Sys2Proof.Machine.execSel d p a b s
  | .fcmp cc fmt d a b => Sys2Proof.Machine.execFcmp cc fmt d a b s
  | .fcvt dst src d a => Sys2Proof.Machine.execFcvt dst src d a s
  | .lea d a b sh => Sys2Proof.Machine.execLea d a b sh s
  | .fshl d a b n => Sys2Proof.Machine.execFshl d a b n s
  | .fshr d a b n => Sys2Proof.Machine.execFshr d a b n s
  | .crr d r => Sys2Proof.Machine.execCrr d r s
  | .crw r a => Sys2Proof.Machine.execCrw r a s
  | .wait mask => Sys2Proof.Machine.execWait mask s
  | .trap code => Sys2Proof.Machine.execTrap code s
  | .hint code d a b => Sys2Proof.Machine.execHint code d a b s
  | .nop => Sys2Proof.Machine.execNop s
  | .faddF32 d a b => Sys2Proof.Machine.execFaddF32 d a b s
  | .fsubF32 d a b => Sys2Proof.Machine.execFsubF32 d a b s
  | .fmulF32 d a b => Sys2Proof.Machine.execFmulF32 d a b s
  | .fdivF32 d a b => Sys2Proof.Machine.execFdivF32 d a b s
  | .fminF32 d a b => Sys2Proof.Machine.execFminF32 d a b s
  | .fmaxF32 d a b => Sys2Proof.Machine.execFmaxF32 d a b s
  | .fsqrtF32 d a => Sys2Proof.Machine.execFsqrtF32 d a s
  | .fabsF32 d a => Sys2Proof.Machine.execFabsF32 d a s
  | .fnegF32 d a => Sys2Proof.Machine.execFnegF32 d a s
  | .fclassF32 d a => Sys2Proof.Machine.execFclassF32 d a s
  | .fsinF32 d a => Sys2Proof.Machine.execFsinF32 d a s
  | .fcosF32 d a => Sys2Proof.Machine.execFcosF32 d a s
  | .fexp2F32 d a => Sys2Proof.Machine.execFexp2F32 d a s
  | .flog2F32 d a => Sys2Proof.Machine.execFlog2F32 d a s
  | .frcpF32 d a => Sys2Proof.Machine.execFrcpF32 d a s
  | .frsqF32 d a => Sys2Proof.Machine.execFrsqF32 d a s
  | .ffmaF32 d a b => Sys2Proof.Machine.execFfmaF32 d a b s
  | .faddF16 d a b => Sys2Proof.Machine.execFaddF16 d a b s
  | .fsubF16 d a b => Sys2Proof.Machine.execFsubF16 d a b s
  | .fmulF16 d a b => Sys2Proof.Machine.execFmulF16 d a b s
  | .fdivF16 d a b => Sys2Proof.Machine.execFdivF16 d a b s
  | .fminF16 d a b => Sys2Proof.Machine.execFminF16 d a b s
  | .fmaxF16 d a b => Sys2Proof.Machine.execFmaxF16 d a b s
  | .fsqrtF16 d a => Sys2Proof.Machine.execFsqrtF16 d a s
  | .fabsF16 d a => Sys2Proof.Machine.execFabsF16 d a s
  | .fnegF16 d a => Sys2Proof.Machine.execFnegF16 d a s
  | .fclassF16 d a => Sys2Proof.Machine.execFclassF16 d a s
  | .fsinF16 d a => Sys2Proof.Machine.execFsinF16 d a s
  | .fcosF16 d a => Sys2Proof.Machine.execFcosF16 d a s
  | .fexp2F16 d a => Sys2Proof.Machine.execFexp2F16 d a s
  | .flog2F16 d a => Sys2Proof.Machine.execFlog2F16 d a s
  | .frcpF16 d a => Sys2Proof.Machine.execFrcpF16 d a s
  | .frsqF16 d a => Sys2Proof.Machine.execFrsqF16 d a s
  | .ffmaF16 d a b => Sys2Proof.Machine.execFfmaF16 d a b s
  | .faddBF16 d a b => Sys2Proof.Machine.execFaddBF16 d a b s
  | .fsubBF16 d a b => Sys2Proof.Machine.execFsubBF16 d a b s
  | .fmulBF16 d a b => Sys2Proof.Machine.execFmulBF16 d a b s
  | .fdivBF16 d a b => Sys2Proof.Machine.execFdivBF16 d a b s
  | .fminBF16 d a b => Sys2Proof.Machine.execFminBF16 d a b s
  | .fmaxBF16 d a b => Sys2Proof.Machine.execFmaxBF16 d a b s
  | .fsqrtBF16 d a => Sys2Proof.Machine.execFsqrtBF16 d a s
  | .fabsBF16 d a => Sys2Proof.Machine.execFabsBF16 d a s
  | .fnegBF16 d a => Sys2Proof.Machine.execFnegBF16 d a s
  | .fclassBF16 d a => Sys2Proof.Machine.execFclassBF16 d a s
  | .fsinBF16 d a => Sys2Proof.Machine.execFsinBF16 d a s
  | .fcosBF16 d a => Sys2Proof.Machine.execFcosBF16 d a s
  | .fexp2BF16 d a => Sys2Proof.Machine.execFexp2BF16 d a s
  | .flog2BF16 d a => Sys2Proof.Machine.execFlog2BF16 d a s
  | .frcpBF16 d a => Sys2Proof.Machine.execFrcpBF16 d a s
  | .frsqBF16 d a => Sys2Proof.Machine.execFrsqBF16 d a s
  | .ffmaBF16 d a b => Sys2Proof.Machine.execFfmaBF16 d a b s
  | .ldS8 slot off base d => Sys2Proof.Machine.execLdS8 slot off base d s
  | .ldU8 slot off base d => Sys2Proof.Machine.execLdU8 slot off base d s
  | .ldS16 slot off base d => Sys2Proof.Machine.execLdS16 slot off base d s
  | .ldU16 slot off base d => Sys2Proof.Machine.execLdU16 slot off base d s
  | .ldS32 slot off base d => Sys2Proof.Machine.execLdS32 slot off base d s
  | .ldU32 slot off base d => Sys2Proof.Machine.execLdU32 slot off base d s
  | .ld64 slot off base d => Sys2Proof.Machine.execLd64 slot off base d s
  | .st8 slot off base v => Sys2Proof.Machine.execSt8 slot off base v s
  | .st16 slot off base v => Sys2Proof.Machine.execSt16 slot off base v s
  | .st32 slot off base v => Sys2Proof.Machine.execSt32 slot off base v s
  | .st64 slot off base v => Sys2Proof.Machine.execSt64 slot off base v s
  | .ldl8 slot off base d => Sys2Proof.Machine.execLdl8 slot off base d s
  | .ldl16 slot off base d => Sys2Proof.Machine.execLdl16 slot off base d s
  | .ldl32 slot off base d => Sys2Proof.Machine.execLdl32 slot off base d s
  | .ldl64 slot off base d => Sys2Proof.Machine.execLdl64 slot off base d s
  | .stl8 slot off base v => Sys2Proof.Machine.execStl8 slot off base v s
  | .stl16 slot off base v => Sys2Proof.Machine.execStl16 slot off base v s
  | .stl32 slot off base v => Sys2Proof.Machine.execStl32 slot off base v s
  | .stl64 slot off base v => Sys2Proof.Machine.execStl64 slot off base v s
  | .ldfeC slot off base d => Sys2Proof.Machine.execLdfeC slot off base d s
  | .ldfeK slot off base d => Sys2Proof.Machine.execLdfeK slot off base d s
  | .stfe slot off base v => Sys2Proof.Machine.execStfe slot off base v s
  | .femarkE slot off base n => Sys2Proof.Machine.execFemarkE slot off base n s
  | .femarkF slot off base n => Sys2Proof.Machine.execFemarkF slot off base n s
  | .pref slot off base l2 => Sys2Proof.Machine.execPref slot off base l2 s
  | .fence slot scope => Sys2Proof.Machine.execFence slot scope s
  | .czfence slot off base len => Sys2Proof.Machine.execCzfence slot off base len s
  | .cbload slot off base d => Sys2Proof.Machine.execCbload slot off base d s
  | .czstat slot off base d => Sys2Proof.Machine.execCzstat slot off base d s
  | .j off base => Sys2Proof.Machine.execJ off base s
  | .ret => Sys2Proof.Machine.execRet s
  | .b off neg p => Sys2Proof.Machine.execB off neg p s
  | .bp off neg p => Sys2Proof.Machine.execBp off neg p s
  | .call off => Sys2Proof.Machine.execCall off s
  | .loop off j => Sys2Proof.Machine.execLoop off j s
  | .longForm m => Sys2Proof.Machine.execLongForm m s
  | .vadd m fmt d a b => Sys2Proof.Machine.execVadd m fmt d a b s
  | .vsub m fmt d a b => Sys2Proof.Machine.execVsub m fmt d a b s
  | .vmul m fmt d a b => Sys2Proof.Machine.execVmul m fmt d a b s
  | .vfma m fmt d a b => Sys2Proof.Machine.execVfma m fmt d a b s
  | .vdiv m fmt d a b => Sys2Proof.Machine.execVdiv m fmt d a b s
  | .vsqrt m fmt d a => Sys2Proof.Machine.execVsqrt m fmt d a s
  | .vmin m fmt d a b => Sys2Proof.Machine.execVmin m fmt d a b s
  | .vmax m fmt d a b => Sys2Proof.Machine.execVmax m fmt d a b s
  | .vand m fmt d a b => Sys2Proof.Machine.execVand m fmt d a b s
  | .vor m fmt d a b => Sys2Proof.Machine.execVor m fmt d a b s
  | .vxor m fmt d a b => Sys2Proof.Machine.execVxor m fmt d a b s
  | .vshl m fmt d a b => Sys2Proof.Machine.execVshl m fmt d a b s
  | .vshr m fmt d a b => Sys2Proof.Machine.execVshr m fmt d a b s
  | .vfsh m fmt d a b => Sys2Proof.Machine.execVfsh m fmt d a b s
  | .vbext m fmt d a b => Sys2Proof.Machine.execVbext m fmt d a b s
  | .vpopc m fmt d a => Sys2Proof.Machine.execVpopc m fmt d a s
  | .vclz m fmt d a => Sys2Proof.Machine.execVclz m fmt d a s
  | .vsel k d a b => Sys2Proof.Machine.execVsel k d a b s
  | .vbcast m d a => Sys2Proof.Machine.execVbcast m d a s
  | .vextr d a b => Sys2Proof.Machine.execVextr d a b s
  | .vins d a b => Sys2Proof.Machine.execVins d a b s
  | .vneigh m d a p dist => Sys2Proof.Machine.execVneigh m d a p dist s
  | .vlut m d a b => Sys2Proof.Machine.execVlut m d a b s
  | .vperm m d a b => Sys2Proof.Machine.execVperm m d a b s
  | .vsfnSin m fmt d a => Sys2Proof.Machine.execVsfnSin m fmt d a s
  | .vsfnCos m fmt d a => Sys2Proof.Machine.execVsfnCos m fmt d a s
  | .vsfnExp2 m fmt d a => Sys2Proof.Machine.execVsfnExp2 m fmt d a s
  | .vsfnLog2 m fmt d a => Sys2Proof.Machine.execVsfnLog2 m fmt d a s
  | .vsfnRcp m fmt d a => Sys2Proof.Machine.execVsfnRcp m fmt d a s
  | .vsfnRsq m fmt d a => Sys2Proof.Machine.execVsfnRsq m fmt d a s
  | .vcmp m fmt cc d a b => Sys2Proof.Machine.execVcmp m fmt cc d a b s
  | .vcvt m dst src d a => Sys2Proof.Machine.execVcvt m dst src d a s
  | .vredAdd m fmt d a => Sys2Proof.Machine.execVredAdd m fmt d a s
  | .vredMin m fmt d a => Sys2Proof.Machine.execVredMin m fmt d a s
  | .vredMax m fmt d a => Sys2Proof.Machine.execVredMax m fmt d a s
  | .vredAnd m fmt d a => Sys2Proof.Machine.execVredAnd m fmt d a s
  | .vredOr m fmt d a => Sys2Proof.Machine.execVredOr m fmt d a s
  | .vredXor m fmt d a => Sys2Proof.Machine.execVredXor m fmt d a s
  | .vscanAdd m fmt d a => Sys2Proof.Machine.execVscanAdd m fmt d a s
  | .vscanMin m fmt d a => Sys2Proof.Machine.execVscanMin m fmt d a s
  | .vscanMax m fmt d a => Sys2Proof.Machine.execVscanMax m fmt d a s
  | .vscanAnd m fmt d a => Sys2Proof.Machine.execVscanAnd m fmt d a s
  | .vscanOr m fmt d a => Sys2Proof.Machine.execVscanOr m fmt d a s
  | .vscanXor m fmt d a => Sys2Proof.Machine.execVscanXor m fmt d a s
  | .kopAnd d a b => Sys2Proof.Machine.execKopAnd d a b s
  | .kopOr d a b => Sys2Proof.Machine.execKopOr d a b s
  | .kopXor d a b => Sys2Proof.Machine.execKopXor d a b s
  | .kopAndn d a b => Sys2Proof.Machine.execKopAndn d a b s
  | .kopNot d a => Sys2Proof.Machine.execKopNot d a s
  | .kpopc d a => Sys2Proof.Machine.execKpopc d a s
  | .vclaim d q => Sys2Proof.Machine.execVclaim d q s
  | .vrel => Sys2Proof.Machine.execVrel s
  | .vld m fmt slot off base d => Sys2Proof.Machine.execVld m fmt slot off base d s
  | .vst m fmt slot off base d => Sys2Proof.Machine.execVst m fmt slot off base d s
  | .vldx m fmt slot idx base d => Sys2Proof.Machine.execVldx m fmt slot idx base d s
  | .vstx m fmt slot idx base d => Sys2Proof.Machine.execVstx m fmt slot idx base d s
  | .lda size scope slot off base d => Sys2Proof.Machine.execLda size scope slot off base d s
  | .strl size scope slot off base v => Sys2Proof.Machine.execStrl size scope slot off base v s
  | .amo32Add scope slot off base d => Sys2Proof.Machine.execAmo32Add scope slot off base d s
  | .amo32Fadd scope slot off base d => Sys2Proof.Machine.execAmo32Fadd scope slot off base d s
  | .amo32Min scope slot off base d => Sys2Proof.Machine.execAmo32Min scope slot off base d s
  | .amo32Max scope slot off base d => Sys2Proof.Machine.execAmo32Max scope slot off base d s
  | .amo32And scope slot off base d => Sys2Proof.Machine.execAmo32And scope slot off base d s
  | .amo32Or scope slot off base d => Sys2Proof.Machine.execAmo32Or scope slot off base d s
  | .amo32Xor scope slot off base d => Sys2Proof.Machine.execAmo32Xor scope slot off base d s
  | .amo32Swap scope slot off base d => Sys2Proof.Machine.execAmo32Swap scope slot off base d s
  | .amo64Add scope slot off base d => Sys2Proof.Machine.execAmo64Add scope slot off base d s
  | .amo64Min scope slot off base d => Sys2Proof.Machine.execAmo64Min scope slot off base d s
  | .amo64Max scope slot off base d => Sys2Proof.Machine.execAmo64Max scope slot off base d s
  | .amo64And scope slot off base d => Sys2Proof.Machine.execAmo64And scope slot off base d s
  | .amo64Or scope slot off base d => Sys2Proof.Machine.execAmo64Or scope slot off base d s
  | .amo64Xor scope slot off base d => Sys2Proof.Machine.execAmo64Xor scope slot off base d s
  | .amo64Swap scope slot off base d => Sys2Proof.Machine.execAmo64Swap scope slot off base d s
  | .cas is64 scope slot off base j => Sys2Proof.Machine.execCas is64 scope slot off base j s
  | .mmaNew la lb d a b => Sys2Proof.Machine.execMmaNew la lb d a b s
  | .mmaAcc la lb d a b => Sys2Proof.Machine.execMmaAcc la lb d a b s
  | .mgangNew la lb d a b => Sys2Proof.Machine.execMgangNew la lb d a b s
  | .mgangAcc la lb d a b => Sys2Proof.Machine.execMgangAcc la lb d a b s
  | .mzero d => Sys2Proof.Machine.execMzero d s
  | .mepi d a b => Sys2Proof.Machine.execMepi d a b s
  | .mwait => Sys2Proof.Machine.execMwait s
  | .mprio a => Sys2Proof.Machine.execMprio a s
  | .chbond d a => Sys2Proof.Machine.execChbond d a s
  | .chload a => Sys2Proof.Machine.execChload a s
  | .chrun d a b => Sys2Proof.Machine.execChrun d a b s
  | .chstep d a b => Sys2Proof.Machine.execChstep d a b s
  | .chwait d => Sys2Proof.Machine.execChwait d s
  | .enq d j b => Sys2Proof.Machine.execEnq d j b s
  | .jpoll d a => Sys2Proof.Machine.execJpoll d a s
  | .jwait d a => Sys2Proof.Machine.execJwait d a s
  | .jcancel d a => Sys2Proof.Machine.execJcancel d a s
  | .pcfg d a => Sys2Proof.Machine.execPcfg d a s
  | .ptry d a p => Sys2Proof.Machine.execPtry d a p s
  | .ptrys d a p => Sys2Proof.Machine.execPtrys d a p s
  | .rqres d a p => Sys2Proof.Machine.execRqres d a p s
  | .rqpub a b => Sys2Proof.Machine.execRqpub a b s
  | .rqtake d a p => Sys2Proof.Machine.execRqtake d a p s
  | .rqdone a b => Sys2Proof.Machine.execRqdone a b s
  | .dqbind d a b => Sys2Proof.Machine.execDqbind d a b s
  | .dqpush d a b => Sys2Proof.Machine.execDqpush d a b s
  | .dqpop d a b => Sys2Proof.Machine.execDqpop d a b s
  | .dqcons a => Sys2Proof.Machine.execDqcons a s
  | .dqarr d a b => Sys2Proof.Machine.execDqarr d a b s
  | .dqlook d a b => Sys2Proof.Machine.execDqlook d a b s
  | .dqadv d a b => Sys2Proof.Machine.execDqadv d a b s
  | .dqfront d a => Sys2Proof.Machine.execDqfront d a s
  | .dqwait a b => Sys2Proof.Machine.execDqwait a b s
  | .srfence a => Sys2Proof.Machine.execSrfence a s
  | .bar scope => Sys2Proof.Machine.execBar scope s
  | .bara scope d => Sys2Proof.Machine.execBara scope d s
  | .barw scope a => Sys2Proof.Machine.execBarw scope a s
  | .fresume d a => Sys2Proof.Machine.execFresume d a s
  | .ptfence a b => Sys2Proof.Machine.execPtfence a b s
  | .recbeg d a b => Sys2Proof.Machine.execRecbeg d a b s
  | .recend a => Sys2Proof.Machine.execRecend a s
  | .rplbeg d a => Sys2Proof.Machine.execRplbeg d a s
  | .rplend a => Sys2Proof.Machine.execRplend a s
  | .rerecord a => Sys2Proof.Machine.execRerecord a s
  | .rerecordFree a => Sys2Proof.Machine.execRerecordFree a s
  | .recstat d a => Sys2Proof.Machine.execRecstat d a s
  | .egopen d a b => Sys2Proof.Machine.execEgopen d a b s
  | .egins d a => Sys2Proof.Machine.execEgins d a s
  | .egmrg d a b => Sys2Proof.Machine.execEgmrg d a b s
  | .egfind d a => Sys2Proof.Machine.execEgfind d a s
  | .egsame d a b => Sys2Proof.Machine.execEgsame d a b s
  | .egsync a => Sys2Proof.Machine.execEgsync a s
  | .egnode d a b => Sys2Proof.Machine.execEgnode d a b s
  | .egclass d a b => Sys2Proof.Machine.execEgclass d a b s
  | .egmatch d a => Sys2Proof.Machine.execEgmatch d a s
  | .egnext d a => Sys2Proof.Machine.execEgnext d a s
  | .egchk d a => Sys2Proof.Machine.execEgchk d a s
  | .egcost d a b => Sys2Proof.Machine.execEgcost d a b s
  | .egextr d a => Sys2Proof.Machine.execEgextr d a s
  | .launch d a => Sys2Proof.Machine.execLaunch d a s
  | .dnext d => Sys2Proof.Machine.execDnext d s
  | .hstart d a b => Sys2Proof.Machine.execHstart d a b s
  | .hexit a => Sys2Proof.Machine.execHexit a s
  | .hjoin d a => Sys2Proof.Machine.execHjoin d a s
  | .gfuse d a => Sys2Proof.Machine.execGfuse d a s
  | .gsplit => Sys2Proof.Machine.execGsplit s
  | .tknew d a => Sys2Proof.Machine.execTknew d a s
  | .tkdep d a b => Sys2Proof.Machine.execTkdep d a b s
  | .tkrel d a => Sys2Proof.Machine.execTkrel d a s
  | .tkdone d a b => Sys2Proof.Machine.execTkdone d a b s
  | .ftnew d a b => Sys2Proof.Machine.execFtnew d a b s
  | .ftsetReady d a j => Sys2Proof.Machine.execFtsetReady d a j s
  | .ftsetPoison d a j => Sys2Proof.Machine.execFtsetPoison d a j s
  | .ftsetFree d a j => Sys2Proof.Machine.execFtsetFree d a j s
  | .ftget d a p => Sys2Proof.Machine.execFtget d a p s
  | .yieldRef d => Sys2Proof.Machine.execYieldRef d s
  | .park d a => Sys2Proof.Machine.execPark d a s
  | .wake d a => Sys2Proof.Machine.execWake d a s
  | .ctrdTimestamp d a => Sys2Proof.Machine.execCtrdTimestamp d a s
  | .ctrdSlot d a => Sys2Proof.Machine.execCtrdSlot d a s
  | .ctrdVc d a => Sys2Proof.Machine.execCtrdVc d a s
  | .ctrdVd d a => Sys2Proof.Machine.execCtrdVd d a s
  | .ctrdNeighbour d a => Sys2Proof.Machine.execCtrdNeighbour d a s
  | .pmrd d a => Sys2Proof.Machine.execPmrd d a s
  | .upret a => Sys2Proof.Machine.execUpret a s
  | .upretContinue a => Sys2Proof.Machine.execUpretContinue a s
  | .fraiseUpcall a b => Sys2Proof.Machine.execFraiseUpcall a b s
  | .fraiseFreeze a b => Sys2Proof.Machine.execFraiseFreeze a b s
  | .scoreboardDecrement f id => Sys2Proof.Machine.execScoreboardDecrement f id s
  | .pushArrival n => Sys2Proof.Machine.execPushArrival n s
  | .sweeperVisit l2 cu slice => Sys2Proof.Machine.execSweeperVisit l2 cu slice s
  | .heatSample die slice frame => Sys2Proof.Machine.execHeatSample die slice frame s
  | .heatDecayEpoch die slice => Sys2Proof.Machine.execHeatDecayEpoch die slice s
  | .lsPortPassover core source => Sys2Proof.Machine.execLsPortPassover core source s
  | .dispatchPassover die => Sys2Proof.Machine.execDispatchPassover die s
  | .hintPauseEnd f => Sys2Proof.Machine.execHintPauseEnd f s
  | .dispatchStep die => Sys2Proof.Machine.execDispatchStep die s
  | .freeSlotAdvert die fromDie slots => Sys2Proof.Machine.execFreeSlotAdvert die fromDie slots s
  | .teamMigration team die => Sys2Proof.Machine.execTeamMigration team die s
  | .gangForm core size => Sys2Proof.Machine.execGangForm core size s
  | .portWordDelivery f => Sys2Proof.Machine.execPortWordDelivery f s
  | .ptryTimeout f => Sys2Proof.Machine.execPtryTimeout f s
  | .ptrysTimeout f => Sys2Proof.Machine.execPtrysTimeout f s
  | .vneighTimeout f => Sys2Proof.Machine.execVneighTimeout f s
  | .parkTimeout f => Sys2Proof.Machine.execParkTimeout f s
  | .ringHole n => Sys2Proof.Machine.execRingHole n s
  | .watchdog f => Sys2Proof.Machine.execWatchdog f s
  | .matrixJobAccept f => Sys2Proof.Machine.execMatrixJobAccept f s
  | .kstepBoundary core => Sys2Proof.Machine.execKstepBoundary core s
  | .huddleOpen clu tag => Sys2Proof.Machine.execHuddleOpen clu tag s
  | .epilogueDrain core => Sys2Proof.Machine.execEpilogueDrain core s
  | .chainRunStart clu => Sys2Proof.Machine.execChainRunStart clu s
  | .chainLoad clu => Sys2Proof.Machine.execChainLoad clu s
  | .chainAbsorb clu => Sys2Proof.Machine.execChainAbsorb clu s
  | .chainEmit clu => Sys2Proof.Machine.execChainEmit clu s
  | .chainPerm clu => Sys2Proof.Machine.execChainPerm clu s
  | .chainEnd clu => Sys2Proof.Machine.execChainEnd clu s
  | .jobStart clu => Sys2Proof.Machine.execJobStart clu s
  | .copyJob clu q => Sys2Proof.Machine.execCopyJob clu q s
  | .fillJob clu q => Sys2Proof.Machine.execFillJob clu q s
  | .gatherJob clu q => Sys2Proof.Machine.execGatherJob clu q s
  | .scatterJob clu q => Sys2Proof.Machine.execScatterJob clu q s
  | .postJob clu q => Sys2Proof.Machine.execPostJob clu q s
  | .allReduce clu q => Sys2Proof.Machine.execAllReduce clu q s
  | .allGather clu q => Sys2Proof.Machine.execAllGather clu q s
  | .reduceScatter clu q => Sys2Proof.Machine.execReduceScatter clu q s
  | .broadcast clu q => Sys2Proof.Machine.execBroadcast clu q s
  | .collectiveStart clu q peers => Sys2Proof.Machine.execCollectiveStart clu q peers s
  | .jobCompletion clu q => Sys2Proof.Machine.execJobCompletion clu q s
  | .invocationCreate n => Sys2Proof.Machine.execInvocationCreate n s
  | .heapUnion h => Sys2Proof.Machine.execHeapUnion h s
  | .heapAdopt h => Sys2Proof.Machine.execHeapAdopt h s
  | .heapRehash h => Sys2Proof.Machine.execHeapRehash h s
  | .matcherDeliver f => Sys2Proof.Machine.execMatcherDeliver f s
  | .replayAttempt die slice entry => Sys2Proof.Machine.execReplayAttempt die slice entry s
  | .resumeNotice die slice entry => Sys2Proof.Machine.execResumeNotice die slice entry s
  | .upcallDelivery f => Sys2Proof.Machine.execUpcallDelivery f s
  | .collectorCopy asid => Sys2Proof.Machine.execCollectorCopy asid s
  | .sectorFree asid => Sys2Proof.Machine.execSectorFree asid s
  | .moveDoorbell die addr => Sys2Proof.Machine.execMoveDoorbell die addr s
  | .frameMove die => Sys2Proof.Machine.execFrameMove die s
  | .copyWhileWritable die => Sys2Proof.Machine.execCopyWhileWritable die s
  | .debugResume core => Sys2Proof.Machine.execDebugResume core s
  | .debugFence core => Sys2Proof.Machine.execDebugFence core s
  | .debugKillFrame core => Sys2Proof.Machine.execDebugKillFrame core s
  | .debugKillCore core => Sys2Proof.Machine.execDebugKillCore core s
  | .debugPcWrite core epc v => Sys2Proof.Machine.execDebugPcWrite core epc v s
  | .debugLsdataAccess core v => Sys2Proof.Machine.execDebugLsdataAccess core v s
  | .deviceRegisterWrite pa v => Sys2Proof.Machine.execDeviceRegisterWrite pa v s
  | .preemptSchedule t next => Sys2Proof.Machine.execPreemptSchedule t next s
  | .partitionHalt => Sys2Proof.Machine.execPartitionHalt s
  | .partitionResume => Sys2Proof.Machine.execPartitionResume s
  | .freezeSignal => Sys2Proof.Machine.execFreezeSignal s
  | .thermalTrip die => Sys2Proof.Machine.execThermalTrip die s
  | .powerCapSet watts => Sys2Proof.Machine.execPowerCapSet watts s
  | .bringUp => Sys2Proof.Machine.execBringUp s
  | .functionLevelReset => Sys2Proof.Machine.execFunctionLevelReset s
  | .attestationRequest nonce => Sys2Proof.Machine.execAttestationRequest nonce s
  | .hostWrite pa v => Sys2Proof.Machine.execHostWrite pa v s
  | .hostRead pa n => Sys2Proof.Machine.execHostRead pa n s
  | .hostSnoop pa => Sys2Proof.Machine.execHostSnoop pa s
  | .poolLinkFail port => Sys2Proof.Machine.execPoolLinkFail port s
  | .crirasPlaneFail plane => Sys2Proof.Machine.execCrirasPlaneFail plane s
  | .unassignedEncoding w => Sys2Proof.Machine.execUnassignedEncoding w s
  | .correctedSoftError die => Sys2Proof.Machine.execCorrectedSoftError die s
  | .poisonedLine pa => Sys2Proof.Machine.execPoisonedLine pa s
  | .unitUncorrectableError u => Sys2Proof.Machine.execUnitUncorrectableError u s
  | .remoteHomeRequest pa r => Sys2Proof.Machine.execRemoteHomeRequest pa r s
  | .poolAgentWrite pa v => Sys2Proof.Machine.execPoolAgentWrite pa v s
  | .supplyRemoval => Sys2Proof.Machine.execSupplyRemoval s

end Sys2Proof.Machine
end

