-- ==== Sys2Proof/Machine/Issue.lean ====
section
/-! DEFINITION. Fetching and issuing an instruction, gangs, and retrying what waits (R20, R55, R61, R69, R336). -/

namespace Sys2Proof.Machine

open Sys2Proof

/-! Fetch. -/

/-- One word of an instruction at a virtual address, through the translation of its slice, from its home; the first of its line counts as a read of
the line (R359). -/
def State.fetchWord (s : State) (f : Nat) (va : Nat) (first : Bool) : MR Nat :=
  let c := s.ctx f
  let r := c.req f 2
  match s.translate r.die (s.served r.die (sliceOf va)) r.asid va r.need with
  | .error e => .error e
  | .ok (t, s) =>
    if t.comp then
      match s.readBlock r.asid t.cb t.pa with
      | .error e => .error e
      | .ok none => .error .poison
      | .ok (some b) => .ok (wordOfBytes ((b.drop (va % 4096)).take 4), if first then s.tickBlock r.asid t.pa else s)
    else
      match s.paFault r.user t.pa with
      | some e => s.orDevRead va 4 (.error e)
      | none => if s.poison.contains (t.pa / 64) then .error .poison else .ok (s.homeRead t.pa 4, if first then s.heatTick (t.pa / 64 * 64) else s)

/-- The words of the instruction at an address: the first, and the further ones its length asks for. A failure names its address. -/
def State.fetchAt (s : State) (f va : Nat) : Except (MFault × Nat) ((Nat × Nat × Nat) × State) :=
  match s.fetchWord f va true with
  | .error e => .error (e, va)
  | .ok (w0, s) =>
    let n := lengthOf w0
    if n = 4 then .ok ((w0, 0, 0), s)
    else
      match s.fetchWord f (va + 4) ((va + 4) % 64 == 0) with
      | .error e => .error (e, va + 4)
      | .ok (w1, s) =>
        if n = 8 then .ok ((w0, w1, 0), s)
        else
          match s.fetchWord f (va + 8) ((va + 8) % 64 == 0) with
          | .error e => .error (e, va + 8)
          | .ok (w2, s) => .ok ((w0, w1, w2), s)

/-- The words of the instruction at a context's pc. -/
def State.fetch (s : State) (f : Nat) : Except (MFault × Nat) ((Nat × Nat × Nat) × State) := s.fetchAt f (s.ctx f).pc.toNat

/-- A fetch fails: a replayable fault holds the fetch, for which the context waits, and another freezes (R196). -/
def State.fetchFail (s : State) (f : Nat) (e : MFault) (va : Nat) : State :=
  let c := s.ctx f
  let a : Access := { aid := s.nextId, slot := none, pc := c.pc, ea := .ofNat 64 va, asid := c.asid, op := .fetch, inHandler := c.st.upc, held := false,
                      back := false, done := 0, got := 0, recNo := none, work := none }
  let s := s.onFrame f fun t => (t.mapC fun c => { c with cur := none, npc := c.pc, mods := Mods.none }).stall
  (s.newId.mapCtx f fun c => { c with acc := c.acc ++ [a] }).accFault f a e va

/-! Issue. -/

/-- An instruction of the selected context, through its wrapper when it has a second word (R61). -/
noncomputable def runInstr (m : Mods) (i : Instr) (s : State) : Out :=
  if m = Mods.none then exec i s
  else
    match exec (.longForm m) s with
    | .next s => if s.c.go then exec i (s.mapC fun c => { c with go := false }) else .next s
    | r => r

/-- The instruction of a frame must wait for a register (R59): for the predicate of its guard, or, where its guard is true, for a register it
names. Nothing is read before the wait mask is clear (R61). One of the access stream waits for one that stalls at issue before it. -/
def State.blocked (s : State) (f : Nat) (m : Mods) (i : Instr) : Bool :=
  let s := s.select f
  (accessStream i && s.c.accessStalled) || (s.c.maskClear m.wmask && (s.awaitsP m.gp || (s.c.getP m.gp != m.gn && !s.interlock i)))

/-- What HINT 2 and HINT 3 say of the next B in program order, after an instruction (R119). -/
def hintStep (h : Option Bool) : Instr → Option Bool
  | .hint code _ _ _ => if code = 2 then some true else if code = 3 then some false else h
  | .b _ _ _ => none
  | _ => h

/-- The selected context holds the instruction it issues, and the address after it. -/
def Ctx.begin (c : Ctx) (m : Mods) (i : Instr) (len deadline : Nat) : Ctx :=
  { c with npc := c.pc + .ofNat 64 len, cur := some i, mods := m, pause := 0, deadline := deadline, yielded := false, hinted := hintStep c.hinted i }

/-- A cycle of a core has passed in which those of its contexts that had yielded were not issued (R355). -/
def State.unyield (s : State) (core : Nat) : State :=
  ((framesOf core).filter fun g => (s.ctx g).yielded).foldl (fun s g => s.mapCtx g fun c => { c with yielded := false }) s

/-- The state in which frame f's instruction runs: the frame is selected, holds the instruction, and its core counts it (R362). -/
def State.issued (s : State) (f : Nat) (m : Mods) (i : Instr) (len : Nat) : State :=
  let t := ((s.unyield (coreOf f)).select f).mapC fun c => c.begin m i len (s.nextDeadline f)
  t.mapCore t.myCore fun k => { k with pIssued := sat48 k.pIssued 1 }

/-- Frame f's instruction has been tried from s, and counts as issued only if it has issued (R362): `issued` has counted it. -/
def State.countFirst (s t : State) (f : Nat) : State :=
  if (t.ctx f).toIssue then t.mapCore (coreOf f) fun k => { k with pIssued := (s.core (coreOf f)).pIssued } else t

/-- Frame f issues an instruction from its pc. -/
noncomputable def issueInstr (f : Nat) (m : Mods) (i : Instr) (len : Nat) (s : State) : Out :=
  match runInstr m i (s.issued f m i len) with
  | .next t => .next (s.countFirst t f)
  | r => r

/-- Is the instruction one whose direction the leader alone computes, and which writes no register (R20)? -/
def leaderOnly : Instr → Bool
  | .j _ _ | .ret | .b _ _ _ | .bp _ _ _ | .gsplit => true
  | _ => false

/-- Is it one whose direction the leader computes, and which each member executes? -/
def steers : Instr → Bool
  | .call _ | .loop _ _ => true
  | _ => false

/-- Frame f's core is turned away by an instruction that waits for a register: for a cycle of the decoupling queues and, if the context was ready, one in
which it did not issue (R362). -/
def State.turnedAway (s : State) (f : Nat) : State :=
  let idle := s.ready f
  s.mapCore (coreOf f) fun k => { k with pQueue := sat48 k.pQueue 1, pIdle := if idle then sat48 k.pIdle 1 else k.pIdle }

/-- The frames that issue frame f's instructions with it: the members of its gang. The handler of an upcall runs alone, and the gang waits until it has
returned: DESIGN CHOICE (log 82). -/
def State.crew (s : State) (f : Nat) : List Nat := if (s.ctx f).st.upc then [f] else s.gangOf f

/-- The other members issue the leader's instruction at the leader's pc, in ascending core position. A TRAP, or another fault that several
members raise, is so raised by each in turn: each sends its packet, and the last of them stands in the cores' windows (DESIGN CHOICE, log 63). -/
noncomputable def issueMembers (m : Mods) (i : Instr) (len : Nat) (pc : Word) : List Nat → State → Out
  | [], s => .next s
  | g :: gs, s =>
    match issueInstr g m i len (s.mapCtx g fun c => { c with pc := pc }) with
    | .next s => issueMembers m i len pc gs s
    | r => r

/-- A member of a gang stands where the gang issues: it may issue, and waits in no instruction, or only in the wrapper of the gang's next one (R20). -/
def State.atIssue (s : State) (g : Nat) : Bool :=
  s.canIssue g && (match (s.ctx g).wait with
    | some w => w.wrap
    | none => true)

/-- The gang of frame f can issue under its leadership: f is the leader, and every member stands where the gang issues, in no handler. -/
def State.leads (s : State) (f : Nat) : Bool :=
  (s.crew f).head? == some f && (s.crew f).all fun g => s.atIssue g && (g == f || !(s.ctx g).st.upc)

/-- A frame waits for its instruction to issue. -/
def State.holdMember (s : State) (m : Mods) (i : Instr) (len : Nat) (pc : Word) (g : Nat) : State :=
  s.onFrame g fun t => (t.mapC fun c => ({ c with pc := pc } : Ctx).begin m i len (s.nextDeadline g)).stallWrap

/-- Would the instruction stall before it issues in a member of a gang, once the members before it have issued it (R20)? -/
noncomputable def stallsIn (m : Mods) (i : Instr) (len : Nat) (pc : Word) : List Nat → State → Bool
  | [], _ => false
  | g :: gs, s =>
    match issueInstr g m i len (s.mapCtx g fun c => { c with pc := pc, wait := none }) with
    | .next t => ((t.ctx g).wait.any fun w => !w.begun) || stallsIn m i len pc gs t
    | _ => false

/-- Frame f issues an instruction, and with it the members of its gang, in a cycle in which it can issue in every one of them (R20): none
waits for a register, every wrapper lets it go, and none stalls. Otherwise they wait to issue it. -/
noncomputable def issueAs (f : Nat) (m : Mods) (i : Instr) (len : Nat) (s : State) : Out :=
  let members := s.crew f
  let pc := (s.ctx f).pc
  let gang := decide (1 < members.length)
  let hold (s : State) : Out := .next (members.foldl (fun s g => s.holdMember m i len pc g) s)
  if members.any fun g => s.blocked g m i then hold (members.foldl State.turnedAway s)
  else if gang && (members.any (fun g => !(s.ctx g).wrapReady m) || (stallsAtIssue i && stallsIn m i len pc members s)) then hold s
  else
    match issueInstr f m i len (if (s.ctx f).wait.any (·.wrap) && decide (m = Mods.none) then s.mapCtx f fun c => { c with wait := none } else s) with
    | .next t =>
      let follow (t : State) : State := members.tail.foldl (fun t g => t.mapCtx g fun c => { c with pc := (t.ctx f).pc }) t
      if leaderOnly i then .next (members.tail.foldl (fun t g => t.mapCtx g fun c => { c with wait := none }) (follow t))
      else
        match issueMembers m i len pc members.tail (members.tail.foldl (fun t g => t.mapCtx g fun c => { c with wait := if decide (m = Mods.none) then none else c.wait }) t) with
        | .next t => .next (if steers i then follow t else t)
        | r => r
    | r => r

/-- Retry the instruction a frame waits in. One that waits to be issued is tried for all the members of a gang at the leader's turn. The deadline
of a context that waits is the model's own: when it is tried again. -/
noncomputable def retryWait (f : Nat) (w : Wait) (s : State) : Out :=
  let s := s.select f
  let s := s.mapC fun c => { c with npc := w.npc, cur := w.instr, mods := w.mods, deadline := s.nextDeadline f, yielded := false }
  match w.instr with
  | some i =>
    if w.wrap then (if s.leads f then issueAs f w.mods i (w.npc - w.pc).toNat s else .next s)
    else if s.blocked f w.mods i then .next s
    else
      match runInstr w.mods i s with
      | .next t => .next (t.countLater f w)
      | r => r
  | none => .next s

/-- Fetch, decode and issue at frame f's pc; the leader of a gang issues for every member. Of a word that decodes to nothing, the leader, which fetches it,
alone raises the illegal-instruction fault, which freezes its gang: DESIGN CHOICE, R20 does not say whether every member raises it (log 63). -/
noncomputable def fetchIssue (f : Nat) (s : State) : Out :=
  let c := s.ctx f
  if unaligned c.pc 4 then .next ((s.select f).misaligned c.pc)
  else
    match s.fetch f with
    | .error (e, va) => .next (s.fetchFail f e va)
    | .ok ((w0, w1, w2), s) =>
      match decodeWords w0 w1 w2 with
      | .error _ => issueInstr f Mods.none (.unassignedEncoding (.ofNat 32 w0)) 4 s
      | .ok d => issueAs f d.mods d.instr d.len s

/-- Frame f's streams stand together: it retries what it waits in, or fetches and issues. A fetch that was held is made again once its access
has been performed. -/
noncomputable def togetherTurn (f : Nat) (s : State) : Out :=
  match (s.ctx f).wait with
  | some w =>
    let t := s.mapCtx f fun c => { c with wait := none }
    if w.instr.isSome then retryWait f w s else if t.leads f then fetchIssue f t else .next s
  | none => if s.leads f then fetchIssue f s else .next s

end Sys2Proof.Machine
end

