-- ==== Sys2Proof/Machine/Streams.lean ====
section
/-! DEFINITION. The two streams of a context: the access stream ahead of the execute stream, with the branches it predicts, and instructions that have
issued and wait beside the streams (R64, R65, R90, R101, R138, R180, R198). -/

namespace Sys2Proof.Machine

open Sys2Proof

/-! What may pass what. -/

/-- Registers that an instruction between the streams may still write, or has written and its place in the program has not been reached. -/
def Passed.writes (e : Passed) : RegUse :=
  match e.kind with
  | .exe => let u := regsOf e.instr; ⟨u.xa.take 1, u.v.take 1, u.p.take 1⟩
  | .branch _ => ⟨[], [], []⟩
  | .past => ⟨e.xs.map (·.1), e.vs.map (·.1), e.ps.map (·.1)⟩

/-- Does the instruction write a k-register? -/
def writesK : Instr → Bool
  | .vcmp _ _ _ _ _ _ | .kopAnd _ _ _ | .kopOr _ _ _ | .kopXor _ _ _ | .kopAndn _ _ _ | .kopNot _ _ => true
  | _ => false

/-- The k-register that an instruction of the access stream reads. -/
def maskOf : Instr → KReg
  | .vld m _ _ _ _ _ | .vst m _ _ _ _ _ | .vldx m _ _ _ _ _ | .vstx m _ _ _ _ _ => m
  | _ => 0

/-- Have the registers that an instruction of the access stream names reached the x-to-a transfer queue: no instruction between the streams still
writes one (R65, R138)? -/
def Ctx.transferred (c : Ctx) (m : Mods) (i : Instr) : Bool :=
  let u := regsOf i
  c.win.all fun e =>
    let w := e.writes
    !(w.xa.any fun r => r != .x 0 && u.xa.contains r) && !(w.v.any u.v.contains) && !(w.p.any fun p => p != 0 && (p == m.gp || u.p.contains p))
      && !(e.kind == .exe && writesK e.instr && maskOf i != 0) && !(e.kind == .exe && readsFflags e.instr && decide (i matches .amo32Fadd _ _ _ _ _))

/-- The access stream does not pass these: what they do must be seen by what follows, or by nothing that follows (log 22). -/
def halts : Instr → Bool
  | .trap _ | .crw _ _ | .vclaim _ _ | .vrel | .gsplit => true
  | _ => false

/-- These issue only where the streams stand together (log 22): they end or change the context, its gang or its match, wait parked, will write a
predicate at a time of another core's, or read a slot's count. -/
def together : Instr → Bool
  | .hexit _ | .upret _ | .upretContinue _ | .fraiseUpcall _ _ | .fraiseFreeze _ _ | .park _ _ | .yieldRef _ | .gfuse _ _ | .gsplit | .ftget _ _ _ | .hjoin _ _
  | .mgangNew _ _ _ _ _ | .mgangAcc _ _ _ _ _ | .egopen _ _ _ | .egmatch _ _ | .egnext _ _ | .egextr _ _ | .ctrdSlot _ _ => true
  | _ => false

/-- May an instruction of the access stream issue while it is speculative (R101, R180)? Memory accesses issue, and their effects are held where R180 says
so; arithmetic and branches can be undone. Others wait. -/
def speculates : Instr → Bool
  | .mmaNew _ _ _ _ _ | .mmaAcc _ _ _ _ _ | .mgangNew _ _ _ _ _ | .mgangAcc _ _ _ _ _ | .mzero _ | .mepi _ _ _ | .chrun _ _ _ | .chstep _ _ _ => false
  | .mov (.a _) (.x _) | .mov (.a _) (.a _) => true
  | .atx _ _ | .j _ _ | .ret | .call _ | .loop _ _ => true
  | .add _ _ _ | .sub _ _ _ | .mul _ _ _ | .mulh _ _ _ | .mulhu _ _ _ | .div _ _ _ | .divu _ _ _ | .rem _ _ _ | .remu _ _ _ | .and _ _ _ | .or _ _ _
  | .xor _ _ _ | .andn _ _ _ | .shl _ _ _ | .shr _ _ _ | .sar _ _ _ | .rol _ _ _ | .ror _ _ _ | .min _ _ _ | .max _ _ _ | .minu _ _ _ | .maxu _ _ _
  | .addI _ _ _ | .mulI _ _ _ | .andI _ _ _ | .orI _ _ _ | .xorI _ _ _ | .shlI _ _ _ | .shrI _ _ _ | .sarI _ _ _ | .rolI _ _ _ | .rorI _ _ _ | .li _ _
  | .bext _ _ _ _ | .bextu _ _ _ _ | .bins _ _ _ _ | .popc _ _ | .clz _ _ | .ctz _ _ | .brev _ _ | .abs _ _ | .sext8 _ _ | .sext16 _ _ | .sext32 _ _
  | .zext8 _ _ | .zext16 _ _ | .zext32 _ _ | .sel _ _ _ _ | .lea _ _ _ _ | .fshl _ _ _ _ | .fshr _ _ _ _ => true
  | i => stallsAtIssue i

/-! Ahead of the execute stream. -/

/-- The next address of the access stream. -/
def Ctx.accessPc (c : Ctx) : Word := c.apc.getD c.pc

/-- An instruction is now between the streams, and the access stream goes on from an address. -/
def Ctx.passed (c : Ctx) (e : Passed) : Ctx := { c with win := c.win ++ [e], apc := some e.next }

/-- What the hints before the access stream's place say of the next B: the last one, in or before the instructions between the streams (R119). -/
def Ctx.hint (c : Ctx) : Option Bool := c.win.foldl (fun h e => hintStep h e.instr) c.hinted

/-- Where the access stream goes on after a B or BP: a B as a hint or the prediction says, a BP taken (R64, R119). -/
def Ctx.predicted (c : Ctx) (i : Instr) (pc npc : Word) (fresh : Nat) : Word :=
  match i with
  | .b off _ _ => if c.hint.getD (Config.predict fresh) then ({ c with pc := pc } : Ctx).branchTarget off else npc
  | .bp off _ _ => ({ c with pc := pc } : Ctx).branchTarget off
  | _ => npc

/-- The access stream passes an instruction of the execute stream. -/
def State.passExe (s : State) (f : Nat) (d : Decoded) (va : Word) : State :=
  let npc := va + .ofNat 64 d.len
  let kind : Ctx → PassKind := fun c => match d.instr with
    | .b _ _ _ | .bp _ _ _ => .branch c.a
    | _ => .exe
  ({ s.newId with fresh := s.fresh + 1 } : State).mapCtx f fun c =>
    c.passed { id := s.nextId, instr := d.instr, mods := d.mods, pc := va, npc := npc, next := c.predicted d.instr va npc s.fresh, kind := kind c,
               xs := [], ps := [], vs := [] }

/-- The slots that instructions of the execute stream between the streams wait for. -/
def Ctx.slotsAwaited (c : Ctx) : BitVec 16 := (c.win.filter fun e => !e.issued).foldl (fun m e => m ||| e.mods.wmask) 0

/-- The slots that instructions of the execute stream between the streams have yet to set (R61). -/
def Ctx.slotsDue (c : Ctx) : BitVec 16 :=
  (c.win.filter fun e => !e.issued && e.mods.sen).foldl (fun m e => m ||| .ofNat 16 (2 ^ e.mods.sslot.val)) 0

/-- The slots that an instruction waits for: by its wait mask, and a WAIT by its own (R61, R117). -/
def waitSlots (m : Mods) (i : Instr) : BitVec 16 :=
  match i with
  | .wait mask => m.wmask ||| mask
  | _ => m.wmask

/-- May what an access-stream instruction has done by issuing stand beside older instructions of the execute stream? It has issued and not stalled, nothing
has frozen, no upcall has arisen, and what those instructions read or wait for is as it was. -/
def State.accepts (s t : State) (f : Nat) : Bool :=
  let c := s.ctx f
  let c' := t.ctx f
  t.self == f && c'.live && c'.wait.isNone && c'.parked == c.parked && c'.pending == c.pending && c'.cr == c.cr && c'.st == c.st
    && (t.core (coreOf f)).frozen == (s.core (coreOf f)).frozen
    && (List.finRange 16).all fun i => !(c.slotsAwaited.getLsbD i.val) || c'.sb[i].toNat ≤ c.sb[i].toNat

/-- An instruction of the access stream has issued ahead: what it wrote to x- and p-registers goes into the load-data queue, its a-registers stand, and the
execute stream is where it was. -/
def State.joinAhead (s t : State) (f : Nat) (i : Instr) (m : Mods) (va npc : Word) : State :=
  let c := s.ctx f
  let c' := t.ctx f
  let u := regsOf i
  let issuedId := ((c'.acc.map (·.aid)) ++ c'.works.map (·.id)).find? fun n => decide (s.nextId ≤ n)
  let e : Passed := { id := issuedId.getD t.nextId, instr := i, mods := m, pc := va, npc := npc, next := c'.pc, kind := .past,
                      xs := (u.xa.filter Reg.isX).map fun r => (r, c'.getReg r), ps := u.p.map fun p => (p, c'.getP p), vs := [] }
  t.newId.setCtx f (({ c' with pc := c.pc, npc := c.npc, cur := c.cur, mods := c.mods, x := c.x, p := c.p, wait := c.wait, latch := c.latch, win := c.win } : Ctx).passed e)

/-- The selected context's instruction has issued, and waits beside the streams: it takes the registers that it reads with it (R65). -/
def State.setBeside (s : State) (w : Wait) : State :=
  s.newId.mapC fun c =>
    { c with works := c.works ++ [{ id := s.nextId, wait := w, latch := c.latch, x := c.x, a := c.a, p := c.p, egheap := c.cr.egheap, asid := c.cr.asid, back := false }], latch := none, wait := none, go := false,
             pc := w.npc }

/-- The wait of an instruction that has issued and has not begun: nothing has been done for it, and it has arrived nowhere. -/
def State.newWait (s : State) (i : Instr) (m : Mods) : Wait :=
  { instr := some i, mods := m, pc := s.c.pc, npc := s.c.npc, since := s.time, begun := false, wrap := true, arg := 0, barked := 0, limit := 0, ticket := 0 }

/-- Issue an instruction of the access stream at an address ahead, from a state in which the frame's execute stream waits in nothing. -/
noncomputable def runAhead (m : Mods) (i : Instr) (s : State) : Out :=
  if (besideDest i).isSome && !stallsAtIssue i then
    match exec (.longForm m) s with
    | .next s => .next (if s.c.go then s.setBeside (s.newWait i m) else s)
    | r => r
  else runInstr m i s

/-- The access stream comes to an instruction of its own. One that waits for a slot waits too for the instructions of the execute stream, older than itself, that
will set the slot: so a chain of waits through them holds (R198). -/
noncomputable def passAccess (f : Nat) (d : Decoded) (va : Word) (s : State) : State :=
  let c := s.ctx f
  let q := s.mapCtx f fun c => { c with pc := va, wait := none, latch := none, win := [] }
  let spec := c.win.any Passed.unresolved
  if together d.instr || (spec && !speculates d.instr) || !c.transferred d.mods d.instr || !c.maskClear d.mods.wmask
      || c.slotsDue &&& waitSlots d.mods d.instr != 0 || q.blocked f d.mods d.instr then s
  else
    match runAhead d.mods d.instr (q.issued f d.mods d.instr d.len) with
    | .next t =>
      if !s.accepts t f then s
      else if c.win.isEmpty && c.apc.isNone && c.wait.isNone then t
      else s.joinAhead t f d.instr d.mods va (va + .ofNat 64 d.len)
    | _ => s

/-- Frame f's access stream goes ahead by one instruction, or lets go of the instruction that has issued and waits at the head of both streams. A gang's
members, and streams that a debug write has set apart, do not. -/
noncomputable def aheadTurn (f : Nat) (s : State) : State :=
  let c := s.ctx f
  let va := c.accessPc
  let own := match c.wait with
    | some w => w.instr.any fun i => accessStream i
    | none => false
  let beside := match c.wait with
    | some w => if !w.wrap && c.win.isEmpty && (w.instr.bind besideDest).isSome then some w else none
    | none => none
  if c.st.gang ≠ 0 ∨ !s.canIssue f ∨ (c.win.isEmpty ∧ c.apc.isSome) then s
  else
    match beside with
    | some w => (s.select f).setBeside w
    | none =>
      if own || (c.win.isEmpty && c.wait.any (·.instr.isNone)) || unaligned va 4 then s
      else
        match s.fetchAt f va.toNat with
        | .error _ => s
        | .ok ((w0, w1, w2), t) =>
          match decodeWords w0 w1 w2 with
          | .error _ => s
          | .ok d => if accessStream d.instr then passAccess f d va t else if halts d.instr then s else t.passExe f d va

/-! Beside the streams. -/

/-- An instruction that waits beside frame f's streams may be tried: its core runs, it has not been taken back, and no access of it is held. -/
def State.canWork (s : State) (f : Nat) (w : Work) : Bool :=
  let c := s.ctx f
  let k := s.core (coreOf f)
  c.live && !k.frozen && !k.fenced && !s.dev.halted && !s.due && !w.back && !(c.acc.any fun a => a.op.blocks && a.work == some w.id)

/-- The state in which it is tried: the frame's registers are those it took with it, as are the control registers that name its heap and its address
space, and its streams stand at it. -/
def State.atWork (s : State) (f : Nat) (w : Work) : State :=
  (s.select f).mapC fun c =>
    { c with pc := w.wait.pc, npc := w.wait.npc, cur := w.wait.instr, mods := w.wait.mods, x := w.x, a := w.a, p := w.p, wait := if w.wait.wrap then none else some w.wait,
             latch := w.latch, works := c.works.filter (·.id != w.id), win := [], apc := none,
             cr := { c.cr with egheap := w.egheap, asid := w.asid } }

/-- After the attempt: the streams stand where they stood, and the instruction waits on, or is gone with what it has written. -/
def State.afterWork (s t : State) (f : Nat) (w : Work) : State :=
  let c := s.ctx f
  let r := t.ctx f
  let mark := fun (a : Access) => if decide (s.nextId ≤ a.aid) && a.op.isOther then { a with work := some w.id } else a
  let works := match r.wait with
    | some x => c.works.map fun (y : Work) => if y.id = w.id then { y with wait := x, latch := r.latch } else y
    | none => c.works.filter (·.id != w.id)
  let c' : Ctx := { r with pc := c.pc, npc := c.npc, cur := c.cur, mods := c.mods, x := c.x, a := c.a, p := c.p, wait := c.wait, latch := c.latch, win := c.win, apc := c.apc,
                           works := works, acc := r.acc.map mark, cr := { r.cr with egheap := c.cr.egheap, asid := c.cr.asid } }
  if r.wait.isSome || (t.core (coreOf f)).frozen then t.setCtx f c'
  else t.setCtx f (c'.deliver w.id (w.dests.1.map fun x => (x, r.getReg x)) (w.dests.2.map fun p => (p, r.getP p)) [])

/-- An instruction that waits beside frame f's streams is tried. -/
noncomputable def workTurn (f id : Nat) (s : State) : Out :=
  match (s.ctx f).works.find? (·.id == id) with
  | none => .next s
  | some w =>
    match w.wait.instr with
    | some i =>
      if s.canWork f w then
        match exec i (s.atWork f w) with
        | .next t => .next (s.afterWork (t.countLater f w.wait) f w)
        | r => r
      else .next s
    | none => .next s

/-! The execute stream behind. -/

/-- The execute stream comes by instructions that the access stream has issued: their data leaves the load-data queue. -/
def Ctx.catchUp : List Passed → Ctx → Ctx
  | [], c => { c with win := [], apc := none }
  | e :: es, c => if e.issued then Ctx.catchUp es { c.writeAll e.xs e.ps e.vs with pc := e.next } else { c with win := e :: es }

/-- The first instruction between the streams has completed: a branch that went where it was predicted, or another; after a wrong prediction the
access stream begins again where the branch went, and what it did is undone (R90, R101). -/
def State.afterHead (s : State) (f : Nat) (e : Passed) : State :=
  let c := s.ctx f
  if (s.core (coreOf f)).frozen || c.wait.isSome then s
  else
    match e.kind with
    | .branch a =>
      if c.pc = e.next then s.mapCtx f fun c => Ctx.catchUp (c.win.drop 1) c
      else
        (s.mapCore (coreOf f) fun k => { k with pSquash := sat48 k.pSquash (c.undone 0) }).mapCtx f fun c => { c.undoFrom 0 a with apc := none }
    | _ => s.mapCtx f fun c => Ctx.catchUp (c.win.drop 1) c

/-- The execute stream issues, or retries, the first instruction between the streams. One that another agent's move has completed is left behind. -/
noncomputable def headTurn (f : Nat) (s : State) : Out :=
  let s := s.mapCtx f fun c => Ctx.catchUp c.win c
  let c := s.ctx f
  match c.win with
  | [] => .next s
  | e :: _ =>
    if e.kind = .exe ∧ c.wait.isNone ∧ c.pc ≠ e.pc then .next (s.afterHead f e)
    else
      match (match c.wait with
        | some w => retryWait f w s
        | none => issueAs f e.mods e.instr (e.npc - e.pc).toNat s) with
      | .next t => .next (t.afterHead f e)
      | r => r

/-! Streams that a debug write has set apart (R373): their queues are empty, and each goes on from its own address. The one at the lower address moves first,
by its own instructions, and passes over the other's, until they meet: DESIGN CHOICE (log 22). -/

/-- Does the instruction go elsewhere than to the next address? -/
def jumps : Instr → Bool
  | .j _ _ | .ret | .b _ _ _ | .bp _ _ _ | .call _ | .loop _ _ => true
  | _ => false

/-- A stream passes over an instruction of the other: where that goes, it goes. -/
noncomputable def passOver (f : Nat) (d : Decoded) (s : State) : State :=
  let npc := (s.ctx f).pc + .ofNat 64 d.len
  let next := if jumps d.instr then
      match exec d.instr ((s.select f).mapC fun c => c.begin Mods.none d.instr d.len c.deadline) with
      | .next t => t.c.pc
      | _ => npc
    else npc
  s.mapCtx f fun c => { c with pc := next }

/-- A turn of a frame whose streams stand apart with empty queues. -/
noncomputable def apartTurn (f : Nat) (a : Word) (s : State) : Out :=
  let c := s.ctx f
  let access := decide (a < c.pc)
  let other := if access then c.pc else a
  let s := s.mapCtx f fun c => { c with pc := if access then a else c.pc, apc := none }
  let back (t : State) : Out :=
    .next (if (t.ctx f).gen = c.gen ∧ (t.ctx f).st.upc = c.st.upc ∧ (t.ctx f).live then
      t.mapCtx f fun x => { x with pc := if access then other else x.pc, apc := if x.pc = other then none else some (if access then x.pc else other) } else t)
  let run (r : Out) : Out :=
    match r with
    | .next t => back t
    | r => r
  match c.wait with
  | some _ => run (togetherTurn f s)
  | none =>
    match s.fetch f with
    | .ok ((w0, w1, w2), t) =>
      match decodeWords w0 w1 w2 with
      | .ok d => if accessStream d.instr == access then run (issueAs f d.mods d.instr d.len t) else back (passOver f d t)
      | .error _ => run (togetherTurn f s)
    | .error _ => run (togetherTurn f s)

/-- Frame f takes its turn. What an upcall had taken back issues first (R367). -/
noncomputable def issueTurn (f : Nat) (s : State) : Out :=
  if !s.canIssue f then .next s
  else
    let s := if (s.ctx f).unissued then s.mapCtx f Ctx.reissue else s
    let c := s.ctx f
    match c.apc with
    | none => togetherTurn f s
    | some a => if !c.win.isEmpty then headTurn f s else if a = c.pc then togetherTurn f (s.mapCtx f fun c => { c with apc := none }) else apartTurn f a s

end Sys2Proof.Machine
end

