-- ==== Sys2Proof/Machine/Schedule.lean ====
section
/-! DEFINITION. Who moves next: the agenda, and the steps that are enabled (R31, R162, R336, R377). -/

namespace Sys2Proof.Machine

open Sys2Proof

/-! The next move. -/

/-- Steps that come from outside the package, or from Weward: they do not wait for the end of a halt. -/
def outside : Instr → Bool
  | .partitionResume | .freezeSignal | .thermalTrip _ | .powerCapSet _ | .functionLevelReset | .attestationRequest _ | .hostWrite _ _ | .hostRead _ _
  | .hostSnoop _ | .poolLinkFail _ | .crirasPlaneFail _ | .bringUp | .poisonedLine _ | .correctedSoftError _ | .remoteHomeRequest _ _ | .poolAgentWrite _ _ | .supplyRemoval => true
  | _ => false

/-! The local-store port (R162). -/

/-- The steps in which a source of a core's port makes its next access. -/
noncomputable def State.lsNext (s : State) (core source : Nat) : List Instr :=
  let clu := cluOf core
  match source with
  | 0 => [.kstepBoundary core]
  | 1 => [.chainLoad clu, .chainAbsorb clu, .chainEmit clu, .chainPerm clu]
  | 2 => ((s.clu clu).jobs.filter (·.atLs core)).flatMap fun j => [.copyJob clu j.q, .fillJob clu j.q, .gatherJob clu j.q, .scatterJob clu j.q, .postJob clu j.q]
  | _ =>
    match ((framesOf core).flatMap fun f => ((s.ctx f).acc.filter fun a => (s.ctx f).asks a && a.lsSource == some source).map fun a => (f, a.aid)).head? with
    | some fa => [.scoreboardDecrement fa.1 fa.2]
    | none => []

/-- The first candidate that changes the state. -/
noncomputable def firstEvent (s : State) : List Instr → Option Out
  | [] => none
  | i :: is =>
    match exec i s with
    | .next t => if t = s then firstEvent s is else some (.next t)
    | r => some r

/-- May a step of the package be made? Not in a halt, and from the time of a partition switch on the units stop, and only the halt comes (R377). -/
def State.mayMove (s : State) (i : Instr) : Bool :=
  outside i || (!s.dev.halted && (!s.due || (match i with
    | .partitionHalt => true
    | _ => false)))

/-- Run a turn. A write that was on its way when a partition switch came stops in a spill buffer (R377). -/
noncomputable def runTurn (t : Turn) (s : State) : Out :=
  match t with
  | .issue f => issueTurn f s
  | .event i => if s.mayMove i then exec i s else .next s
  | .posted pa v => if s.dev.halted || s.due then .next { s with dev := { s.dev with spill := s.dev.spill ++ [(pa, v)] } } else exec (.deviceRegisterWrite pa v) s
  | .port core source => if s.dev.halted || s.due then .next s else (firstEvent s (s.lsNext core source)).getD (.next s)
  | .ahead f => .next (aheadTurn f s)
  | .work f id => workTurn f id s
  | .perform f aid => exec (.scoreboardDecrement f aid) s

/-- A cycle passes (R358). -/
def State.tick (s : State) : State := { s with time := s.time + 1 }

/-- The frames that hold or held a context, rising. -/
def State.frameIds (s : State) : List Nat := insNat s.self (s.frames.map (·.1))

/-- The steps of the accesses, upcalls, waits and match of a frame; those of the local store move by its port. -/
noncomputable def State.ctxSteps (s : State) (f : Nat) : List Instr :=
  let c := s.ctx f
  if c.live then
    ((c.accAll.filter fun a => !a.held && !a.back && a.lsSource.isNone).map fun a => Instr.scoreboardDecrement f a.aid)
      ++ (if c.pending.isEmpty then [] else [.upcallDelivery f])
      ++ (if c.wait.isSome then [.portWordDelivery f, .ptryTimeout f, .ptrysTimeout f, .vneighTimeout f, .parkTimeout f, .matrixJobAccept f] else [])
      ++ (if c.wait.isSome || !c.works.isEmpty || (s.arrivalOf f).isSome then [.watchdog f] else [])
      ++ (match s.fusing f with | some (_, n) => [.gangForm (coreOf f) n] | none => [])
      ++ (if c.mtch.isSome then [.matcherDeliver f] else [])
      ++ (if c.pause = 0 then [] else [.hintPauseEnd f])
  else []

/-- The steps of the sources of the local-store port of a core, in the port's order of priority (R162). -/
noncomputable def State.portSteps (s : State) (n : Nat) : List Instr := (List.range 5).flatMap (s.lsNext n)

/-- The steps of a core's slice, epilogue engine and port. -/
noncomputable def State.coreSteps (s : State) (n : Nat) : List Instr :=
  let k := s.core n
  (if k.mjobs.isEmpty then [] else [.kstepBoundary n]) ++ (if k.ejobs.isEmpty then [] else [.epilogueDrain n]) ++ (k.lsPass.map fun p => .lsPortPassover n p.1)

/-- The steps of a cluster's huddles, chain engine and jobs. -/
noncomputable def State.cluSteps (s : State) (n : Nat) : List Instr :=
  let k := s.clu n
  (k.huddles.map fun h => Instr.huddleOpen n h.tag)
    ++ (if k.runs.isEmpty then [] else [.chainRunStart n, .chainLoad n, .chainAbsorb n, .chainEmit n, .chainPerm n, .chainEnd n])
    ++ (if k.jobs.isEmpty then [] else [.jobStart n])
    ++ ((k.jobs.filter fun j => j.state == 2 && !j.begun && j.coll.any fun c => c.nranks == 1).map fun j => Instr.collectiveStart n j.q [])
    ++ (k.jobs.filter fun j => j.state == 2).flatMap fun j =>
      [.copyJob n j.q, .fillJob n j.q, .gatherJob n j.q, .scatterJob n j.q, .postJob n j.q, .allReduce n j.q, .allGather n j.q, .reduceScatter n j.q,
       .broadcast n j.q, .jobCompletion n j.q]

/-- The steps of a die's replay buffers, pushes, heat, moves, sweepers and dispatcher. -/
noncomputable def State.dieSteps (s : State) (n : Nat) : List Instr :=
  let d := s.die n
  (d.replay.flatMap fun e => [Instr.replayAttempt n e.slice e.entry, .resumeNotice n e.slice e.entry])
    ++ (d.heat.map fun h => .heatSample n h.1 h.2)
    ++ (if d.moves.isEmpty then [] else [.frameMove n, .copyWhileWritable n])
    ++ (if d.queue.isEmpty then [] else [.dispatchPassover n, .dispatchStep n])
    ++ ((List.range 64).map fun k => .sweeperVisit true n k)

/-- The steps of tables that belong to no die: pushes, rings, delta queues, heaps, logs, and L1 sweepers. -/
noncomputable def State.tableSteps (s : State) : List Instr :=
  ((List.range ((List.range 4).map fun n => (s.die n).pushes.length).sum).map Instr.pushArrival)
    ++ ((List.range s.rings.length).map .ringHole) ++ ((List.range s.dqs.length).map .invocationCreate)
    ++ ((List.range s.heaps.length).flatMap fun h => [.heapUnion h, .heapAdopt h, .heapRehash h])
    ++ ((s.books.map (·.asid)).dedup.flatMap fun a => [.sectorFree a, .collectorCopy a])
    ++ ((s.l1.map fun l => (l.clu, l.line % 8)).dedup.map fun p => .sweeperVisit false p.1 p.2)

/-- The dies' adverts of free team slots and the moves of teams between them (R34). -/
noncomputable def State.moveSteps (s : State) : List Instr :=
  let free := fun (n : Nat) => ((clusOf n).map fun c => 4 - (s.clu c).slots.length).sum
  let pairs := (List.range 4).flatMap fun a => ((List.range 4).filter (· != a)).map fun b => (a, b)
  ((pairs.filter fun p => tget 0 (s.die p.1).adverts p.2 != free p.2).map fun p => Instr.freeSlotAdvert p.1 p.2 (free p.2))
    ++ (s.teams.map (·.id) ++ s.launches.map (·.id) ++ s.dev.arrivals.map (·.team.id)).flatMap fun t => (List.range 4).map fun d => .teamMigration t d

/-- The sweeps of the heat counters. -/
noncomputable def State.heatSteps (s : State) : List Instr :=
  ((List.range 4).filter fun n => (s.die n).heatctl.getLsbD 9).flatMap fun n => (List.range 64).map fun k => .heatDecayEpoch n k

/-- The steps of other agents that may be enabled, in the order in which they are tried. -/
noncomputable def candidates (s : State) : List Instr :=
  if s.dev.halted then [.partitionResume]
  else if s.due then [.partitionHalt]
  else
    s.frameIds.flatMap s.ctxSteps ++ (s.frameIds.map coreOf).dedup.flatMap s.portSteps ++ (s.cores.map (·.1)).flatMap s.coreSteps ++ (s.clus.map (·.1)).flatMap s.cluSteps
      ++ (List.range 4).flatMap s.dieSteps ++ s.tableSteps ++ s.moveSteps ++ s.heatSteps

/-- The frame of the earliest deadline, ties to the lowest. -/
def State.earliest (s : State) (fs : List Nat) : Option Nat :=
  fs.foldl (fun b f =>
    match b with
    | none => some f
    | some g => if (s.ctx f).deadline < (s.ctx g).deadline then some f else b) none

/-- The frame that issues next: of the ready ones the earliest deadline, a gang by its leader's; one that has yielded gives way to another
ready one of its core (R336, R355). -/
def State.nextFrame (s : State) : Option Nat :=
  let can := s.frameIds.filter fun f => s.ready f && s.leads f
  s.earliest (can.filter fun f => !((s.ctx f).yielded && can.any fun g => g != f && coreOf g == coreOf f))

/-- The waiting frame that is tried next. -/
def State.nextRetry (s : State) : Option Nat := s.earliest (s.frameIds.filter fun f => s.canIssue f && (s.ctx f).wait.isSome)

/-- The instructions that wait beside the streams of their contexts and may be tried. -/
def State.besides (s : State) : List (Nat × Nat) := s.frameIds.flatMap fun f => ((s.ctx f).works.filter (s.canWork f)).map fun w => (f, w.id)

/-- A retry: of a waiting frame, or, in turn with it, of one of the instructions that wait beside their streams. -/
noncomputable def State.retryMove (s : State) : Option Out :=
  let n := s.time.toNat / 3
  let beside := s.besides
  let work : Option Out := beside[n / 2 % max 1 beside.length]?.map fun x => workTurn x.1 x.2 s
  let wait : Option Out := s.nextRetry.map fun f => issueTurn f s
  if n % 2 = 0 then wait <|> work else work <|> wait

/-- With an empty agenda: the issue of a ready frame, the retry of a waiting one and an enabled step of another agent, in turn; where a kind
has none, the next (log 2). -/
noncomputable def State.idleMove (s : State) : Out :=
  let issue : Option Out := s.nextFrame.map fun f => issueTurn f s
  let retry := s.retryMove
  let event := firstEvent s (candidates s)
  (match s.time.toNat % 3 with
   | 0 => issue <|> retry <|> event
   | 1 => retry <|> event <|> issue
   | _ => event <|> issue <|> retry).getD (.next s)

/-- The core, and the source of its local-store port, that has been passed over for 64 cycles: it goes next (R162). -/
def State.latePort (s : State) : Option (Nat × Nat) :=
  if s.dev.halted || s.due then none
  else s.cores.findSome? fun x => ((List.range 5).find? fun n => decide (64 ≤ tget 0 x.2.lsPass n)).map fun n => (x.1, n)

/-- A move in which a port may be used: where a source has been passed over for 64 cycles, its turn is put ahead of all others (R162). -/
noncomputable def State.portFirst (s : State) (m : Out) : Out :=
  match s.latePort with
  | some p => exec (.lsPortPassover p.1 p.2) s.tick
  | none => m

/-- The move of one cycle. -/
noncomputable def State.move (s : State) : Out :=
  match s.agenda with
  | .event i :: rest => s.portFirst (runTurn (.event i) { s.tick with agenda := rest })
  | t :: rest => runTurn t { s.tick with agenda := rest }
  | [] => s.portFirst s.tick.idleMove

end Sys2Proof.Machine
end

