-- ==== Sys2Proof/Machine/Step.lean ====
section
/-! DEFINITION. The step, and placing an instruction where the next step fetches it. -/

namespace Sys2Proof.Machine

open Sys2Proof

/-- One cycle of the device. A device whose clocks are stopped, whose supplies are off or whose dies are held in reset takes no step but a
bring-up or the removal of its supplies (R381, R391, R393). -/
noncomputable def step (s : State) : Host.Outcome State Fault Refusal :=
  if s.dev.stopped || !s.dev.powered || !s.dev.released then
    match s.agenda with
    | .event .bringUp :: rest => exec .bringUp { s with agenda := rest }
    | .event .supplyRemoval :: rest => exec .supplyRemoval { s with agenda := rest }
    | _ => .fault .deviceStopped
  else s.move

/-- The state whose next step runs one instruction: frame 0 is a live user context at va 0, whose address space maps page 0 to physical
0x30000 through tables at 0x8000, 0x10000 and 0x18000; the code stands at 0x30000 (log 18). -/
def State.withFetchWord (s : State) (nbits w : Nat) : State :=
  let m := ((((s.mem.write 0 8 0x8001).write 0x8000 8 0x8000000000010000).write 0x10000 8 0x8000000000018000).write 0x18000 8 0xF800000000030000).write
    0x30000 12 (w % 2 ^ nbits)
  let c0 := (s.select 0).c
  let c := { c0 with live := true, parked := false, pc := 0, apc := none, win := [], works := [], wait := none, acc := [], pending := [], pause := 0, st := { c0.st with gang := 0 },
                     cr := { c0.cr with asid := 0 } }
  { (s.select 0).mapCore 0 (fun k => { k with frozen := false, fenced := false }) with mem := m, poison := [], c := c, tlb := [], agenda := [.issue 0], dev := { s.dev with asidTable := 0, stopped := false, rails := 6, released := true, halted := false, switchAt := none, stacksDown := [] } }

end Sys2Proof.Machine
end

