-- ==== Sys2Proof/Certificates/Slice0/Obligations.lean ====
section
/-! DEFINITION. The statements for the provers. Each names the rules of spec/ it rests on. "Completes" means: exec answers the next state in
which the selected context holds the instruction's results and has gone on to the address after it (State.done), and nothing else of the
device differs from what is said. -/

namespace Sys2Proof.Says

open Sys2Proof Sys2Proof.Machine

/-- The instruction completes with one x- or a-register written. -/
def sets (s : State) (d : Reg) (v : Word) : Out := .next (s.done fun c => c.setReg d v)

/-- The instruction completes with one x-register written. -/
def setsX (s : State) (d : XReg) (v : Word) : Out := .next (s.done fun c => c.setX d v)

/-- The instruction completes with one predicate written. -/
def setsP (s : State) (d : PReg) (v : Bool) : Out := .next (s.done fun c => c.setP d v)

/-- A floating result: the flags accumulate, and with none of them trapped the result is written, zero-extended (R39, R53). -/
def floats (s : State) (d : XReg) (r : FR) : Out := .next ((s.mapC fun c => c.orFlags r.fl).done fun c => c.setX d (.ofNat 64 r.bits))

/-- None of the flags is trapped (R53). -/
def untrapped (s : State) (fl : Fl) : Prop := fl &&& teOf s.c.cr.fctl = 0

/-- An instruction that completes: the next state it answers. -/
def completes (o : Out) (p : State → Prop) : Prop := ∃ t, o = .next t ∧ p t

/-- Nothing but the selected context differs. -/
def onlyCtx (s t : State) : Prop := t = { s with c := t.c }

/-- The state t after an exception that freezes the core of the selected context at its instruction, where s is the state before it: the record holds the
code, the info, the address and the instruction's own address, the pc stays, no register is written, the instruction's count is off its slot, and the
packet, with the frame's number in its core, is at the umpire. With no gang member on the core and no huddle of the cluster nothing else differs but the
waits of GFUSEs that the freeze fails, in the streams or parked (R344, R366, R372). -/
def frozen (s t : State) (code info : Nat) (addr : Word) : Prop :=
  let f0 : Word := .ofNat 64 (code + 2 ^ 32 * info)
  let d := dieOf (cluOf s.myCore)
  let k := t.core s.myCore
  k.frozen = true ∧ k.fcode = code ∧ k.fframe = s.self ∧ k.byGang = false
    ∧ t.c.cr = { s.c.cr with fault0 := f0, fault1 := addr, fault2 := 0, fault3 := s.c.pc }
    ∧ t.c.pc = s.c.pc ∧ t.c.x = s.c.x ∧ t.c.a = s.c.a ∧ t.c.k = s.c.k ∧ t.c.v = s.c.v ∧ t.c.st = s.c.st ∧ t.c.wait = none ∧ t.mem = s.mem
    ∧ (t.die d).umpire = (s.die d).umpire ++ [{ code := code, fault := [f0, addr, 0, s.c.pc], core := s.myCore, frame := s.self % 11 }]
    ∧ ((∀ g ∈ framesOf s.myCore, (s.ctx g).st.gang = 0) → (s.clu s.myClu).huddles = [] →
        t.c = { s.c with cr := t.c.cr, wait := none, latch := none, go := false, sb := t.c.sb, parks := t.c.parks }
          ∧ (s.c.latch = none → t.c.sb = s.c.sb) ∧ (∀ i, s.c.latch = some i → t.c.sb = s.c.sb.set i (s.c.sb[i] - 1))
          ∧ (s.fuses s.self = [] → t.c.parks = s.c.parks)
          ∧ (∀ g, g ≠ s.self → t.ctx g = { s.ctx g with wait := (t.ctx g).wait, parks := (t.ctx g).parks } ∧ (s.fuses g = [] → t.ctx g = s.ctx g))
          ∧ t = { s with c := t.c, frames := t.frames, cores := t.cores, dies := t.dies, clus := t.clus }
          ∧ ∀ n, n ≠ s.myCore → t.core n = s.core n)

/-- The floating-point fault of an instruction whose raised flags, or some of them, are trapped: the flags accumulate, the info is the flags raised, and the
instruction writes no register (R53). -/
def traps (o : Out) (s : State) (fl : Fl) : Prop := completes o fun t => frozen (s.mapC fun c => c.orFlags fl) t 0x24 fl.toNat 0

/-- A floating instruction completes with its result where none of its flags is trapped, and takes the floating-point fault where one is. -/
def floatsOrTraps (o : Out) (s : State) (d : XReg) (r : FR) : Prop := (untrapped s r.fl → o = floats s d r) ∧ (¬untrapped s r.fl → traps o s r.fl)

end Sys2Proof.Says

open Sys2Proof Sys2Proof.Machine Sys2Proof.Says

/-! Scalar integer instructions. -/

/-- R102: the two-source integer instructions but the divisions complete with their table's result. R102, R110: the immediate forms complete as their
two-source forms do, with the sign-extended immediate. -/
def Obligations.IntegerResults : Prop :=
  (∀ (d a : Reg) (b : Src) (s : State),
     let x := s.c.getReg a
     let y := s.c.src b
     let n := y.toNat % 64
     exec (.add d a b) s = sets s d (.ofNat 64 (x.toNat + y.toNat)) ∧ exec (.sub d a b) s = sets s d (.ofInt 64 (x.toNat - y.toNat : Int))
       ∧ exec (.mul d a b) s = sets s d (.ofNat 64 (x.toNat * y.toNat)) ∧ exec (.mulh d a b) s = sets s d (.ofInt 64 (x.toInt * y.toInt / 2 ^ 64))
       ∧ exec (.mulhu d a b) s = sets s d (.ofNat 64 (x.toNat * y.toNat / 2 ^ 64)) ∧ exec (.and d a b) s = sets s d (x &&& y)
       ∧ exec (.or d a b) s = sets s d (x ||| y) ∧ exec (.xor d a b) s = sets s d (x ^^^ y) ∧ exec (.andn d a b) s = sets s d (x &&& ~~~y)
       ∧ exec (.shl d a b) s = sets s d (.ofNat 64 (x.toNat * 2 ^ n)) ∧ exec (.shr d a b) s = sets s d (.ofNat 64 (x.toNat / 2 ^ n))
       ∧ exec (.sar d a b) s = sets s d (.ofInt 64 (x.toInt / 2 ^ n)) ∧ exec (.rol d a b) s = sets s d (x <<< n ||| x >>> (64 - n))
       ∧ exec (.ror d a b) s = sets s d (x >>> n ||| x <<< (64 - n)) ∧ exec (.min d a b) s = sets s d (.ofInt 64 (min x.toInt y.toInt))
       ∧ exec (.max d a b) s = sets s d (.ofInt 64 (max x.toInt y.toInt)) ∧ exec (.minu d a b) s = sets s d (.ofNat 64 (min x.toNat y.toNat))
       ∧ exec (.maxu d a b) s = sets s d (.ofNat 64 (max x.toNat y.toNat)))
  ∧ (∀ (d a : Reg) (imm : BitVec 44) (k : BitVec 6) (s : State),
         let x := s.c.getReg a
         let y : Word := .ofInt 64 imm.toInt
         let n := k.toNat
         exec (.addI d a imm) s = sets s d (x + y) ∧ exec (.mulI d a imm) s = sets s d (x * y) ∧ exec (.andI d a imm) s = sets s d (x &&& y)
           ∧ exec (.orI d a imm) s = sets s d (x ||| y) ∧ exec (.xorI d a imm) s = sets s d (x ^^^ y) ∧ exec (.li d imm) s = sets s d y
           ∧ exec (.shlI d a k) s = sets s d (.ofNat 64 (x.toNat * 2 ^ n)) ∧ exec (.shrI d a k) s = sets s d (.ofNat 64 (x.toNat / 2 ^ n))
           ∧ exec (.sarI d a k) s = sets s d (.ofInt 64 (x.toInt / 2 ^ n)) ∧ exec (.rolI d a k) s = sets s d (x <<< n ||| x >>> (64 - n))
           ∧ exec (.rorI d a k) s = sets s d (x >>> n ||| x <<< (64 - n)))

/-- R103: division truncates toward zero; by zero, and for the one signed overflow, the results are those of the table, with no fault and no
flag; otherwise the remainder has the sign of the dividend or is zero. -/
def Obligations.DivisionResults : Prop :=
  ∀ (d a : Reg) (b : Src) (s : State),
    let x := s.c.getReg a
    let y := s.c.src b
    let q := x.toInt.tdiv y.toInt
    let r := x.toInt - y.toInt * q
    (y = 0 → exec (.div d a b) s = sets s d (BitVec.allOnes 64) ∧ exec (.divu d a b) s = sets s d (BitVec.allOnes 64)
        ∧ exec (.rem d a b) s = sets s d x ∧ exec (.remu d a b) s = sets s d x)
      ∧ (y ≠ 0 → x = 0x8000000000000000 → y = BitVec.allOnes 64 → exec (.div d a b) s = sets s d 0x8000000000000000 ∧ exec (.rem d a b) s = sets s d 0)
      ∧ (y ≠ 0 → ¬(x = 0x8000000000000000 ∧ y = BitVec.allOnes 64) →
          exec (.div d a b) s = sets s d (.ofInt 64 q) ∧ (BitVec.ofInt 64 q).toInt = q
            ∧ exec (.rem d a b) s = sets s d (.ofInt 64 r) ∧ (BitVec.ofInt 64 r).toInt = r ∧ (0 ≤ x.toInt → 0 ≤ r) ∧ (x.toInt ≤ 0 → r ≤ 0))
      ∧ (y ≠ 0 → exec (.divu d a b) s = sets s d (.ofNat 64 (x.toNat / y.toNat))
          ∧ exec (.remu d a b) s = sets s d (.ofNat 64 (x.toNat - y.toNat * (x.toNat / y.toNat))))

/-- R104, R105, R111: funnel shifts, bit fields and LEA complete with the results of their rules, bit by bit for the fields. -/
def Obligations.FieldAndFunnelResults : Prop :=
  ∀ (d a : Reg) (b : Src) (w pos n : BitVec 6) (sh : BitVec 3) (s : State),
    let x := s.c.getReg a
    let y := s.c.src b
    let pair := x.toNat * 2 ^ 64 + y.toNat
    exec (.fshl d a b n) s = sets s d (.ofNat 64 (pair * 2 ^ n.toNat / 2 ^ 64)) ∧ exec (.fshr d a b n) s = sets s d (.ofNat 64 (pair / 2 ^ n.toNat))
      ∧ exec (.lea d a b sh) s = sets s d (.ofNat 64 (x.toNat + y.toNat * 2 ^ sh.toNat))
      ∧ (pos.toNat + w.toNat < 64 →
          (∃ v, exec (.bext d a w pos) s = sets s d v ∧ ∀ i, i < 64 → v.getLsbD i = x.getLsbD (pos.toNat + min i w.toNat))
            ∧ (∃ v, exec (.bextu d a w pos) s = sets s d v ∧ ∀ i, i < 64 → v.getLsbD i = (decide (i ≤ w.toNat) && x.getLsbD (pos.toNat + i)))
            ∧ ∃ v, exec (.bins d a w pos) s = sets s d v ∧ ∀ i, i < 64 →
                v.getLsbD i = if pos.toNat ≤ i ∧ i ≤ pos.toNat + w.toNat then x.getLsbD (i - pos.toNat) else (s.c.getReg d).getLsbD i)

/-- R106, R109, R121: the one-source instructions complete with their table's result. -/
def Obligations.OneSourceResults : Prop :=
  ∀ (d a : Reg) (dx : XReg) (aa : AReg) (s : State),
    let x := s.c.getReg a
    exec (.popc d a) s = sets s d (.ofNat 64 ((List.range 64).filter x.getLsbD).length)
      ∧ (∃ n, exec (.clz d a) s = sets s d (.ofNat 64 n) ∧ n ≤ 64 ∧ (∀ i, i < n → x.getLsbD (63 - i) = false) ∧ (n < 64 → x.getLsbD (63 - n)))
      ∧ (∃ n, exec (.ctz d a) s = sets s d (.ofNat 64 n) ∧ n ≤ 64 ∧ (∀ i, i < n → x.getLsbD i = false) ∧ (n < 64 → x.getLsbD n))
      ∧ (∃ v, exec (.brev d a) s = sets s d v ∧ ∀ i, i < 64 → v.getLsbD (63 - i) = x.getLsbD i)
      ∧ exec (.abs d a) s = sets s d (.ofInt 64 (if 0 ≤ x.toInt then x.toInt else -x.toInt))
      ∧ exec (.sext8 d a) s = sets s d (.ofInt 64 (x.toInt.bmod (2 ^ 8))) ∧ exec (.sext16 d a) s = sets s d (.ofInt 64 (x.toInt.bmod (2 ^ 16)))
      ∧ exec (.sext32 d a) s = sets s d (.ofInt 64 (x.toInt.bmod (2 ^ 32))) ∧ exec (.zext8 d a) s = sets s d (.ofNat 64 (x.toNat % 2 ^ 8))
      ∧ exec (.zext16 d a) s = sets s d (.ofNat 64 (x.toNat % 2 ^ 16)) ∧ exec (.zext32 d a) s = sets s d (.ofNat 64 (x.toNat % 2 ^ 32))
      ∧ exec (.atx dx aa) s = setsX s dx (s.c.getA aa) ∧ exec (.rdtime dx) s = setsX s dx s.time

/-- R107, R108: compare, predicate and select instructions complete with the condition's value. -/
def Obligations.PredicateResults : Prop :=
  ∀ (p q r : PReg) (a : XReg) (b : XSrc) (d e f : Reg) (s : State),
    let x := s.c.getX a
    let y := s.c.xsrc b
    exec (.cmp .eq p a b) s = setsP s p (decide (x = y)) ∧ exec (.cmp .ne p a b) s = setsP s p (decide (x ≠ y))
      ∧ exec (.cmp .lt p a b) s = setsP s p (decide (x.toInt < y.toInt)) ∧ exec (.cmp .le p a b) s = setsP s p (decide (x.toInt ≤ y.toInt))
      ∧ exec (.cmp .gt p a b) s = setsP s p (decide (y.toInt < x.toInt)) ∧ exec (.cmp .ge p a b) s = setsP s p (decide (y.toInt ≤ x.toInt))
      ∧ exec (.cmp .ltu p a b) s = setsP s p (decide (x.toNat < y.toNat)) ∧ exec (.cmp .leu p a b) s = setsP s p (decide (x.toNat ≤ y.toNat))
      ∧ exec (.cmp .gtu p a b) s = setsP s p (decide (y.toNat < x.toNat)) ∧ exec (.cmp .geu p a b) s = setsP s p (decide (y.toNat ≤ x.toNat))
      ∧ exec (.pand p q r) s = setsP s p (s.c.getP q && s.c.getP r) ∧ exec (.por p q r) s = setsP s p (s.c.getP q || s.c.getP r)
      ∧ exec (.pnot p q) s = setsP s p (!s.c.getP q)
      ∧ exec (.sel d q e f) s = sets s d (if s.c.getP q then s.c.getReg e else s.c.getReg f)

/-- R58, R59, R88: the hard-wired registers. x0 reads 0, p0 true and k0 all lanes, whatever is written; another x-, a-, p- or v-register reads what was
last written to it, another k-register what was written to it on the lanes of the context, and a write leaves every other register as it was. -/
def Obligations.HardWiredRegisters : Prop :=
  ∀ (c : Ctx) (i j : XReg) (g h : AReg) (r u : VReg) (p q : PReg) (k l : KReg) (v : Word) (b : Bool) (m : BitVec 256) (z : BitVec 8192),
    c.getX 0 = 0 ∧ c.getP 0 = true ∧ c.getK 0 = BitVec.allOnes 256 ∧ c.setX 0 v = c ∧ c.setP 0 b = c ∧ c.setK 0 m = c
      ∧ (i ≠ 0 → (c.setX i v).getX i = v) ∧ (p ≠ 0 → (c.setP p b).getP p = b) ∧ (k ≠ 0 → (c.setK k m).getK k = m &&& c.lanes)
      ∧ (c.setA g v).getA g = v ∧ (c.setV r z).getV r = z
      ∧ (j ≠ i → (c.setX i v).getX j = c.getX j) ∧ (h ≠ g → (c.setA g v).getA h = c.getA h) ∧ (u ≠ r → (c.setV r z).getV u = c.getV u)
      ∧ (q ≠ p → (c.setP p b).getP q = c.getP q) ∧ (l ≠ k → (c.setK k m).getK l = c.getK l)
      ∧ c.setX i v = { c with x := (c.setX i v).x } ∧ c.setA g v = { c with a := (c.setA g v).a } ∧ c.setV r z = { c with v := (c.setV r z).v }
      ∧ c.setP p b = { c with p := (c.setP p b).p } ∧ c.setK k m = { c with k := (c.setK k m).k }

/-- R39, R53, R122 to R128: the scalar floating-point instructions complete, with no raised flag trapped, with the result of their operation on the
low bits of their sources under cr.fctl's rounding mode, the flags accumulated in cr.fflags and the result zero-extended. R125, R127: FCMP and FCVT
complete likewise. R53, R366: where a raised flag is trapped the flags are accumulated as well, the destination stays, and the core freezes with the
floating-point fault, whose info is the flags raised. -/
def Obligations.FloatResults : Prop :=
  (∀ (fmt : SFmt) (d a : XReg) (b : XSrc) (s : State),
     let f := SFmt_fmt fmt
     let rm := rmOf s.c.cr.fctl
     let x := (s.c.getX a).toNat % 2 ^ fmtBits f
     let y := (s.c.xsrc b).toNat % 2 ^ fmtBits f
     let z := (s.c.getX d).toNat % 2 ^ fmtBits f
     let run2 (i32 i16 ib : XReg → XReg → XSrc → Instr) := exec (match fmt with | .f32 => i32 d a b | .f16 => i16 d a b | .bf16 => ib d a b) s
     let run1 (i32 i16 ib : XReg → XReg → Instr) := exec (match fmt with | .f32 => i32 d a | .f16 => i16 d a | .bf16 => ib d a) s
     let gives (o : Out) (r : FR) := floatsOrTraps o s d r
     gives (run2 .faddF32 .faddF16 .faddBF16) (fAdd f rm x y) ∧ gives (run2 .fsubF32 .fsubF16 .fsubBF16) (fSub f rm x y)
       ∧ gives (run2 .fmulF32 .fmulF16 .fmulBF16) (fMul f rm x y) ∧ gives (run2 .fdivF32 .fdivF16 .fdivBF16) (fDiv f rm x y)
       ∧ gives (run2 .fminF32 .fminF16 .fminBF16) (fMinMax false f x y) ∧ gives (run2 .fmaxF32 .fmaxF16 .fmaxBF16) (fMinMax true f x y)
       ∧ gives (run2 .ffmaF32 .ffmaF16 .ffmaBF16) (fFma f rm z x y) ∧ gives (run1 .fsqrtF32 .fsqrtF16 .fsqrtBF16) (fSqrt f rm x)
       ∧ gives (run1 .fabsF32 .fabsF16 .fabsBF16) (fSign false f x) ∧ gives (run1 .fnegF32 .fnegF16 .fnegBF16) (fSign true f x)
       ∧ run1 .fclassF32 .fclassF16 .fclassBF16 = floats s d ⟨fClass f x, 0⟩
       ∧ gives (run1 .fsinF32 .fsinF16 .fsinBF16) (fTrig false f x) ∧ gives (run1 .fcosF32 .fcosF16 .fcosBF16) (fTrig true f x)
       ∧ gives (run1 .fexp2F32 .fexp2F16 .fexp2BF16) (fExp2 f x) ∧ gives (run1 .flog2F32 .flog2F16 .flog2BF16) (fLog2 f x)
       ∧ gives (run1 .frcpF32 .frcpF16 .frcpBF16) (fRcp f x) ∧ gives (run1 .frsqF32 .frsqF16 .frsqBF16) (fRsq f x))
  ∧ (∀ (cc : FCond) (fmt : SFmt) (p : PReg) (dst src : Fmt) (d a : XReg) (b : XSrc) (s : State),
         let f := SFmt_fmt fmt
         let r := fCompare cc f ((s.c.getX a).toNat % 2 ^ fmtBits f) ((s.c.xsrc b).toNat % 2 ^ fmtBits f)
         let v := convert dst src s.c.cr.fctl ((s.c.getX a).toNat % 2 ^ fmtBits src)
         (untrapped s r.2 → exec (.fcmp cc fmt p a b) s = .next ((s.mapC fun c => c.orFlags r.2).done fun c => c.setP p r.1))
           ∧ (¬untrapped s r.2 → traps (exec (.fcmp cc fmt p a b) s) s r.2) ∧ floatsOrTraps (exec (.fcvt dst src d a) s) s d v)

/-- R123, R125, R126: the NaN, infinity and zero cases, in FP32, FP16 and BF16, for all operands of a case. ∞ − ∞, 0 × ∞, 0 ÷ 0, ∞ ÷ ∞ and the root
of every number below zero give the default NaN with nv, 0 × ∞ in FFMA whatever d holds; every finite non-zero number divided by a zero gives the infinity
of the quotient's sign with dz; the root of −0 is −0; a sum that is exactly zero is +0, and −0 in RDN; every NaN operand gives the default NaN, with nv for a signalling
one; a NaN compares unordered, with nv for the order conditions always and for the others when it signals; zeros are equal; the class of every
encoding. A BF16 subnormal operand, which R41 reads as a zero with uf, is left out of the arithmetic cases (`clean`). -/
def Obligations.FloatSpecialCases : Prop :=
  ∀ (fmt : SFmt) (rm : Rm) (x y z : Nat),
    let f := SFmt_fmt fmt
    let w := fmtBits f
    let fb := match fmt with | .f32 => 23 | .f16 => 10 | .bf16 => 7
    let inf := 2 ^ (w - 1) - 2 ^ fb
    let neg := 2 ^ (w - 1)
    let nan := inf + 2 ^ (fb - 1)
    let least := if fmt = .bf16 then 2 ^ 7 else 1
    let clean (x : Nat) : Prop := x < 2 ^ w ∧ (x % neg = 0 ∨ least ≤ x % neg)
    let m := x % neg
    let k := y % neg
    let differ : Prop := (neg ≤ x) ≠ (neg ≤ y)
    let sig (x : Nat) : Prop := inf < x % neg ∧ x % neg < nan
    let nv (p : Prop) [Decidable p] : Fl := if p then Fl.nv else 0
    let invalid : FR := ⟨nan, Fl.nv⟩
    clean x → clean y → clean z →
      (m = inf → k = inf → fDiv f rm x y = invalid ∧ (differ → fAdd f rm x y = invalid ∧ fSub f rm x y = ⟨x, 0⟩)
          ∧ (¬differ → fSub f rm x y = invalid ∧ fAdd f rm x y = ⟨x, 0⟩))
        ∧ (m = 0 → k = inf → fMul f rm x y = invalid ∧ fMul f rm y x = invalid ∧ fFma f rm z x y = invalid ∧ fFma f rm z y x = invalid)
        ∧ (m = 0 → k = 0 → fDiv f rm x y = invalid ∧ fCompare .eq f x y = (true, 0) ∧ fCompare .lt f x y = (false, 0))
        ∧ (0 < m → m < inf → k = 0 → (differ → fDiv f rm x y = ⟨neg + inf, Fl.dz⟩) ∧ (¬differ → fDiv f rm x y = ⟨inf, Fl.dz⟩))
        ∧ (neg < x → m ≤ inf → fSqrt f rm x = invalid) ∧ (x = neg → fSqrt f rm x = ⟨neg, 0⟩)
        ∧ (0 < m → m < inf → k = m → (differ → fAdd f rm x y = ⟨if rm = .rdn then neg else 0, 0⟩)
            ∧ (¬differ → fSub f rm x y = ⟨if rm = .rdn then neg else 0, 0⟩))
        ∧ (inf < m → (∀ op ∈ [fAdd, fSub, fMul, fDiv], op f rm x y = ⟨nan, nv (sig x ∨ sig y)⟩ ∧ op f rm y x = ⟨nan, nv (sig x ∨ sig y)⟩)
            ∧ fSqrt f rm x = ⟨nan, nv (sig x)⟩
            ∧ (∀ cc ∈ [FCond.eq, .ord], fCompare cc f x y = (false, nv (sig x ∨ sig y)) ∧ fCompare cc f y x = (false, nv (sig x ∨ sig y)))
            ∧ (∀ cc ∈ [FCond.ne, .un], fCompare cc f x y = (true, nv (sig x ∨ sig y)) ∧ fCompare cc f y x = (true, nv (sig x ∨ sig y)))
            ∧ ∀ cc ∈ [FCond.lt, .le, .gt, .ge], fCompare cc f x y = (false, Fl.nv) ∧ fCompare cc f y x = (false, Fl.nv))
        ∧ ∀ e, e < 2 ^ w → fClass f e =
            if inf < e % neg then (if e % neg < nan then 256 else 512)
            else if e % neg = inf then (if neg ≤ e then 1 else 128)
            else if 2 ^ fb ≤ e % neg then (if neg ≤ e then 2 else 64)
            else if e % neg = 0 then (if neg ≤ e then 8 else 16) else if neg ≤ e then 4 else 32

/-! Control flow, waits, traps and control registers. -/

/-- R61: an instruction that completes goes on at the address after it, ends its wait, and its long form's slot falls; no other slot and
nothing else changes. -/
def Obligations.CompletionAdvances : Prop :=
  ∀ (s : State) (g : Ctx → Ctx),
    let u := g s.c
    let t := s.done g
    onlyCtx s t ∧ t.c = { u with pc := u.npc, wait := none, latch := none, sb := t.c.sb } ∧ (u.latch = none → t.c.sb = u.sb)
      ∧ ∀ i, u.latch = some i → t.c.sb[i] = u.sb[i] - 1 ∧ ∀ j : Slot, j ≠ i → t.c.sb[j] = u.sb[j]

/-- R112 to R115: a branch completes at its target, or at the address after it when it is not taken; CALL leaves the return address in a14;
LOOP counts down. A target that is not a multiple of 4 raises misalignment at a J or RET. -/
def Obligations.BranchResults : Prop :=
  ∀ (off : BitVec 20) (off8 : BitVec 8) (neg : Bool) (p : PReg) (base : AReg) (k : BitVec 3) (s : State),
    let rel : Word := s.c.pc + .ofInt 64 (4 * off.toInt)
    let goes (t : Word) : Out := .next (s.done fun c => { c with npc := t })
    let ind : Word := s.c.getA base + .ofInt 64 (4 * off8.toInt)
    let n : AReg := ⟨8 + k.toNat, by omega⟩
    let count : Word := s.c.getA n - 1
    (s.c.getP p ≠ neg → exec (.b off neg p) s = goes rel ∧ exec (.bp off neg p) s = goes rel)
      ∧ (s.c.getP p = neg → exec (.b off neg p) s = .next s.retire ∧ exec (.bp off neg p) s = .next s.retire)
      ∧ (ind.toNat % 4 = 0 → exec (.j off8 base) s = goes ind) ∧ (ind.toNat % 4 ≠ 0 → exec (.j off8 base) s = .next (s.misaligned ind))
      ∧ ((s.c.getA 14).toNat % 4 = 0 → exec .ret s = goes (s.c.getA 14))
      ∧ ((s.c.getA 14).toNat % 4 ≠ 0 → exec .ret s = .next (s.misaligned (s.c.getA 14)))
      ∧ exec (.call off) s = .next (s.done fun c => { c.setA 14 s.c.npc with npc := rel })
      ∧ (count ≠ 0 → exec (.loop off k) s = .next (s.done fun c => { c.setA n count with npc := rel }))
      ∧ (count = 0 → exec (.loop off k) s = .next (s.done fun c => c.setA n count))

/-- R61, R72, R117 to R119: WAIT completes exactly when every slot of its mask is 0, with no other effect; NOP completes; every HINT completes
with no effect but the pause of code 0 and the place in its set's order of eviction of the L1 line that code 1 names; the end of a pause is the context's alone; the wrapper of a long form lets its instruction go on when its
mask is clear and its guard true, counting its slot, and completes without it when the guard is false. With a mask that is not clear, or a slot that holds 63
where the instruction would set it, the wrapper waits, and neither reads its guard nor counts. -/
def Obligations.WaitAndWrapperResults : Prop :=
  ∀ (mask : BitVec 16) (code x y z : BitVec 6) (f : Nat) (m : Mods) (s : State),
    let clear (k : BitVec 16) (s : State) : Prop := ∀ i : Slot, k.getLsbD i → s.c.sb[i] = 0
    (clear mask s → exec (.wait mask) s = .next s.retire)
      ∧ (¬ clear mask s → completes (exec (.wait mask) s) fun t => t.c.pc = s.c.pc ∧ onlyCtx s t ∧ t.c = { s.c with wait := t.c.wait } ∧ t.c.wait.isSome)
      ∧ exec .nop s = .next s.retire
      ∧ (completes (exec (.hint code x y z) s) fun t =>
          t = { s.retire with c := { s.retire.c with pause := t.c.pause }, l1 := t.l1 } ∧ (code ≠ 0 → t.c.pause = s.c.pause) ∧ (code = 0 → t.c.pause = s.time + 32)
            ∧ (code ≠ 1 → t.l1 = s.l1) ∧ (∀ l, l ∈ t.l1 ↔ l ∈ s.l1)
            ∧ ∀ (i : XReg) (l : L1Line), code = 1 → i.val = y.toNat →
                (s.l1.find? fun l => l.clu == s.myClu && l.asid == s.c.asid && l.line == (s.c.getX i).toNat / 64) = some l → t.l1.head? = some l)
      ∧ ((s.ctx f).pause ≠ 0 → (s.ctx f).pause ≤ s.time → exec (.hintPauseEnd f) s = .next (s.setCtx f { s.ctx f with pause := 0 }))
      ∧ (s.c.wait = none → (¬clear m.wmask s ∨ s.c.getP m.gp ≠ m.gn ∧ m.sen = true ∧ s.c.sb[m.sslot] = 63) →
          completes (exec (.longForm m) s) fun t => onlyCtx s t ∧ t.c = { s.c with wait := t.c.wait }
            ∧ ∃ w, t.c.wait = some w ∧ w.wrap = true ∧ w.begun = false ∧ w.pc = s.c.pc ∧ w.npc = s.c.npc ∧ w.since = s.time)
      ∧ (s.c.wait = none → clear m.wmask s →
          (s.c.getP m.gp = m.gn → exec (.longForm m) s = .next s.retire)
            ∧ (s.c.getP m.gp ≠ m.gn → m.sen = false → exec (.longForm m) s = .next { s with c := { s.c with go := true } })
            ∧ (s.c.getP m.gp ≠ m.gn → m.sen = true → s.c.sb[m.sslot] ≠ 63 →
                exec (.longForm m) s = .next { s with c := { s.c with go := true, latch := some m.sslot, sb := s.c.sb.set m.sslot (s.c.sb[m.sslot] + 1) } }))

/-- R69, R120, R365, R366, R372: TRAP and an unassigned encoding freeze the core, with their codes and TRAP's number as the info. R20, R28, R177, R365, R366: so
do the faults that the meanings of the other statements name: illegal instruction (0x20), reserved field (0x21), misalignment (0x22) at an effective address, and
privilege (0x23), with info 0. -/
def Obligations.TrapFreezes : Prop :=
  (∀ (i : Instr) (code info : Nat) (s : State),
     ((∃ n, i = .trap n ∧ code = 0x25 ∧ info = n.toNat) ∨ (∃ w, i = .unassignedEncoding w ∧ code = 0x20 ∧ info = 0)) →
       completes (exec i s) fun t => frozen s t code info 0)
  ∧ (∀ (s : State) (ea : Word),
         frozen s s.illegal 0x20 0 0 ∧ frozen s s.reservedField 0x21 0 0 ∧ frozen s (s.misaligned ea) 0x22 0 ea ∧ frozen s s.privilege 0x23 0 0)

/-- R52, R94, R96 to R98, R121: CRR reads a register in the modes that may, and CRW writes one whose value meets the fields and limits of its table; a number
no register has, or a read-only one for CRW, is illegal; a supervisor register in user mode raises privilege; another value raises the reserved-field fault
with the register unchanged; a CRW of cr.asid waits while any slot of its context is not 0. R93, R94, R121: a control register that CRW writes reads back the value written, and every other
register of the table reads as before. -/
def Obligations.ControlRegisterAccess : Prop :=
  (∀ (d a : XReg) (r : BitVec 12) (s : State),
     let n := r.toNat
     let v := s.c.getX a
     let readOnly : List Nat := [0x000, 0x050, 0x100, 0x101, 0x102, 0x103, 0x104, 0x108, 0x109, 0x10A, 0x10B, 0x10C, 0x10D, 0x10E, 0x10F]
     let user : List Nat := [0x001, 0x002, 0x003, 0x004, 0x008, 0x010, 0x011, 0x012, 0x013, 0x020, 0x021, 0x022, 0x040, 0x041, 0x042, 0x043, 0x051]
     let supWrite : List Nat := [0x030, 0x031]
     let sup : List Nat := [0x800, 0x801, 0x802, 0x803, 0x804, 0x805, 0x806, 0x807, 0x810, 0x811]
     let z := bitsOf v
     let meets : Prop :=
       (n = 0x001 → z 63 11 = 0 ∧ z 2 0 ≤ 4) ∧ (n = 0x002 → z 63 7 = 0)
         ∧ (n = 0x003 ∨ n = 0x004 → (z 63 60 ≤ 6 ∨ z 63 60 = 8 ∨ z 63 60 = 9) ∧ z 58 52 = 0 ∧ z 0 0 = 0)
         ∧ (n = 0x008 ∨ n = 0x022 → z 63 52 = 0 ∧ z 1 0 = 0) ∧ (n = 0x020 → z 63 18 = 0 ∧ z 5 0 = 0)
         ∧ (n = 0x021 → z 63 19 = 0 ∧ z 5 0 = 0 ∧ z 18 0 ≤ 0x40000) ∧ (n = 0x030 → z 63 16 = 0) ∧ (n = 0x031 → z 63 1 = 0)
         ∧ (n = 0x040 ∨ n = 0x041 ∨ n = 0x042 → z 63 32 = 0) ∧ (n = 0x043 → z 63 8 = 0 ∧ z 7 0 ≠ 0) ∧ (n = 0x051 → z 63 52 = 0 ∧ z 5 0 = 0)
         ∧ (0x800 ≤ n → n ≤ 0x807 → 1 ≤ z 62 59 ∧ z 62 59 ≤ 12 ∧ z 58 54 ≤ 16 ∧ z 53 48 ≤ 36 ∧ z 47 36 = 0 ∧ z 35 0 % 2 ^ z 53 48 = 0)
         ∧ (n = 0x810 → z 63 10 = 0 ∧ z 8 4 ≤ 24) ∧ (n = 0x811 → z 63 48 = 0 ∧ z 15 0 = 0)
     let clear : Prop := ∀ i : Slot, s.c.sb[i] = 0
     ((n ∈ readOnly ∨ n ∈ user ∨ n ∈ supWrite ∨ (n ∈ sup ∧ s.c.st.sup = true)) → exec (.crr d r) s = setsX s d (s.crRead n))
       ∧ (n ∈ sup → s.c.st.sup = false → exec (.crr d r) s = .next s.privilege)
       ∧ (n ∉ readOnly → n ∉ user → n ∉ supWrite → n ∉ sup → exec (.crr d r) s = .next s.illegal)
       ∧ ((n ∈ user ∨ (n ∈ supWrite ∨ n ∈ sup) ∧ s.c.st.sup = true) →
           (meets → n ≠ 0x030 ∨ clear → exec (.crw r a) s = .next (s.crWrite n v).retire)
             ∧ (meets → n = 0x030 → ¬clear → exec (.crw r a) s = .next s.stall)
             ∧ (¬meets → exec (.crw r a) s = .next s.reservedField))
       ∧ ((n ∈ supWrite ∨ n ∈ sup) → s.c.st.sup = false → exec (.crw r a) s = .next s.privilege)
       ∧ (n ∉ user → n ∉ supWrite → n ∉ sup → exec (.crw r a) s = .next s.illegal))
  ∧ (∀ (s : State) (n m : Nat) (v : Word),
         let writable : List Nat := [0x001, 0x002, 0x003, 0x004, 0x008, 0x010, 0x011, 0x012, 0x013, 0x020, 0x021, 0x022, 0x030, 0x031, 0x040, 0x041, 0x042,
           0x043, 0x051, 0x800, 0x801, 0x802, 0x803, 0x804, 0x805, 0x806, 0x807, 0x810, 0x811]
         let other : List Nat := [0x000, 0x050, 0x100, 0x101, 0x102, 0x103, 0x104, 0x108, 0x109, 0x10A, 0x10B, 0x10C, 0x10D, 0x10E, 0x10F]
         n ∈ writable → (s.crWrite n v).crRead n = v ∧ (m ∈ writable ++ other → m ≠ n → (s.crWrite n v).crRead m = s.crRead m))

/-! Ports. -/

/-- R109, R269, R270: the register moves; a take of the oldest word of a port's buffer; a send into the buffer of the port it is bound to, when that
has room; PTRY and PTRYS the same with their predicate; and PCFG. No other context of the core waits on the port. R96, R98, R270: a PTRY or PTRYS that
begins to wait samples cr.ptmo; one that has waited the cycles it sampled, which are not 0, completes with its predicate false and nothing taken or sent;
the delivery of a word ends the wait of a context for it. A context whose wait has ended is ready from then on (R336). -/
def Obligations.PortResults : Prop :=
  (∀ (x y : XReg) (a b : AReg) (n : NReg) (d : Reg) (p : PReg) (w : Word) (ws : List Word) (bw : Word) (s : State),
     let k := s.core s.myCore
     let dst := bindingDest bw
     let free (which : Instr → Option NReg) : Prop := s.earlier which n = false
     let taken : State := s.setCore s.myCore (k.setPort n.val { k.port n.val with buf := ws })
     let room : Prop := (k.port n.val).binding = some bw ∧ (s.core dst.1).frozen = false ∧ (s.core dst.1).fenced = false ∧ s.dev.halted = false
       ∧ ((s.core dst.1).port dst.2).buf.length < 4
     let sent (v : Word) : State := s.setCore dst.1 ((s.core dst.1).setPort dst.2 { (s.core dst.1).port dst.2 with buf := ((s.core dst.1).port dst.2).buf ++ [v] })
     exec (.mov (.x x) (.x y)) s = setsX s x (s.c.getX y) ∧ exec (.mov (.a a) (.a b)) s = sets s (.a a) (s.c.getA b)
       ∧ exec (.mov (.a a) (.x x)) s = sets s (.a a) (s.c.getX x) ∧ exec (.mov (.x x) (.a a)) s = .next s.illegal
       ∧ (free takesFrom → (k.port n.val).buf = w :: ws →
           exec (.mov (.x x) (.n n)) s = setsX taken x w ∧ exec (.mov (.a a) (.n n)) s = sets taken (.a a) w
             ∧ exec (.ptry d n p) s = .next (taken.done fun c => (c.setReg d w).setP p true))
       ∧ (free sendsOn → room →
           exec (.mov (.n n) (.x x)) s = .next (sent (s.c.getX x)).retire ∧ exec (.mov (.n n) (.a a)) s = .next (sent (s.c.getA a)).retire
             ∧ exec (.ptrys n d p) s = setsP (sent (s.c.getReg d)) p true)
       ∧ (free sendsOn → bitsOf bw 62 14 = 0 → bitsOf bw 1 0 = 0 → s.c.getX x = bw → (bw.getLsbD 63 = true → (s.core dst.1).fenced = false) →
           completes (exec (.pcfg n x) s) fun t => ((t.core s.myCore).port n.val).binding = (if bw.getLsbD 63 then some bw else none)
             ∧ ((t.core s.myCore).port n.val).buf = (k.port n.val).buf ∧ t.c.pc = s.c.npc ∧ t.mem = s.mem ∧ t.c.x = s.c.x))
  ∧ (∀ (d : Reg) (n : NReg) (p : PReg) (x : XReg) (f : Nat) (i : Instr) (w : Wait) (v : Word) (vs : List Word) (s : State),
         let c := s.ctx f
         let waits : Prop := c.live = true ∧ (s.core (coreOf f)).frozen = false ∧ c.wait = some w ∧ w.wrap = false
         let late : Prop := waits ∧ w.limit ≠ 0 ∧ w.limit.toNat ≤ (s.time - w.since).toNat
         let u := (s.select f).mapC fun c => { c with npc := w.npc }
         let begins (i : Instr) : Prop := completes (exec i s) fun t =>
           onlyCtx s t ∧ t.c = { s.c with wait := t.c.wait } ∧ ∃ w, t.c.wait = some w ∧ w.limit = s.c.cr.ptmo ∧ w.since = s.time ∧ w.wrap = false
         (s.c.wait = none → ((s.portTake n).isNone → begins (.ptry d n p)) ∧ ((s.portSend n (s.c.getReg d)).isNone → begins (.ptrys n d p)))
           ∧ (late → w.instr = some (.ptry d n p) → (u.portTake n).isNone → exec (.ptryTimeout f) s = .next ((u.done fun c => c.setP p false).readied.select s.self))
           ∧ (late → w.instr = some (.ptrys n d p) → (u.portSend n (u.c.getReg d)).isNone →
               exec (.ptrysTimeout f) s = .next ((u.done fun c => c.setP p false).readied.select s.self))
           ∧ (waits → w.instr = some (.mov (.x x) (.n n)) → u.earlier takesFrom n = false →
               ((u.core u.myCore).port n.val).buf = v :: vs → i = .portWordDelivery f →
               exec i s = .next (((u.setCore u.myCore ((u.core u.myCore).setPort n.val { (u.core u.myCore).port n.val with buf := vs })).done fun c => c.setX x v).readied.select s.self)))

/-! Issued accesses. -/

/-- R89, R176: an issued access: the slot's count rises, the access leaves the stream with its address, its data and its number in a
region's recording, if it has one, and the instruction completes. -/
def Sys2Proof.Says.issued (s : State) (slot : Slot) (ea : Word) (op : MemOp) (num : Option (Nat × Nat)) : State :=
  let a : Access := { aid := s.nextId, slot := some slot, pc := s.c.pc, ea := ea, asid := s.c.asid, op := op, inHandler := s.c.st.upc, held := false,
                      back := false, done := 0, got := 0, recNo := num, work := none }
  let c := { s.c with sb := s.c.sb.set slot (s.c.sb[slot] + 1), acc := s.c.acc ++ [a], sidx := if num.isSome then s.c.sidx + 1 else s.c.sidx }
  { s with nextId := s.nextId + 1, c := c.retire }

/-- The number a store gets in the region its context is a member of (R304). -/
def Sys2Proof.Says.number (s : State) (ea : Word) : Option (Nat × Nat) :=
  match s.c.region with
  | none => none
  | some k =>
    let r := (s.die s.myDie).region k
    if r.state ≠ 0 ∧ r.asid = s.c.asid ∧ r.base ≤ 64 * (ea.toNat / 64) ∧ 64 * (ea.toNat / 64) < r.base + r.len then some (k, s.c.sidx) else none

/-- An access instruction raises misalignment where its address is bad; else it waits while its slot holds 63; else it is issued. -/
def Sys2Proof.Says.access (i : Instr) (s : State) (slot : Slot) (ea : Word) (bad : Prop) (op : MemOp) (num : Option (Nat × Nat)) : Prop :=
  (bad → exec i s = .next (s.misaligned ea)) ∧ (¬bad → s.c.sb[slot] = 63 → exec i s = .next s.stall)
    ∧ (¬bad → s.c.sb[slot] ≠ 63 → exec i s = .next (issued s slot ea op num))

/-- R177 to R184, R191 to R194: the accesses to virtual memory. The effective address is the base plus the sign-extended offset, scaled for
LDA and STRL; it must be a multiple of the size (4096 for CZFENCE and CZSTAT, 64 for CBLOAD, none for PREF and FENCE). Data is sampled at issue. -/
def Obligations.VirtualAccessIssue : Prop :=
  ∀ (slot : Slot) (off : BitVec 32) (off8 : BitVec 8) (base : AReg) (d : Reg) (size : BitVec 2) (sc : Scope) (l2 : Bool) (s : State),
    let ea : Word := s.c.getA base + .ofInt 64 off.toInt
    let n := 2 ^ size.toNat
    let eas : Word := s.c.getA base + .ofInt 64 (off8.toInt * n)
    let v := s.c.getReg d
    let loads (i : Instr) (n : Nat) (sx : Bool) := access i s slot ea (ea.toNat % n ≠ 0) (.ld n sx d) none
    let stores (i : Instr) (n : Nat) := access i s slot ea (ea.toNat % n ≠ 0) (.st n v) (number s ea)
    loads (.ldS8 slot off base d) 1 true ∧ loads (.ldU8 slot off base d) 1 false ∧ loads (.ldS16 slot off base d) 2 true
      ∧ loads (.ldU16 slot off base d) 2 false ∧ loads (.ldS32 slot off base d) 4 true ∧ loads (.ldU32 slot off base d) 4 false
      ∧ loads (.ld64 slot off base d) 8 false ∧ stores (.st8 slot off base d) 1 ∧ stores (.st16 slot off base d) 2
      ∧ stores (.st32 slot off base d) 4 ∧ stores (.st64 slot off base d) 8
      ∧ access (.lda size sc slot off8 base d) s slot eas (eas.toNat % n ≠ 0) (.lda n sc d) none
      ∧ access (.strl size sc slot off8 base d) s slot eas (eas.toNat % n ≠ 0) (.strl n sc v) (number s eas)
      ∧ access (.pref slot off base l2) s slot ea False (.pref l2) none ∧ access (.fence slot sc) s slot 0 False (.fence sc) none
      ∧ access (.czfence slot off base d) s slot ea (ea.toNat % 4096 ≠ 0) (.czfence v) none
      ∧ access (.cbload slot off base d) s slot ea (ea.toNat % 64 ≠ 0) (.cbload d) none
      ∧ access (.czstat slot off base d) s slot ea (ea.toNat % 4096 ≠ 0) (.czstat d) none

/-- R159, R177 to R179, R185, R186: the accesses to the local store. Bit 63 of the address is ignored; the access must lie in the context's
window, whose size is 16 KiB times lsblk, and be a multiple of its size (16 for FEMARK, whose run must end in the window). -/
def Obligations.LocalStoreIssue : Prop :=
  ∀ (slot : Slot) (off : BitVec 32) (base : AReg) (d : Reg) (s : State),
    let ea : Word := s.c.getA base + .ofInt 64 off.toInt
    let o := ea.toNat % 2 ^ 63
    let v := s.c.getReg d
    let end_ := 16384 * s.c.st.lsblk.toNat
    let acc (i : Instr) (n : Nat) (op : MemOp) := access i s slot ea (o % n ≠ 0 ∨ 2 ^ 18 ≤ o ∨ end_ < o + n) op none
    let marks (i : Instr) (full : Bool) := access i s slot ea (o % 16 ≠ 0 ∨ 2 ^ 18 ≤ o ∨ end_ < o + 16 * v.toNat) (.femark full v) none
    acc (.ldl8 slot off base d) 1 (.ldl 1 d) ∧ acc (.ldl16 slot off base d) 2 (.ldl 2 d) ∧ acc (.ldl32 slot off base d) 4 (.ldl 4 d)
      ∧ acc (.ldl64 slot off base d) 8 (.ldl 8 d) ∧ acc (.stl8 slot off base d) 1 (.stl 1 v) ∧ acc (.stl16 slot off base d) 2 (.stl 2 v)
      ∧ acc (.stl32 slot off base d) 4 (.stl 4 v) ∧ acc (.stl64 slot off base d) 8 (.stl 8 v) ∧ acc (.ldfeC slot off base d) 8 (.ldfe true d)
      ∧ acc (.ldfeK slot off base d) 8 (.ldfe false d) ∧ acc (.stfe slot off base d) 8 (.stfe v)
      ∧ marks (.femarkE slot off base d) false ∧ marks (.femarkF slot off base d) true

/-- R177, R187 to R189: AMO and CAS. They act on virtual memory, or at .core with bit 63 of the address on the local store; the data register, or the
pair of them, is sampled at issue. R187: the values AMO writes, of n bytes: the sum and the smaller and larger as two's complement numbers, and the
bitwise ones; FADD is the binary32 sum rounded to nearest even. -/
def Obligations.AtomicIssue : Prop :=
  (∀ (slot : Slot) (off : BitVec 8) (base : AReg) (d : XReg) (j : Fin 15) (sc : Scope) (wide : Bool) (s : State),
     let eaOf (n : Nat) : Word := s.c.getA base + .ofInt 64 (off.toInt * n)
     let acc (i : Instr) (n : Nat) (op : MemOp) : Prop :=
       let ea := eaOf n
       let o := ea.toNat % 2 ^ 63
       if sc = .core ∧ 2 ^ 63 ≤ ea.toNat then access i s slot ea (o % n ≠ 0 ∨ 2 ^ 18 ≤ o ∨ 16384 * s.c.st.lsblk.toNat < o + n) op none
       else access i s slot ea (ea.toNat % n ≠ 0) op (number s ea)
     let amo (i : Scope → Slot → BitVec 8 → AReg → XReg → Instr) (n : Nat) (op : AmoOp) : Prop :=
       acc (i sc slot off base d) n (.amo n op sc (s.c.getX d) d)
     let n := if wide then 8 else 4
     let even : XReg := ⟨2 * j.val + 2, by omega⟩
     let odd : XReg := ⟨2 * j.val + 3, by omega⟩
     amo .amo32Add 4 .add ∧ amo .amo32Fadd 4 .fadd ∧ amo .amo32Min 4 .min ∧ amo .amo32Max 4 .max ∧ amo .amo32And 4 .and ∧ amo .amo32Or 4 .or
       ∧ amo .amo32Xor 4 .xor ∧ amo .amo32Swap 4 .swap ∧ amo .amo64Add 8 .add ∧ amo .amo64Min 8 .min ∧ amo .amo64Max 8 .max
       ∧ amo .amo64And 8 .and ∧ amo .amo64Or 8 .or ∧ amo .amo64Xor 8 .xor ∧ amo .amo64Swap 8 .swap
       ∧ acc (.cas wide sc slot off base j) n (.cas n sc (s.c.getX even) (s.c.getX odd) j))
  ∧ (∀ (n old v : Nat), n = 4 ∨ n = 8 → old < 2 ^ (8 * n) → v < 2 ^ (8 * n) →
         let sgn (k : Nat) : Int := (k : Int).bmod (2 ^ (8 * n))
         amoNew .add n old v = ((old + v) % 2 ^ (8 * n), 0) ∧ amoNew .and n old v = (old &&& v, 0) ∧ amoNew .or n old v = (old ||| v, 0)
           ∧ amoNew .xor n old v = (old ^^^ v, 0) ∧ amoNew .swap n old v = (v, 0)
           ∧ ((amoNew .min n old v).1 = old ∨ (amoNew .min n old v).1 = v) ∧ sgn (amoNew .min n old v).1 = min (sgn old) (sgn v)
           ∧ ((amoNew .max n old v).1 = old ∨ (amoNew .max n old v).1 = v) ∧ sgn (amoNew .max n old v).1 = max (sgn old) (sgn v)
           ∧ amoNew .fadd n old v = ((fAdd .f32 .rne old (v % 2 ^ (8 * n))).bits, (fAdd .f32 .rne old (v % 2 ^ (8 * n))).fl))

/-- R152, R154: the vector accesses, for a context with lanes whose active lanes are well formed: the access is issued with its mask below the
grant, its indices and its data. A lane that is not a multiple of the element, or passes the context's window, raises misalignment at its
address, the lowest such lane's; with no lanes they are illegal. -/
def Obligations.VectorAccessIssue : Prop :=
  ∀ (m : KReg) (fmt : Fmt) (slot : Slot) (off : BitVec 8) (base : AReg) (d idx : VReg) (i : Fin 256) (s : State),
    let ea : Word := s.c.getA base + .ofInt 64 (64 * off.toInt)
    let b := s.c.getA base
    let e := fmtBytes fmt
    let k := s.c.getK m &&& s.c.lanes
    let ix := s.c.getV idx
    let v := s.c.getV d
    let bad (a : Word) : Prop := a.toNat % e ≠ 0 ∨ (2 ^ 63 ≤ a.toNat ∧ (2 ^ 18 ≤ a.toNat % 2 ^ 63 ∨ 16384 * s.c.st.lsblk.toNat < a.toNat % 2 ^ 63 + e))
    let direct (i : Fin 256) : Word := ea + .ofNat 64 (i.val * e)
    let indexed (i : Fin 256) : Word := b + .ofNat 64 ((laneOf ix i).toNat * e)
    let good (la : Fin 256 → Word) : Prop := s.c.grant ≠ 0 ∧ s.c.sb[slot] ≠ 63 ∧ s.c.region = none ∧ ∀ i : Fin 256, k.getLsbD i = true → ¬bad (la i)
    let first (la : Fin 256 → Word) : Prop := s.c.grant ≠ 0 ∧ k.getLsbD i = true ∧ bad (la i) ∧ ∀ j : Fin 256, j < i → k.getLsbD j = true → ¬bad (la j)
    (s.c.grant = 0 → exec (.vld m fmt slot off base d) s = .next s.illegal ∧ exec (.vst m fmt slot off base d) s = .next s.illegal
        ∧ exec (.vldx m fmt slot idx base d) s = .next s.illegal ∧ exec (.vstx m fmt slot idx base d) s = .next s.illegal)
      ∧ (good direct → exec (.vld m fmt slot off base d) s = .next (issued s slot ea (.vld k fmt d) none)
          ∧ exec (.vst m fmt slot off base d) s = .next (issued s slot ea (.vst k fmt v) none))
      ∧ (good indexed → exec (.vldx m fmt slot idx base d) s = .next (issued s slot b (.vldx k fmt ix d) none)
          ∧ exec (.vstx m fmt slot idx base d) s = .next (issued s slot b (.vstx k fmt ix v) none))
      ∧ (first direct → exec (.vld m fmt slot off base d) s = .next (s.misaligned (direct i))
          ∧ exec (.vst m fmt slot off base d) s = .next (s.misaligned (direct i)))
      ∧ (first indexed → exec (.vldx m fmt slot idx base d) s = .next (s.misaligned (indexed i))
          ∧ exec (.vstx m fmt slot idx base d) s = .next (s.misaligned (indexed i)))

/-! Performing. -/

/-- R3, R158: plain memory in its canonical form: a byte reads as what was last written to it, every other byte as before; a read of n bytes is their
little-endian number, and the bytes of a write of n bytes alone change. -/
def Obligations.MemoryReadAfterWrite : Prop :=
  ∀ (m : Memory) (p q n v : Nat) (b : Byte),
    (m.wf = true → (m.set p b).get p = b ∧ (q ≠ p → (m.set p b).get q = m.get q))
      ∧ (m.wf = true → (m.write p n v).read p n = v % 256 ^ n ∧ (q < p ∨ p + n ≤ q → (m.write p n v).get q = m.get q))
      ∧ m.read p n = ((List.range n).map fun k => (m.get (p + k)).toNat * 256 ^ k).sum

/-- The state in which the access at hand of the selected context is done: it is gone, its slot has fallen, its results are written. -/
def Sys2Proof.Says.performed (s : State) (a : Access) (ws : List (Reg × Word)) (c : Ctx) : Prop :=
  let sb := match a.slot with
    | some i => s.c.sb.set i (s.c.sb[i] - 1)
    | none => s.c.sb
  c = ws.foldl (fun c w => c.setReg w.1 w.2) { s.c with acc := s.c.acc.filter (·.aid ≠ a.aid), sb := sb }

/-- R89, R158, R160, R161, R179, R185, R186: SCOREBOARD_DECREMENT performs an issued local-store access of the selected context, none of whose instructions stands between its
streams: LDL writes the zero-extended little-endian bytes, STL writes the low bytes of its data and no other byte; the slot falls by 1; full-empty bits,
memory and every other register stay, and of the core only its port's counts move (R162). With no other full-empty access on its granules an LDFE waits while its
granule is empty, and with it full takes its 8 bytes, LDFE.c emptying the granule; an STFE writes its 8 bytes and fills its granule; a FEMARK empties or fills
its run of granules and no other, with the data as it was. An STFE or FEMARK.f that fills a granule on which an LDFE of another context of the core waits completes
that too, with the bytes as they then are, an LDFE.c leaving the granule empty. R65, R180: the data of an LDL that the execute stream has
not come to, be it past a branch or not, goes into the load-data queue, and x[d] stays. -/
def Obligations.LocalStorePerformed : Prop :=
  ∀ (s : State) (a : Access) (n : Nat) (d : Reg) (v : Word),
    let k := s.core s.myCore
    let o := 16384 * s.c.st.lsbase.toNat + a.ea.toNat % 2 ^ 18
    let waits : Prop := s.c.live = true ∧ s.c.acc.find? (·.aid == a.aid) = some a ∧ a.held = false ∧ a.back = false
    let g := o / 16
    let gs := a.granules s.c
    let onThem := (s.feAccs s.myCore).filter fun x => (x.2.granules (s.ctx x.1)).any gs.contains
    let alone : Prop := onThem = [(s.self, a)] ∨ gs = []
    let rest (t : State) : Prop := t = { s with c := t.c, cores := t.cores } ∧ (∀ j, j ≠ s.myCore → t.core j = s.core j)
      ∧ t.core s.myCore = { k with ls := (t.core s.myCore).ls, full := (t.core s.myCore).full, lsPass := (t.core s.myCore).lsPass }
    let i := Instr.scoreboardDecrement s.self a.aid
    (waits → s.c.win = [] → completes (exec (.scoreboardDecrement s.self a.aid) s) fun t =>
        let k' := t.core s.myCore
        (a.op = .ldl n d → performed s a [(d, .ofNat 64 (k.ls.read o n))] t.c ∧ k'.ls = k.ls)
          ∧ (a.op = .stl n v → performed s a [] t.c ∧ k'.ls = k.ls.write o n (v.toNat % 2 ^ (8 * n)))
          ∧ (a.op = .ldl n d ∨ a.op = .stl n v → k' = { k with ls := k'.ls, lsPass := k'.lsPass } ∧ t = { s with c := t.c, cores := t.cores } ∧ ∀ j, j ≠ s.myCore → t.core j = s.core j))
      ∧ (∀ i : XReg, waits → behind s.c.win a.aid = true → a.op = .ldl n (.x i) → completes (exec (.scoreboardDecrement s.self a.aid) s) fun t =>
          t.c = { s.c with acc := t.c.acc, sb := t.c.sb, win := queueWrites s.c.win a.aid [(.x i, .ofNat 64 (k.ls.read o n))] [] [] }
            ∧ t.c.acc = s.c.acc.filter (·.aid ≠ a.aid) ∧ ∀ j, a.slot = some j → t.c.sb = s.c.sb.set j (s.c.sb[j] - 1))
      ∧ (waits → s.c.win = [] → ∀ consume, a.op = .ldfe consume d → (k.isFull g = false → exec i s = .next s)
          ∧ (k.isFull g = true → alone → completes (exec i s) fun t => rest t ∧ performed s a [(d, .ofNat 64 (k.ls.read o 8))] t.c
              ∧ (t.core s.myCore).ls = k.ls ∧ ∀ h, (t.core s.myCore).isFull h = (k.isFull h && !(consume && h == g))))
      ∧ (waits → s.c.win = [] → alone → a.op = .stfe v → completes (exec i s) fun t => rest t ∧ performed s a [] t.c
          ∧ (t.core s.myCore).ls = k.ls.write o 8 v.toNat ∧ ∀ h, (t.core s.myCore).isFull h = (k.isFull h || h == g))
      ∧ (waits → s.c.win = [] → alone → ∀ full, a.op = .femark full v → completes (exec i s) fun t => rest t ∧ performed s a [] t.c
          ∧ (t.core s.myCore).ls = k.ls ∧ ∀ h, (t.core s.myCore).isFull h = if g ≤ h ∧ h < g + v.toNat then full else k.isFull h)
      ∧ ∀ (f : Nat) (b : Access) (consume : Bool), waits → s.c.win = [] → (onThem = [(f, b), (s.self, a)] ∨ onThem = [(s.self, a), (f, b)]) → f ≠ s.self →
          coreOf f = s.myCore → (s.ctx f).acc.find? (·.aid == b.aid) = some b → b.op = .ldfe consume d → (∀ h ∈ b.granules (s.ctx f), k.isFull h = false) →
          (a.op = .stfe v ∨ a.op = .femark true v) → completes (exec i s) fun t =>
            let ls := if a.op = .stfe v then k.ls.write o 8 v.toNat else k.ls
            (t.core s.myCore).ls = ls ∧ performed s a [] t.c
              ∧ t.ctx f = (s.ctx f).finishAcc b.aid [(d, .ofNat 64 (ls.read (16384 * (s.ctx f).st.lsbase.toNat + b.ea.toNat % 2 ^ 18) 8))] none
              ∧ ∀ h, h ∈ b.granules (s.ctx f) → (t.core s.myCore).isFull h = !consume

/-- R152 to R154, R179, R182 to R184, R187 to R189, R191 to R194: an issued access of the selected context to virtual memory, past no branch that has not resolved, whose read or write succeeds: a load writes
its sign- or zero-extended value, an LDA its zero-extended value after its acquire, an AMO and a CAS the old value; a store, an AMO and a CAS
that succeeds write what their rules give; the slot falls. PREF fills its level and writes no register, or is dropped; FENCE waits for the accesses its release
is of, then releases and acquires; CZFENCE of no bytes does nothing, and that of a block releases the context's writes to it, drops its cluster's L1 lines of it
and has its image lines written back and dropped; CBLOAD answers 0 for a record that breaks a limit, else the next version of its id, or waits; CZSTAT answers the
word of the block's map entry. A vector load or store of local-store lanes reads or writes every active lane's element, in ascending order; one whose single active
lane is in virtual memory makes that access. -/
def Obligations.VirtualAccessPerformed : Prop :=
  ∀ (s : State) (a : Access) (n old : Nat) (sx : Bool) (d : Reg) (x : XReg) (j : Fin 15) (op : AmoOp) (sc : Scope) (v exp new : Word) (u t : State),
    let i := Instr.scoreboardDecrement s.self a.aid
    let va := a.ea.toNat
    let rd := a.req s.c s.self 8
    let wr := a.req s.c s.self 12
    let m := 2 ^ (8 * n)
    let ends (u : State) (ws : List (Reg × Word)) : Out := .next (u.finish s.self a.aid ws)
    let same := s.c.released.filter fun l => l.1 = a.asid ∧ l.2 / 64 = va / 4096
    let mine (l : L1Line) : Prop := l.clu = s.myClu ∧ l.asid = a.asid ∧ l.line / 64 = va / 4096
    s.c.live = true → s.c.acc.find? (·.aid == a.aid) = some a → a.held = false → a.back = false → s.c.speculative a.aid = false →
      (a.op = .ld n sx d → 0 < n → s.accRead rd .clu va n = .ok (old, u) →
          exec i s = ends u [(d, if sx then .ofInt 64 (if old < m / 2 then (old : Int) else old - m) else .ofNat 64 old)])
        ∧ (a.op = .st n v → s.accWrite wr .clu va n (v.toNat % m) a.recNo = .ok u → exec i s = ends (u.note s.self a.asid va) [])
        ∧ (a.op = .lda n sc d → s.accRead rd sc va n = .ok (old, u) → u.acquire s.myClu sc = .ok t → exec i s = ends t [(d, .ofNat 64 old)])
        ∧ (a.op = .strl n sc v → s.c.unreleased a.aid = false → s.releaseOf s.self sc = .ok u → u.accWrite wr sc va n (v.toNat % m) a.recNo = .ok t →
            exec i s = ends (t.note s.self a.asid va) [])
        ∧ (a.op = .amo n op sc v x → ¬(sc = .core ∧ 2 ^ 63 ≤ va) →
            s.accAtomic wr sc va n (fun old => some (amoNew op n old v.toNat).1) a.recNo = .ok (old, u) →
            exec i s = .next (((u.note s.self a.asid va).finish s.self a.aid [(.x x, .ofNat 64 old)]).mapCtx s.self (·.orFlags (amoNew op n old v.toNat).2)))
        ∧ (a.op = .cas n sc exp new j → ¬(sc = .core ∧ 2 ^ 63 ≤ va) →
            s.accAtomic wr sc va n (fun old => if old = exp.toNat % m then some (new.toNat % m) else none) a.recNo = .ok (old, u) →
            exec i s = .next (((u.note s.self a.asid va).finish s.self a.aid [(.x ⟨2 * j.val + 2, by omega⟩, .ofNat 64 old)]).mapCtx s.self (·.orFlags 0)))
        ∧ (∀ l : L1Line, a.op = .pref false → s.l1Get { rd with who := none } (va / 64) = .ok (l, u) → l.poison = false →
            exec i s = ends (u.leaveHost rd.die a.asid (va / 64) ((s.lineAt a.asid (va / 64)).getD 0)) [])
        ∧ (∀ l : L2Line, a.op = .pref true → s.l2Get { rd with who := none } (va / 64) = .ok (l, u) → l.poison = false →
            exec i s = ends (u.leaveHost rd.die a.asid (va / 64) ((s.lineAt a.asid (va / 64)).getD 0)) [])
        ∧ (∀ e l2, a.op = .pref l2 → (if l2 then (s.l2Get { rd with who := none } (va / 64)).map (·.2) else (s.l1Get { rd with who := none } (va / 64)).map (·.2)) = .error e →
            exec i s = ends (s.countMisses { rd with who := none } (if l2 then .die else .clu) va) [])
        ∧ (a.op = .fence sc → s.c.unreleased a.aid = true → exec i s = .next s)
        ∧ (a.op = .fence sc → s.c.unreleased a.aid = false → s.releaseOf s.self sc = .ok u → u.acquire s.myClu sc = .ok t → exec i s = ends t [])
        ∧ (a.op = .czfence 0 → exec i s = ends s [])
        ∧ (∀ (l : Trans) (w : State), a.op = .czfence v → 0 < v.toNat → v.toNat ≤ 4096 → va % 4096 = 0 → a.done = 0 → s.c.unreleased a.aid = false →
            s.publishAll s.myClu .dev same = (u, none) →
            let z := (u.l1.filter fun l => mine l).foldl State.dropL1 u
            z.translate rd.die (z.served rd.die (sliceOf va)) a.asid va (a.req s.c s.self 0).need = .ok (l, t) →
            (if l.comp then t.czBlock a.asid va else .ok t) = .ok w → exec i s = ends w [] ∧ ∀ l ∈ z.l1, ¬mine l)
        ∧ (∀ (bs : List Byte) (id ver : Nat) (lens : List Nat), a.op = .cbload d → s.readBytesAt rd .clu 5 va 192 = .ok (bs, u) →
            (codebookOf bs = none → exec i s = ends u [(d, 0)])
              ∧ (codebookOf bs = some (id, lens) → u.installBook a.asid id lens = none → exec i s = .next s)
              ∧ (codebookOf bs = some (id, lens) → u.installBook a.asid id lens = some (ver, t) → exec i s = ends t [(d, .ofNat 64 ver)]
                  ∧ ver = (u.cbVersions a.asid id).1 % 255 + 1)
              ∧ (let b (k : Nat) : Nat := (bs.getD k 0).toNat
                 let len (x : Nat) : Nat := b (64 + x / 2) / 16 ^ (x % 2) % 16
                 codebookOf bs = none ↔ 16 ≤ b 0 ∨ (∃ k, 0 < k ∧ k < 64 ∧ b k ≠ 0) ∨ (∀ x, x < 256 → len x = 0)
                   ∨ 2 ^ 15 < ((List.range 256).map fun x => if len x = 0 then 0 else 2 ^ (15 - len x)).sum))
        ∧ (∀ l : Trans, a.op = .czstat d → s.translate rd.die (s.served rd.die (sliceOf va)) a.asid va rd.need = .ok (l, u) →
            let e := u.mapEntry l.pa
            exec i s = ends u [(d, .ofNat 64 (if l.comp = false then 0 else if e.valid = false then 2 else if e.raw then 7 + 8 * e.nsec else 3 + 8 * e.nsec + 256 * e.ver))])
        ∧ ∀ (k : BitVec 256) (fmt : Fmt) (idx lanes : BitVec 8192) (r : VReg) (b : Bool), a.done = 0 →
            let e := fmtBytes fmt
            let at_ (n : Nat) : Word := if b then a.ea + .ofNat 64 ((laneOf idx n).toNat * e) else a.ea + .ofNat 64 (n * e)
            let load : Prop := a.op = if b then .vldx k fmt idx r else .vld k fmt r
            let store : Prop := a.op = if b then .vstx k fmt idx lanes else .vst k fmt lanes
            let active := (List.range 256).filter fun n => k.getLsbD n
            let phys (n : Nat) : Nat := 16384 * s.c.st.lsbase.toNat + (at_ n).toNat % 2 ^ 18
            let c := s.core s.myCore
            ((∀ n ∈ active, 2 ^ 63 ≤ (at_ n).toNat) →
                (load → ∃ got, exec i s = .next ((s.finish s.self a.aid [] (some (r, k, got))).lsServe s.myCore a.lsSource)
                    ∧ ∀ n ∈ active, laneOf got n = .ofNat 32 (c.ls.read (phys n) e))
                  ∧ (store → completes (exec i s) fun t => t.c = s.c.finishAcc a.aid [] none ∧ (t.core s.myCore).full = c.full ∧ t.mem = s.mem
                      ∧ (t.core s.myCore).ls = active.foldl (fun m n => m.write (phys n) e ((laneOf lanes n).toNat % 2 ^ (8 * e))) c.ls))
              ∧ ∀ n, active = [n] → (at_ n).toNat < 2 ^ 63 →
                  (load → s.accRead rd .clu (at_ n).toNat e = .ok (old, u) →
                      ∃ got, exec i s = .next ((u.finish s.self a.aid [] (some (r, k, got))).lsServe s.myCore a.lsSource) ∧ laneOf got n = .ofNat 32 old)
                    ∧ (store → s.accWrite wr .clu (at_ n).toNat e ((laneOf lanes n).toNat % 2 ^ (8 * e)) a.recNo = .ok u →
                        exec i s = .next ((u.finish s.self a.aid []).lsServe s.myCore a.lsSource))

/-! The vector lane pool. -/

/-- The lanes of a vector are these on the lanes of a mask, and those of another vector elsewhere. -/
def Sys2Proof.Says.lanesAre (v : BitVec 8192) (k : BitVec 256) (f : Nat → BitVec 32) (old : BitVec 8192) : Prop :=
  ∀ i, i < 256 → laneOf v i = if k.getLsbD i then f i else laneOf old i

/-- A lane instruction of a context with lanes, none of whose active lanes raises a trapped flag, completes: the active lanes of its destination
hold the results, zero-extended; the other lanes stay; cr.fflags gathers the active lanes' flags; nothing else differs (R53, R133 to R135). Where an active lane
raises a trapped flag, cr.fflags gathers them as well, no lane is written, and the core freezes with the floating-point fault, whose info is all their flags. -/
def Sys2Proof.Says.lanes (i : Instr) (s : State) (m : KReg) (d : VReg) (res : Nat → FR) : Prop :=
  let k := s.c.getK m &&& s.c.lanes
  s.c.grant ≠ 0 → ∃ fl : Fl, (∀ b, b < 7 → (fl.getLsbD b = true ↔ ∃ j, j < 256 ∧ k.getLsbD j = true ∧ (res j).fl.getLsbD b = true))
    ∧ ((∀ j, j < 256 → k.getLsbD j = true → untrapped s (res j).fl) → ∃ v : BitVec 8192,
        exec i s = .next ((s.mapC fun c => c.orFlags fl).done fun c => c.setV d v) ∧ lanesAre v k (fun j => .ofNat 32 (res j).bits) (s.c.getV d))
    ∧ (¬(∀ j, j < 256 → k.getLsbD j = true → untrapped s (res j).fl) → traps (exec i s) s fl)

/-- An element read as a signed number of n bits. -/
def Sys2Proof.Says.signed (n x : Nat) : Int := (x : Int).bmod (2 ^ n)

/-- R139 to R141: the lane instructions of majors 0x00 and 0x01, lane by lane. Integer results are those of exact arithmetic modulo 2^n, with no
flag; float ones are those of R122 to R128. -/
def Obligations.VectorLaneResults : Prop :=
  ∀ (m : KReg) (fmt : Fmt) (d a : VReg) (b : VSrc) (s : State),
    let n := fmtBits fmt
    let rm := rmOf s.c.cr.fctl
    let xw (i : Nat) : Nat := (laneOf (s.c.getV a) i).toNat
    let yw (i : Nat) : Nat := (laneOf (s.c.vsrc b) i).toNat
    let x (i : Nat) : Nat := xw i % 2 ^ n
    let y (i : Nat) : Nat := yw i % 2 ^ n
    let z (i : Nat) : Nat := (laneOf (s.c.getV d) i).toNat % 2 ^ n
    let int := (fmtInt fmt).isSome
    let si := fmtInt fmt = some true
    let two (i : KReg → Fmt → VReg → VReg → VSrc → Instr) (res : Nat → FR) : Prop := lanes (i m fmt d a b) s m d res
    let one (i : KReg → Fmt → VReg → VReg → Instr) (res : Nat → FR) : Prop := lanes (i m fmt d a) s m d res
    let exact (v : Nat → Nat) : Nat → FR := fun i => ⟨v i % 2 ^ n, 0⟩
    let less (i : Nat) : Bool := if si then decide (signed n (x i) < signed n (y i)) else decide (x i < y i)
    (int = true → two .vadd (exact fun i => x i + y i) ∧ two .vsub (exact fun i => x i + 2 ^ n - y i) ∧ two .vmul (exact fun i => x i * y i)
        ∧ two .vfma (exact fun i => z i + x i * y i) ∧ two .vmin (fun i => ⟨if less i then x i else y i, 0⟩)
        ∧ two .vmax (fun i => ⟨if less i then y i else x i, 0⟩))
      ∧ (int = false → two .vadd (fun i => fAdd fmt rm (x i) (y i)) ∧ two .vsub (fun i => fSub fmt rm (x i) (y i))
        ∧ two .vmul (fun i => fMul fmt rm (x i) (y i)) ∧ two .vfma (fun i => fFma fmt rm (z i) (x i) (y i)) ∧ two .vdiv (fun i => fDiv fmt rm (x i) (y i))
        ∧ one .vsqrt (fun i => fSqrt fmt rm (x i)) ∧ two .vmin (fun i => fMinMax false fmt (x i) (y i)) ∧ two .vmax (fun i => fMinMax true fmt (x i) (y i))
        ∧ one .vsfnSin (fun i => fTrig false fmt (x i)) ∧ one .vsfnCos (fun i => fTrig true fmt (x i)) ∧ one .vsfnExp2 (fun i => fExp2 fmt (x i))
        ∧ one .vsfnLog2 (fun i => fLog2 fmt (x i)) ∧ one .vsfnRcp (fun i => fRcp fmt (x i)) ∧ one .vsfnRsq (fun i => fRsq fmt (x i)))
      ∧ two .vand (fun i => ⟨x i &&& y i, 0⟩) ∧ two .vor (fun i => ⟨x i ||| y i, 0⟩) ∧ two .vxor (fun i => ⟨x i ^^^ y i, 0⟩)
      ∧ two .vshl (exact fun i => if n ≤ yw i then 0 else x i * 2 ^ yw i)
      ∧ (¬si → two .vshr (fun i => ⟨if n ≤ yw i then 0 else x i / 2 ^ yw i, 0⟩))
      ∧ (si → two .vshr (fun i => ⟨(signed n (x i) / 2 ^ min (yw i) n % 2 ^ n).toNat, 0⟩))
      ∧ two .vfsh (exact fun i => (x i * 2 ^ n + y i) / 2 ^ (z i % n))
      ∧ two .vbext (fun i =>
          let w := yw i / 32 % 32 + 1
          let field := x i / 2 ^ (yw i % 32) % 2 ^ w
          ⟨if si then (signed w field % 2 ^ n).toNat else field % 2 ^ n, 0⟩)
      ∧ one .vpopc (fun i => ⟨((List.range n).filter (x i).testBit).length, 0⟩)
      ∧ ∃ z : Nat → Nat, one .vclz (fun i => ⟨z i, 0⟩)
          ∧ ∀ i, z i ≤ n ∧ (∀ b, b < z i → (x i).testBit (n - 1 - b) = false) ∧ (z i < n → (x i).testBit (n - 1 - z i) = true)

/-- The next state in which one v-register holds a vector whose lanes are given, and nothing else differs but that the instruction is over. -/
def Sys2Proof.Says.setsLanes (i : Instr) (s : State) (d : VReg) (k : BitVec 256) (f : Nat → BitVec 32) : Prop :=
  ∃ v, exec i s = .next (s.done fun c => c.setV d v) ∧ lanesAre v k f (s.c.getV d)

/-- R133, R142 to R144: the moves, permutations, lookups and conversions of lanes, for a context with lanes; with none they are illegal. -/
def Obligations.VectorMoves : Prop :=
  ∀ (m kr : KReg) (d a : VReg) (b : VSrc) (x y : XReg) (j : XSrc) (dst src : Fmt) (s : State),
    let k := s.c.getK m &&& s.c.lanes
    let g := s.c.grant
    let va (i : Nat) : BitVec 32 := laneOf (s.c.getV a) i
    let vb (i : Nat) : BitVec 32 := laneOf (s.c.vsrc b) i
    let n := match j with
      | .reg i => (s.c.getX i).toNat
      | .lit w => w.toNat
    let w : BitVec 32 := .ofNat 32 (s.c.getX y).toNat
    let table (q : Nat) : Nat := if 64 ≤ q then 0 else (vb (q / 4)).toNat / 2 ^ (8 * (q % 4)) % 256
    let looked (v : BitVec 32) : BitVec 32 :=
      .ofNat 32 (table (v.toNat % 256) + 256 * table (v.toNat / 256 % 256) + 65536 * table (v.toNat / 65536 % 256) + 16777216 * table (v.toNat / 16777216))
    (g ≠ 0 → setsLanes (.vsel kr d a b) s d s.c.lanes (fun i => if (s.c.getK kr).getLsbD i then va i else vb i)
        ∧ setsLanes (.vbcast m d y) s d k (fun _ => w) ∧ exec (.vextr x a j) s = setsX s x (if n < g then .ofNat 64 (va n).toNat else 0)
        ∧ (n < g → setsLanes (.vins d y j) s d (BitVec.twoPow 256 n) (fun _ => w)) ∧ (g ≤ n → exec (.vins d y j) s = .next s.retire)
        ∧ setsLanes (.vperm m d a b) s d k (fun i => if (vb i).toNat % 256 < g then va ((vb i).toNat % 256) else 0)
        ∧ setsLanes (.vlut m d a b) s d k (fun i => looked (va i)))
      ∧ lanes (.vcvt m dst src d a) s m d (fun i => convert dst src s.c.cr.fctl ((va i).toNat % 2 ^ fmtBits src))
      ∧ (g = 0 → ∀ i ∈ [Instr.vsel kr d a b, .vbcast m d y, .vextr x a j, .vins d y j, .vperm m d a b, .vlut m d a b, .vcvt m dst src d a],
          exec i s = .next s.illegal)

/-- R88, R125, R145, R146: VCMP and the mask instructions. Bit i of the written mask is the condition of lane i, 0 for an inactive lane; the
mask operations keep the bits below the grant; KPOPC counts them; a write of k0 is discarded. -/
def Obligations.VectorCompareAndMasks : Prop :=
  ∀ (m d a b : KReg) (x : XReg) (fmt : Fmt) (cc : FCond) (v : VReg) (w : VSrc) (s : State),
    let k := s.c.getK m &&& s.c.lanes
    let g := s.c.grant
    let n := fmtBits fmt
    let p (i : Nat) : Nat := (laneOf (s.c.getV v) i).toNat % 2 ^ n
    let q (i : Nat) : Nat := (laneOf (s.c.vsrc w) i).toNat % 2 ^ n
    let ord (i : Nat) : Int × Int := if fmtInt fmt = some true then (signed n (p i), signed n (q i)) else (p i, q i)
    let cond (i : Nat) : Bool × Fl := match fmtInt fmt, cc with
      | none, _ => fCompare cc fmt (p i) (q i)
      | _, .eq => (decide (p i = q i), 0) | _, .ne => (decide (p i ≠ q i), 0)
      | _, .lt => (decide ((ord i).1 < (ord i).2), 0) | _, .le => (decide ((ord i).1 ≤ (ord i).2), 0)
      | _, .gt => (decide ((ord i).2 < (ord i).1), 0) | _, .ge => (decide ((ord i).2 ≤ (ord i).1), 0)
      | _, _ => (false, 0)
    let writes (i : Instr) (f : Nat → Bool) : Prop := ∃ r : BitVec 256, exec i s = .next (s.done fun c => c.setK d r)
      ∧ (d ≠ 0 → ∀ j, j < 256 → ((s.c.setK d r).getK d).getLsbD j = (decide (j < g) && f j))
    (g ≠ 0 → ∃ fl : Fl, (∀ b, b < 7 → (fl.getLsbD b = true ↔ ∃ j, j < 256 ∧ k.getLsbD j = true ∧ (cond j).2.getLsbD b = true))
        ∧ ((∀ j, j < 256 → k.getLsbD j = true → untrapped s (cond j).2) → ∃ r : BitVec 256,
            exec (.vcmp m fmt cc d v w) s = .next ((s.mapC fun c => c.orFlags fl).done fun c => c.setK d r)
              ∧ ∀ j, j < 256 → r.getLsbD j = (k.getLsbD j && (cond j).1))
        ∧ (¬(∀ j, j < 256 → k.getLsbD j = true → untrapped s (cond j).2) → traps (exec (.vcmp m fmt cc d v w) s) s fl))
      ∧ (g = 0 → exec (.vcmp m fmt cc d v w) s = .next s.illegal)
      ∧ writes (.kopAnd d a b) (fun j => (s.c.getK a).getLsbD j && (s.c.getK b).getLsbD j)
          ∧ writes (.kopOr d a b) (fun j => (s.c.getK a).getLsbD j || (s.c.getK b).getLsbD j)
          ∧ writes (.kopXor d a b) (fun j => (s.c.getK a).getLsbD j ^^ (s.c.getK b).getLsbD j)
          ∧ writes (.kopAndn d a b) (fun j => (s.c.getK a).getLsbD j && !(s.c.getK b).getLsbD j)
          ∧ writes (.kopNot d a) (fun j => !(s.c.getK a).getLsbD j)
      ∧ exec (.kpopc x a) s = setsX s x (.ofNat 64 ((List.range g).filter fun j => (s.c.getK a).getLsbD j).length)

/-- The value of 2^n lanes from lane lo: neighbours are combined in pairs, and the pairs' values in pairs (R147). -/
def Sys2Proof.Says.tree (op : RedOp) (fmt : Fmt) (rm : Rm) (k : BitVec 256) (v : BitVec 8192) : Nat → Nat → Option Nat × Fl
  | 0, lo => (if k.getLsbD lo then some ((laneOf v lo).toNat % 2 ^ fmtBits fmt) else none, 0)
  | n + 1, lo => combOpt op fmt rm (tree op fmt rm k v n lo) (tree op fmt rm k v n (lo + 2 ^ n))

/-- The value of the active lanes below n, folded in ascending order (R148). -/
def Sys2Proof.Says.fold (op : RedOp) (fmt : Fmt) (rm : Rm) (k : BitVec 256) (v : BitVec 8192) : Nat → Option Nat × Fl
  | 0 => (none, 0)
  | n + 1 =>
    let r := fold op fmt rm k v n
    if k.getLsbD n then combOpt op fmt rm r (some ((laneOf v n).toNat % 2 ^ fmtBits fmt), 0) else r

/-- R133, R147, R148: the reductions combine the active lanes in pairs, level by level, and the scans fold them in ascending lane order; with no
active lane the reduction gives the identity; inactive lanes stay; flags gather; with no lanes granted they are illegal. -/
def Obligations.VectorReductions : Prop :=
  ∀ (m : KReg) (fmt : Fmt) (x : XReg) (d a : VReg) (s : State),
    let k := s.c.getK m &&& s.c.lanes
    let rm := rmOf s.c.cr.fctl
    let v := s.c.getV a
    let both (red : KReg → Fmt → XReg → VReg → Instr) (scan : KReg → Fmt → VReg → VReg → Instr) (op : RedOp) (id : Nat) : Prop :=
      let r := tree op fmt rm k v 8 0
      let f := fold op fmt rm k v 256
      (s.c.grant = 0 → exec (red m fmt x a) s = .next s.illegal ∧ exec (scan m fmt d a) s = .next s.illegal)
        ∧ (s.c.grant ≠ 0 → floatsOrTraps (exec (red m fmt x a) s) s x ⟨r.1.getD id, r.2⟩)
        ∧ (s.c.grant ≠ 0 → ¬untrapped s f.2 → traps (exec (scan m fmt d a) s) s f.2)
        ∧ (s.c.grant ≠ 0 → untrapped s f.2 → ∃ u, exec (scan m fmt d a) s = .next ((s.mapC fun c => c.orFlags f.2).done fun c => c.setV d u)
            ∧ lanesAre u k (fun i => .ofNat 32 ((fold op fmt rm k v (i + 1)).1.getD 0)) (s.c.getV d))
    both .vredAdd .vscanAdd .add 0 ∧ both .vredOr .vscanOr .or 0 ∧ both .vredXor .vscanXor .xor 0 ∧ both .vredAnd .vscanAnd .and (2 ^ fmtBits fmt - 1)
      ∧ (fmtInt fmt = some false → both .vredMin .vscanMin .min (2 ^ fmtBits fmt - 1) ∧ both .vredMax .vscanMax .max 0)
      ∧ (fmtInt fmt = some true → both .vredMin .vscanMin .min (2 ^ (fmtBits fmt - 1) - 1) ∧ both .vredMax .vscanMax .max (2 ^ (fmtBits fmt - 1)))
      ∧ (fmt = .f32 → both .vredMin .vscanMin .min 0x7F800000 ∧ both .vredMax .vscanMax .max 0xFF800000)
      ∧ (fmt = .f16 → both .vredMin .vscanMin .min 0x7C00 ∧ both .vredMax .vscanMax .max 0xFC00)
      ∧ (fmt = .bf16 → both .vredMin .vscanMin .min 0x7F80 ∧ both .vredMax .vscanMax .max 0xFF80)

/-- R129 to R132: VCLAIM keeps or extends the grant from the cluster's free groups, as far as they go, and writes the lanes it has; the lanes it
had and still has keep their values; the groups given up are free. VREL gives up every group. Neither completes while a vector access of the context is
unperformed, in its stream or in a park slot. -/
def Obligations.VectorGrants : Prop :=
  ∀ (d : XReg) (q : BitVec 12) (s : State),
    let h := s.c.groups.length
    let want := q.toNat / 16
    let free := (s.clu s.myClu).lanesFree
    let vector (op : MemOp) : Prop := (∃ k f r, op = .vld k f r) ∨ (∃ k f v, op = .vst k f v) ∨ (∃ k f x r, op = .vldx k f x r) ∨ ∃ k f x v, op = .vstx k f x v
    let pending : Prop := ∃ a, (a ∈ s.c.acc ∨ ∃ kp ∈ s.c.parks, a ∈ kp.2.acc) ∧ vector a.op
    let frame (t : State) : Prop := t = { s with c := t.c, frames := t.frames, clus := t.clus, fresh := t.fresh } ∧ t.c = { s.retire.c with x := t.c.x, v := t.c.v, groups := t.c.groups }
      ∧ (∀ n, n ≠ s.myClu → t.clu n = s.clu n) ∧ t.clu s.myClu = { s.clu s.myClu with lanesFree := (t.clu s.myClu).lanesFree }
    let has (t : State) : Prop := t.c.grant = 16 * t.c.groups.length ∧ t.c.x = (s.c.setX d (.ofNat 64 t.c.grant)).x
    (pending → exec (.vclaim d q) s = .next s.stall ∧ exec .vrel s = .next s.stall)
      ∧ (¬pending → want ≤ h → completes (exec (.vclaim d q) s) fun t => frame t ∧ t.frames = s.frames ∧ has t ∧ t.c.groups = s.c.groups.take want ∧ (want = h → t.c.v = s.c.v)
          ∧ (∀ (r : VReg) (i : Nat), i < 16 * want → i < 256 → laneOf (t.c.getV r) i = laneOf (s.c.getV r) i)
          ∧ ∀ g, g ∈ (t.clu s.myClu).lanesFree ↔ g ∈ free ∨ g ∈ s.c.groups.drop want)
      ∧ (¬pending → h < want → completes (exec (.vclaim d q) s) fun t => frame t ∧ t.frames = s.frames ∧ has t ∧ t.c.groups = s.c.groups ++ free.take (want - h)
          ∧ (t.clu s.myClu).lanesFree = free.drop (want - h) ∧ ∀ (r : VReg) (i : Nat), i < 16 * h → i < 256 → laneOf (t.c.getV r) i = laneOf (s.c.getV r) i)
      ∧ (¬pending → completes (exec .vrel s) fun t => frame t ∧ t.c.groups = [] ∧ t.c.x = s.c.x
          ∧ (∀ f, f ≠ s.self → t.ctx f = { s.ctx f with wait := (t.ctx f).wait, parks := (t.ctx f).parks }
              ∧ (coreOf f + 1 ≠ s.myCore → coreOf f ≠ s.myCore + 1 → t.ctx f = s.ctx f))
          ∧ ∀ g, g ∈ (t.clu s.myClu).lanesFree ↔ g ∈ free ∨ g ∈ s.c.groups)

/-- R149, R150: VNEIGH publishes the context's edge lanes under the next count. It completes at once where no active lane needs the partner, where
there is no partner, and where the partner has published that count; otherwise it waits, and its timeout ends the wait with false. A lane within the
grant comes from the source, one beyond it from the partner's entry, or with no entry it keeps its own. R150: at its time limit a waiting VNEIGH of a
frame completes with its predicate false, an entry that its partner has published after the limit coming too late, and so does one that has lost its partner; lanes beyond the grant keep their own values. R98: the wait keeps the
count it waits for and the limit that cr.xltmo had when it began. -/
def Obligations.VectorNeighbour : Prop :=
  (∀ (m : KReg) (d a : VReg) (p : PReg) (code : BitVec 3) (f : Nat) (s : State),
     let i := Instr.vneigh m d a p code
     let k := s.c.getK m &&& s.c.lanes
     let g := s.c.grant
     let delta : Int := if code.toNat < 4 then 2 ^ code.toNat else -(2 ^ (code.toNat - 4))
     let n := s.c.ncount + 1
     let va (i : Nat) : BitVec 32 := laneOf (s.c.getV a) i
     let inside (i : Nat) : Bool := decide (0 ≤ i + delta ∧ i + delta < g)
     let published (t : State) : Prop := t.c.ncount = n ∧ ∃ e, t.c.nlatch = e :: s.c.nlatch.take 1 ∧ e.count = n.toNat
       ∧ ∀ j, j < 8 → e.lo.extractLsb' (32 * j) 32 = va j ∧ e.hi.extractLsb' (32 * j) 32 = va (g - 8 + j)
     let ends (e : Option Neigh) (t : State) : Prop := ∃ v, t = (({ s with c := { s.c with ncount := t.c.ncount, nlatch := t.c.nlatch } } : State).done fun c =>
         (c.setV d v).setP p (e.isSome || (List.range 256).all fun j => !k.getLsbD j || inside j))
       ∧ lanesAre v k (fun j => if inside j then va ((j : Int) + delta).toNat else match e with
           | none => va j
           | some e => if 0 < delta then e.lo.extractLsb' (32 * ((j : Int) + delta - g).toNat) 32 else e.hi.extractLsb' (32 * (8 + (j : Int) + delta).toNat) 32)
           (s.c.getV d)
     let needs : Prop := ∃ j, j < 256 ∧ k.getLsbD j = true ∧ inside j = false
     let near := s.partner (decide (0 < delta))
     s.c.wait = none → 16 ≤ g → g ≤ 256 →
       (¬needs → completes (exec i s) fun t => published t ∧ ends none t)
         ∧ (needs → near = none → completes (exec i s) fun t => published t ∧ ends none t)
         ∧ (∀ e, needs → near = some f → f ≠ s.self → (s.ctx f).ncount = n → (s.ctx f).nlatch.find? (·.count == n.toNat) = some e →
             completes (exec i s) fun t => published t ∧ ends (some e) t)
         ∧ (needs → near = some f → f ≠ s.self → (s.ctx f).ncount = s.c.ncount → completes (exec i s) fun t =>
             published t ∧ t.c.pc = s.c.pc ∧ t.c.x = s.c.x ∧ t.c.v = s.c.v ∧ t.mem = s.mem
               ∧ ∃ w, t.c.wait = some w ∧ w.limit = s.c.cr.xltmo ∧ w.arg = n.toNat ∧ w.since = s.time))
  ∧ (∀ (m : KReg) (d a : VReg) (p : PReg) (code : BitVec 3) (f q : Nat) (w : Wait) (s : State),
         let c := s.ctx f
         let u := (s.select f).mapC fun c => { c with npc := w.npc }
         c.live = true → (s.core (coreOf f)).frozen = false → c.wait = some w → w.wrap = false → w.instr = some (.vneigh m d a p code) → w.begun = true → 16 ≤ c.grant →
           w.limit ≠ 0 → w.limit.toNat ≤ (s.time - w.since).toNat →
           (∃ j, j < 256 ∧ (u.c.getK m &&& u.c.lanes).getLsbD j = true ∧ ((j : Int) + neighDelta code < 0 ∨ (u.c.grant : Int) ≤ j + neighDelta code)) →
           (2 ^ 40 ≤ w.arg ∨ u.partner (decide (0 < neighDelta code)) = none
               ∨ (u.partner (decide (0 < neighDelta code)) = some q ∧ ((u.ctx q).ncount - .ofNat 32 w.arg).msb = true)
               ∨ (u.partner (decide (0 < neighDelta code)) = some q ∧ ((u.ctx q).ncount - .ofNat 32 w.arg).msb = false
                   ∧ ∃ e, (u.ctx q).nlatch.find? (·.count == (BitVec.ofNat 32 w.arg).toNat) = some e ∧ w.since ≤ e.time ∧ w.limit.toNat ≤ (e.time - w.since).toNat)) →
             exec (.vneighTimeout f) s = .next ((u.neighDone m d a p code none false).readied.select s.self))

/-! The matrix ring. -/

/-- The instruction leaves the stream with its slot's count owed by work numbered id: the context goes on, and no count falls yet. -/
def Sys2Proof.Says.accepted (s t : State) (id : Nat) : Prop :=
  t.c = { s.c with pc := s.c.npc, wait := none, latch := none, owes := t.c.owes } ∧ t.mem = s.mem ∧ (s.c.latch = none → t.c.owes = s.c.owes)
    ∧ ∀ q, s.c.latch = some q → t.c.owes = s.c.owes ++ [(id, q)]

/-- R219 to R225, R229, R235, R236: the matrix jobs. With room in the slice's queue and a well-formed job, MMA.new and MGANG.new make a new
head slot, of zeros at once or, while earlier jobs are bound to it, before its first k-step, MMA.acc and MGANG.acc take the head slot, MZERO the slot it names, and the job enters the queue with its operands sampled,
MGANG's in a huddle; with the queue full, another context's instruction waiting that was issued before (R91), or the ring full for a new slot, they wait; a bad parameter word raises reserved field, and an empty ring
or a slot not in use illegal instruction. The model's choices, which no rule states: the participants of a huddle are those of the moment of acceptance (log 75), and which of the instructions that
wait on a core may go past another one, `s.overtakes` (log 76). -/
def Obligations.MatrixAcceptance : Prop :=
  ∀ (la lb : Bool) (d : XReg) (a b : AReg) (z : MReg) (s : State),
    let par := s.c.getX d
    let k := s.core s.myCore
    let nk := par.toNat % 2 ^ 12
    let tag := par.toNat / 2 ^ 48 % 256
    let parOk : Prop := par.toNat < 2 ^ 59 ∧ par.toNat / 2 ^ 12 % 16 = 0 ∧ nk ≠ 0
    let room (u : RingUse) : Prop := k.queueFull = false ∧ s.overtakes u = false
    let tagFree : Prop := ∀ j ∈ k.mjobs, ∀ h, j.kind = .joint h → j.par.toNat / 2 ^ 48 % 256 ≠ tag
    let fit (useA : Bool) : Prop := ∃ kl, classOf s.c.cr.fmta s.c.cr.fmtb = some kl
      ∧ s.c.operandBad useA la lb (s.c.getA a) (s.c.getA b) par s.c.cr.fmta s.c.cr.fmtb kl = none
    let supplies : Bool := s.participants.head? == some s.myCore
    let head := (k.rh + 1) % 8
    let free : Prop := (∀ j ∈ k.mjobs, j.slot ≠ some head) ∧ ∀ j ∈ k.ejobs, j.slot ≠ head
    let queued (t : State) (slot : Nat) (kind : MKind → Prop) (zero : Prop) : Prop := ∃ j, (t.core s.myCore).mjobs = k.mjobs ++ [j] ∧ j.frame = s.self
      ∧ j.gen = s.c.gen ∧ j.win = s.c.lsWin ∧ kind j.kind ∧ (j.zero = true ↔ zero)
      ∧ j.slot = some slot ∧ j.par = par ∧ j.aBase = s.c.getA a ∧ j.bBase = s.c.getA b ∧ j.la = la ∧ j.lb = lb ∧ j.fmta = s.c.cr.fmta
      ∧ j.fmtb = s.c.cr.fmtb ∧ j.prio = s.c.mprio.toNat ∧ j.nk = nk ∧ j.done = 0 ∧ j.asid = s.c.asid ∧ accepted s t j.id
    let made (t : State) : Prop := (t.core s.myCore).rh = head ∧ (t.core s.myCore).rc = k.rc + 1
      ∧ (free → ∀ n, tget 0 (t.core s.myCore).ring n = if n / 4096 = head then 0 else tget 0 k.ring n) ∧ (¬free → (t.core s.myCore).ring = k.ring)
    let kept (t : State) : Prop := (t.core s.myCore).rh = k.rh ∧ (t.core s.myCore).rc = k.rc ∧ (t.core s.myCore).ring = k.ring
    let joint (t : State) (kd : MKind) : Prop := ∃ h ∈ (t.clu s.myClu).huddles, kd = .joint h.id ∧ h.tag = tag ∧ h.parts = s.participants ∧ s.self ∈ h.joined
    (room .opens → k.rc < 8 → parOk → par.toNat < 2 ^ 48 → fit true → completes (exec (.mmaNew la lb d a b) s) fun t => queued t head (· = .mma) (¬free) ∧ made t)
      ∧ (room .keeps → k.rc ≠ 0 → parOk → par.toNat < 2 ^ 48 → fit true → completes (exec (.mmaAcc la lb d a b) s) fun t => queued t k.rh (· = .mma) False ∧ kept t)
      ∧ (room .opens → tagFree → k.rc < 8 → parOk → fit supplies → completes (exec (.mgangNew la lb d a b) s) fun t => queued t head (joint t) (¬free) ∧ made t)
      ∧ (room .keeps → tagFree → k.rc ≠ 0 → parOk → fit supplies → completes (exec (.mgangAcc la lb d a b) s) fun t => queued t k.rh (joint t) False ∧ kept t)
      ∧ (room .keeps → z.val < k.rc → completes (exec (.mzero z) s) fun t => kept t ∧ ∃ j, (t.core s.myCore).mjobs = k.mjobs ++ [j] ∧ j.frame = s.self
          ∧ j.gen = s.c.gen ∧ j.kind = .mzero ∧ j.slot = some ((k.rh + 8 - z.val) % 8) ∧ accepted s t j.id)
      ∧ (¬room .opens → ∀ i ∈ [Instr.mmaNew la lb d a b, .mgangNew la lb d a b], exec i s = .next s.stall)
      ∧ (¬room .keeps → ∀ i ∈ [Instr.mmaAcc la lb d a b, .mgangAcc la lb d a b, .mzero z], exec i s = .next s.stall)
      ∧ ((∀ g ∈ framesOf s.myCore, g ≠ s.self → (s.ctx g).waits = []) → ∀ u, s.overtakes u = false)
      ∧ (8 ≤ k.rc → exec (.mmaNew la lb d a b) s = .next s.stall ∧ exec (.mgangNew la lb d a b) s = .next s.stall)
      ∧ (room .keeps → k.rc = 0 → parOk → par.toNat < 2 ^ 48 → exec (.mmaAcc la lb d a b) s = .next s.illegal)
      ∧ (room .keeps → k.rc ≤ z.val → exec (.mzero z) s = .next s.illegal)
      ∧ (¬(parOk ∧ par.toNat < 2 ^ 48) → (room .keeps → exec (.mmaAcc la lb d a b) s = .next s.reservedField)
          ∧ (room .opens → k.rc < 8 → exec (.mmaNew la lb d a b) s = .next s.reservedField))

/-- R220, R237 to R240: MWAIT completes when no matrix or epilogue job of the context is left; MPRIO sets the priority; MEPI binds the ring's
tail slot and samples cr.fctl, and one whose record's read was held goes on with what it bound; an instruction of the family that waits leaves its wait as it would complete. Which of the instructions that wait on a core
may go past another one, `s.overtakes`, is the model's choice, no rule's (log 76). -/
def Obligations.MatrixWaits : Prop :=
  ∀ (d a : XReg) (ra rb : AReg) (f : Nat) (w : Wait) (i : Instr) (bs : List Byte) (jb : EJob) (u s : State),
    let k := s.core s.myCore
    let unbound : Prop := s.boundEpi = none
    let busy : Prop := (∃ j ∈ k.ejobs, j.frame = s.self ∧ j.gen = s.c.gen) ∨ ∃ j ∈ k.mjobs, j.frame = s.self ∧ j.gen = s.c.gen ∧ ∀ r, j.kind ≠ .chain r
    let v := s.c.getX a
    let par := s.c.getX d
    let r := wordOfBytes bs
    let field (o n : Nat) : Nat := r / 2 ^ (8 * o) % 2 ^ (8 * n)
    let e := fmtBytes ((fmtNum (field 28 1)).getD .f32)
    (busy → exec .mwait s = .next s.stall) ∧ (¬busy → exec .mwait s = .next s.retire)
      ∧ (v.toNat ≤ 7 → exec (.mprio a) s = .next (s.done fun c => { c with mprio := .ofNat 3 v.toNat }))
      ∧ (7 < v.toNat → exec (.mprio a) s = .next s.reservedField)
      ∧ (unbound → k.queueFull = true ∨ k.rc = 0 ∨ s.overtakes .frees = true → exec (.mepi d ra rb) s = .next s.stall)
      ∧ (unbound → k.queueFull = false → k.rc ≠ 0 → s.overtakes .frees = false → (s.c.getA rb).toNat % 64 = 0 →
          s.newId.readMem s.self s.c.asid .clu (s.c.getA rb) 64 = .ok (bs, u) → (∀ q ∈ (u.core s.myCore).ejobs, q.id ≠ s.nextId) → u.self = s.self →
          mepiParBad par = false → mepiRecBad r = false → (s.c.getA ra).toNat % e = 0 → field 24 4 % e = 0 → fmtNum (field 28 1) ≠ some .t6 →
          field 0 8 % 4 = 0 → field 8 8 % 4 = 0 → field 16 8 % 4 = 0 → completes (exec (.mepi d ra rb) s) fun t =>
            accepted u t s.nextId ∧ ∃ j, (t.core s.myCore).ejobs = (u.core s.myCore).ejobs ++ [j] ∧ j.id = s.nextId ∧ j.frame = s.self ∧ j.gen = s.c.gen
              ∧ j.win = s.c.lsWin ∧ j.ready = true ∧ j.slot = (k.rh + 8 - k.rc + 1) % 8 ∧ j.par = par ∧ j.dst = s.c.getA ra ∧ j.rscale = .ofNat 64 (field 0 8) ∧ j.cscale = .ofNat 64 (field 8 8)
              ∧ j.bias = .ofNat 64 (field 16 8) ∧ j.stride = field 24 4 ∧ j.fmt = field 28 1 ∧ j.actKind = field 29 1 % 4 ∧ j.actJ = field 29 1 / 4 % 32
              ∧ j.clo = .ofNat 32 (field 32 4) ∧ j.chi = .ofNat 32 (field 36 4) ∧ j.fctl = s.c.cr.fctl ∧ j.done = 0)
      ∧ (s.boundEpi = some jb → (s.c.getA rb).toNat % 64 = 0 → s.readMem s.self s.c.asid .clu (s.c.getA rb) 64 = .ok (bs, u) → u.self = s.self →
          mepiParBad par = false → mepiRecBad r = false → jb.dst.toNat % e = 0 → field 24 4 % e = 0 → fmtNum (field 28 1) ≠ some .t6 →
          field 0 8 % 4 = 0 → field 8 8 % 4 = 0 → field 16 8 % 4 = 0 → completes (exec (.mepi d ra rb) s) fun t =>
            accepted u t jb.id ∧ ∃ j ∈ (t.core s.myCore).ejobs, j.id = jb.id ∧ j.ready = true ∧ j.slot = jb.slot ∧ j.fctl = jb.fctl ∧ j.fmt = field 28 1)
      ∧ ((s.ctx f).live = true → (s.core (coreOf f)).frozen = false → (s.ctx f).wait = some w → w.wrap = false → w.instr = some i →
          (∃ la lb, i = .mmaNew la lb d ra rb ∨ i = .mmaAcc la lb d ra rb ∨ i = .mgangNew la lb d ra rb ∨ i = .mgangAcc la lb d ra rb)
            ∨ (∃ z, i = .mzero z) ∨ i = .mepi d ra rb →
          ∃ t, exec i ((s.select f).mapC fun c => { c with npc := w.npc }) = .next t ∧ exec (.matrixJobAccept f) s = .next ((t.readied.select s.self).countLater f w))

/-- The context that issued work numbered id, if it is still in its frame, has the flags of the work in cr.fflags, and the slot that the work's instruction left
owed has fallen by 1, no other slot with it (R49, R89, R220). -/
def Sys2Proof.Says.paid (v t : State) (f : Nat) (gen : BitVec 8) (id : Nat) (fl : Fl) : Prop :=
  let c := v.ctx f
  c.owns gen = true → (t.ctx f).cr = { c.cr with fflags := c.cr.fflags ||| fl.zeroExtend 64 }
    ∧ ∀ q : Slot, c.owes.find? (·.1 == id) = some (id, q) →
        (t.ctx f).sb[q] = c.sb[q] - 1 ∧ (∀ i : Slot, i ≠ q → (t.ctx f).sb[i] = c.sb[i]) ∧ (t.ctx f).owes = c.owes.filter (·.1 != id)

/-- Element i of slot n after a job's k-step: the element, +0 where the slot's zeroing is due, with the products of its row of A and its column of B added. -/
def Sys2Proof.Says.element (k : CoreSt) (j : MJob) (n : Nat) (pa pb : Panel) (i : Nat) : FR :=
  let old := if j.zero = true ∧ j.done = 0 then 0 else tget 0 k.ring (4096 * n + i)
  kStep old.toNat (((pa.getD (i / 64) []).zip (pb.getD (i % 64) [])).map fun p => product p.1 p.2)

/-- A k-step of a job on its slice: the slot's 4,096 elements are written, the other slots stay, and the job gathers the elements' flags. At its last k-step it
leaves the slice and its issuer is paid; else it has done one more. -/
def Sys2Proof.Says.kStepped (v t : State) (core n : Nat) (j : MJob) (pa pb : Panel) (last : Prop) : Prop :=
  let res := element (v.core core) j n pa pb
  (∀ i, i < 4096 → tget 0 (t.core core).ring (4096 * n + i) = .ofNat 32 (res i).bits)
    ∧ (∀ i, i / 4096 ≠ n → tget 0 (t.core core).ring i = tget 0 (v.core core).ring i)
    ∧ ∃ fl : Fl, (∀ b, b < 7 → (fl.getLsbD b = true ↔ j.flags.getLsbD b = true ∨ ∃ i, i < 4096 ∧ (res i).fl.getLsbD b = true))
        ∧ (last → (∀ q ∈ (t.core core).mjobs, q.id ≠ j.id) ∧ paid v t j.frame j.gen j.id fl)
        ∧ (¬last → ∀ q ∈ (t.core core).mjobs, q.id = j.id → q.done = j.done + 1 ∧ q.flags = fl)

/-- R49, R220, R221, R226 to R230, R233: a k-step of the MMA the slice has chosen; a zeroing job zeroes its slot and leaves; with no job, or while a chosen joint job
waits for another slice, nothing runs. A joint job's k-step is taken on every participant slice at once, each with the supplier's A and its own B; after the last the
huddle is over and each participant's predicate is true. A huddle whose every participant has joined opens, as the latest, with the highest of its jobs' priorities,
or, where the jobs do not agree, aborts: its jobs leave, and each participant's predicate is false. That the predicate of a participant on a frozen core is written too is the model's
choice, no rule's (log 85). -/
def Obligations.MatrixSteps : Prop :=
  ∀ (core clu tag n c0 : Nat) (j j0 : MJob) (pa pb : Panel) (pbs : List Panel) (h : Huddle) (rest : List (Nat × MJob)) (s u v : State),
    let x := (classOf j.fmta j.fmtb).getD 8
    let s₀ := s.unpin ((s.core core).mjobs.map (·.id))
    let s' := s₀.mapCore core fun k => k.turnTo s.time (some j.id)
    let jobs := s.jointJobs h
    let sj := s₀.turnJoint h
    let js := sj.jointJobs h
    let agree : Prop := ∃ nk cl, ∀ y ∈ jobs, y.2.nk = nk ∧ classOf y.2.fmta y.2.fmtb = cl ∧ (s.core y.1).frozen = false
    let apart (jobs : List (Nat × MJob)) : Prop := (jobs.map (·.1)).Nodup ∧ (jobs.map (·.2.frame)).Nodup
    let joins (k : Nat) : Prop := ∃ y, s.chosen k = some y ∧ y.kind = .joint h.id
    let joint : Prop := s.chosen core = some j ∧ j.kind = .joint h.id ∧ (s.clu (cluOf core)).huddles.find? (·.id == h.id) = some h
    let fmt (r : Word) : Fmt := (fmtField r).getD .f32
    (s.chosen core = none → exec (.kstepBoundary core) s = .next s₀)
      ∧ (s.chosen core = some j → j.kind = .mzero → j.slot = some n → completes (exec (.kstepBoundary core) s) fun t =>
          (∀ q ∈ (t.core core).mjobs, q.id ≠ j.id) ∧ paid s t j.frame j.gen j.id j.flags
            ∧ ∀ i, tget 0 (t.core core).ring i = if i / 4096 = n then 0 else tget 0 (s.core core).ring i)
      ∧ (s.chosen core = some j → j.kind = .mma → j.slot = some n → s'.panelA j.frame j (fmt j.fmta) x j.done = .ok (pa, u) →
          u.panelB j.frame j (fmt j.fmtb) x j.done = .ok (pb, v) → completes (exec (.kstepBoundary core) s) fun t =>
            kStepped v t core n j pa pb (j.done + 1 = j.nk) ∧ t.mem = v.mem)
      ∧ (joint → (∃ k ∈ h.parts, ¬joins k) → exec (.kstepBoundary core) s = .next (s₀.mapCore core fun k => k.turnTo s.time none))
      ∧ (joint → (∀ k ∈ h.parts, joins k) → js = (c0, j0) :: rest → apart js →
          let y := (classOf j0.fmta j0.fmtb).getD 8
          let last : Prop := j0.done + 1 = j0.nk
          sj.panelA j0.frame j0 (fmt j0.fmta) y j0.done = .ok (pa, u) → u.jointPanels (js.map (·.2.id)) y j0.done js = .ok (pbs, v) → completes (exec (.kstepBoundary core) s) fun t =>
            (∀ z ∈ js.zip pbs, ∀ m, z.1.2.slot = some m → kStepped v t z.1.1 m z.1.2 pa z.2 last
                ∧ (last → (v.ctx z.1.2.frame).owns z.1.2.gen = true → (t.ctx z.1.2.frame).getP (parPred z.1.2.par) = true))
              ∧ (last → ∀ g ∈ (t.clu (cluOf c0)).huddles, g.id ≠ h.id) ∧ t.mem = v.mem)
      ∧ ((s.clu clu).huddles.find? (fun h => h.tag == tag && h.opened.isNone && h.parts.all fun k => h.joined.any fun f => coreOf f == k) = some h → jobs ≠ [] →
          (agree → completes (exec (.huddleOpen clu tag) s) fun t => t.mem = s.mem
              ∧ (∃ y ∈ (t.clu clu).huddles, y.id = h.id ∧ y.tag = tag ∧ y.parts = h.parts) ∧ (∀ y ∈ (t.clu clu).huddles, y.id = h.id → y.opened = some s.nextId)
              ∧ ∃ p, (∀ y ∈ jobs, y.2.prio ≤ p) ∧ (∃ y ∈ jobs, y.2.prio = p) ∧ ∀ y ∈ jobs, ∃ q ∈ (t.core y.1).mjobs, q.id = y.2.id ∧ q.prio = p)
            ∧ (¬agree → completes (exec (.huddleOpen clu tag) s) fun t => t.mem = s.mem ∧ (∀ y ∈ (t.clu clu).huddles, y.id ≠ h.id)
              ∧ ∀ y ∈ jobs, (∀ q ∈ (t.core y.1).mjobs, q.id ≠ y.2.id) ∧ (apart jobs → paid s t y.2.frame y.2.gen y.2.id y.2.flags)
                ∧ ((s.ctx y.2.frame).owns y.2.gen = true → parPred y.2.par ≠ 0 → (t.ctx y.2.frame).getP (parPred y.2.par) = false)))

/-- R240, R241: an epilogue job's element: the tile's value times the row's and the column's factor, plus the bias, through the activation, converted
to the destination format with its flags; the engine writes up to 64 elements, and a job that has written its region leaves, its flags in its context's cr.fflags
and its slot's count fallen, giving back its ring slot unless it keeps it. -/
def Obligations.EpilogueResults : Prop :=
  ∀ (core : Nat) (j e : EJob) (rs cs bi : Option Nat) (v : Nat) (s u : State),
    let rm := rmOf j.fctl
    let by_ (f : Fmt → Rm → Nat → Nat → FR) (x : FR) (y : Option Nat) : FR := match y with
      | some y => ⟨(f .f32 rm x.bits y).bits, x.fl ||| (f .f32 rm x.bits y).fl⟩
      | none => x
    let lin := by_ fAdd (by_ fMul (by_ fMul ⟨v, 0⟩ rs) cs) bi
    let out (x : FR) : Nat × Fl := let r := convert ((fmtNum j.fmt).getD .f32) .f32 j.fctl x.bits; (r.bits, x.fl ||| r.fl)
    let w := decodeRaw .f32 lin.bits
    let nan : Prop := w.isNan = true
    let count := j.par.toNat % 128 * (j.par.toNat / 256 % 128)
    let part := s.epiRun core j 64
    (j.actKind = 0 ∨ nan → epilogue j rs cs bi v = out lin)
      ∧ (j.actKind = 1 → ¬nan → epilogue j rs cs bi v = out (if w.neg then ⟨0, lin.fl⟩ else lin))
      ∧ (j.actKind = 2 → ¬nan → epilogue j rs cs bi v = out (if w.neg ∧ w.isZero = false then by_ fMul lin (some ((127 - j.actJ) * 2 ^ 23)) else lin))
      ∧ (j.actKind = 3 → ¬nan → epilogue j rs cs bi v =
          out ⟨(fMinMax true .f32 j.clo.toNat (fMinMax false .f32 j.chi.toNat lin.bits).bits).bits,
            lin.fl ||| (fMinMax true .f32 j.clo.toNat (fMinMax false .f32 j.chi.toNat lin.bits).bits).fl⟩)
      ∧ (part = ((e, u), none) → e.id = j.id → e.par = j.par → (s.core core).ejobs.find? (fun j => j.ready && !j.susp && (s.core core).slotReady j.id (some j.slot)) = some j →
          completes (exec (.epilogueDrain core) s) fun t =>
            (count ≤ e.done → (∀ q ∈ (t.core core).ejobs, q.id ≠ j.id) ∧ paid u t e.frame e.gen j.id e.flags
                ∧ (t.core core).rc = (if j.par.getLsbD 32 then (u.core core).rc else (u.core core).rc - 1))
              ∧ (e.done < count → (t.core core).rc = (u.core core).rc ∧ ∀ q ∈ (t.core core).ejobs, q.id = j.id → q = e) ∧ t.mem = u.mem)

/-! The chain engine. -/

/-- R242, R248 to R250: CHBOND sets a bond of the cluster, 1 to 256; CHLOAD loads a descriptor that keeps the rules of R242, from an address that
is a multiple of 64; CHRUN and CHSTEP enter the cluster's queue of 8, from a step below 1,024, unless it is full or one that came before still waits for a place; CHWAIT waits for the context's run and gives its
status. -/
def Obligations.ChainInstructions : Prop :=
  ∀ (b : BdReg) (d : XReg) (a o : AReg) (hd es : List Byte) (ch : ChDesc) (u v s : State),
    let x := (s.c.getX d).toNat
    let p := s.c.getA a
    let k := s.clu s.myClu
    let run (i : Instr) (single : Bool) : Prop :=
      (1024 ≤ x → exec i s = .next s.reservedField) ∧ (x < 1024 → s.runsFull = true → exec i s = .next s.stall)
        ∧ (8 ≤ k.runs.length → s.runsFull = true)
        ∧ (k.runs.length < 8 → (∀ q ∈ coresOf s.myClu, ∀ g ∈ framesOf q, g ≠ s.self → (s.ctx g).waits = []) → s.runsFull = false)
        ∧ (x < 1024 → s.runsFull = false → completes (exec i s) fun t => (t.c = { s.retire.c with chRun := some s.nextId }) ∧ t.mem = s.mem ∧ t.cores = s.cores
            ∧ ∃ r, (t.clu s.myClu).runs = k.runs ++ [r] ∧ r.id = s.nextId ∧ r.frame = s.self ∧ r.step = x ∧ r.single = single ∧ r.inA = s.c.getA a
              ∧ r.outA = s.c.getA o ∧ r.started = false ∧ r.sampled = false ∧ r.asid = s.c.asid ∧ r.gen = s.c.gen ∧ r.win = s.c.lsWin)
    let busy : Prop := (∃ id, s.c.chRun = some id ∧ ∃ r ∈ k.runs, r.id = id) ∨ (s.c.deliverable = true ∧ ∃ q ∈ s.c.pending, q.code = 0x10)
    (x = 0 ∨ 256 < x → exec (.chbond b d) s = .next s.reservedField)
      ∧ (x ≠ 0 → x ≤ 256 → exec (.chbond b d) s = .next (s.setClu s.myClu { k with bd := tset k.bd b.val x }).retire)
      ∧ (p.toNat % 64 ≠ 0 → exec (.chload a) s = .next (s.misaligned p))
      ∧ (p.toNat % 64 = 0 → s.readBytesAt (s.req 8) .clu 2 p.toNat 64 = .ok (hd, u) →
          u.readBytesAt (u.req 8) .clu 10 (p.toNat + 64) (32 * min 16 (wordOfBytes (hd.take 1))) = .ok (es, v) →
          (parseChain (hd ++ es) = some ch → exec (.chload a) s = .next (v.setClu v.myClu { v.clu v.myClu with desc := some ch }).retire)
            ∧ (parseChain (hd ++ es) = none → exec (.chload a) s = .next v.reservedField))
      ∧ run (.chrun d a o) false ∧ run (.chstep d a o) true
      ∧ (busy → exec (.chwait d) s = .next s.stall) ∧ (¬busy → exec (.chwait d) s = setsX s d (.ofNat 64 (s.c.chEnd * 65536 + s.c.chStep)))

/-- The chain engine's turn is at hand: its run is the slice's choice, not suspended, and its step word has a meaning whose axes are given. -/
def Sys2Proof.Says.turn (s u : State) (clu : Nat) (r : ChRun) (d : ChDesc) (st : CStep) (ax : List Axis) : Prop :=
  (s.clu clu).run = some r ∧ (∃ j, s.chosen (coreOf r.frame) = some j ∧ j.kind = .chain r.id) ∧ r.susp = false ∧ r.desc = some d ∧ r.step < 1024
    ∧ (∃ w, s.stepWord r r.step = .ok (w, u) ∧ parseStep w = some st) ∧ axesAfter d r.bds r.axes st = some ax

/-- The context that issued a run, if it is still in its frame, is left the run's status. -/
def Sys2Proof.Says.endsAt (v t : State) (r : ChRun) (fin step : Nat) : Prop :=
  (v.ctx r.frame).live = true → (v.ctx r.frame).gen = r.gen → (v.ctx r.frame).chRun = some r.id → (t.ctx r.frame).chEnd = fin ∧ (t.ctx r.frame).chStep = step

/-- The run goes on to its next step, or a CHSTEP ends with status 1 at that step, whose number has 10 bits. -/
def Sys2Proof.Says.stepped (v t : State) (clu : Nat) (r : ChRun) (ax : List Axis) : Prop :=
  (r.single = true → (∀ q ∈ (t.clu clu).runs, q.id ≠ r.id) ∧ endsAt v t r 1 ((r.step + 1) % 1024))
    ∧ (r.single = false → ∀ q ∈ (t.clu clu).runs, q.id = r.id → q.step = r.step + 1 ∧ q.axes = ax ∧ q.done = 0)

/-- R243 to R250: the chain engine begins the oldest run with the state it samples, once, which a run whose context has ended has kept, or raises chain-shape, which
ends the run with status 4, where it has no descriptor or its buffer passes the window of the issuing context. Then each step does what its word says: LOAD converts the input into the boundary, ABSORB adds a k-step of 8 terms to an
element, PERM moves an axis, EMIT writes the boundary out, END ends the run with status 0; a boundary that passes the buffer ends it with status 2
and the upcall 0x10. The model's choices, which no rule states: the priority is sampled with the rest of the state, and the count of waiting cycles begins then (log 71), an EMIT of an empty
axis writes nothing (log 70), and a status holds its step number modulo 1,024 (log 78). -/
def Obligations.ChainSteps : Prop :=
  ∀ (clu k b j : Nat) (fm : Nat) (r q : ChRun) (d : ChDesc) (ax : List Axis) (bs : List Byte) (g : ChCore) (ps : List (Val × Fl))
    (s u v : State),
    let core := coreOf r.frame
    let c := s.ctx r.frame
    let n := axesSize ax
    let fmt : Fmt := if fm = 0 then .f32 else if fm = 1 then .f16 else .bf16
    let u' (st : CStep) := ((st.sources r d).foldl (fun s n => s.lsGrant core n) (u.unpin [r.id])).mapCore core fun k => k.turnTo u.time (some r.id)
    let boundary (w t : State) (f : Nat → Nat) : Prop :=
      (t.core core).ls = (w.core core).ls.writeBytes (r.win.1 + r.bbase) ((List.range n).flatMap fun k => bytesOf 4 (f k))
    let overflow (w t : State) : Prop := (∀ q ∈ (t.clu clu).runs, q.id ≠ r.id) ∧ (t.core core).ls = (w.core core).ls
      ∧ endsAt w t r 2 (r.step % 1024)
      ∧ ((w.ctx r.frame).owns r.gen = true → ∃ q, (t.ctx r.frame).pending = (w.ctx r.frame).pending ++ [q] ∧ q.code = 0x10 ∧ q.info = r.step ∧ q.addr = .ofNat 64 r.bbase)
    let start : Prop := (s.clu clu).run = none ∧ (s.clu clu).runs.head? = some r ∧ r.susp = false
    let r' := if r.sampled then r else
      { (if r.kept then r else { r with kept := true, prog := c.cr.chprog, bbase := c.cr.bbase.toNat, bsize := c.cr.bsize.toNat, fctl := c.cr.fctl, prio := c.mprio.toNat }) with
               sampled := true, desc := (s.clu clu).desc, bds := (List.range 17).map fun b => tget 1 (s.clu clu).bd b }
    (start → r'.desc = some d → r'.bbase + r'.bsize ≤ r.win.2 → (s.mapRun clu r.id fun _ => r').deriveAxes r' d r.step 0 [] = .ok (ax, u) →
        completes (exec (.chainRunStart clu) s) fun t =>
          (∀ q ∈ (t.clu clu).runs, q.id = r.id → q = { r' with started := true, axes := ax }) ∧ t.mem = u.mem
            ∧ ∃ j, (t.core core).mjobs = (u.core core).mjobs ++ [j] ∧ j.kind = .chain r.id ∧ j.id = r.id ∧ j.prio = r'.prio)
      ∧ (start → (r'.desc = none ∨ r.win.2 < r'.bbase + r'.bsize) → completes (exec (.chainRunStart clu) s) fun t =>
          (∀ q ∈ (t.clu clu).runs, q.id ≠ r.id) ∧ endsAt s t r 4 (r.step % 1024) ∧ (t.core core).frozen = true ∧ (t.core core).fcode = 0x2B ∧ (c.owns r.gen = true → (t.ctx r.frame).cr.fault0 = .ofNat 64 (0x2B + 2 ^ 32 * (r.step % 2 ^ 32))))
      ∧ (turn s u clu r d (.load fm) ax → r.inA.toNat % fmtBytes fmt = 0 → (u' (.load fm)).chainBytes r r.inA (n * fmtBytes fmt) = .ok (bs, v) →
          (4 * n ≤ r.bsize → completes (exec (.chainLoad clu) s) fun t => stepped v t clu r ax ∧ boundary v t fun k => (convert .f32 fmt 0 (elemAt fmt bs k)).bits % 2 ^ 32)
            ∧ (r.bsize < 4 * n → completes (exec (.chainLoad clu) s) fun t => overflow v t))
      ∧ (turn s u clu r d (.perm k b) ax → 4 * n ≤ r.bsize → completes (exec (.chainPerm clu) s) fun t => stepped (u' (.perm k b)) t clu r ax ∧ boundary (u' (.perm k b)) t fun m =>
          let ix := unflatten ax m
          (u' (.perm k b)).boundaryElem r (flatten r.axes (r.axes.map fun a => axisIndex ax ix a.kind a.idx)) % 2 ^ 32)
      ∧ (turn s u clu r d (.emit fm) ax → r.outA.toNat % fmtBytes fmt = 0 → (u' (.emit fm)).emitFrom r fmt (n - r.done) r.done = ((q, v), none) → q.id = r.id →
          q.single = r.single → q.step = r.step → q.frame = r.frame → completes (exec (.chainEmit clu) s) fun t => stepped v t clu q ax ∧ t.mem = v.mem)
      ∧ (turn s u clu r d .fin ax → completes (exec (.chainEnd clu) s) fun t => (∀ q ∈ (t.clu clu).runs, q.id ≠ r.id) ∧ endsAt u t r 0 (r.step % 1024) ∧ t.mem = u.mem)
      ∧ (turn s u clu r d (.absorb k b j) ax → d.cores[k - 1]? = some g →
          let terms := bondOf r.bds b * g.nin
          let steps := (terms + 7) / 8
          let e := r.done / steps
          let m := r.done % steps
          let ix := unflatten ax e
          let cc := if b + 1 = k then k else k - 1
          let pairs := ((List.range 8).map (8 * m + ·)).filterMap fun kap =>
            if kap < terms then
              let a' := kap / g.nin
              let i := kap % g.nin
              let xi := r.axes.map fun a => if a.kind == 0 && a.idx == j then i else if a.kind == 2 && a.idx == b then a' else axisIndex ax ix a.kind a.idx
              let gg := if b + 1 = k then (a', axisIndex ax ix 2 cc) else (axisIndex ax ix 2 cc, a')
              some (flatten r.axes xi, ((gg.1 * g.nin + i) * g.nout + axisIndex ax ix 1 k) * bondOf r.bds k + gg.2)
            else none
          let z := kStep (if m = 0 then 0 else r.acc.toNat) ps
          (u' (.absorb k b j)).chainTerms r d g pairs = .ok (ps, v) → completes (exec (.chainAbsorb clu) s) fun t =>
            (r.done + 1 = steps * n → 4 * n ≤ r.bsize → stepped v t clu r ax ∧ boundary v t fun i => (tget 0 (tset (v.clu clu).step e (.ofNat 32 z.bits)) i).toNat)
            ∧ (r.done + 1 = steps * n → r.bsize < 4 * n → overflow v t)
            ∧ (r.done + 1 ≠ steps * n → ∀ q ∈ (t.clu clu).runs, q.id = r.id → q.done = r.done + 1 ∧ q.acc = .ofNat 32 z.bits ∧ q.flags = r.flags ||| z.fl)
            ∧ (t.clu clu).step = (if m + 1 = steps then tset (v.clu clu).step e (.ofNat 32 z.bits) else (v.clu clu).step))

/-! The job queue, the engines and rings. -/

/-- R73 to R76, R251 to R259, R265, R283: ENQ reads its footprint, refuses with a reason in its register, or accepts the job under the cluster's
next number and writes its id, into one of the queue's 64 entries or its overflow area; with that exhausted it waits; JPOLL gives a job's state word and JWAIT waits for a terminal one, whose writes join the context's released
writes; JCANCEL gives the word and cancels, the job ending once what it wrote is performed; a job the cluster does not know reads 0; SRFENCE empties the shape cache. The form of an
entry in the overflow area, 64 bytes of `Config.spillEntry`, is the model's choice, no rule's (log 32). -/
def Obligations.QueueInstructions : Prop :=
  ∀ (d a : XReg) (n : Fin 7) (b : AReg) (fp r : Nat) (sh : Option Shape) (co : Option Coll) (j : Job) (u v w s : State),
    let cw := s.c.cmdWord n 0
    let fpa := s.c.getA b + .ofNat 64 (cw.toNat / 2 ^ 32)
    let reg (k : Nat) := u.regionOf u.self (Machine.fld fp 48 1 / 4 ^ k % 4) (Machine.fld fp (49 + k) 1) (Machine.fld fp (16 * k) 8) (Machine.fld fp (16 * k + 8) 8)
    let eng := cw.toNat % 256
    let scope := cw.toNat / 2 ^ 19 % 8
    let codes : List Nat := [if eng = 0 ∨ 4 < eng then 1 else 0, if 5 < scope then 2 else 0, if cw.toNat / 2 ^ 32 % 64 ≠ 0 then 3 else 0,
      if cw.toNat / 2 ^ 23 % 2 ^ 9 ≠ 0 ∨ 64 ≤ Machine.fld fp 48 1 ∨ Machine.fld fp 52 12 ≠ 0 then 4 else 0, (reg 0).1, (reg 1).1, (reg 2).1]
    let read : Prop := s.readNum (s.req 8) .clu fpa.toNat 64 = .ok (fp, u)
    let ops := u.enqOperands eng (cw.toNat / 2 ^ 8 % 256) (u.c.cmdWord n 1) (u.c.cmdWord n 2) (u.c.cmdWord n 3)
    let refused (w : State) (r : Nat) : Out := setsX w d (.ofNat 64 (2 ^ 63 + r))
    let k := v.clu v.myClu
    let accepts (v t : State) (spilled : Bool) : Prop :=
      let k := v.clu v.myClu
      t.c = (v.c.setX d (.ofNat 64 (v.myClu * 2 ^ 32 + k.q))).retire
        ∧ ∃ j, t.clu v.myClu = ({ k with jobs := k.jobs ++ [j], q := if k.q = 2 ^ 32 - 1 then 1 else k.q + 1 } : CluSt).settleJobs v.time ∧ j.q = k.q
          ∧ j.spilled = spilled ∧ j.frame = v.self ∧ j.gen = v.c.gen ∧ j.engine = eng ∧ j.cmd = cw.toNat / 2 ^ 8 % 256
          ∧ j.w1 = v.c.cmdWord n 1 ∧ j.w2 = v.c.cmdWord n 2 ∧ j.w3 = v.c.cmdWord n 3 ∧ j.state = 1 ∧ j.mark = 0 ∧ j.barrier = cw.getLsbD 22
          ∧ j.prio = cw.toNat / 2 ^ 16 % 8 ∧ j.rd0 = (reg 0).2 ∧ j.rd1 = (reg 1).2 ∧ j.wr = (reg 2).2 ∧ j.shape = sh ∧ j.coll = co ∧ j.asid = v.c.asid
    let id := s.c.getX a
    let clean : Prop := ∀ x ∈ codes, x = 0
    let word := (s.clu s.myClu).stateWord j
    let observed : Out := .next (s.done fun c => (if j.frame = s.self ∧ j.gen = c.gen then
      { c with released := c.released ++ j.released.filter fun l => !c.released.contains l } else c).setX d word)
    (read → firstReason codes = r → r ≠ 0 → exec (.enq d n b) s = refused u r)
      ∧ (read → clean → ops = .ok ((r, sh, co), v) → r ≠ 0 → exec (.enq d n b) s = refused v r)
      ∧ (read → clean → ops = .ok ((0, sh, co), v) → k.openJobs false < 64 → completes (exec (.enq d n b) s) fun t => accepts v t false ∧ t.mem = v.mem)
      ∧ (read → clean → ops = .ok ((0, sh, co), v) → 64 ≤ k.openJobs false → 64 * (k.openJobs true + 1) ≤ k.ovf.2 →
          ({ v with fresh := v.fresh + 1 } : State).writeNum (v.req 12) .die (k.ovf.1 + 64 * k.openJobs true) 64 (Config.spillEntry v.fresh).toNat = .ok w →
          completes (exec (.enq d n b) s) fun t => accepts w t true ∧ t.mem = w.mem)
      ∧ (read → clean → ops = .ok ((0, sh, co), v) → 64 ≤ k.openJobs false → k.ovf.2 < 64 * (k.openJobs true + 1) → completes (exec (.enq d n b) s) fun t =>
          t.c.pc = v.c.pc ∧ t.c.wait.isSome = true ∧ t.c.x = v.c.x ∧ t.clus = v.clus ∧ t.mem = v.mem)
      ∧ (s.jobOf id = none → exec (.jpoll d a) s = setsX s d 0 ∧ exec (.jwait d a) s = setsX s d 0 ∧ exec (.jcancel d a) s = setsX s d 0)
      ∧ (s.jobOf id = some j → 5 ≤ j.state → exec (.jpoll d a) s = observed ∧ exec (.jwait d a) s = observed ∧ exec (.jcancel d a) s = setsX s d word)
      ∧ (s.jobOf id = some j → j.state < 5 → exec (.jpoll d a) s = setsX s d word ∧ exec (.jwait d a) s = .next s.stall
          ∧ (j.ending = none → exec (.jcancel d a) s = .next ((s.closeJob s.myClu j 6 0).done fun c => c.setX d word))
          ∧ (∀ e, j.ending = some e → exec (.jcancel d a) s = .next ((s.closeJob s.myClu j e.1 e.2).done fun c => c.setX d word))
          ∧ (s.jobPosted j = false → s.publish s.myClu j.scope j.released = .ok u → ∀ x ∈ ((s.closeJob s.myClu j 6 0).clu s.myClu).jobs, x.q = j.q → 5 ≤ x.state))
      ∧ completes (exec (.srfence none) s) (fun t => t.c = s.retire.c ∧ t.mem = s.mem ∧ (t.clu s.myClu).shapes = [])
      ∧ completes (exec (.srfence (some b)) s) (fun t => t.c = s.retire.c ∧ t.mem = s.mem ∧ ∀ e, e ∈ (t.clu s.myClu).shapes ↔
          e ∈ (s.clu s.myClu).shapes ∧ ¬(e.1 = s.c.asid ∧ e.2.1 = (s.c.getA b).toNat))

/-- A running job of an engine's command that has work left. -/
def Sys2Proof.Says.running (s : State) (clu q eng cmd : Nat) (j : Job) : Prop :=
  (s.clu clu).job q = some j ∧ j.state = 2 ∧ j.fin = false ∧ j.engine = eng ∧ (if eng = 2 then j.cmd % 16 else j.cmd) = cmd

/-- The job goes on with a new mark, and its work is over where the mark has reached its total. -/
def Sys2Proof.Says.goesOn (v : State) (clu : Nat) (j : Job) (mark : Nat) : Out :=
  .next (v.mapJob clu j.q fun _ => { j with mark := mark, fin := decide (j.total ≤ mark) })

/-- R252 to R255, R260 to R263: with fewer than 4 jobs running, the queue lets the first job that may resume go on, or else starts an eligible job of highest
priority, a zero-length copy or fill being DONE when it would start; a copy or fill writes the next stretch of its destination, a fill whole elements of 8 bytes, a copy onto itself from what it took first; a gather writes its next elements and a
scatter its next element, or packed group, converted, at the address its shape gives; a job whose work is over publishes what it wrote and is DONE. -/
def Obligations.EngineJobs : Prop :=
  ∀ (clu q : Nat) (j : Job) (sh : Shape) (bs : List Byte) (vs : List Nat × Fl) (js : Job) (u v s : State),
    let k := s.clu clu
    let dst := j.w2 + .ofNat 64 j.mark
    let held : Prop := s.windowHeld j = true ∧ ∀ c p, j.chan = some (c, p) → p = s.dev.partition
    let comp (dma : Bool) : Bool := match (if dma then s.dmaComp (j.req clu 12) dst.toNat else .ok (none, s)) with
      | .ok (some _, _) => true
      | _ => false
    let m (dma : Bool) := min (j.total - j.mark) (if comp dma then 4096 - dst.toNat % 4096 else 64 - dst.toNat % 64)
    let stop := lsOff j.w2 + j.total
    let fmt := (denseFmt j.cmd).getD .f32
    let ns := ((List.range (j.group sh)).map (j.mark + ·)).filter (· < sh.count)
    let out := packElems fmt (vs.1 ++ if fmt = .t6 then List.replicate (4 - vs.1.length) 0 else [])
    let to_ := j.w2 + .ofNat 64 (elemOff fmt j.mark)
    let place := tensorElem sh j.w3 j.mark
    let prio (j : Job) : Nat := min 7 (j.prio + match j.elig with | some t => (s.time - t).toNat / 4096 | none => 0)
    let ready := (eligibleJobs [] k.jobs).filter fun j => !j.spilled && (!j.channel clu || decide ((s.core (coreOf j.frame)).chans.length < 4))
    let fill := min (j.total - j.mark) (max 8 ((64 - dst.toNat % 64) / 8 * 8))
    let res := convert sh.format fmt j.fctl (elemAt fmt bs 0)
    (running s clu q 1 1 j → held → let pat := (List.range fill).map fun i => (.ofNat 8 (j.w1.toNat / 2 ^ (8 * ((j.mark + i) % 8))) : Byte)
        s.engWrite clu j false dst stop pat = .ok v → exec (.fillJob clu q) s = goesOn v clu (j.wrote dst fill) (j.mark + fill))
      ∧ (running s clu q 1 0 j → held → j.selfOverlap = false → s.engRead clu j (isLs j.w2) (j.w1 + .ofNat 64 j.mark) (m (isLs j.w1)) = .ok (bs, u) →
          u.engWrite clu j (isLs j.w1) dst stop bs = .ok v →
          exec (.copyJob clu q) s = goesOn v clu (j.wrote dst (m (isLs j.w1))) (j.mark + m (isLs j.w1)))
      ∧ (running s clu q 1 0 j → s.windowHeld j = true → j.selfOverlap = true → j.saved = [] → s.engRead clu j (isLs j.w2) j.w1 j.total = .ok (bs, u) →
          exec (.copyJob clu q) s = .next (u.mapJob clu q fun x => { x with saved := bs }))
      ∧ (running s clu q 1 0 j → held → j.selfOverlap = true → j.saved ≠ [] →
          s.engWrite clu j (isLs j.w1) dst stop ((j.saved.drop j.mark).take (m (isLs j.w1))) = .ok v →
          exec (.copyJob clu q) s = goesOn v clu (j.wrote dst (m (isLs j.w1))) (j.mark + m (isLs j.w1)))
      ∧ (running s clu q 2 0 j → j.shape = some sh → s.windowHeld j = true → s.gatherElems clu j sh ns = .ok (vs, u) →
          u.engWrite clu j (isLs sh.base) to_ (lsOff j.w2 + spanBytes fmt sh.count) out = .ok v →
          exec (.gatherJob clu q) s = goesOn v clu { (j.wrote to_ out.length) with flags := j.flags ||| vs.2 } (j.mark + ns.length))
      ∧ (running s clu q 2 1 j → j.shape = some sh → s.windowHeld j = true → sh.fmt ≠ 6 → fmt ≠ .t6 → j.mark < sh.count →
          s.engRead clu j (isLs sh.base) to_ (fmtBytes fmt) = .ok (bs, u) →
          (place.2.2 = false → exec (.scatterJob clu q) s = goesOn u clu j (j.mark + 1))
            ∧ (place.2.2 = true → u.engScatter clu j (isLs j.w2) place.1 (isLs sh.base) (j.laterIn sh (j.mark + 1)) (bytesOf (fmtBytes sh.format) res.bits) = .ok v →
                exec (.scatterJob clu q) s = goesOn v clu { (j.wrote place.1 (fmtBytes sh.format)) with flags := j.flags ||| res.fl } (j.mark + 1)))
      ∧ (running s clu q 2 1 j → j.shape = some sh → s.windowHeld j = true → s.engRead clu j (isLs sh.base) to_ (spanBytes fmt ns.length) = .ok (bs, u) →
          let es := ns.zipIdx.map fun p => (p.1, convert sh.format fmt j.fctl (elemAt fmt bs p.2))
          u.scatterAll clu sh j (j.scatterWrites sh es) = .ok (js, v) → js.flags = j.flags → completes (exec (.scatterJob clu q) s) fun t =>
            ∃ fl, .next t = goesOn v clu { js with flags := js.flags ||| fl } (j.mark + ns.length)
              ∧ ∀ b, b < 7 → (fl.getLsbD b = true ↔ ∃ e ∈ es, (tensorElem sh j.w3 e.1).2.2 = true ∧ e.2.fl.getLsbD b = true))
      ∧ ((s.clu clu).job q = some j → j.state = 2 → j.fin = true → s.jobPosted j = false → s.publish clu j.scope j.released = .ok u → j ∈ (u.clu clu).jobs →
          completes (exec (.jobCompletion clu q) s) fun t => t.mem = u.mem
            ∧ (j.ending = none → ∃ x ∈ (t.clu clu).jobs, x = { j with state := 5, detail := 0 }) ∧ ∀ e, j.ending = some e → 5 ≤ e.1 → ∃ x ∈ (t.clu clu).jobs, x = { j with state := e.1, detail := e.2 })
      ∧ ((k.jobs.filter (·.state == 2)).length < 4 → (k.jobs.find? fun j => j.resume && (j.state == 3 || j.state == 4)) = some j →
          exec (.jobStart clu) s = .next (s.mapJob clu j.q fun x => { x with state := 2, resume := false }))
      ∧ ((k.jobs.filter (·.state == 2)).length < 4 → (∀ x ∈ k.jobs, x.resume = true → x.state ≠ 3 ∧ x.state ≠ 4) →
          (ready.find? fun x => ready.all fun y => decide (prio y ≤ prio x)) = some j → (j.engine = 2 → ∃ sh, j.shape = some sh ∧ j.tensorBad sh = false) →
          (j.engine = 1 → bitsOf j.w3 47 0 ≠ 0) → completes (exec (.jobStart clu) s) fun t => t.mem = s.mem ∧ (t.clu clu).jobs.length = k.jobs.length
            ∧ (∀ x ∈ (t.clu clu).jobs, x.q = j.q → x.state = 2) ∧ ∀ x ∈ k.jobs, x.q ≠ j.q → x ∈ (t.clu clu).jobs)
      ∧ ((k.jobs.filter (·.state == 2)).length < 4 → (∀ x ∈ k.jobs, x.resume = true → x.state ≠ 3 ∧ x.state ≠ 4) →
          (ready.find? fun x => ready.all fun y => decide (prio y ≤ prio x)) = some j → j.engine = 1 → bitsOf j.w3 47 0 = 0 →
          exec (.jobStart clu) s = .next (s.closeJob clu j 5 0))

/-- R266 to R268: a POST reserves a slot of its ring, writes its two words there, and publishes the slot under a release; a collective starts when
every other rank's record agrees, ends aborted when a rank has left, and else writes one element at a time: the reduction of the ranks' elements in rank order, or the one rank's. -/
def Obligations.PostAndCollectives : Prop :=
  ∀ (clu q d old pre seq new new' : Nat) (peers : List Peer) (c : Coll) (j : Job) (bs : List Byte) (u w1 w2 w3 w4 v s : State),
    let r := j.req clu 12
    let desc := j.w1.toNat
    let slot := Machine.fld old 0 8 + seq % 2 ^ Machine.fld old 12 1 * Machine.fld old 8 4
    let jw := j.wrote (.ofNat 64 slot) 16
    let fmt := (fmtNum c.fmt).getD .f32
    let size := fmtBytes fmt
    let at_ (idx rank : Nat) : Nat := if rank = c.rank then wordOfBytes bs else match j.peers.find? (·.rank == rank) with
      | some p => (p.data.getD idx 0).toNat % 2 ^ (8 * size)
      | none => 0
    let dst := j.w2 + .ofNat 64 (j.mark * size)
    let run (cmd : Nat) : Prop := running s clu q 4 cmd j ∧ j.begun = true ∧ j.coll = some c
    let own (idx : Nat) : Prop := s.engRead clu j false (j.w1 + .ofNat 64 (idx * size)) size = .ok (bs, u)
    let writes (u : State) (val : Nat) : Prop := u.engWrite clu j false dst 0 (bytesOf size val) = .ok v
    let ends : Out := goesOn v clu (j.wrote dst size) (j.mark + 1)
    let all (idx : Nat) := collReduce fmt c.op ((List.range c.nranks).map (at_ idx))
    let same (p : Peer) : Prop := p.cmd = j.cmd ∧ p.group = c.group ∧ p.seq = c.seq ∧ p.count = c.count ∧ p.nranks = c.nranks ∧ p.root = c.root ∧ p.fmt = c.fmt ∧ p.op = c.op
    (run 0 → own j.mark → writes u (all j.mark) → exec (.allReduce clu q) s = ends)
      ∧ (run 2 → own (c.rank * c.count + j.mark) → writes u (all (c.rank * c.count + j.mark)) → exec (.reduceScatter clu q) s = ends)
      ∧ (run 1 → j.mark / c.count = c.rank → own (j.mark % c.count) → writes u (wordOfBytes bs) → exec (.allGather clu q) s = ends)
      ∧ (run 1 → j.mark / c.count ≠ c.rank → writes s (at_ (j.mark % c.count) (j.mark / c.count)) → exec (.allGather clu q) s = ends)
      ∧ (run 3 → c.root = c.rank → own j.mark → writes u (wordOfBytes bs) → exec (.broadcast clu q) s = ends)
      ∧ (run 3 → c.root ≠ c.rank → writes s (at_ j.mark c.root) → exec (.broadcast clu q) s = ends)
      ∧ ((s.clu clu).job q = some j → j.coll = some c → j.state = 2 → j.fin = false → j.begun = false → peersFull c peers = true → (∀ p ∈ peers, p.gone = false) → (∀ p ∈ peers, same p) →
          exec (.collectiveStart clu q peers) s = .next (s.mapJob clu q fun x => { x with begun := true, peers := peers }))
      ∧ ((s.clu clu).job q = some j → j.coll = some c → j.state = 2 → j.fin = false → j.begun = false → peersFull c peers = true → (∀ p ∈ peers, p.gone = false) → (∃ p ∈ peers, ¬same p) →
          exec (.collectiveStart clu q peers) s = .next (s.failJob clu j 4))
      ∧ ((s.clu clu).job q = some j → j.coll = some c → j.state < 5 → j.fin = false → (∃ p ∈ peers, p.gone = true) →
          exec (.collectiveStart clu q peers) s = .next (s.abortColl clu j c))
      ∧ ((s.clu clu).job q = some j → j.state = 2 → j.fin = false → j.engine = 3 → s.readNum r .clu desc 64 = .ok (d, u) → Machine.fld d 48 4 % 2 = 1 →
          (s.core (coreOf (ownerFrame (Machine.fld d 48 4)))).role.getLsbD 0 = true → u.ringAt r desc (fun x => (ringRes x).map (·.2)) = .ok (old, w1) →
          ringBad old = false → ringRes old = some (seq, new) → w1.engWriteVa r false 3 slot (bytesOf 8 j.w2.toNat ++ bytesOf 8 j.w3.toNat) = .ok w2 →
          w2.publish clu (ringScope old) jw.released = .ok w3 → w3.ringAt r desc (fun x => ringPub x seq s.time.toNat) = .ok (pre, w4) →
          ringPub pre seq s.time.toNat = some new' →
          exec (.postJob clu q) s = .next ((w4.ringTimer j.asid desc new').mapJob clu q fun _ => { jw with fin := true }))

/-- A ring descriptor keeps every byte but those at some offsets. -/
def Sys2Proof.Says.keepsBytes (r r' : Nat) (but : Nat → Prop) : Prop := ∀ o, o < 64 → ¬but o → Machine.fld r' o 1 = Machine.fld r o 1

/-- A ring's window takes sequence number seq, the i-th from its frontier, which stands at offset fr: with the number's bit set in the mask at offset mk, the k lowest bits that
are all 1 leave the mask, and the frontier goes on by k (R272). -/
def Sys2Proof.Says.windowMoves (r r' fr mk i : Nat) : Prop :=
  let m := Machine.fld r mk 8 + 2 ^ i
  ∃ k, k ≤ 64 ∧ (∀ b, b < k → m.testBit b = true) ∧ (k < 64 → m.testBit k = false) ∧ Machine.fld r' mk 8 = m / 2 ^ k
    ∧ Machine.fld r' fr 4 = (Machine.fld r fr 4 + k) % 2 ^ 32

/-- R271 to R273: the ring instructions on a well-formed descriptor. A reservation gives the next number while fewer than the ring's slots are
reserved and not done, a take the next published number, and each moves its counter on by 1; publishing and finishing take each number of the window of 64 once, in any
order: one that is reserved, or taken, and whose bit is clear; they move the frontier past those that are all there, and no other byte of the descriptor but, for a publication that leaves a
hole where there was none or after the frontier moved, the time the hole began; another number, or a bad descriptor, raises ring-protocol. A hole that stays for the limit of its owner that its wait sampled
raises its upcall once. The model's choices, which no rule states: a descriptor that is not on 64 bytes raises misalignment (log 26), and the owner's frame stands in the owner word as
`ownerFrame` reads it (log 28). -/
def Obligations.RingInstructions : Prop :=
  (∀ (r seq time : Nat),
    let at_ (o n : Nat) := Machine.fld r o n
    let dist (x y : Nat) := (x + 2 ^ 32 - y) % 2 ^ 32
    let i := dist seq (at_ 20 4)
    let j := dist seq (at_ 28 4)
    let hole (r' : Nat) : Prop := Machine.fld r' 32 8 ≠ 0 ∧ (at_ 32 8 = 0 ∨ Machine.fld r' 20 4 ≠ at_ 20 4)
    (dist (at_ 16 4) (at_ 28 4) < 2 ^ at_ 12 1 → ∃ r', ringRes r = some (at_ 16 4, r') ∧ Machine.fld r' 16 4 = (at_ 16 4 + 1) % 2 ^ 32
        ∧ keepsBytes r r' fun o => 16 ≤ o ∧ o < 20)
      ∧ (2 ^ at_ 12 1 ≤ dist (at_ 16 4) (at_ 28 4) → ringRes r = none)
      ∧ (at_ 24 4 ≠ at_ 20 4 → ∃ r', ringTake r = some (at_ 24 4, r') ∧ Machine.fld r' 24 4 = (at_ 24 4 + 1) % 2 ^ 32 ∧ keepsBytes r r' fun o => 24 ≤ o ∧ o < 28)
      ∧ (at_ 24 4 = at_ 20 4 → ringTake r = none)
      ∧ (i < dist (at_ 16 4) (at_ 20 4) ∧ i < 64 ∧ (at_ 32 8).testBit i = false → ∃ r', ringPub r seq time = some r' ∧ windowMoves r r' 20 32 i
          ∧ (hole r' → Machine.fld r' 56 8 = time % 2 ^ 64) ∧ (¬hole r' → Machine.fld r' 56 8 = at_ 56 8)
          ∧ (keepsBytes r r' fun o => (20 ≤ o ∧ o < 24) ∨ (32 ≤ o ∧ o < 40) ∨ 56 ≤ o) ∧ ringPub r' seq time = none)
      ∧ (¬(i < dist (at_ 16 4) (at_ 20 4) ∧ i < 64 ∧ (at_ 32 8).testBit i = false) → ringPub r seq time = none)
      ∧ (j < dist (at_ 24 4) (at_ 28 4) ∧ j < 64 ∧ (at_ 40 8).testBit j = false → ∃ r', ringDone r seq = some r' ∧ windowMoves r r' 28 40 j
          ∧ (keepsBytes r r' fun o => (28 ≤ o ∧ o < 32) ∨ (40 ≤ o ∧ o < 48)) ∧ ringDone r' seq = none)
      ∧ (¬(j < dist (at_ 24 4) (at_ 28 4) ∧ j < 64 ∧ (at_ 40 8).testBit j = false) → ringDone r seq = none))
  ∧ ∀ (d : XReg) (a : AReg) (b : XReg) (p : PReg) (dd old new n : Nat) (tm : RingTimer) (u v w s : State),
    let desc := s.c.getA a
    let req := s.req 12
    let seq := (s.c.getX b).toNat % 2 ^ 32
    let lift (g : Nat → Option (Nat × Nat)) : Nat → Option Nat := fun r => (g r).map (·.2)
    let aligned : Prop := desc.toNat % 64 = 0
    let cap := 2 ^ Machine.fld old 12 1
    let mod32 (x : Nat) := x % 2 ^ 32
    let f := ownerFrame tm.owner
    let owns : Prop := tm.owner % 2 = 1 ∧ tm.owner / 2 ^ 13 % 16 < 11 ∧ (s.ctx f).live = true ∧ tm.limit ≠ 0 ∧ tm.limit.toNat ≤ (s.time - tm.start).toNat
    (¬aligned → ∀ i ∈ [Instr.rqres d a p, .rqtake d a p, .rqpub a b, .rqdone a b], exec i s = .next (s.misaligned desc))
      ∧ (aligned → s.ringAt req desc.toNat (lift ringRes) = .ok (old, u) → ringBad old = false →
          (mod32 (Machine.fld old 16 4 + 2 ^ 32 - Machine.fld old 28 4) < cap → exec (.rqres d a p) s = .next (u.done fun c => (c.setX d (.ofNat 64 (Machine.fld old 16 4))).setP p true))
            ∧ (cap ≤ mod32 (Machine.fld old 16 4 + 2 ^ 32 - Machine.fld old 28 4) → exec (.rqres d a p) s = setsP u p false))
      ∧ (aligned → s.ringAt req desc.toNat (lift ringTake) = .ok (old, u) → ringBad old = false → u.acquire u.myClu (ringScope old) = .ok v →
          (Machine.fld old 24 4 ≠ Machine.fld old 20 4 → exec (.rqtake d a p) s = .next (v.done fun c => (c.setX d (.ofNat 64 (Machine.fld old 24 4))).setP p true))
            ∧ (Machine.fld old 24 4 = Machine.fld old 20 4 → exec (.rqtake d a p) s = setsP v p false))
      ∧ (aligned → s.ringAt req desc.toNat (fun r => ringDone r seq) = .ok (old, u) →
          (ringBad old = false → (ringDone old seq).isSome = true → exec (.rqdone a b) s = .next u.retire)
            ∧ (ringBad old = true ∨ ringDone old seq = none → exec (.rqdone a b) s = .next (u.raise 0x2C 0 desc)))
      ∧ (aligned → s.readNum req .clu desc.toNat 64 = .ok (dd, u) → ringBad dd = false → u.c.unreleased u.nextId = false →
          u.releaseOf u.self (ringScope dd) = .ok v → v.ringAt (v.req 12) desc.toNat (fun r => ringPub r seq v.time.toNat) = .ok (old, w) → ringBad old = false →
          (ringPub old seq w.time.toNat = some new → exec (.rqpub a b) s = .next (w.ringTimer w.c.asid desc.toNat new).retire)
            ∧ (ringPub old seq w.time.toNat = none → exec (.rqpub a b) s = .next (w.raise 0x2C 0 desc)))
      ∧ (s.rings[n]? = some tm → owns → tm.raised ≠ some tm.pubf → completes (exec (.ringHole n) s) fun t =>
          t.mem = s.mem ∧ ∃ q, (t.ctx f).pending = (s.ctx f).pending ++ [q] ∧ q.code = 0x12 ∧ q.info = tm.pubf ∧ q.addr = .ofNat 64 tm.desc)
      ∧ (s.rings[n]? = some tm → owns → tm.raised = some tm.pubf → exec (.ringHole n) s = .next s)

/-! Delta queues and barriers. -/

/-- R274, R275: consolidation leaves records in the order of time, key and value, no two alike and none of multiplicity 0, whose multiplicities
are the exact sums of the records alike; it fails exactly where such a sum lies outside SI32. -/
def Obligations.Consolidation : Prop :=
  ∀ (u : List DRec),
    let alike (a b : DRec) : Bool := decide (a.time = b.time ∧ a.key = b.key ∧ a.value = b.value)
    let sum (l : List DRec) (a : DRec) : Int := ((l.filter (alike a)).map (·.mult)).sum
    let before (a b : DRec) : Prop := a.time < b.time ∨ (a.time = b.time ∧ (a.key < b.key ∨ (a.key = b.key ∧ a.value < b.value)))
    (∀ rs, consolidate u = some rs → rs.Pairwise before ∧ (∀ r ∈ rs, r.mult ≠ 0 ∧ -2 ^ 31 ≤ r.mult ∧ r.mult < 2 ^ 31) ∧ ∀ a, sum rs a = sum u a)
      ∧ (consolidate u = none ↔ ∃ a ∈ u, sum u a < -2 ^ 31 ∨ 2 ^ 31 ≤ sum u a)

/-- The delta queue an instruction names is queue n, already served. -/
def Sys2Proof.Says.served (s : State) (a : AReg) (n : Nat) (q : DQ) : Prop :=
  (s.c.getA a).toNat % 64 = 0 ∧ s.dqFind s.c.asid (s.c.getA a).toNat = some n ∧ s.dqs[n]? = some q

/-- R275 to R280: the instructions on a served delta queue. A push of a record whose time lies below its slot's frontier, or is the greatest, or lies
below an invocation's own time, raises delta-order, as does every one of them that evaluates a link chain deeper than 16; else the record is appended, with a
full buffer to its overflow area, and the consolidation points that follow are taken; with that exhausted the push waits. A pop writes up to
64 records of one time into the local store and removes them; the arrangement instructions add to, or look up, its entries; the frontier instructions
raise, read and wait for frontiers. R274, R277, R279: DQBIND writes the entry point and the arrangement into a well-formed descriptor, whose queue is
served from then on; a queue with an entry point and fewer invocations than it may have creates one of the least time that has none. R283: with 512 ready
entries in the die it goes to the overflow area. The model's choices, which no rule states: a push to a slot at or past nslots raises delta-order (log 39), what DQLOOK answers without an arrangement
and past its limits (log 80), and the form of an entry in the overflow area (log 32). -/
def Obligations.DeltaQueueInstructions : Prop :=
  (∀ (d : XReg) (a b : AReg) (x : XReg) (n i base lcap count fr rw : Nat) (q : DQ) (e : DRec) (fr? : Option Nat) (rs : List DRec) (u v w s : State),
     let desc := s.c.getA a
     let p := s.c.getA b
     let rec_ := drecOf rw
     let slot := (s.c.getX d).toNat
     let own := match s.c.inv with
       | some (_, t) => if s.c.kind = .invocation then t else 0
       | none => 0
     let order (s : State) : Out := .next (s.raise 0x2D 0 desc)
     let reads : Prop := p.toNat % 64 = 0 ∧ s.readMemNum s.self s.c.asid .clu p 64 = .ok (rw, u) ∧ u.c = s.c ∧ u.self = s.self
     let answer (s : State) (n : Nat) : Out := setsX s d (.ofNat 64 n)
     let early : Prop := rec_.time < fr ∨ rec_.time = 2 ^ 32 - 1 ∨ rec_.time < own ∨ u.deepAt n = true
     let deep : Prop := s.deepAt n = true
     let head (s : State) : Prop := q.arr ≠ 0 ∧ s.arrHead q = .ok ((base, lcap, count), v) ∧ 1 ≤ lcap ∧ lcap ≤ 24
     let value := (s.c.getX x).toNat % 2 ^ 32
     let field := q.desc + 64 + 4 * slot
     let raised := max (q.front.getD slot 0) value
     let dst : Prop := 2 ^ 63 ≤ p.toNat ∧ p.toNat % 64 = 0 ∧ p.toNat % 2 ^ 63 < 2 ^ 18 ∧ p.toNat % 2 ^ 63 + 4096 ≤ s.c.window
     let off := s.c.lsPhys (lsOff p)
     let time := match s.c.invTime n with
       | some t => if q.entry ≠ 0 then some t else q.cons.head?.map (·.time)
       | none => q.cons.head?.map (·.time)
     let mine := (q.cons.filter fun r => some r.time == time).take 64
     let key := (s.core s.myCore).ls.read off 8
     let upTo := (s.core s.myCore).ls.read (off + 8) 4
     let looked (s : State) (l : List DRec) : Out :=
       .next (({ s.lsWrite s.myCore off (lookBytes s.fresh (l.take 64)) with fresh := s.fresh + 64 } : State).done fun c =>
         c.setX d (.ofNat 64 (min l.length 64 + if 64 < l.length then 128 else 0)))
     served s a n q →
       (reads → q.nslots ≤ slot → exec (.dqpush d a b) s = order u)
         ∧ (reads → slot < q.nslots → u.slotFront q slot = some fr → early → exec (.dqpush d a b) s = order u)
         ∧ (reads → slot < q.nslots → u.slotFront q slot = some fr → ¬early → q.records.length < q.bufcap →
             exec (.dqpush d a b) s = .next (u.dqChange u.self u.c.pc fun t => t.dqAppend n u.self u.c.pc rec_).retire)
         ∧ (reads → slot < q.nslots → u.slotFront q slot = some fr → ¬early → q.bufcap ≤ q.records.length → 64 * (q.over + 1) ≤ q.ovflen →
             u.writeNum (u.dqReq q 12) .die (q.ovf + 64 * q.over) 64 rec_.num = .ok w →
             exec (.dqpush d a b) s = .next (w.dqChange w.self w.c.pc fun t => t.dqAppend n w.self w.c.pc rec_).retire)
         ∧ (reads → slot < q.nslots → u.slotFront q slot = some fr → ¬early → q.bufcap ≤ q.records.length → q.ovflen < 64 * (q.over + 1) →
             completes (exec (.dqpush d a b) s) fun t => t.c = { u.c with wait := t.c.wait } ∧ t.c.wait.isSome = true ∧ t.dqs = u.dqs ∧ t.mem = u.mem)
         ∧ (q.entry ≠ 0 ∧ s.c.invTime n = none ∨ deep → exec (.dqpop d a b) s = order s)
         ∧ (¬(q.entry ≠ 0 ∧ s.c.invTime n = none) → ¬deep → dst →
             let t1 := s.lsEngineWrite s.myCore off (off + (recordBytes mine).length) (recordBytes mine)
             let t2 := t1.dqChange t1.self t1.c.pc fun t => t.mapDq n fun q => { q with cons := q.cons.filter fun r => !mine.contains r }
             exec (.dqpop d a b) s = setsX t2 d (if mine = [] then 0 else .ofNat 64 (time.getD 0 * 2 ^ 32 + mine.length)))
         ∧ (¬deep → exec (.dqcons a) s = .next (s.dqChange s.self s.c.pc fun t => t.consolidateAt n s.self s.c.pc).retire)
         ∧ (deep → exec (.dqcons a) s = order s)
         ∧ (reads → q.arr = 0 → exec (.dqarr d a b) s = answer u 3)
         ∧ (reads → head u → State.arrFold (v.dqReq q 8) base (arrMatch rec_) (2 ^ lcap) 0 (none, none) v = .ok ((some (i, e), fr?), w) →
             (si32 (e.mult + rec_.mult) = false → exec (.dqarr d a b) s = .next (w.softUpcall 0x11 0 desc).retire)
               ∧ ∀ t, si32 (e.mult + rec_.mult) = true →
                 w.arrWrite q base i { e with mult := e.mult + rec_.mult } (if e.mult + rec_.mult = 0 then some (count - 1) else none) = .ok t →
                 exec (.dqarr d a b) s = answer t 0)
         ∧ (reads → head u → State.arrFold (v.dqReq q 8) base (arrMatch rec_) (2 ^ lcap) 0 (none, none) v = .ok ((none, fr?), w) →
             (fr? = none ∨ 2 ^ lcap ≤ count → exec (.dqarr d a b) s = answer w 1)
               ∧ (fr? = some i → count < 2 ^ lcap → rec_.mult = 0 → exec (.dqarr d a b) s = answer w 0)
               ∧ ∀ t, fr? = some i → count < 2 ^ lcap → rec_.mult ≠ 0 → w.arrWrite q base i rec_ (some (count + 1)) = .ok t → exec (.dqarr d a b) s = answer t 0)
         ∧ (dst → q.arr = 0 → exec (.dqlook d a b) s = looked s [])
         ∧ (dst → head s → State.arrFold (v.dqReq q 8) base (arrGather key upTo) (2 ^ lcap) 0 [] v = .ok (rs, w) →
             exec (.dqlook d a b) s = looked w ((sumRuns (sortBy DRec.le rs)).filter (·.mult != 0)))
         ∧ (q.nslots ≤ slot ∨ q.link.getD slot 0 ≠ 0 ∨ deep → exec (.dqadv d a x) s = order s)
         ∧ (slot < q.nslots → q.link.getD slot 0 = 0 → ¬deep → s.writeNum (s.dqReq q 12) .die field 4 raised = .ok u →
             exec (.dqadv d a x) s = .next (u.dqChange u.self u.c.pc fun t => t.mapDq n fun q => { q with front := q.front.set slot raised }).retire)
         ∧ (s.fout q.asid 17 q.desc = some fr → exec (.dqfront d a) s = answer s fr) ∧ (s.fout q.asid 17 q.desc = none → exec (.dqfront d a) s = order s)
         ∧ ((∀ t, s.c.invTime n = some t → (s.c.getX x).toNat < t) → s.fout q.asid 17 q.desc = some fr →
             ((s.c.getX x).toNat < fr → exec (.dqwait a x) s = .next s.retire) ∧ (fr ≤ (s.c.getX x).toNat → exec (.dqwait a x) s = .next s.stall))
         ∧ (∀ t, s.c.invTime n = some t → t ≤ (s.c.getX x).toNat → exec (.dqwait a x) s = order s))
  ∧ (∀ (d : XReg) (a : AReg) (b : XReg) (r n t : Nat) (q : DQ) (u v s : State),
         let p := (s.c.getA a).toNat
         let old := s.dqs.find? fun q => q.asid == s.c.asid && q.desc == p
         let new := setFld (setFld r 0 8 (u.c.getX d).toNat) 8 8 (u.c.getX b).toNat
         let die := match old with
           | some q => q.die
           | none => v.myDie
         let k := s.die q.die
         let s' := s.mapDq n fun q => { q with counted := t :: q.counted }
         (p % 64 = 0 → (∀ q, old = some q → q.counted = []) → s.readNum (s.req 8) .die p 160 = .ok (r, u) →
             (dqBad r = true → exec (.dqbind d a b) s = .next u.reservedField)
               ∧ (dqBad r = false → u.writeNum (u.req 12) .die p 16 new = .ok v →
                   let w := v.dqChange v.self v.c.pc fun t => t.putDq (dqOf v.c.asid p die new old)
                   exec (.dqbind d a b) s = .next (if (w.dqFind w.c.asid p).any w.deepAt then w.raise 0x2D 0 (s.c.getA a) else w.retire)))
           ∧ (p % 64 = 0 → ∀ q, old = some q → q.counted ≠ [] → exec (.dqbind d a b) s = .next s.stall)
           ∧ (s.dqs[n]? = some q → q.entry ≠ 0 → q.counted.length < q.maxinv → t ∈ q.cons.map (·.time) → t ∉ q.counted →
               (∀ r ∈ q.cons, r.time ∉ q.counted → t ≤ r.time) →
               (k.held false false < 512 → completes (exec (.invocationCreate n) s) fun w =>
                 w.dqs = s.dqs.set n { q with counted := t :: q.counted } ∧ w.c = s.c ∧ w.mem = s.mem
                   ∧ (w.die q.die).queue.map (fun e => (e.e, e.prio)) = k.queue.map (fun e => (e.e, e.prio)) ++ [(.inv n t, q.prio)])
               ∧ (512 ≤ k.held false false → k.readyOvf.2 < 64 * (k.held false true + 1) → exec (.invocationCreate n) s =
                   .next ((s'.machineEvent 0x43 (.ofNat 64 k.readyOvf.1) (128 * q.die) 0).enqueue q.die q.prio (.inv n t) true))
               ∧ (512 ≤ k.held false false → 64 * (k.held false true + 1) ≤ k.readyOvf.2 →
                   ({ s' with fresh := s.fresh + 1 } : State).writeNum { clu := 16 * q.die, asid := q.asid, who := none, need := 12 } .die
                     (k.readyOvf.1 + 64 * k.held false true) 64 (Config.spillEntry s.fresh).toNat = .ok v →
                   exec (.invocationCreate n) s = .next (v.enqueue q.die q.prio (.inv n t) true))))

/-- R183, R281, R282: an arrival at a barrier, after its release, completes the generation where every participant has arrived, and gives the
generation; BARW, of whose register the low 32 bits count (R39), and BAR wait for a generation and then acquire; the last participant's BAR completes at once; a context does not arrive twice in one generation. -/
def Obligations.Barriers : Prop :=
  ∀ (sc : Scope) (d a : XReg) (u v s : State),
    let key := s.barKey s.self sc
    let b := s.barOf sc key
    let parts := if b.arrived = [] then s.barParts s.self sc else b.parts
    let may : Prop := s.self ∉ b.arrived ∧ (b.arrived ≠ [] → s.self ∈ b.parts)
    let arrived (t : State) : Prop := ∃ b' ∈ t.bars, b'.scope = b.scope ∧ b'.key = b.key
      ∧ ((∀ f ∈ parts, f = s.self ∨ f ∈ b.arrived) → b'.gen = (b.gen + 1) % 2 ^ 32 ∧ b'.arrived = [])
      ∧ (¬(∀ f ∈ parts, f = s.self ∨ f ∈ b.arrived) → b'.gen = b.gen ∧ b'.arrived = b.arrived ++ [s.self] ∧ b'.parts = parts)
    let g := (s.c.getX a).toNat % 2 ^ 32
    let done : Prop := 1 ≤ (b.gen + 2 ^ 32 - g) % 2 ^ 32 ∧ (b.gen + 2 ^ 32 - g) % 2 ^ 32 ≤ 2 ^ 31
    let released : Prop := s.c.unreleased s.nextId = false ∧ s.releaseOf s.self sc = .ok u ∧ u.barParts u.self sc = s.barParts s.self sc ∧ u.self = s.self
    (may → released → completes (exec (.bara sc d) s) fun t => arrived t ∧ t.c.x = (u.c.setX d (.ofNat 64 b.gen)).x ∧ t.c.pc = u.c.npc ∧ t.mem = u.mem)
      ∧ (¬may → exec (.bara sc d) s = .next s.stall ∧ (s.c.wait = none → exec (.bar sc) s = .next s.stall))
      ∧ (done → s.acquire s.myClu sc = .ok u → exec (.barw sc a) s = .next u.retire) ∧ (¬done → exec (.barw sc a) s = .next s.stall)
      ∧ (s.c.wait = none → s.arrive sc = some (.ok (b.gen, v)) →
          ((v.barOf sc (v.barKey v.self sc)).gen = b.gen → exec (.bar sc) s = .next (v.stall true))
            ∧ (may ∧ released ∧ u.barKey s.self sc = key ∧ (∀ f ∈ parts, f = s.self ∨ f ∈ b.arrived) ∨ (v.barOf sc (v.barKey v.self sc)).gen = (b.gen + 1) % 2 ^ 32 →
                ∀ t, v.acquire v.myClu sc = .ok t → exec (.bar sc) s = .next t.retire))

/-! Replay, translation, recording and page moves. -/

/-- R302, R307 to R309: the recording instructions. RECBEG records a region that its descriptor describes, RPLBEG replays a recorded one, or
records it again where a re-record is pending; each makes the context a member and numbers its stores from 0; RECEND and RPLEND leave the region, and
the last member closes the iteration; RERECORD sets a re-record, and with the free flag frees the region once it has no member. -/
def Obligations.RecordingInstructions : Prop :=
  ∀ (d a : XReg) (b : AReg) (r : Nat) (u s : State),
    let w := s.c.getX a
    let n := w.toNat % 64
    let named : Prop := w.toNat < 64
    let p := s.c.getA b
    let g := (s.die s.myDie).region n
    let answer (s : State) (n : Nat) : Out := setsX s d (.ofNat 64 n)
    let free : Prop := s.c.st.recording = false ∧ s.c.st.rpl = false
    let joined (v t : State) (st : Nat) : Prop := ((t.die v.myDie).region n).state = st ∧ v.self ∈ ((t.die v.myDie).region n).members
      ∧ t.c.region = some n ∧ t.c.sidx = 0 ∧ t.c.st = { v.c.st with recording := decide (st = 1), rpl := decide (st = 3) } ∧ t.c.pc = v.c.npc ∧ t.mem = v.mem
    let reads : Prop := p.toNat % 64 = 0 ∧ s.readNum (s.req 8) .clu p.toNat 64 = .ok (r, u)
    let gu := (u.die u.myDie).region n
    let left (t : State) : Prop := t.c.region = none ∧ t.c.st = { s.c.st with recording := false, rpl := false } ∧ t.c.pc = s.c.npc ∧ t.mem = s.mem
      ∧ ((t.die s.myDie).region n).members = g.members.filter (· ≠ s.self)
      ∧ ((t.die s.myDie).region n).state = if (∀ f ∈ g.members, f = s.self) ∧ g.state ≠ 0 then 2 else g.state
    let rid : Prop := w.toNat < 512 ∧ w.toNat / 64 % 4 = 0
    (¬named → ∀ i ∈ [Instr.recbeg d a b, .rplbeg d a, .recend a, .rplend a, .recstat d a], exec i s = .next s.reservedField)
      ∧ (named → ¬free → exec (.recbeg d a b) s = answer s 5 ∧ exec (.rplbeg d a) s = answer s 5)
      ∧ (named → free → reads → gu.state = 0 → regionBad r = false → completes (exec (.recbeg d a b) s) fun t => joined u t 1 ∧ t.c.x = (u.c.setX d 0).x
          ∧ ((t.die u.myDie).region n).base = Machine.fld r 0 8 ∧ ((t.die u.myDie).region n).len = Machine.fld r 8 8
          ∧ ((t.die u.myDie).region n).thrmiss = Machine.fld r 16 4 ∧ ((t.die u.myDie).region n).threvict = Machine.fld r 20 4)
      ∧ (named → free → reads → gu.state ≠ 0 → gu.asid = u.c.asid → gu.holds r = true → regionBad r = false →
          completes (exec (.recbeg d a b) s) fun t => joined u t 1 ∧ t.c.x = (u.c.setX d 0).x)
      ∧ (named → free → reads → gu.state = 0 → regionBad r = true → exec (.recbeg d a b) s = answer u 4)
      ∧ (named → free → reads → gu.state ≠ 0 → gu.asid ≠ u.c.asid ∨ gu.holds r = false → exec (.recbeg d a b) s = answer u 1)
      ∧ (named → free → g.state = 0 ∨ g.asid ≠ s.c.asid → exec (.rplbeg d a) s = answer s 2)
      ∧ (named → free → g.state ≠ 0 → g.asid = s.c.asid → g.rr = true ∨ g.state = 1 →
          completes (exec (.rplbeg d a) s) fun t => joined s t 1 ∧ t.c.x = (s.c.setX d 3).x)
      ∧ (named → free → g.state ≠ 0 → g.asid = s.c.asid → g.rr = false → g.state ≠ 1 →
          completes (exec (.rplbeg d a) s) fun t => joined s t 3 ∧ t.c.x = (s.c.setX d 0).x)
      ∧ (named → s.c.region = some n → completes (exec (.recend a) s) left ∧ completes (exec (.rplend a) s) left)
      ∧ (named → s.c.region ≠ some n → exec (.recend a) s = .next s.retire ∧ exec (.rplend a) s = .next s.retire)
      ∧ (named → exec (.recstat d a) s = answer s
          (min g.miss (2 ^ 24 - 1) * 2 ^ 40 + min g.evict (2 ^ 24 - 1) * 2 ^ 16 + g.fb.toNat * 2 ^ 10 + g.rr.toNat * 2 ^ 9 + g.ovf.toNat * 2 ^ 8 + g.state))
      ∧ (rid → g.state ≠ 0 → g.asid = s.c.asid → w.getLsbD 8 = false → ∀ i ∈ [Instr.rerecord a, .rerecordFree a], completes (exec i s) fun t =>
          (t.die s.myDie).region n = { g with rr := true } ∧ t.c = s.retire.c ∧ t.mem = s.mem)
      ∧ (rid → g.state ≠ 0 → g.asid = s.c.asid → w.getLsbD 8 = true → g.members = [] → ∀ i ∈ [Instr.rerecord a, .rerecordFree a], completes (exec i s) fun t =>
          (t.die s.myDie).region n = RegionSt.reset ∧ (∀ e ∈ (t.die s.myDie).recs, e.region ≠ n) ∧ t.c = s.retire.c ∧ t.mem = s.mem)
      ∧ (rid → g.state ≠ 0 → g.asid = s.c.asid → w.getLsbD 8 = true → g.members ≠ [] → ∀ i ∈ [Instr.rerecord a, .rerecordFree a], completes (exec i s) fun t =>
          (t.die s.myDie).region n = { g with rr := true, freeing := true } ∧ t.c.pc = s.c.pc ∧ t.c.wait.isSome = true ∧ t.mem = s.mem)
      ∧ (rid → g.state = 0 ∨ g.asid ≠ s.c.asid → ∀ i ∈ [Instr.rerecord a, .rerecordFree a], exec i s = .next s.retire)
      ∧ (¬rid → ∀ i ∈ [Instr.rerecord a, .rerecordFree a], exec i s = .next s.reservedField)

/-- R291, R293, R294, R369: FRESUME accepts the replay of an entry that holds its token's generation; PTFENCE publishes the released lines at .dev, which leave
the released ones unless one cannot be written back, and drops the translations and the lines of its range; REPLAY_ATTEMPT performs an accepted entry's next access, no slice using a cached translation of its page, and frees it after the last; RESUME_NOTICE makes the
notice of an entry pending. That the released lines are kept where one cannot be written back is the model's choice, no rule's (log 41). -/
def Obligations.ReplayInstructions : Prop :=
  ∀ (d x : XReg) (a : AReg) (die : Nat) (e : Replay) (acc : Access) (k : Nat) (err : Option (MFault × Nat)) (u s : State),
    let t := (s.c.getX x).toNat
    let find (s : State) (die slice entry : Nat) := (s.die die).replay.find? fun e => e.is slice entry
    let slice := t / 2 ^ 10 % 64
    let entry := t / 2 ^ 16 % 256
    let tokenDie := t / 2 ^ 8 % 4
    let waits : Prop := t < 2 ^ 32 ∧ t % 16 = 0 ∧ e.replaying = false ∧ (e.notice = none ∨ e.aids ≠ []) ∧ e.gen.toNat = t / 2 ^ 24 % 256
    let answer (n : Nat) : Out := setsX s d (.ofNat 64 n)
    let len := (s.c.getX x).toNat
    let start := (s.c.getA a).toNat
    let lo := if len = 0 then 0 else start / 2 ^ 16 * 2 ^ 16
    let hi := if len = 0 then 2 ^ 52 else min (2 ^ 52) ((start + len + 2 ^ 16 - 1) / 2 ^ 16 * 2 ^ 16)
    let gone (t : State) : Prop := find t die e.slice e.entry = none
    (find s tokenDie slice entry = none → exec (.fresume d x) s = answer 1)
      ∧ (find s tokenDie slice entry = some e → ¬waits → exec (.fresume d x) s = answer 1)
      ∧ (find s tokenDie slice entry = some e → waits → e.asid ≠ s.c.asid → exec (.fresume d x) s = answer 2)
      ∧ (find s tokenDie slice entry = some e → waits → e.asid = s.c.asid → completes (exec (.fresume d x) s) fun v =>
          v.c = ((s.c.setX d 0).retire) ∧ v.mem = s.mem ∧ find v tokenDie slice entry = some { e with replaying := true, mark := none })
      ∧ (s.c.unreleased s.nextId = true → exec (.ptfence a x) s = .next s.stall)
      ∧ (s.c.unreleased s.nextId = false → s.publishAll s.myClu .dev s.c.released = (u, err) →
          let v := if err.isNone then u.mapC fun c => { c with released := [] } else u
          exec (.ptfence a x) s = .next ((({ v with
            tlb := v.tlb.filter fun t => !(t.asid == v.c.asid && decide (t.page * 2 ^ t.size < hi) && decide (lo < (t.page + 1) * 2 ^ t.size)) } : State).flushRange
              v.c.asid lo hi).retire))
      ∧ (find s die e.slice e.entry = some e → e.replaying = true → e.escalated = false → e.unit_ = none → e.aids = [acc.aid] → e.notice = none →
          (s.ctx e.frame).accAll.find? (·.aid == acc.aid) = some acc → (s.ctx e.frame).parkOf acc.aid = none →
          (s.uncached die e.asid e.page).performE e.frame acc = .ok u →
          completes (exec (.replayAttempt die e.slice e.entry) s) fun v => gone v ∧ v.mem = u.mem ∧ v.c = u.c ∧ v.frames = u.frames ∧ v.tlb = (u.recache s die e.asid e.page).tlb)
      ∧ (find s die e.slice e.entry = some e → e.aids = [] → e.notice = some k → completes (exec (.resumeNotice die e.slice e.entry) s) fun v => gone v ∧ v.mem = s.mem
          ∧ ∃ q, (v.ctx e.frame).pending = (s.ctx e.frame).pending ++ [q] ∧ q.code = 0x13 ∧ q.park = some k ∧ q.token = e.token die ∧ q.addr = e.va)

/-- R174, R201, R204, R295 to R298: a push arrives as a clean pushed copy of what the slice holds where the die holds the line and the cluster none; sweepers write back and drop lines whose
version is 8 or more steps old; a die takes move requests in order, copies a frame's 64 KiB, switches the page's entry and reports, or copies a
page while it is written: line by line, then in passes over the lines marked as written since, and last those that the recall of the frame leaves marked;
a malformed request ends with status 2, a poisoned frame with 3; the log collector copies the block at the tail to the head, and frees a sector that holds no live block.
The model's choices, which no rule states: a push is dropped where its L2 line is gone (log 42); a frame moves in one step, and a copy while writable goes by the steps given here (log 43); a
doorbell's address loses its low 5 bits, a request whose pte address is not 8-byte aligned is refused, and one that reaches an unmapped or refused segment ends with status 3 (log 96). -/
def Obligations.BackgroundAgents : Prop :=
  ∀ (n die clu slice asid pa : Nat) (addr : BitVec 48) (p : Push) (l l' : L2Line) (m : Move) (ms : List Move) (s : State),
    let age (cur ver : BitVec 4) : Bool := decide (8 ≤ (cur.toNat + 16 - ver.toNat) % 16)
    let req := s.homeRead m.addr 32
    let pte := Machine.fld req 0 8 % 2 ^ 48
    let e := s.homeRead pte 8
    let src := e % 2 ^ 48
    let dst := Machine.fld req 8 8
    let open_ (a : Nat) : Prop := s.tableFault a = none
    let reach : Prop := open_ m.addr ∧ open_ pte
    let sane (kind : Nat) : Prop := (s.die die).moves = m :: ms ∧ reach ∧ Machine.fld req 16 1 = kind ∧ moveBad req e = false ∧ open_ (e % 2 ^ 48) ∧ open_ dst
    let u := s.recallFrame (src / 65536)
    let lines (s : State) (ks : List Nat) : State := ks.foldl (fun s k => s.copyPa (src + 64 * k) (dst + 64 * k) 64) s
    let goesOn (m : Move) : State := s.setDie die { s.die die with moves := m :: ms }
    let left := ((u.die die).moves.head?.map (·.marked)).getD []
    let last : Prop := 1024 ≤ m.copied ∧ (4 ≤ m.pass ∨ m.marked.length ≤ 64)
    let log := s.log asid
    let en := s.mapEntry pa
    let sectors := (log.sectors en.sector en.nsec).zip (log.sectors (log.base + 256 * log.head) en.nsec)
    let copied := ((log.sectors en.sector en.nsec).zip (log.sectors (log.base + 256 * log.head) en.nsec)).foldl State.copySector s
    let sent := s.setDie die { s.die die with pushes := (s.die die).pushes.erase p }
    let counted := sent.setClu p.clu { sent.clu p.clu with pPush := (sent.clu p.clu).pPush / 2 ^ 24 * 2 ^ 24 + min ((sent.clu p.clu).pPush % 2 ^ 24 + 1) (2 ^ 24 - 1) }
    (s.pushAt n = some (die, p) → s.l1Find p.clu p.asid p.line = none → s.l2Find die p.asid p.line = some l → s.l2Stale l = false → l.img = false →
        (counted.roomL1 p.clu p.line).l2Find die p.asid p.line = some l' → completes (exec (.pushArrival n) s) fun t =>
          ((t.die die).region p.region).got = (p.line, p.clu) :: (((counted.roomL1 p.clu p.line).die die).region p.region).got
            ∧ ∃ c, t.l1Find p.clu p.asid p.line = some c ∧ c.data = l'.data ∧ c.mask = 0 ∧ c.pushed = true ∧ c.pa = l'.pa ∧ c.perms = l'.perms ∧ c.poison = l'.poison)
      ∧ (s.pushAt n = some (die, p) → s.l2Find die p.asid p.line = none → exec (.pushArrival n) s = .next counted)
      ∧ exec (.sweeperVisit false clu slice) s = .next ((s.l1.filter fun l => l.clu == clu && l.line % 8 == slice && age (s.clu clu).vc l.ver).foldl State.dropL1 s)
      ∧ exec (.sweeperVisit true die slice) s =
          .next (s.dropEach (s.l2.filter fun l => l.die == die && s.served die (sliceOf (64 * l.line)) == slice && age (s.die die).vd l.ver))
      ∧ exec (.moveDoorbell die addr) s = .next (s.setDie die { s.die die with moves := (s.die die).moves ++ [⟨addr.toNat / 32 * 32, 0, 0, none, []⟩] })
      ∧ (sane 0 → u.framePoisoned (src / 65536) = false → exec (.frameMove die) s = .next (((u.copyPa src dst 65536).switchPage pte e dst).endMove die m.addr 1))
      ∧ (sane 0 → u.framePoisoned (src / 65536) = true → exec (.frameMove die) s = .next (u.endMove die m.addr 3))
      ∧ ((s.die die).moves = m :: ms → reach → moveBad req e = true → (Machine.fld req 16 1 = 0 ∨ 2 ≤ Machine.fld req 16 1 → exec (.frameMove die) s = .next (s.endMove die m.addr 2))
          ∧ (1 ≤ Machine.fld req 16 1 → exec (.copyWhileWritable die) s = .next (s.endMove die m.addr 2)))
      ∧ ((s.die die).moves = m :: ms → reach → moveBad req e = false → ¬(open_ (e % 2 ^ 48) ∧ open_ dst) → (Machine.fld req 16 1 = 0 → exec (.frameMove die) s = .next (s.endMove die m.addr 3))
          ∧ (Machine.fld req 16 1 = 1 → exec (.copyWhileWritable die) s = .next (s.endMove die m.addr 3)))
      ∧ (sane 1 → m.copied < 1024 → exec (.copyWhileWritable die) s =
          .next (lines (goesOn { m with copied := m.copied + 1, frame := some (src / 65536) }) [m.copied]))
      ∧ (sane 1 → 1024 ≤ m.copied → m.pass < 4 → 64 < m.marked.length → exec (.copyWhileWritable die) s =
          .next (lines (goesOn { m with pass := m.pass + 1, marked := [] }) m.marked))
      ∧ (sane 1 → last → u.framePoisoned (src / 65536) = false →
          exec (.copyWhileWritable die) s = .next (((lines u left).switchPage pte e dst).endMove die m.addr 1))
      ∧ (sane 1 → last → u.framePoisoned (src / 65536) = true → exec (.copyWhileWritable die) s = .next (u.endMove die m.addr 3))
      ∧ (s.tailBlock asid = some pa → en.nsec ≤ log.free → (∀ x ∈ sectors, open_ x.1 ∧ open_ x.2) → completes (exec (.collectorCopy asid) s) fun t => t.c = s.c
          ∧ t = (copied.homeNum (copied.recordAt asid + 20) 4 ((log.head + en.nsec) % log.len)).homeNum pa 8
              (copied.homeRead pa 8 / 2 ^ 40 * 2 ^ 40 + (log.base + 256 * log.head) / 256 % 2 ^ 40))
      ∧ (log.len ≠ 0 → log.head ≠ log.tail → (s.mapsOf asid).isSome = true → s.tailBlock asid = none → completes (exec (.sectorFree asid) s) fun t => t.c = s.c
          ∧ t = s.homeNum (s.recordAt asid + 24) 4 ((log.tail + 1) % log.len))

/-! Contexts, launches, tasks and parking. -/

/-- R17, R18, R22, R341 to R345: HSTART starts an idle helper of the team with the starter's control registers; HJOIN waits for a live helper and
gives its exit value; HEXIT waits for the slots, the helpers and what the context has issued, then ends the context, whose registers, but a helper's, keep their values (R4); a gang forms when every core of the group has a waiting GFUSE of
the size, and GSPLIT dissolves it: every member goes on after it, or, where it stands in an upcall handler, the others where they are, as the model has it, and no rule (log 82). -/
def Obligations.ContextsAndGangs : Prop :=
  ∀ (d a : XReg) (p : PReg) (b : AReg) (f core n : Nat) (ms : List Nat) (s : State),
    let j := (s.c.getX d).toNat
    let ja := (s.c.getX a).toNat
    let fail (r : Nat) : Out := setsX s d (.ofNat 64 (2 ^ 63 + r))
    let starter : Prop := s.c.kind = .control ∨ s.c.kind = .supervisor
    let h := s.ctx f
    let idle : Prop := ∀ i : Slot, s.c.sb[i] = if s.c.latch = some i then 1 else 0
    let helpers : Prop := s.c.kind = .control ∧ ∃ g ∈ s.helpersOn s.myCore s.c.team, (s.ctx g).live = true
    let want : Nat := (s.c.wait.map fun w => s.c.fuseSize w a).getD ja
    let group := s.groupCtxs s.myCore want s.c.team
    let sizeOk (n : Nat) : Prop := n = 2 ∨ n = 4 ∨ n = 8
    let formed (u t : State) (n : Nat) : Prop := t.mem = u.mem ∧ ∀ g ∈ ms, (t.ctx g).wait = none ∧ (t.ctx g).st.lead = decide (ms.head? = some g)
      ∧ (t.ctx g).st.gang = (if n = 2 then 1 else if n = 4 then 2 else 3) ∧ ∀ w, (u.ctx (ms.headD 0)).wait = some w → (t.ctx g).pc = w.npc
    let alike : Prop := ∀ k ∈ coresOf s.myClu, ∀ g, s.controlOn k s.c.team = some g → g ≠ s.self → ∀ x ∈ s.fuses g, x.2 = ja
    (¬starter → exec (.hstart d a b) s = fail 5) ∧ (starter → j = 0 ∨ s.helperFrame j = none → exec (.hstart d a b) s = fail 1)
      ∧ (starter → j ≠ 0 → s.helperFrame j = some f → h.live = true → exec (.hstart d a b) s = fail 2)
      ∧ (starter → j ≠ 0 → s.helperFrame j = some f → f ≠ s.self → h.live = false → completes (exec (.hstart d a b) s) fun t =>
          t.c = (s.c.setX d 0).retire ∧ (t.ctx f).live = true ∧ (t.ctx f).kind = .helper ∧ (t.ctx f).team = s.c.team ∧ (t.ctx f).pc = s.c.getA b
            ∧ (t.ctx f).getX 1 = s.c.getX a ∧ (∀ i : XReg, i ≠ 1 → (t.ctx f).getX i = 0) ∧ (t.ctx f).st.lsbase = s.c.st.lsbase ∧ (t.ctx f).st.lsblk = s.c.st.lsblk
            ∧ (t.ctx f).gen = h.gen + 1
            ∧ (t.ctx f).cr = { s.c.cr with fflags := 0, fault0 := 0, fault1 := 0, fault2 := 0, fault3 := 0 } ∧ t.mem = s.mem)
      ∧ (ja = 0 ∨ s.helperFrame ja = none ∨ s.helperFrame ja = some s.self → exec (.hjoin d a) s = setsX s d 0)
      ∧ (ja ≠ 0 → s.helperFrame ja = some f → f ≠ s.self → (h.live = true → exec (.hjoin d a) s = .next s.stall)
          ∧ (h.live = false → exec (.hjoin d a) s = setsX s d h.exitv))
      ∧ (¬idle ∨ helpers ∨ s.c.works ≠ [] → exec (.hexit a) s = .next s.stall)
      ∧ (idle → s.c.works = [] → s.c.kind = .helper → s.c.st.gang = 0 → s.c.region = none → s.c.bound = [] → completes (exec (.hexit a) s) fun t =>
          t.c.live = false ∧ t.c.exitv = s.c.getX a ∧ t.c.kind = .helper ∧ t.c.team = s.c.team ∧ t.c.st.lsblk = s.c.st.lsblk ∧ t.c.groups = [] ∧ t.mem = s.mem)
      ∧ (idle → s.c.works = [] → ¬helpers → s.c.kind = .control ∨ s.c.kind = .supervisor → s.c.st.gang = 0 → s.c.region = none → s.c.bound = [] →
          completes (exec (.hexit a) s) fun t => t.c.live = false ∧ t.c.x = s.c.x ∧ t.c.a = s.c.a ∧ t.c.p = s.c.p ∧ t.c.groups = []
            ∧ t.c.ncount = s.c.ncount ∧ t.c.nlatch = s.c.nlatch ∧ t.mem = s.mem)
      ∧ (s.c.kind ≠ .control ∨ ¬sizeOk want ∨ s.c.st.gang ≠ 0 ∨ none ∈ group → exec (.gfuse p a) s = setsP s p false)
      ∧ (sizeOk n → s.gangReady core n s.c.team = some ms → s.c.team.isSome = true → s.controlOn core s.c.team = some s.self → (s.fusing s.self).any (·.2 == n) = true →
          (∀ g ∈ framesOf core, g ≠ s.self → s.fusing g = none) → ms.Nodup → completes (exec (.gangForm core n) s) fun t => formed s t n)
      ∧ (s.c.kind = .control → sizeOk ja → s.c.st.gang = 0 → none ∉ group → alike → s.c.wait = none → (s.stall true).gangReady s.myCore ja s.c.team = some ms →
          ms.Nodup → completes (exec (.gfuse p a) s) fun t => formed (s.stall true) t ja)
      ∧ (s.c.kind = .control → sizeOk ja → s.c.st.gang = 0 → none ∉ group → alike → s.c.wait = none → (s.stall true).gangReady s.myCore ja s.c.team = none →
          exec (.gfuse p a) s = .next ((s.stall true).mapWait fun w => { w with arg := 2 * ja }))
      ∧ (∀ w, s.c.wait = some w → w.arg % 2 = 1 → exec (.gfuse p a) s = setsP s p false)
      ∧ (s.c.st.gang = 0 → exec .gsplit s = .next s.retire)
      ∧ (s.c.st.gang ≠ 0 → (s.gangOf s.self).Nodup → s.self ∈ s.gangOf s.self → completes (exec .gsplit s) fun t => t.mem = s.mem ∧
          ∀ g ∈ s.gangOf s.self, (t.ctx g).st.gang = 0 ∧ (t.ctx g).st.lead = false
            ∧ (t.ctx g).pc = (if g = s.self ∨ s.c.st.upc = false then s.c.npc else (s.ctx g).pc))

/-- R23 to R27, R338 to R340, R346 to R354: LAUNCH reads its cards once and enters a launch that keeps its limits in the die's launch queue, or in its
overflow area (R283); DNEXT deals the next chunk of a deal
launch, and the task and future instructions perform their operations on the blocks in memory, each failing with its reason. The model's choices, which no rule states: the reason for a card at
or above 2^52 (log 48), what a waiting FTGET or LAUNCH keeps in its wait (log 47), the chunk of a launch of another device, a free value `Config.remoteDeal` (log 66), and the form of an entry
in the overflow area (log 32). -/
def Obligations.LaunchesTasksFutures : Prop :=
  ∀ (d : XReg) (a b : AReg) (x : XReg) (k : Fin 15) (p : PReg) (r jr e h q : Nat) (l : Launch) (wt : Wait) (t u v w s : State),
    let card := s.c.getA a
    let block := card.toNat
    let fail (s : State) (r : Nat) : Out := setsX s d (.ofNat 64 (2 ^ 63 + r))
    let room (s : State) : Prop := ∀ die ∈ allDies, (s.die die).held false false ≤ 512
    let bad : Prop := block % 64 ≠ 0 ∨ 2 ^ 46 ≤ block
    let reads : Prop := s.c.wait = none ∧ block % 64 = 0 ∧ block < 2 ^ 52 ∧ s.readNum (s.req 8) .clu block 64 = .ok (r, u)
    let new (s : State) (jr : Nat) : Launch := launchOfCard s.nextId s.myDie s.c.asid r jr
    let carded : Prop := reads ∧ cardBad r = false ∧ (new u 0).refusal (Machine.fld r 22 1) = none
      ∧ if Machine.fld r 16 1 = 1 then u.readNum (u.req 8) .clu (Machine.fld r 0 8) 32 = .ok (jr, v) else v = u
    let dealt : Prop := Machine.fld r 16 1 = 1 → jobCardBad jr = false
    let launched (x t : State) : Prop :=
      let l := new v (if Machine.fld r 16 1 = 1 then jr else 0)
      t.c = (x.c.setX d 0).retire ∧ t.launches = x.launches ++ [l] ∧ (t.die x.myDie).queue.length = (x.die x.myDie).queue.length + 1
        ∧ ∃ e ∈ (t.die x.myDie).queue, e.e = .launch l.id ∧ e.prio = l.prio
    let req := s.req 12
    let get (s : State) (va n : Nat) (x : Nat) (t : State) : Prop := tGet req va n s = .ok (x, t)
    let put (s : State) (va n v : Nat) (t : State) : Prop := tPut req va n v s = .ok ((), t)
    let tcb := setFld (setFld (setFld r 16 4 1) 20 1 1) 22 1 0
    let fresh := setFld (setFld tcb 23 1 (Machine.fld tcb 23 1 / 2 * 2 + 1)) 28 35 0
    let lim := max 1 (s.liveControls l.id)
    let chunk := if l.remaining = 0 then 0 else min l.remaining (max l.minchunk ((l.remaining + 2 * lim - 1) / (2 * lim)))
    let untold : Prop := ∀ w, s.c.wait = some w → w.arg = 0
    let entry : Prop := untold ∧ futEntry req block (s.c.getX d).toNat s = .ok (.ok (q, e, h), u)
    let failP (s : State) (n : Nat) : Out := .next (s.done fun c => (c.setX d (.ofNat 64 (2 ^ 63 + n))).setP p false)
    let fw : Word := s.c.getX ⟨2 * k.val + 2, by omega⟩
    let op : Nat := fw.toNat / 2 ^ 32 % 4
    let fp := futEntry req block (fw.toNat % 2 ^ 32) s
    (block % 64 ≠ 0 ∨ 2 ^ 52 ≤ block → exec (.launch d a) s = fail s 1)
      ∧ (reads → cardBad r = true → exec (.launch d a) s = fail u 1)
      ∧ (reads → cardBad r = false → ∀ n, (new u 0).refusal (Machine.fld r 22 1) = some n → exec (.launch d a) s = fail u n)
      ∧ (carded → Machine.fld r 16 1 = 1 → jobCardBad jr = true → exec (.launch d a) s = fail v 11)
      ∧ (carded → dealt → (v.die v.myDie).held true false < 64 → completes (exec (.launch d a) s) fun t => launched v t ∧ t.mem = v.mem)
      ∧ (carded → dealt → 64 ≤ (v.die v.myDie).held true false → 64 * ((v.die v.myDie).held true true + 1) ≤ (v.die v.myDie).launchOvf.2 →
          ({ v with fresh := v.fresh + 1 } : State).writeNum (v.req 12) .die ((v.die v.myDie).launchOvf.1 + 64 * (v.die v.myDie).held true true) 64
            (Config.spillEntry v.fresh).toNat = .ok w → completes (exec (.launch d a) s) fun t => launched w t ∧ t.mem = w.mem)
      ∧ (carded → dealt → 64 ≤ (v.die v.myDie).held true false → (v.die v.myDie).launchOvf.2 < 64 * ((v.die v.myDie).held true true + 1) →
          completes (exec (.launch d a) s) fun t => t.c = { v.c with wait := t.c.wait } ∧ t.launches = v.launches ∧ t.mem = v.mem
            ∧ ∃ w, t.c.wait = some w ∧ w.arg = keptCards r (if Machine.fld r 16 1 = 1 then jr else 0))
      ∧ (s.c.wait = some wt → wt.arg = r → 0 < r → r < 2 ^ 512 → block % 64 = 0 → block < 2 ^ 52 → cardBad r = false → (new s 0).refusal (Machine.fld r 22 1) = none →
          Machine.fld r 16 1 = 1 → s.readNum (s.req 8) .clu (Machine.fld r 0 8) 32 = .ok (jr, v) → jobCardBad jr = true → exec (.launch d a) s = fail v 11)
      ∧ ((s.launchOf s.c.team).bind (fun id => s.launches.find? fun l => l.id == id && l.deal) = some l → l.die < 4 → completes (exec (.dnext d) s) fun t =>
          t.c = (s.c.setX d (.ofNat 64 (l.next * 2 ^ 32 + chunk))).retire ∧ t.mem = s.mem
            ∧ ∀ y ∈ t.launches, y.id = l.id → y.next = (l.next + chunk) % 2 ^ 32 ∧ y.remaining = l.remaining - chunk)
      ∧ ((s.launchOf s.c.team).bind (fun id => s.launches.find? fun l => l.id == id && l.deal) = some l → 4 ≤ l.die →
          exec (.dnext d) s = setsX { s with fresh := s.fresh + 1 } d (Config.remoteDeal s.fresh))
      ∧ ((s.launchOf s.c.team).bind (fun id => s.launches.find? fun l => l.id == id && l.deal) = none → exec (.dnext d) s = setsX s d 0)
      ∧ (bad → exec (.tknew d a) s = fail s 1 ∧ exec (.tkrel d a) s = fail s 1 ∧ exec (.tkdone d a b) s = fail s 1)
      ∧ (¬bad → get s block 64 r u → tcbBad r = false → Machine.fld r 20 1 = 0 ∨ Machine.fld r 20 1 = 4 → put u block 64 fresh v → room v →
          exec (.tknew d a) s = setsX v d 0)
      ∧ (¬bad → get s block 64 r u → tcbBad r = true → exec (.tknew d a) s = fail s 1)
      ∧ (¬bad → get s block 64 r u → tcbBad r = false → Machine.fld r 20 1 ≠ 0 → Machine.fld r 20 1 ≠ 4 → exec (.tknew d a) s = fail s 2)
      ∧ (¬bad → get s block 64 r u → Machine.fld r 23 1 % 2 = 1 → put u (block + 23) 1 (Machine.fld r 23 1 - 1) v → tDec req block v = .ok ((), w) → room w →
          exec (.tkrel d a) s = setsX w d 0)
      ∧ (¬bad → get s block 64 r u → Machine.fld r 23 1 % 2 = 0 → exec (.tkrel d a) s = fail s 2)
      ∧ (¬bad → get s (block + 20) 1 e u → e ≠ 3 → exec (.tkdone d a b) s = fail u 2)
      ∧ (¬bad → get s (block + 20) 1 3 u → u.c.unreleased u.nextId = false → u.releaseOf u.self .dev = .ok v →
          tDone req block (v.c.getA b).toNat (v.c.getX d).toNat v = .ok (.ok q, w) → room w → exec (.tkdone d a b) s = setsX w d (.ofNat 64 q))
      ∧ (let sp := (s.c.getA b).toNat
         sp % 64 = 0 → sp < 2 ^ 46 → block % 64 = 0 → block < 2 ^ 46 → sp ≠ block → get s sp 64 r u → Machine.fld r 20 1 = 1 → Machine.fld r 23 1 % 2 = 1 →
          get u block 64 e v → (Machine.fld e 20 1 = 4 → room v → exec (.tkdep d a b) s = setsX v d 2)
            ∧ ∀ w1 w2, Machine.fld e 20 1 ≠ 4 → Machine.fld e 22 1 < 6 → put v (block + 28 + 5 * Machine.fld e 22 1) 5 (sp / 64) w1 →
              put w1 (block + 22) 1 (Machine.fld e 22 1 + 1) w2 → put w2 (sp + 16) 4 (Machine.fld r 16 4 + 1) w → room w → exec (.tkdep d a b) s = setsX w d 0)
      ∧ (block % 64 = 0 → (s.c.getX x).toNat = 1 ∨ (s.c.getX x).toNat = 2 → get s block 64 h u → futBad block h = false → Machine.fld h 20 4 = 0 →
          let idx := if Machine.fld h 16 4 = 0 then 1 else Machine.fld h 16 4
          (2 ^ Machine.fld h 8 1 ≤ idx → exec (.ftnew d a x) s = fail s 7)
            ∧ ∀ w1, idx < 2 ^ Machine.fld h 8 1 → put u (block + 16) 4 (idx + 1) v → get v (Machine.fld h 0 8 + 32 * idx) 32 e w1 →
              put w1 (Machine.fld h 0 8 + 32 * idx + 8) 1 (s.c.getX x).toNat w → room w →
              exec (.ftnew d a x) s = setsX w d (.ofNat 64 (Machine.fld e 9 1 * 2 ^ 24 + idx)))
      ∧ (s.c.wait = some wt → wt.arg = 2 ^ 64 + 1 → exec (.ftget d a p) s = failP s 6)
      ∧ (s.c.wait = some wt → wt.arg = q + 1 → q < 2 ^ 64 → s.acquire s.myClu .dev = .ok v →
          exec (.ftget d a p) s = .next (v.done fun c => (c.setX d (.ofNat 64 q)).setP p true))
      ∧ (entry → Machine.fld e 8 1 = 3 → u.acquire u.myClu .dev = .ok v → exec (.ftget d a p) s = .next (v.done fun c => (c.setX d (.ofNat 64 (Machine.fld e 0 8))).setP p true))
      ∧ (entry → Machine.fld e 8 1 = 1 ∨ Machine.fld e 8 1 = 2 → ∀ tr, u.paOf req q = .ok (tr, v) → completes (exec (.ftget d a p) s) fun t =>
          t.c = { v.c with wait := t.c.wait, parked := true } ∧ t.c.wait.isSome = true ∧ t.mem = v.mem ∧ ⟨v.self, tr.pa⟩ ∈ t.futs)
      ∧ (entry → Machine.fld e 8 1 = 4 → exec (.ftget d a p) s = failP u 6)
      ∧ (entry → Machine.fld e 8 1 = 0 ∨ 4 < Machine.fld e 8 1 → exec (.ftget d a p) s = failP u 3)
      ∧ (∀ i ∈ [Instr.ftsetReady d a k, .ftsetPoison d a k, .ftsetFree d a k],
          (2 ^ 34 ≤ fw.toNat ∨ op = 3 → exec i s = fail s 1)
            ∧ (fw.toNat < 2 ^ 34 → op = 2 → fp = .ok (.ok (q, e, h), u) → Machine.fld e 8 1 = 3 ∨ Machine.fld e 8 1 = 4 →
                put u (q + 8) 2 ((Machine.fld e 9 1 + 1) % 256 * 256) v → put v (q + 12) 4 (Machine.fld h 20 4) w → put w (block + 20) 4 (fw.toNat % 2 ^ 24) t →
                room t → exec i s = setsX t d 0)
            ∧ ∀ m q' e' h' u', fw.toNat < 2 ^ 34 → op = 0 ∨ op = 1 → fp = .ok (.ok (q, e, h), u) →
                let value : Option Nat := if op = 0 then some (s.c.getX ⟨2 * k.val + 3, by omega⟩).toNat else none
                futSet req q e value u = .ok (.ok m, v) → s.c.unreleased s.nextId = false → s.releaseOf s.self .dev = .ok w →
                futEntry req block (fw.toNat % 2 ^ 32) w = .ok (.ok (q', e', h'), u') →
                futSet req q' e' value u' = .ok (.ok m, t) → room t →
                exec i s = setsX t d 0)

/-- R31 to R36, R334, R335, R355, R356: YIELD gives the context's reference and makes way; PARK waits, at most the cycles it names, for a wake that WAKE
records in the context its operand refers to, which goes on at once if it is parked; a dispatch step tries the heads of the die's queues in the order of their effective priority, those entered earlier first among equals, and places the first that
fits; one tried before it has been passed over from then on; the passover step tries the overdue head alone; a die learns free slots; of a launch or a suspended team
of an overloaded die, the next team or the team moves where it fits, or is offered to a die of another device that has advertised room. The model's choices, which no rule states: room is counted
by free slots (`hasRoom`, log 83), a head that holds nothing more is retired (log 49), and what a failed acquire or release leaves (log 66). -/
def Obligations.ParkingAndDispatch : Prop :=
  ∀ (d a : XReg) (f die fromDie slots team : Nat) (e e₂ : DQEnt) (es : List DQEnt) (w : Wait) (x y : XReg) (l : Launch) (tm : Team) (src : Nat) (cs : List Nat) (b : Nat) (u s : State),
    let n := s.c.getX a
    let self := s.reference s.self
    let heads := (s.die die).heads s.time
    let u0 := s.setDie die heads
    let park : Prop := (s.ctx f).live = true ∧ (s.core (coreOf f)).frozen = false ∧ (s.ctx f).wait = some w ∧ w.wrap = false ∧ w.instr = some (.park x y) ∧ (s.ctx f).parked = true
    let limit := ((s.ctx f).getX y).toNat
    let eff (e : DQEnt) : Nat := min 7 (e.prio + match e.head with | some t => (s.time - t).toNat / 4096 | none => 0)
    let passed : DQEnt := if e.passed.isNone then { e with passed := some s.time } else e
    let u1 := u0.mapDie die fun d => { d with queue := d.queue.map fun x => if x == e then passed else x }
    let ended (s : State) (v : Word) : State :=
      (((s.select f).mapC fun c => { c with npc := w.npc }).done fun c => { c.setX x v with wake := false, parked := false }).readied.select s.self
    let woken : State := (s.setCtx f { s.ctx f with wake := true }).done fun c => c.setX d 0
    completes (exec (.yieldRef d) s) (fun t => t.c = { (s.c.setX d self).retire with yielded := true } ∧ t = { s with c := t.c })
      ∧ (2 ^ 32 ≤ n.toNat → exec (.park d a) s = setsX s d (.ofNat 64 (2 ^ 63 + 1)))
      ∧ (n.toNat < 2 ^ 32 → s.c.wake = true → exec (.park d a) s = .next (s.done fun c => { c.setX d 0 with wake := false, parked := false }))
      ∧ (n.toNat < 2 ^ 32 → s.c.wake = false → s.c.wait = none → completes (exec (.park d a) s) fun t =>
          t.c = { s.c with wait := t.c.wait, parked := true } ∧ t.c.wait.isSome = true ∧ t = { s with c := t.c })
      ∧ (park → (s.ctx f).wake = false → limit ≠ 0 → limit < 2 ^ 32 → limit ≤ (s.time - w.since).toNat → exec (.parkTimeout f) s = .next (ended s 1))
      ∧ (s.referred n = none → exec (.wake d a) s = setsX s d 1)
      ∧ (s.referred n = some f → (s.ctx f).parked = false → f ≠ s.self → exec (.wake d a) s =
          .next ((s.setCtx f { s.ctx f with wake := true }).done fun c => c.setX d 0))
      ∧ (s.referred n = some f → park → f ≠ s.self → limit < 2 ^ 32 → exec (.wake d a) s = .next (ended woken 0))
      ∧ ((s.die die).overdue s.time = none → exec (.dispatchPassover die) s = .next s)
      ∧ ((s.die die).overdue s.time = some e → s.placeEntry die e = some (u, true) → completes (exec (.dispatchPassover die) s) fun t =>
          t.c = u.c ∧ t.frames = u.frames ∧ t.mem = u.mem ∧ t.teams = u.teams)
      ∧ (heads.overdue s.time = none → heads.order s.time = e :: es → u0.placeEntry die e = some (u, true) → completes (exec (.dispatchStep die) s) fun t =>
          t.c = u.c ∧ t.frames = u.frames ∧ t.mem = u.mem ∧ t.teams = u.teams)
      ∧ (heads.overdue s.time = none → heads.order s.time = [e] → u0.placeEntry die e = none → completes (exec (.dispatchStep die) s) fun t =>
          t.c = s.c ∧ t.frames = s.frames ∧ t.mem = s.mem ∧ t.teams = s.teams)
      ∧ (heads.order s.time).Perm (heads.queue.filter (·.head.isSome))
      ∧ (heads.order s.time).Pairwise (fun x y => eff y < eff x ∨ (eff x = eff y ∧ x.enq ≤ y.enq))
      ∧ (heads.overdue s.time = none → heads.order s.time = e :: e₂ :: es → u0.placeEntry die e = none → u1.placeEntry die e₂ = some (u, true) →
          completes (exec (.dispatchStep die) s) fun t => t.c = u.c ∧ t.frames = u.frames ∧ t.mem = u.mem ∧ t.teams = u.teams
            ∧ ((u.die die).queue = (u1.die die).queue → e.spilled = false → passed ≠ e₂ → passed ∈ (t.die die).queue))
      ∧ exec (.freeSlotAdvert die fromDie slots) s = .next (s.setDie die { s.die die with
          adverts := tset (s.die die).adverts fromDie slots, refusals := (s.die die).refusals.filter fun r => r.2.2 != fromDie / 4 })
      ∧ (s.teams.find? (·.id == team) = none → s.launches.find? (·.id == team) = some l → l.migrate = true → l.cosched = false → l.placed + 1 < l.teams →
          l.die ≠ die → die < 4 → s.overloaded l.die = true → s.teamFit l die = some (cs, b) →
          ((s.placeTeam l cs b).retireEmpty l.id).acquireAll .dev cs = .ok u → exec (.teamMigration team die) s = .next u)
      ∧ (s.teams.find? (·.id == team) = some tm → s.launches.find? (·.id == tm.launch) = some l → (tm.clus.head?).map dieOf = some src → l.migrate = true →
          l.cosched = false → src ≠ die → s.overloaded src = true → s.suspended tm = true →
          (die < 4 → s.teamFit l die = some (cs, b) → s.grantsFit (s.pack tm l) cs = true → exec (.teamMigration team die) s = .next (s.moveTeam tm l cs b))
            ∧ (4 ≤ die → (s.die src).hasRoom die l.cpt = true → exec (.teamMigration team die) s = .next (s.offer l src tm.j die (s.sendTeam tm l die)))
            ∧ (4 ≤ die → (s.die src).hasRoom die l.cpt = false → exec (.teamMigration team die) s = .next s))

/-! The symbolic heap. -/

/-- R312, R315 to R321, R324, R327, R328, R330 to R333: the heap instructions. Without a heap to use they answer their reason; EGOPEN binds a heap, or
none; on a heap whose tables no program has written, each performs its operation on the tables and answers its result, its failure's reason, or
waits: a node just made until no append of its EGINS remains, an anchor's request for its turn and for an EGEXTR's end. A ranked match takes its weights with it; a cost comes from a table, or from
the model's score of a node's features. On a heap whose tables a
program has written the result is unspecified (log 8). -/
def Obligations.HeapInstructions : Prop :=
  ∀ (d a b : XReg) (q : PReg) (ba : AReg) (n r c k len : Nat) (h : Heap) (m : Match) (bn : Binding) (rest : List Binding) (rules : List Rule) (v : HView)
    (ids own : List Nat) (hd bs wb : List Byte) (ok : Bool) (s0 s1 s2 s3 s4 s5 s6 s : State),
    let p := s.c.getA ba
    let x := s.c.getX a
    let y := s.c.getX b
    let fail (s : State) (r : Nat) : Out := setsX s d (.ofNat 64 (2 ^ 63 + r))
    let answer (s : State) (v : Nat) : Out := setsX s d (.ofNat 64 v)
    let fits (n : Nat) : Prop := p.toNat % n = 0 ∧ (2 ^ 63 ≤ p.toNat → s.c.lsBad p n = false)
    let bound : Prop := s.boundHeap = .ok (n, h) ∧ h.spoiled = false
    let reads (n r : Nat) (u : State) : Prop := s.readMemNum s.self s.c.asid .clu p n = .ok (r, u)
    let opened (s : State) (w : Word) : Out := .next (s.done fun c => ({ c with cr := { c.cr with egheap := w } }).setX d 0)
    let known := s.heaps.find? fun h => h.asid == s.c.asid && h.num == x.toNat
    let fresh : Out := setsX { s with fresh := s.fresh + 1 } d (Config.heapUnspecified s.fresh)
    let goal := if y.toNat = 2 ^ 64 - 1 then (match s.c.wait with | some w => w.arg | none => r) else y.toNat
    let nodes (r : Nat) : Nat := ((v.ids.find? fun m => decide (y.toNat < m) && v.root m == r).getD 0)
    let turn (s : State) : Bool := s.anchorTurn h
    let left (s : State) (c : Nat) : Bool := s.heaps[n]?.any fun h => h.inserting c
    let ws : List (BitVec 16) := (List.range 577).map fun k => .ofNat 16 ((wb.getD (2 * k) 0).toNat + 256 * (wb.getD (2 * k + 1) 0).toNat)
    let weighs (s t : State) : Prop := s.readMem s.self s.c.asid .clu s.c.cr.egmodel 1154 = .ok (wb, t)
    let traits (m : Nat) : List Nat :=
      let k := v.key m
      let size (i : Nat) : Nat := if i < k.arity then v.size (v.root (k.kids.getD i 0)) else 0
      [k.op, k.arity, size 0, size 1, size 2, if k.arity = 0 then k.c0 % 65536 else 0, if k.arity = 0 then k.c0 / 65536 else 0, 0, 0, 0, 0, 0, 0, 0, 0, 0]
    let costOf (m : Nat) : Nat := match score ws (traits m) with
      | .nan _ => 65535
      | .inf neg => if neg then 0 else 65535
      | .fin neg m e => if neg then 0 else min 65535 (roundAt .rne false m e 0).1
    (x = BitVec.allOnes 64 → exec (.egopen d a ba) s = opened s 0) ∧ (15 < x.toNat → x ≠ BitVec.allOnes 64 → exec (.egopen d a ba) s = fail s 5)
      ∧ (x.toNat ≤ 15 → known = some h → h.header = p.toNat → h.broken = false → exec (.egopen d a ba) s = opened s (0x10 + x))
      ∧ (x.toNat ≤ 15 → known = none → (p.toNat % 64 ≠ 0 ∨ 2 ^ 63 ≤ p.toNat) → exec (.egopen d a ba) s = fail s 5)
      ∧ (x.toNat ≤ 15 → known = none → p.toNat % 64 = 0 → p.toNat < 2 ^ 63 → s.readNum (s.req 8) .dev p.toNat 256 = .ok (r, s1) → headerBad p.toNat r = false →
          exec (.egopen d a ba) s = opened { s1 with heaps := s1.heaps ++ [⟨s1.c.asid, x.toNat, p.toNat, r % 2 ^ 512, s1.myDie, false, false, [], none, [], 1⟩] } (0x10 + x))
      ∧ (s.boundHeap = .error r → (∀ i ∈ [Instr.egmrg d a b, .egfind d a, .egclass d a b], exec i s = fail s r)
          ∧ (fits 16 → exec (.egins d ba) s = fail s r ∧ exec (.egnode d a ba) s = fail s r) ∧ (fits 8 → exec (.egextr d ba) s = fail s r)
          ∧ (fits 64 → exec (.egmatch d ba) s = fail s r ∧ exec (.egnext d ba) s = fail s r ∧ exec (.egchk d ba) s = fail s r)
          ∧ exec (.egcost d ba b) s = fail s r ∧ exec (.egsame q a b) s = setsP s q false ∧ exec (.egsync b) s = .next s.retire)
      ∧ (s.boundHeap = .ok (n, h) → h.spoiled = true → ∀ i ∈ [Instr.egmrg d a b, .egfind d a, .egclass d a b, .egcost d ba b], exec i s = fresh)
      ∧ (bound → fits 16 → (∀ w, s.c.wait = some w → w.arg = 0) → reads 16 r s1 → (termBad r = true → exec (.egins d ba) s = fail s1 5)
          ∧ (termBad r = false →
              (hInsert n h (turn s1) r s1 = .ok (.found c, s2) → exec (.egins d ba) s = answer (s2.anchorServe n) c)
                ∧ (hInsert n h (turn s1) r s1 = .ok (.made c, s2) → left (s2.anchorServe n) c = false → exec (.egins d ba) s = answer (s2.anchorServe n) c)
                ∧ (hInsert n h (turn s1) r s1 = .ok (.made c, s2) → left (s2.anchorServe n) c = true →
                    exec (.egins d ba) s = .next (((s2.anchorServe n).stall true).mapWait fun w => { w with arg := c }))
                ∧ (hInsert n h (turn s1) r s1 = .ok (.fail c, s2) → exec (.egins d ba) s = fail (s2.anchorServe n) c)
                ∧ (hInsert n h (turn s1) r s1 = .ok (.wait, s2) → exec (.egins d ba) s = .next (s2.anchorWait n))))
      ∧ (bound → fits 16 → ∀ w, s.c.wait = some w → w.arg ≠ 0 → (h.inserting w.arg = false → exec (.egins d ba) s = answer (s.anchorServe n) w.arg)
          ∧ (h.inserting w.arg = true → exec (.egins d ba) s = .next (s.stall true)))
      ∧ (bound → (hMerge n h (turn s) x y s = .ok (.ok (some c), s1) → exec (.egmrg d a b) s = answer (s1.anchorServe n) c)
          ∧ (hMerge n h (turn s) x y s = .ok (.error c, s1) → exec (.egmrg d a b) s = fail (s1.anchorServe n) c)
          ∧ (hMerge n h (turn s) x y s = .ok (.ok none, s1) → exec (.egmrg d a b) s = .next (s1.anchorWait n)))
      ∧ (bound → (hRootOf h x s = .ok (.ok c, s1) → exec (.egfind d a) s = answer s1 c) ∧ (hRootOf h x s = .ok (.error c, s1) → exec (.egfind d a) s = fail s1 c)
          ∧ (hSame h x y s = .ok (ok, s1) → exec (.egsame q a b) s = setsP s1 q ok))
      ∧ (s.boundHeap = .ok (n, h) → hGet h (h.header + 72) 8 s = .ok (r, s1) → hGet h (h.header + 80) 8 s1 = .ok (c, s2) → s2.c = s.c →
          (goal ≤ c → exec (.egsync b) s = .next s2.retire) ∧ (c < goal → completes (exec (.egsync b) s) fun t => t.c.pc = s.c.pc ∧ t.c.wait.isSome = true ∧ t.mem = s2.mem))
      ∧ (bound → fits 16 → hNode h x s = .ok (.ok (c, r), s1) → s1.writeMem s1.self s1.c.asid p (bytesOf 16 r) = .ok s2 → exec (.egnode d a ba) s = answer s2 c)
      ∧ (bound → hView h s = .ok (v, s1) → s1.c = s.c → (x = 0 ∨ v.n ≤ x.toNat → exec (.egclass d a b) s = fail s1 2)
          ∧ (x ≠ 0 → x.toNat < v.n → exec (.egclass d a b) s = answer s1 (nodes (v.root x.toNat))))
      ∧ (bound → fits 64 → s.c.mtch.isSome = true → exec (.egmatch d ba) s = fail s 6)
      ∧ (bound → fits 64 → s.c.mtch = none → reads 64 r s1 → matchBad r = false → (Machine.fld r 16 1).testBit 1 = false →
          s1.readMem s1.self s1.c.asid .clu (.ofNat 64 (Machine.fld r 0 8)) 64 = .ok (hd, s2) → 1 ≤ wordOfBytes hd → wordOfBytes hd ≤ 64 →
          s2.readMem s2.self s2.c.asid .clu (.ofNat 64 (Machine.fld r 0 8)) (64 + 64 * wordOfBytes hd) = .ok (bs, s3) →
          rulesOf bs (wordOfBytes hd) = some rules → hOpenMatch n h r rules [] s3 = .ok (m, s4) →
          exec (.egmatch d ba) s = .next (s4.done fun c => ({ c with mtch := some m }).setX d 0))
      ∧ (bound → fits 64 → s.c.mtch = none → reads 64 r s1 → matchBad r = false → (Machine.fld r 16 1).testBit 1 = true →
          s1.readMem s1.self s1.c.asid .clu (.ofNat 64 (Machine.fld r 0 8)) 64 = .ok (hd, s2) → 1 ≤ wordOfBytes hd → wordOfBytes hd ≤ 64 →
          s2.readMem s2.self s2.c.asid .clu (.ofNat 64 (Machine.fld r 0 8)) (64 + 64 * wordOfBytes hd) = .ok (bs, s3) →
          rulesOf bs (wordOfBytes hd) = some rules → weighs s3 s4 → hOpenMatch n h r rules ws s4 = .ok (m, s5) →
          exec (.egmatch d ba) s = .next (s5.done fun c => ({ c with mtch := some m }).setX d 0) ∧ m.ranked = true ∧ m.weights = ws)
      ∧ (bound → fits 64 → s.c.mtch = some m → m.queue = bn :: rest → s.writeMem s.self s.c.asid p (bytesOf 64 bn.num) = .ok s1 →
          exec (.egnext d ba) s = .next (s1.done fun c => ({ c with mtch := some { m with queue := rest } }).setX d 0))
      ∧ (bound → fits 64 → s.c.mtch = some m → m.queue = [] →
          (m.done = true → m.batch = [] → exec (.egnext d ba) s = .next (s.done fun c => ({ c with mtch := none }).setX d 1))
            ∧ (m.done = false ∨ m.batch ≠ [] → exec (.egnext d ba) s = .next s.stall))
      ∧ (bound → fits 64 → reads 64 r s1 → bindingBad r = false →
          let old := Machine.fld r 4 4 :: (List.range (Machine.fld r 2 1)).map fun k => Machine.fld r (8 + 4 * k) 4
          hRoots h old s1 = .ok (.ok ids, s2) →
          s2.writeMem s2.self s2.c.asid p (bytesOf 64 (ids.zipIdx.foldl (fun r q => setFld r (4 + 4 * q.2) 4 q.1) r)) = .ok s3 →
          exec (.egchk d ba) s = answer s3 (if ids = old then 0 else 1))
      ∧ (bound → p.toNat ≠ 0 → p.toNat % 4 = 0 → 1 ≤ y.toNat → y.toNat ≤ 65536 → hPut h (h.header + 88) 8 p.toNat s = .ok ((), s1) →
          hPut h (h.header + 96) 4 y.toNat s1 = .ok ((), s2) → hPut h (h.header + 100) 1 0 s2 = .ok ((), s3) → exec (.egcost d ba b) s = answer s3 0)
      ∧ (bound → p = 0 → y = 0 → hPut h (h.header + 88) 8 0 s = .ok ((), s1) →
          hPut h (h.header + 96) 4 0 s1 = .ok ((), s2) → hPut h (h.header + 100) 1 1 s2 = .ok ((), s3) → exec (.egcost d ba b) s = answer s3 0)
      ∧ (bound → (p ≠ 0 ∧ (p.toNat % 4 ≠ 0 ∨ y = 0 ∨ 65536 < y.toNat)) ∨ (p = 0 ∧ y ≠ 0) → exec (.egcost d ba b) s = fail s 5)
      ∧ (bound → fits 8 → hNext h s = .ok (len, s0) → (2 ^ 63 ≤ p.toNat ∧ s0.c.lsBad p (8 * len) = true → exec (.egextr d ba) s = .next ((s0.anchorServe n).misaligned p))
          ∧ (¬(2 ^ 63 ≤ p.toNat ∧ s0.c.lsBad p (8 * len) = true) →
              hGet h (h.header + 88) 8 s0 = .ok (c, s1) → hGet h (h.header + 96) 4 s1 = .ok (k, s2) → hGet h (h.header + 100) 1 s2 = .ok (0, s3) →
              (c = 0 → exec (.egextr d ba) s = fail (s3.anchorServe n) 9)
                ∧ (c ≠ 0 → turn s3 = false → exec (.egextr d ba) s = .next (s3.anchorWait n))
                ∧ (c ≠ 0 → turn s3 = true →
                    let held := s3.anchorHold n
                    (h.msgs ≠ [] → exec (.egextr d ba) s = .next (held.stall true))
                      ∧ (h.msgs = [] → hView h held = .ok (v, s4) → s4.tableCosts c k (v.ids.map fun m => (v.key m).op) = .ok (own, s5) →
                          s5.writeDev (p + 8) (v.table (0 :: own)) = .ok s6 → exec (.egextr d ba) s = answer (s6.anchorFree n) 0)))
          ∧ (¬(2 ^ 63 ≤ p.toNat ∧ s0.c.lsBad p (8 * len) = true) →
              hGet h (h.header + 88) 8 s0 = .ok (c, s1) → hGet h (h.header + 96) 4 s1 = .ok (k, s2) → hGet h (h.header + 100) 1 s2 = .ok (1, s3) →
                (turn s3 = false → exec (.egextr d ba) s = .next (s3.anchorWait n))
                ∧ (turn s3 = true →
                    let held := s3.anchorHold n
                    (h.msgs ≠ [] → exec (.egextr d ba) s = .next (held.stall true))
                      ∧ (h.msgs = [] → hView h held = .ok (v, s4) → weighs s4 s5 →
                          s5.writeDev (p + 8) (v.table (0 :: v.ids.map costOf)) = .ok s6 → exec (.egextr d ba) s = answer (s6.anchorFree n) 0))))

/-- R312, R318, R319, R327 to R329: a heap's units take the first message of their kind and perform it on the tables; an access that fails breaks the
heap and tells the umpire. The matcher takes a step of a frame's match while there is room. The message by which an EGINS has its parents appended is the model's, no rule's (log 46). -/
def Obligations.HeapAgents : Prop :=
  ∀ (n f : Nat) (h : Heap) (m : Match) (m' : Match) (x y k q hi c sz first last p r e' : Nat) (tag : HTag) (e : MFault) (u s : State),
    let took (msg : HMsg) : State := s.mapHeap n fun h => { h with msgs := h.msgs.erase ⟨msg, tag⟩ }
    let next (kind : HMsg → Bool) (msg : HMsg) : Prop := s.heaps[n]? = some h ∧ h.broken = false ∧ h.msgs.find? (fun m => kind m.msg) = some ⟨msg, tag⟩
    let then_ (a : HM Unit) : HM Unit := do
      a
      hClose n h
    let runs (i : Instr) (kind : HMsg → Bool) (msg : HMsg) (act : HM Unit) : Prop := next kind msg →
      (then_ act (took msg) = .ok ((), u) → exec i s = .next u)
        ∧ (then_ act (took msg) = .error e → e ≠ .busy → completes (exec i s) fun t => t.mem = s.mem ∧ t.c = s.c
            ∧ t.heaps = s.heaps.set n { h with broken := true } ∧ (t.die h.die).umpire.length = (s.die h.die).umpire.length + 1)
    runs (.heapUnion n) (fun m => match m with | .union .. => true | _ => false) (.union x y k q) (hUnion n h x y k q tag)
      ∧ runs (.heapAdopt n) (fun m => match m with | .adopt .. => true | .append .. => true | _ => false) (.adopt hi c k q sz first last) (hAdopt n h hi c sz first last tag)
      ∧ runs (.heapAdopt n) (fun m => match m with | .adopt .. => true | .append .. => true | _ => false) (.append p r e') (hAppend n h p r e' tag)
      ∧ runs (.heapRehash n) (fun m => match m with | .rehash .. => true | _ => false) (.rehash p k q) (hRehash n h p k q tag)
      ∧ ((s.ctx f).mtch = some m → s.heaps[m.heap]? = some h → h.broken = false → ¬(m.done = true ∧ m.batch = []) → hDeliver h m s = .ok (m', u) → m' ≠ m →
          exec (.matcherDeliver f) s = .next (u.mapCtx f fun c => { c with mtch := some m' }))

/-! Counters. -/

/-- R89, R150, R199, R357, R358, R362, R363: CTRD completes with the timestamp, a slot, a scope's version or the neighbour count, whichever its
selector names; PMRD with the counter of its event; another selector or event raises the reserved-field fault, and a supervisor's event in user mode
privilege. R162, R359, R360: a sample adds 1 to its frame's counter, up to 65,535, and a slice whose epoch has come sweeps its counters in the ascending order of their frames,
some in each step, and halves those that may not be 0, each written at its home after the recall of its line; an epoch that falls during a sweep is swept at its end, and counts; a source of the local-store port passed over 64 times moves next, the first of the port's order
if there are several, and its count begins again. The model's choices, which no rule states: a sample is dropped while sampling is off (log 37), and the cycles in which a source is passed
over are the grants of its port to another (log 57). -/
def Obligations.CounterReads : Prop :=
  (∀ (d a : XReg) (i : Slot) (s : State),
     let x := (s.c.getX a).toNat
     let k := s.core s.myCore
     let l := s.clu s.myClu
     let e := s.die s.myDie
     let ctrds : List Instr := [.ctrdTimestamp d a, .ctrdSlot d a, .ctrdVc d a, .ctrdVd d a, .ctrdNeighbour d a]
     let reads (n : Nat) (v : Word) : Prop := x = n → ∀ j ∈ ctrds, exec j s = setsX s d v
     let counts (n v : Nat) : Prop := x = n → exec (.pmrd d a) s = setsX s d (.ofNat 64 v)
     let super (n v : Nat) : Prop := x = n →
       (s.c.st.sup = true → exec (.pmrd d a) s = setsX s d (.ofNat 64 v)) ∧ (s.c.st.sup = false → exec (.pmrd d a) s = .next s.privilege)
     reads 0 s.time ∧ reads (0x100 + i.val) (.ofNat 64 s.c.sb[i].toNat) ∧ reads 0x200 (.ofNat 64 l.vc.toNat) ∧ reads 0x300 (.ofNat 64 e.vd.toNat)
       ∧ reads 0x400 (.ofNat 64 s.c.ncount.toNat)
       ∧ (x ∉ [0, 0x200, 0x300, 0x400] → ¬(0x100 ≤ x ∧ x < 0x110) → ∀ j ∈ ctrds, exec j s = .next s.reservedField)
       ∧ counts 0x00 k.pIssued ∧ counts 0x01 k.pIdle ∧ counts 0x02 k.pQueue ∧ counts 0x03 k.pSquash ∧ counts 0x10 l.pMiss ∧ counts 0x11 l.pStale
       ∧ counts 0x12 l.pPush ∧ counts 0x13 k.pKsteps ∧ super 0x40 e.pMiss ∧ super 0x41 e.pSweep ∧ super 0x42 e.pSoft ∧ super 0x43 e.pReplay
       ∧ (x ∉ [0, 1, 2, 3, 0x10, 0x11, 0x12, 0x13, 0x40, 0x41, 0x42, 0x43] → exec (.pmrd d a) s = .next s.reservedField))
  ∧ (∀ (n slice frame core source : Nat) (s t : State),
         let d := s.die n
         let on := d.heatctl.getLsbD 9
         let pa := d.heatbase.toNat + 2 * (if frame < 0x800000 then frame else frame - 0x800000)
         let took := s.setDie n { d with heat := d.heat.erase (slice, frame) }
         let last := tget 0 d.sweeps slice
         let epoch := s.time.toNat / (2100 * 2 ^ (d.heatctl.toNat / 16 % 32))
         let halved (s : State) (a : Nat) : State :=
           match s.recall (a / 64 * 64) with
           | .ok s => { s.writeThrough a with mem := (s.writeThrough a).mem.write a 2 ((s.writeThrough a).mem.read a 2 / 2) }
           | .error _ => s
         let sweep (s : State) (k : Nat) : Out :=
           let t := ((List.range 32).filterMap fun m => s.heatCounter n slice (k + m)).foldl (fun t f =>
             let a := (s.die n).heatbase.toNat + 2 * f
             if (s.heatCounters n slice).contains a then halved t a else t) s
           let e := t.die n
           let began := tget 0 e.sweeps slice
           .next (t.setDie n (
             if (s.heatCounter n slice (k + 32)).isSome = true then { e with sweepAt := tset e.sweepAt slice (k + 32) }
             else if began < s.time.toNat / (2100 * 2 ^ (e.heatctl.toNat / 16 % 32)) then
               { e with sweeps := tset e.sweeps slice (began + 1), sweepAt := tset e.sweepAt slice 0, pSweep := min (e.pSweep + 1) (2 ^ 48 - 1) }
             else { e with sweepAt := terase e.sweepAt slice }))
         let under := d.sweepAt.find? (·.1 == slice)
         let u := t.writeThrough pa
         ((slice, frame) ∈ d.heat → on = true → took.recall (pa / 64 * 64) = .ok t →
             exec (.heatSample n slice frame) s = .next { u with mem := u.mem.write pa 2 (min (u.mem.read pa 2 + 1) 65535) })
           ∧ ((slice, frame) ∈ d.heat → on = false → exec (.heatSample n slice frame) s = .next took)
           ∧ (on = true → under = none → last < epoch → exec (.heatDecayEpoch n slice) s = sweep (s.setDie n { d with sweeps := tset d.sweeps slice (last + 1) }) 0)
           ∧ (on = true → ∀ k, under = some (slice, k) → exec (.heatDecayEpoch n slice) s = sweep s k)
           ∧ (on = false ∨ (under = none ∧ epoch ≤ last) → exec (.heatDecayEpoch n slice) s = .next s)
           ∧ (64 ≤ tget 0 (s.core core).lsPass source → (∀ n < source, tget 0 (s.core core).lsPass n < 64) →
               exec (.lsPortPassover core source) s = .next { s.setCore core { s.core core with lsPass := tset (s.core core).lsPass source 0 } with
                 agenda := .port core source :: s.agenda }))

/-- R361: a corrected soft error adds 1 to its die's event, saturating at the counter's 48 bits, and does nothing else. -/
def Obligations.CorrectedSoftErrors : Prop :=
  ∀ (n : Nat) (s : State),
    completes (exec (.correctedSoftError n) s) fun t =>
      t = { s with dies := t.dies } ∧ t.die n = { s.die n with pSoft := min ((s.die n).pSoft + 1) (2 ^ 48 - 1) } ∧ ∀ m, m ≠ n → t.die m = s.die m

/-! Faults, debug control and preemption. -/

/-- R364 to R368, R370, R371: an upcall that is deliverable parks the stream state, writes its record and starts the handler; an LDFE that waits is
taken back, and the park slot holds no count for it; what the access stream did past a branch that has not resolved is undone, its a-registers with
it. With cr.upcall 0 the upcall escalates with reason 2. UPRET lets upc fall and brings a park slot's stream state back once the counts fit, for which it
waits with upc 0, or goes on; delivery and return together leave the stream as it was. FRAISE raises its code's upcall or freeze as software; that its upcall is delivered in its own step, with the
next address as the pc, is the model's choice, no rule's (log 51). -/
def Obligations.UpcallsAndReturns : Prop :=
  ∀ (f : Nat) (u : Upcall) (rest : List Upcall) (k : Nat) (p : Park) (a b : XReg) (c0 : Ctx) (s : State),
    let c := s.ctx f
    let core := s.core (coreOf f)
    let v := s.c.getX a
    let code := v.toNat % 256
    let info := v.toNat / 2 ^ 32
    let raised : Upcall := { code := code, info := info, addr := s.c.getX b, token := 0, whence := s.c.pc, soft := true, park := none }
    let isUpcall : Prop := (1 ≤ code ∧ code ≤ 4) ∨ (0x10 ≤ code ∧ code ≤ 0x12)
    let isFreeze : Prop := 0x20 ≤ code ∧ code ≤ 0x2D
    let f0 (code park info : Nat) (soft : Bool) : Word := .ofNat 64 (code % 256 + 4096 * (park % 4) + 32768 * soft.toNat + 2 ^ 32 * (info % 2 ^ 32))
    let down (c : Ctx) : Ctx := { c with st := { c.st with upc := false } }
    let lowered : State := { s with c := down s.c }
    let entered (c t : Ctx) (u : Upcall) (k : Nat) : Prop :=
      t.pc = c.cr.upcall ∧ t.st = { c.st with upc := true } ∧ t.cr.fault0 = f0 u.code (u.park.getD k) u.info u.soft ∧ t.cr.fault1 = u.addr
        ∧ t.cr.fault2 = u.token ∧ t.cr.fault3 = u.whence ∧ t.x = c.x ∧ t.p = c.p ∧ t.k = c.k ∧ t.v = c.v ∧ t.sb = .replicate 16 0
        ∧ t.acc = [] ∧ t.wait = none ∧ t.win = [] ∧ t.works = [] ∧ t.apc = none
        ∧ (c.win.find? Passed.unresolved = none → t.a = c.a) ∧ ∀ e a0, c.win.find? Passed.unresolved = some e → e.kind = .branch a0 → t.a = a0
    let ready : Prop := core.frozen = false ∧ core.fenced = false ∧ c.pending = u :: rest ∧ c.st.upc = false ∧ c.returning = false ∧ c.live = true
    let plain : Prop := c.win.find? Passed.unresolved = none ∧ c.latch = none ∧ c.works = []
    let mayReturn : Prop := s.c.st.upc = true ∨ s.c.returning = true
    let issued : Prop := (∀ x ∈ p.acc ++ s.c.acc, x.back = false) ∧ ∀ w ∈ p.works ++ s.c.works, w.back = false
    let fails (i : Instr) : Prop := exec i s = .next s.reservedField
    (ready → c.cr.upcall ≠ 0 → c.freePark = some k → completes (exec (.upcallDelivery f) s) fun t =>
        entered c (t.ctx f) u k ∧ (t.ctx f).pending = rest ∧ (∃ p, (k, p) ∈ (t.ctx f).parks ∧ p.pc = c.pc
            ∧ (plain → (∀ x ∈ c.acc, c.takesBack x = false) → p.counts = c.sb ∧ p.acc = c.acc)
            ∧ (plain → ∀ x keep d i, c.acc = [x] → x.op = .ldfe keep d → x.held = false → x.back = false → x.slot = some i →
                p.acc = [{ x with back := true }] ∧ p.counts = c.sb.set i (c.sb[i] - 1)))
          ∧ t.mem = s.mem ∧ ∀ g, g ≠ f → t.ctx g = s.ctx g)
      ∧ (ready → c.cr.upcall = 0 → completes (exec (.upcallDelivery f) s) fun t =>
          (t.core (coreOf f)).frozen = true ∧ (t.core (coreOf f)).fcode = 0x27 ∧ (t.ctx f).cr.fault0 = f0 0x27 0 (2 * 2 ^ 24 + u.code) u.soft
            ∧ (t.ctx f).cr.fault1 = u.addr ∧ (t.ctx f).cr.fault2 = u.token ∧ (t.ctx f).cr.fault3 = u.whence ∧ (t.ctx f).pc = c.pc)
      ∧ (mayReturn → v.toNat < 512 → v.toNat / 4 % 64 = 0 → v.getLsbD 8 = true →
          exec (.upret a) s = .next (s.done down) ∧ exec (.upretContinue a) s = .next (s.done down))
      ∧ (mayReturn → v.toNat < 4 → s.c.parks.find? (fun kp => kp.1 == v.toNat) = none → exec (.upret a) s = .next lowered.reservedField)
      ∧ (mayReturn → v.toNat < 4 → s.c.latch = none → s.c.parks.find? (fun kp => kp.1 == v.toNat) = some (k, p) →
          ((∃ i : Slot, 63 < s.c.sb[i].toNat + p.counts[i].toNat) → exec (.upret a) s = .next (lowered.stall true))
            ∧ (p.owed = [] → p.owedV = [] → (∀ i : Slot, s.c.sb[i].toNat + p.counts[i].toNat ≤ 63) → completes (exec (.upret a) s) fun t =>
                t.c.pc = p.pc ∧ t.c.apc = p.apc ∧ t.c.st = { s.c.st with upc := false } ∧ t.c.latch = p.latch ∧ t.c.x = s.c.x ∧ t.c.a = s.c.a ∧ t.c.wait.isSome = p.wait.isSome
                  ∧ (issued → (∀ i : Slot, t.c.sb[i] = s.c.sb[i] + p.counts[i]) ∧ t.c.acc = p.acc ++ s.c.acc ∧ t.c.win = p.win)
                  ∧ t.c.acc.length = p.acc.length + s.c.acc.length ∧ t.c.works.length = p.works.length + s.c.works.length ∧ t.c.parks = terase s.c.parks k
                  ∧ t = { s with c := t.c, nextId := t.nextId }))
      ∧ (c0.st.upc = false → c0.latch = none → c0.wait = none → c0.win = [] → c0.works = [] → c0.apc = none →
          (∀ x ∈ c0.acc, x.back = false ∧ c0.takesBack x = false) → c0.freePark = some k →
          ∃ p, ∃ cr, (k, p) ∈ (c0.takeUpcall u k).parks ∧ (c0.takeUpcall u k).reinstate k p = { c0 with cr := cr, parked := false, pause := 0 })
      ∧ ((¬mayReturn ∨ 512 ≤ v.toNat ∨ v.toNat / 4 % 64 ≠ 0) → fails (.upret a) ∧ fails (.upretContinue a))
      ∧ (v.toNat / 256 % 2 ^ 24 = 0 → isUpcall → s.c.st.upc = true → ∀ i ∈ [Instr.fraiseUpcall a b, .fraiseFreeze a b],
          exec i s = .next (s.done fun c => { c with pending := c.pending ++ [raised] }))
      ∧ (v.toNat / 256 % 2 ^ 24 = 0 → isUpcall → s.c.st.upc = false → s.c.live = true → s.c.pending = [] → s.c.cr.upcall ≠ 0 → s.c.freePark = some k →
          ∀ i ∈ [Instr.fraiseUpcall a b, .fraiseFreeze a b], completes (exec i s) fun t =>
            entered s.c t.c raised k ∧ ∃ p, (k, p) ∈ t.c.parks ∧ p.pc = s.c.npc)
      ∧ (v.toNat / 256 % 2 ^ 24 = 0 → isFreeze → ∀ i ∈ [Instr.fraiseUpcall a b, .fraiseFreeze a b], completes (exec i s) fun t =>
          (t.core s.myCore).frozen = true ∧ (t.core s.myCore).fcode = code ∧ t.c.cr.fault0 = f0 code 0 info true ∧ t.c.cr.fault1 = s.c.getX b
            ∧ t.c.cr.fault2 = 0 ∧ t.c.cr.fault3 = s.c.pc ∧ t.c.pc = s.c.pc ∧ t.c.x = s.c.x ∧ t.c.a = s.c.a)
      ∧ ((v.toNat / 256 % 2 ^ 24 ≠ 0 ∨ ¬(isUpcall ∨ isFreeze)) → fails (.fraiseUpcall a b) ∧ fails (.fraiseFreeze a b))

/-- R131, R229, R372 to R375, R379, R380: a wait past the core's limit, an arrived MGANG's for its huddle among them, freezes the core with the
watchdog's code, as one past it of an instruction that has issued and waits beside the streams does; resume thaws it with the counts of its waits going on; fencing sets the bit, and kills what is frozen there; killing ends the contexts;
the frozen core's two pcs, each alone, and its local store are written through the window; an error of a unit fences it, and of a lane group freezes its holder. The model's choices, which no
rule states: a frozen core that is killed or fenced is frozen no more (log 52), and an error of a cluster fences it at once, where one of a slice marks it alone (log 54). -/
def Obligations.WatchdogAndDebug : Prop :=
  ∀ (f core n : Nat) (w : Wait) (y : Work) (ys : List Work) (mj : MJob) (epc : Bool) (v : Word) (d sl g clu : Nat) (s : State),
    let c := s.ctx f
    let k := s.core core
    let k' := s.core (coreOf f)
    let waited (w : Wait) := min (s.time - w.since).toNat (2 ^ 32 - 1)
    let watched (w : Wait) : Prop := ∀ i, w.instr = some i → (∀ d a, i ≠ .park d a) ∧ ∀ d a p, i ≠ .ftget d a p
    let may : Prop := c.live = true ∧ k'.frozen = false ∧ k'.fenced = false ∧ k'.wdlim ≠ 0
    let past (w : Wait) : Prop := watched w ∧ k'.wdlim ≠ w.barked ∧ k'.wdlim.toNat < waited w
    let bitten (w : Wait) : Prop := completes (exec (.watchdog f) s) fun t => (t.core (coreOf f)).frozen = true ∧ (t.core (coreOf f)).fcode = 0x26
          ∧ (t.ctx f).cr.fault0 = .ofNat 64 (0x26 + 2 ^ 32 * (waited w / 65536)) ∧ (t.ctx f).cr.fault1 = 0 ∧ (t.ctx f).cr.fault2 = 0
          ∧ (t.ctx f).cr.fault3 = w.pc ∧ (t.ctx f).pc = c.pc
    let old := s.ctx (11 * core + k.dbgFrame)
    let sel := 11 * core + k.dbgFrame
    let dead (t : State) : Prop := ∀ f ∈ framesOf core, (t.ctx f).live = false
    let put (w : Option Word) : State := s.setCore core { k with
      ls := match w with | some w => k.ls.write k.dbgLsaddr 8 w.toNat | none => k.ls, dbgLsaddr := (k.dbgLsaddr + 8) % 2 ^ 18 }
    (may → c.wait = some w → past w → bitten w)
      ∧ (may → c.wait = none → c.works = y :: ys → past y.wait → bitten y.wait)
      ∧ (may → c.wait = none → c.works = [] → s.arrivalOf f = some (mj, n) → k'.wdlim.toNat < n →
          completes (exec (.watchdog f) s) fun t => (t.core (coreOf f)).frozen = true ∧ (t.core (coreOf f)).fcode = 0x26 ∧ (t.ctx f).cr.fault3 = mj.pc)
      ∧ (k.frozen = true → k.fenced = false → ¬dead s → completes (exec (.debugResume core) s) fun t =>
          t.core core = { k with frozen := false, byGang := false } ∧ t.mem = s.mem ∧ (∀ f, t.ctx f = { s.ctx f with wait := (t.ctx f).wait, works := (t.ctx f).works, deadline := (t.ctx f).deadline })
            ∧ ∀ f ∈ framesOf core, (s.ctx f).live = true → (∀ w, (s.ctx f).wait = some w → (t.ctx f).wait = some { w with since := w.since + (s.time - k.frozeAt) })
              ∧ (t.ctx f).works = (s.ctx f).works.map fun (y : Work) => { y with wait := { y.wait with since := y.wait.since + (s.time - k.frozeAt) } })
      ∧ ((k.frozen = false ∨ k.fenced = true) → exec (.debugResume core) s = .next s)
      ∧ (k.frozen = false → exec (.debugFence core) s = .next (s.setCore core { k with fenced := true }))
      ∧ (k.frozen = true → completes (exec (.debugFence core) s) fun t => (t.core core).fenced = true ∧ (t.core core).frozen = false ∧ dead t)
      ∧ (k.dbgFrame ≤ 10 → completes (exec (.debugKillFrame core) s) fun t => (t.ctx sel).live = false)
      ∧ (completes (exec (.debugKillCore core) s) fun t => dead t ∧ (t.core core).frozen = false)
      ∧ (k.frozen = true → completes (exec (.debugPcWrite core epc v) s) fun t =>
          (t.ctx sel).pc = (if epc then v else old.pc) ∧ (t.ctx sel).apc.getD (t.ctx sel).pc = (if epc then old.apc.getD old.pc else v)
          ∧ (t.ctx sel).win = [] ∧ (t.ctx sel).wait = none ∧ (t.ctx sel).x = old.x ∧ t.mem = s.mem
          ∧ (∀ n, t.core n = { s.core n with ejobs := (t.core n).ejobs } ∧ ∀ j ∈ (s.core n).ejobs, j.ready = true → j ∈ (t.core n).ejobs) ∧ ∀ g, g ≠ sel → t.ctx g = s.ctx g)
      ∧ (k.frozen = true → exec (.debugLsdataAccess core none) s = .next (put none) ∧ exec (.debugLsdataAccess core (some v)) s = .next (put (some v)))
      ∧ (k.frozen = false → exec (.debugPcWrite core epc v) s = .next s ∧ exec (.debugLsdataAccess core (some v)) s = .next s)
      ∧ ((∀ f ∈ framesOf core, (s.ctx f).live = false) → k.frozen = false →
          exec (.unitUncorrectableError (.core core)) s = .next (s.setCore core { k with fenced := true }))
      ∧ (¬dead s → completes (exec (.unitUncorrectableError (.core core)) s) fun t => (t.core core).fenced = true ∧ dead t)
      ∧ ((∀ f ∈ (coresOf clu).flatMap framesOf, (s.ctx f).live = true → g ∉ (s.ctx f).groups) →
          completes (exec (.unitUncorrectableError (.laneGroup clu g)) s) fun t =>
            g ∉ (t.clu clu).lanesFree ∧ g ∈ (t.clu clu).lanesLost ∧ t.c = s.c ∧ t.frames = s.frames ∧ t.mem = s.mem)
      ∧ (((coresOf clu).flatMap framesOf).find? (fun f => (s.ctx f).live && (s.ctx f).groups.contains g) = some f → k'.frozen = false →
          completes (exec (.unitUncorrectableError (.laneGroup clu g)) s) fun t =>
            g ∈ (t.clu clu).lanesLost ∧ (t.core (coreOf f)).frozen = true ∧ (t.core (coreOf f)).fcode = 0x28 ∧ g ∉ (t.ctx f).groups ∧ (t.ctx f).x = c.x)
      ∧ (completes (exec (.unitUncorrectableError (.cluster clu)) s) fun t =>
          (t.clu clu).fenced = true ∧ ∀ f ∈ (coresOf clu).flatMap framesOf, (t.ctx f).live = false)
      ∧ (completes (exec (.unitUncorrectableError (.slice d sl)) s) fun t => sl ∈ (t.die d).failedSlices ∧ (t.die d).fencedSlices = (s.die d).fencedSlices
          ∧ t = { s with dies := t.dies })

/-! The device, the host, power and boot. -/

/-- R9, R30, R99, R171, R301, R377, R378, R380, R381, R389 to R393: preemption, power and boot. A switch to the partition that is parked, or where none
is, to a new one (log 21), is scheduled at least 2,048 cycles ahead; at its time every context stops, writes in flight stop in the spill buffers, the
scope table and the umpires' mirrors are written, pool segments of failed ports alone may be remapped (R386, log 73), and the package halts; the
exchange brings the next partition's contexts, tables and writes back, and leaves this one's in the dugouts, one image a die, whose header, registers and local
stores stand where the table of R378 has them, each predicate at the bit of its number, each slot in a byte, the writes in flight with the die they are for (log 21). The freeze signal and a
thermal trip stop every clock, and the scan chains go to the host. A device that is off, stopped or held boots the firmware stages whose key hash,
signature and version are right, and comes up with the state of reset, what training found to have failed fenced or refused, its own memory unlisted
and the memory of hosts and pools as it was; with a stage that is not right, it stays held, and the link in configuration retry. The supplies fall, and rise, one in a step.
The model's choices, which no rule states: what training finds (log 89), that a failed stack raises the physical-address fault (log 88), the bits of the scan chains (log 87), the parts of the
report, the firmware and the key hash (log 7), and how a lost unit narrows the scopes (logs 54, 65). -/
def Obligations.PreemptionAndPower : Prop :=
  ∀ (t0 : Word) (next die watts : Nat) (nonce : BitVec 256) (s : State),
    let held : Option Nat := (s.dugouts.head?).map fun d => d.2.part
    let may : Prop := s.time.toNat + 2048 ≤ t0.toNat ∧ next ≠ s.dev.partition ∧ (held = none ∨ held = some next)
    let image (d : Nat) : DieImage := tget (DieImage.fresh next) s.dugouts d
    let home (f : Nat) : Nat := dieOf (cluOf (coreOf f))
    let sound : Prop := (∀ n, (s.clu n).lanesLost = []) ∧ ∀ d < 4, ((image d).frames.map (·.1)).Nodup ∧ ∀ x ∈ (image d).frames, x.1 < 5632 ∧ home x.1 = d
    let back : Parked := s.dev.parked.getD Parked.empty
    let tr : Training := Config.training s.fresh
    let off : Prop := s.dev.stopped = true ∨ s.dev.rails ≠ 6 ∨ s.dev.released = false
    let right (st : Stage) : Prop := Config.sha256 (bytesOf 48 st.key.toNat) = Config.keyHash ∧ st.signature.length = 16224
      ∧ Config.slhVerify st.key st.image st.signature = true ∧ s.dev.rollback ≤ st.version
    let posted (l : List Turn) : List (BitVec 48 × Word) := l.filterMap fun t => match t with | .posted pa v => some (pa, v) | _ => none
    (may → exec (.preemptSchedule t0 next) s = .next { s with dev := { s.dev with switchAt := some (t0, next) } })
      ∧ (¬may → exec (.preemptSchedule t0 next) s = .next s)
      ∧ (s.dev.switchAt = some (t0, next) → t0 ≤ s.time → s.dev.halted = false → (∀ d, (s.die d).failedSlices = []) →
          completes (exec .partitionHalt s) fun u =>
            u.dev = { s.dev with status := s.fenceStatus, scopes := s.scopeNow s.fenceStatus, halted := true, segments := u.dev.segments, spill := s.dev.spill ++ posted s.agenda }
            ∧ (∀ n, u.segment n = { s.segment n with port := (u.segment n).port } ∧ ((s.segment n).port ∉ s.dev.refusedPorts → u.segment n = s.segment n))
            ∧ posted u.agenda = [] ∧ (∀ e ∈ s.agenda, e ∈ u.agenda ∨ ∃ pa v, e = .posted pa v)
            ∧ (∀ d < 4, (u.die d).mirror = u.dev.scopes) ∧ (∀ f, u.ctx f = (s.ctx f).stopStreams) ∧ u.mem = s.mem ∧ u.cores = s.cores ∧ u.l1 = s.l1 ∧ u.l2 = s.l2)
      ∧ (s.dev.switchAt = some (t0, next) → s.dev.halted = true → sound → completes (exec .partitionResume s) fun u =>
          u.dev = { s.dev with partition := next, switchAt := none, halted := false, parked := some s.tables, away := back.away, spill := [] }
            ∧ u.agenda = (((List.range 4).flatMap fun d => (image d).spill).map fun w => Turn.posted w.1 w.2) ++ s.agenda ∧ u.mem = s.mem ∧ u.time = s.time ∧ u.l1 = s.l1
            ∧ u.dugouts = [(0, s.dieImage 0 t0), (1, s.dieImage 1 t0), (2, s.dieImage 2 t0), (3, s.dieImage 3 t0)]
            ∧ (∀ f < 5632, u.ctx f = ((tget Ctx.reset (image (home f)).frames f).comeBack s.time).reissue)
            ∧ u.launches = back.launches ∧ u.teams = back.teams ∧ u.bars = back.bars ∧ u.dqs = back.dqs ∧ u.heaps = back.heaps)
      ∧ (∀ d < 4,
          let im := s.dieImage d t0
          im.part = s.dev.partition ∧ im.t = t0 ∧ im.dev = s.dev.num ∧ im.valid = true ∧ im.spill = s.dev.spill.filter (fun w => min 3 (spillDie w.1.toNat) == d)
            ∧ im.word d 0 = some (.ofNat 64 s.dev.partition) ∧ im.word d 8 = some t0 ∧ im.word d 16 = some (.ofNat 64 s.dev.num)
            ∧ (∀ k < 1408, let c := s.ctx (1408 * d + k)
                im.word d (4096 + 2048 * k + 8) = some (c.apc.getD c.pc) ∧ im.word d (4096 + 2048 * k + 16) = some c.pc
                  ∧ (∀ i : XReg, i ≠ 0 → im.word d (4096 + 2048 * k + 16 + 8 * i.val) = some (c.getX i))
                  ∧ (∀ i : AReg, im.word d (4096 + 2048 * k + 272 + 8 * i.val) = some (c.getA i))
                  ∧ (∀ i : PReg, i ≠ 0 → ∃ w, im.word d (4096 + 2048 * k + 400) = some w ∧ w.getLsbD i.val = c.getP i)
                  ∧ (∀ i : KReg, i ≠ 0 → ∀ q < 4, im.word d (4096 + 2048 * k + 376 + 32 * i.val + 8 * q) = some ((c.getK i).extractLsb' (64 * q) 64))
                  ∧ (∀ i : Slot, ∃ w, im.word d (4096 + 2048 * k + 632 + 8 * (i.val / 8)) = some w ∧ w.toNat / 2 ^ (8 * (i.val % 8)) % 256 = c.sb[i].toNat)
                  ∧ im.word d (4096 + 2048 * k + 808) = some (.ofNat 64 c.ncount.toNat)
                  ∧ im.word d (4096 + 2048 * k + 648) = some c.status ∧ im.word d (4096 + 2048 * k + 800) = some c.cr.egmodel)
            ∧ ∀ k < 128, ∀ a < 32768, im.word d (22916 * 1024 + 258 * 1024 * k + 8 * a) = some (.ofNat 64 ((s.core (128 * d + k)).ls.read (8 * a) 8)))
      ∧ (completes (exec .freezeSignal s) fun u => (∃ bits, u.out = s.out ++ [.scan bits])
          ∧ u = { s with dev := { s.dev with stopped := true }, out := u.out, fresh := u.fresh })
      ∧ (completes (exec (.thermalTrip die) s) fun u => (∃ bits, u.out = s.out ++ [.scan bits])
          ∧ u = { s with dev := { s.dev with stopped := true, tripped := some die }, out := u.out, fresh := u.fresh })
      ∧ exec (.powerCapSet watts) s = .next { s with dev := { s.dev with capW := min watts 1900 } }
      ∧ exec .functionLevelReset s = .next { s with dev := { s.dev with link := { s.dev.link with function := [] } } }
      ∧ exec (.attestationRequest nonce) s = .next { s with out := s.out ++ [.attestation nonce s.dev.scopes s.dev.rollback s.dev.status s.dev.stages
          (Config.slhSign Config.identityKey (reportBytes s.dev nonce))] }
      ∧ exec .supplyRemoval s = .next { s with dev := { s.dev with rails := s.dev.rails - 1, released := false }, agenda := if s.dev.rails ≤ 1 then s.agenda else .event .supplyRemoval :: s.agenda }
      ∧ (¬off → exec .bringUp s = .next s)
      ∧ (s.dev.rails ≠ 6 → exec .bringUp s = .next { s with dev := { s.dev with rails := s.dev.rails + 1 }, agenda := .event .bringUp :: s.agenda })
      ∧ (off → s.dev.rails = 6 → Memory.wf s.mem = true → completes (exec .bringUp s) fun u =>
          u.c = Ctx.reset ∧ u.frames = State.reset.frames ∧ u.time = 0 ∧ u.l1 = [] ∧ u.l2 = [] ∧ u.tlb = [] ∧ u.launches = [] ∧ u.teams = [] ∧ u.dqs = [] ∧ u.heaps = []
            ∧ u.dev.stopped = false ∧ u.dev.rails = 6 ∧ u.dev.rollback = s.dev.rollback ∧ u.dev.pods = tr.pods ∧ u.dev.num = (if tr.pods then tr.num % 144 else 0) ∧ u.dev.link.ide = tr.ide
            ∧ (u.dev.released = true ↔ ∀ st ∈ Config.firmware, right st) ∧ u.dev.link.retry = !u.dev.released ∧ u.dev.failedStage.isSome = !u.dev.released
            ∧ (∃ n, u.dev.stages = ((Config.firmware.take n).map fun st => Config.sha256 st.image) ∧ (∀ st ∈ Config.firmware.take n, right st)
                ∧ (u.dev.failedStage = none ∧ n = Config.firmware.length ∨ u.dev.failedStage = some n ∧ ∃ st, Config.firmware[n]? = some st ∧ ¬right st))
            ∧ (∀ n, u.core n = { CoreSt.reset with fenced := (u.core n).fenced }) ∧ (∀ n, DevUnit.core n ∈ tr.units → (u.core n).fenced = true)
            ∧ (∀ d n, DevUnit.slice d n ∈ tr.units → n ∈ (u.die d).fencedSlices) ∧ (∀ n ∈ tr.ports, n < 4 → n ∈ u.dev.refusedPorts)
            ∧ (∀ n ∈ tr.badStacks, n < 8 → ∀ a, paClass a = .stack → a / 2 ^ 36 = n → u.paFault true a = some .phys)
            ∧ (∀ a, paClass a = .stack → u.mem.get a = Memory.unlisted) ∧ ∀ a, paClass a = .host ∨ paClass a = .pool → u.mem.get a = s.mem.get a)

/-- R157, R283, R295, R373, R377, R380: a supervisor's write to the device-register range changes the register that its address names: the base of
the address-space table, a doorbell's list of moves, a control block's overflow area (its address: log 64), or a core's window. The control word kills the core, kills the frame, fences and resumes, in this
order; a frozen core's registers written through the window read back, and those of another core do not change. The model's choices, which no rule states: which words from 0x038 on are
registers, and that the limit at 0x030 is writable at any time (log 53); a doorbell drops the low 5 bits of an address and all from 48 up (log 96). -/
def Obligations.DeviceRegisters : Prop :=
  ∀ (pa : BitVec 48) (v : Word) (die core : Nat) (x : XReg) (a : AReg) (s : State),
    let p := pa.toNat
    let k := s.core core
    let sel := 11 * core + k.dbgFrame
    let run := exec (.deviceRegisterWrite pa v) s
    let window (o : Nat) : Prop := core < 512 ∧ p = 0x801000000000 + 0x1000 * core + o
    let when (c : Bool) (i : Instr) (s : State) : State := if c then (match exec i s with | .next t => t | _ => s) else s
    (p < 0x800000000000 → run = .next s) ∧ (p = 0x800000000000 → run = .next s)
      ∧ (p = 0x800000000100 → run = .next { s with dev := { s.dev with asidTable := v.toNat % 2 ^ 48 } })
      ∧ (die < 4 → p = 0x800000000200 + 0x100000000 * die → 
          run = .next (s.setDie die { s.die die with moves := (s.die die).moves ++
            [{ addr := v.toNat % 2 ^ 48 / 32 * 32, copied := 0, pass := 0, frame := none, marked := [] }] }))
      ∧ (paClass p = .dev → die < 64 → devReg p = .ctl 0 die → run = .next (s.setClu die { s.clu die with ovf := (v.toNat, (s.clu die).ovf.2) }))
      ∧ (paClass p = .dev → die < 64 → devReg p = .ctl 5 die → run = .next (s.setDie die { s.die die with readyOvf := ((s.die die).readyOvf.1, v.toNat) }))
      ∧ (window 0x008 → run = .next (when (v.getLsbD 0) (.debugResume core) (when (v.getLsbD 1) (.debugFence core)
          (when (v.getLsbD 2) (.debugKillFrame core) (when (v.getLsbD 3) (.debugKillCore core) s)))))
      ∧ (window 0x030 → run = .next (s.setCore core { k with wdlim := v }))
      ∧ (k.frozen = false → ∀ o, 0x038 ≤ o → o < 0x1000 → window o → run = .next s)
      ∧ (k.frozen = true →
          (window 0x100 → v.toNat ≤ 10 → run = .next (s.setCore core { k with dbgFrame := v.toNat }))
            ∧ (window 0xC00 → run = .next (s.setCore core { k with dbgLsaddr := v.toNat % 2 ^ 18 / 8 * 8 }))
            ∧ (window (0x200 + 8 * x.val) → run = .next (s.mapCtx sel fun c => c.setX x v))
            ∧ (window (0x300 + 8 * a.val) → run = .next (s.mapCtx sel fun c => c.setA a v))
            ∧ (window 0x108 → completes run fun t => (t.winRead core 0x108).1 = v ∧ (t.winRead core 0x110).1 = (s.winRead core 0x110).1 ∧ (t.winRead core 0x118).1 = 0)
            ∧ (window 0x110 → completes run fun t => (t.ctx sel).pc = v ∧ (t.winRead core 0x110).1 = v ∧ (t.winRead core 0x108).1 = (s.winRead core 0x108).1)
            ∧ (window 0xC08 → run = exec (.debugLsdataAccess core (some v)) s)
            ∧ ((window (0x200 + 8 * x.val) ∧ x ≠ 0 ∨ window (0x300 + 8 * a.val)) → completes run fun t => (t.winRead core (p % 0x1000)).1 = v))

/-- R27, R30, R35, R169, R170, R202, R301, R383, R384, R387, R388: with no copy of their lines in the caches, the writes of the host, to the device and to its own
memory, of other devices and of the pool's agents change exactly their bytes, reads and snoops answer them, and an atomic answers the old value and stores
the new; a line known bad answers as poisoned. A team of this device that is on another draws its chunks from the counter here, and is forgotten once it has no control context.
A failed pool link or plane is recorded; with every plane down .pod is narrowed to the device, once the dies are halted. The model's choices, which no rule states: the bookkeeping of a team that
is away (logs 61, 66), that a write of a pool's agent reaches the memory behind its home (log 35), and what meets a failed stack or a refused segment (log 88). -/
def Obligations.HostAndFabric : Prop :=
  ∀ (pa : BitVec 48) (v : List Byte) (n add old port : Nat) (op : AmoOp) (la : Launch) (j : Nat) (s : State),
    let p := pa.toNat
    let idle : Prop := s.l1 = [] ∧ s.l2 = [] ∧ Memory.wf s.mem = true
    let tidy : Prop := (s.homes.map (·.line)).Nodup ∧ ∀ h ∈ s.homes, paClass (64 * h.line) = .pool ∨ paClass (64 * h.line) = .host
    let through := s.writeThrough (p / 64 * 64)
    let writes (o : Out) : Prop := completes o fun t => (∀ a, t.mem.get a = if h : p ≤ a ∧ a < p + v.length then v[a - p] else s.mem.get a)
      ∧ t = { s with mem := t.mem, dies := t.dies, poison := t.poison }
    let answers (o : Out) (a : HostOut) : Prop := completes o fun t => t = { s with dies := t.dies, out := s.out ++ [a] }
    let line := p / 64 * 64
    let open_ : Prop := s.tableFault p = none
    let home : Prop := (paClass p = .stack ∨ paClass p = .pool) ∧ open_
    let atomic : Prop := idle ∧ tidy ∧ home ∧ 1 ≤ n ∧ p % 64 + n ≤ 64 ∧ p / 64 ∉ s.poison
    let swapped (t : State) (new : Nat) : Prop := t.homeRead p n = new ∧ (∀ a, a < p ∨ p + n ≤ a → t.homeByte a = s.homeByte a)
      ∧ t.out = s.out ++ [.remoteData p (bytesOf n (s.homeRead p n))]
    let there : Prop := ∃ x ∈ s.dev.away, x.launch = la.id ∧ x.j = j
    (idle → paClass p = .stack → s.rangeShut p v.length = false → p + v.length ≤ 2 ^ 39 → writes (exec (.hostWrite pa v) s))
      ∧ (idle → paClass p = .stack → s.rangeShut p n = false → p + n ≤ 2 ^ 39 → s.poison = [] → answers (exec (.hostRead pa n) s) (.readData p (s.mem.readBytes p n)))
      ∧ (s.dev.stacksDown = [] → ∀ m, p + m ≤ 2 ^ 39 → s.rangeShut p m = false)
      ∧ (idle → paClass p = .stack → s.rangeShut p n = false → p % 64 + n ≤ 64 → 1 ≤ n → p / 64 ∈ s.poison → answers (exec (.hostRead pa n) s) (.poisoned line))
      ∧ (idle → paClass p = .host → exec (.hostSnoop pa) s =
          .next { through with out := s.out ++ [if p / 64 ∈ s.poison then .poisoned line else .snoopData line (through.mem.readBytes line 64)] })
      ∧ (home → p % 64 + n ≤ 64 → answers (exec (.remoteHomeRequest pa (.read n)) s) (if p / 64 ∈ s.poison then .poisoned p else .remoteData p (s.homeBytesOf p n)))
      ∧ (Memory.wf s.mem = true → paClass p = .stack → open_ → p % 64 + v.length ≤ 64 → writes (exec (.remoteHomeRequest pa (.write v)) s))
      ∧ (tidy → paClass p = .pool → open_ → p % 64 + v.length ≤ 64 → completes (exec (.remoteHomeRequest pa (.write v)) s) fun t =>
          (∀ a, t.homeByte a = if h : p ≤ a ∧ a < p + v.length then v[a - p] else s.homeByte a) ∧ t = { s with homes := t.homes, dies := t.dies, poison := t.poison })
      ∧ (atomic → completes (exec (.remoteHomeRequest pa (.amo n .add add)) s) fun t => swapped t ((s.homeRead p n + add) % 2 ^ (8 * n)))
      ∧ (atomic → completes (exec (.remoteHomeRequest pa (.amo n .swap add)) s) fun t => swapped t (add % 2 ^ (8 * n)))
      ∧ (atomic → completes (exec (.remoteHomeRequest pa (.amo n op add)) s) fun t => swapped t ((amoNew op n (s.homeRead p n) add).1 % 2 ^ (8 * n)))
      ∧ (atomic → s.homeRead p n = old % 2 ^ (8 * n) → completes (exec (.remoteHomeRequest pa (.cas n old add)) s) fun t => swapped t (add % 2 ^ (8 * n)))
      ∧ (atomic → s.homeRead p n ≠ old % 2 ^ (8 * n) → completes (exec (.remoteHomeRequest pa (.cas n old add)) s) fun t => swapped t (s.homeRead p n))
      ∧ (s.launches.find? (·.id == la.id) = some la → there → completes (exec (.remoteHomeRequest pa (.dnext la.id j)) s) fun t => ∃ cnt,
          t.out = s.out ++ [.dealt la.id j la.next cnt] ∧ (la.remaining = 0 → cnt = 0) ∧ cnt ≤ la.remaining ∧ (0 < la.remaining → min la.remaining la.minchunk ≤ cnt)
            ∧ t.launches = s.launches.map fun x => if x.id = la.id then { x with next := (la.next + cnt) % 2 ^ 32, remaining := la.remaining - cnt } else x)
      ∧ (¬there → exec (.remoteHomeRequest pa (.dnext la.id j)) s = .next s ∧ exec (.remoteHomeRequest pa (.controls la.id j n)) s = .next s)
      ∧ (there → completes (exec (.remoteHomeRequest pa (.controls la.id j n)) s) fun t => t = { s with dev := { s.dev with away := t.dev.away }, launches := t.launches }
          ∧ (n = 0 → ∀ x ∈ t.dev.away, ¬(x.launch = la.id ∧ x.j = j)) ∧ (n ≠ 0 → ∀ x ∈ t.dev.away, x.launch = la.id → x.j = j → x.cores = n))
      ∧ (idle → paClass p = .host → 1 ≤ v.length → p % 64 + v.length ≤ 64 → completes (exec (.hostWrite pa v) s) fun t =>
          (∀ a, t.mem.get a = if h : p ≤ a ∧ a < p + v.length then v[a - p] else through.mem.get a) ∧ t = { through with mem := t.mem, poison := t.poison })
      ∧ (paClass p = .pool → s.paFault true p = none → p + v.length ≤ 0x28000000000 → Memory.wf s.mem = true → writes (exec (.poolAgentWrite pa v) s))
      ∧ (paClass p = .stack ∨ paClass p = .pool ∨ paClass p = .host → completes (exec (.poisonedLine pa) s) fun t => p / 64 ∈ t.poison ∧ t = { s with poison := t.poison })
      ∧ (port < 4 → completes (exec (.poolLinkFail port) s) fun t => port ∈ t.dev.refusedPorts ∧ t = { s with dev := { s.dev with refusedPorts := t.dev.refusedPorts } })
      ∧ (port < 16 → completes (exec (.crirasPlaneFail port) s) fun t => port ∈ t.dev.planesDown ∧ (∀ q ∈ s.dev.planesDown, q ∈ t.dev.planesDown)
          ∧ (s.dev.halted = false → s.dev.stopped = false → t = { s with dev := { s.dev with planesDown := t.dev.planesDown } })
          ∧ (s.dev.halted = true → t = { s with dev := { s.dev with planesDown := t.dev.planesDown, scopes := t.dev.scopes }, dies := t.dies }
              ∧ (∀ d < 4, (t.die d).mirror = t.dev.scopes)
              ∧ (s.dev.pods = true → s.dev.status.toNat < 256 → 16 ≤ t.dev.planesDown.length → t.dev.scopes.getD 4 0 = scopeEntry 0 4 3 + 4)))

/-! Encoding, the step, the invariant and reset. -/

/-- R55 to R72, R370, R371 and the worked encodings: the words that the spec spells out decode to the instructions they stand for; the word 0 and
an unassigned major do not decode. -/
def Obligations.DecodeWords : Prop :=
  decodeWords 0x00510300 0 0 = .ok ⟨Mods.none, .add (.x 3) (.x 4) (.reg (.x 5)), 4⟩
    ∧ decodeWords 0x10288719 0 0 = .ok ⟨Mods.none, .ld64 1 16 2 (.x 7), 4⟩
    ∧ decodeWords 0x005103FE 0x00000402 0 = .ok ⟨⟨2, false, false, 0, 2⟩, .add (.x 3) (.x 4) (.reg (.x 5)), 8⟩
    ∧ decodeWords 0x000103FF 0x00000000 0x000186A0 = .ok ⟨Mods.none, .add (.x 3) (.x 4) (.lit 100000), 12⟩
    ∧ decodeWords 0x2028454A 0x02000000 0 = .ok ⟨Mods.none, .amo32Add .clu 2 8 1 5, 8⟩
    ∧ decodeWords 0x000140A6 0 0 = .ok ⟨Mods.none, .upret 5, 8⟩ ∧ decodeWords 0x046140A6 0 0 = .ok ⟨Mods.none, .fraiseUpcall 5 6, 8⟩
    ∧ (∃ e, decodeWords 0 0 0 = .error e) ∧ ∃ e, decodeWords 0x000000B2 0 0 = .error e

/-- R55 to R72: for every well-formed instruction that words spell, under every second word it may carry, decoding the words it is encoded in gives it
back: its fields, its guard, slot and mask, and its length. Rows that share their words are one instruction to the decoder (Instr.canon). -/
def Obligations.EncodeDecode : Prop :=
  ∀ (m : Mods) (i : Instr), i.coded = true → i.wellFormed = true → i.modsOk m = true →
    ∃ ws, encode m i = some ws ∧ decode (bytesOfWords ws) = .ok { mods := m, instr := i.canon, len := 4 * ws.length }

/-- R20, R55, R56, R64, R69, R358, R377, R381: a step of a running device whose turn is that of a frame whose streams stand together: the words at its pc,
read through its address space, decode to an instruction, and the step is exec of that instruction in the state in which it is issued, through its
wrapper if it has a second word, counted if it has issued (R362); words that do not decode raise the unassigned encoding. When the frame's access stream goes ahead (log 22), an
instruction of the execute stream is passed, and one of the access stream issues by exec at its own address. An instruction that waits beside the
streams is tried by exec with the registers that it took. The turn of another agent is exec of its step, that of a source of a local-store port its next
access (R162), unless a source has been passed over 64 times, which then moves first, and that of a posted write is DEVICE_REGISTER_WRITE (log 55), or in a partition switch a place in a spill buffer. The time goes on by one.
A device that is stopped, off or held takes no step. The agenda is the model's choice of order (log 2). -/
def Obligations.StepRunsDecoded : Prop :=
  ∀ (f id w0 w1 w2 : Nat) (rest : List Turn) (d : Decoded) (i : Instr) (e : DecodeError) (w : Work) (pa : BitVec 48) (v : Word) (s s1 : State),
    let up : Prop := s.dev.stopped = false ∧ s.dev.rails = 6 ∧ s.dev.released = true
    let s0 : State := { s with time := s.time + 1, agenda := rest }
    let c := s0.ctx f
    let runs : Prop := s.dev.halted = false ∧ s0.due = false
    let turn : Prop := up ∧ s.agenda = .issue f :: rest ∧ s0.canIssue f = true ∧ c.wait = none ∧ c.apc = none ∧ c.unissued = false ∧ c.st.gang = 0
      ∧ c.pc.toNat % 4 = 0 ∧ s0.fetch f = .ok ((w0, w1, w2), s1)
    let va := c.apc.getD c.pc
    let ahead : Prop := up ∧ s.agenda = .ahead f :: rest ∧ s0.canIssue f = true ∧ c.wait = none ∧ c.st.gang = 0 ∧ (c.win = [] → c.apc = none)
      ∧ va.toNat % 4 = 0 ∧ s0.fetchAt f va.toNat = .ok ((w0, w1, w2), s1) ∧ decodeWords w0 w1 w2 = .ok d
    let at_ : State := s1.mapCtx f fun c => { c with pc := va, wait := none, latch := none, win := [] }
    let free : Prop := together d.instr = false ∧ (∀ x ∈ (s1.ctx f).win, x.unresolved = false) ∧ (s1.ctx f).transferred d.mods d.instr = true
      ∧ (s1.ctx f).maskClear d.mods.wmask = true ∧ (s1.ctx f).slotsDue &&& waitSlots d.mods d.instr = 0 ∧ at_.blocked f d.mods d.instr = false
    (turn → decodeWords w0 w1 w2 = .ok d → s1.blocked f d.mods d.instr = false → d.mods = Mods.none →
        ∀ t, exec d.instr (s1.issued f d.mods d.instr d.len) = .next t → step s = .next (s1.countFirst t f))
      ∧ (turn → decodeWords w0 w1 w2 = .ok d → s1.blocked f d.mods d.instr = false → d.mods ≠ Mods.none →
          ∀ t, exec (.longForm d.mods) (s1.issued f d.mods d.instr d.len) = .next t →
            (t.c.go = true → ∀ r, exec d.instr { t with c := { t.c with go := false } } = .next r → step s = .next (s1.countFirst r f))
              ∧ (t.c.go = false → step s = .next (s1.countFirst t f)))
      ∧ (turn → decodeWords w0 w1 w2 = .error e →
          step s = exec (.unassignedEncoding (.ofNat 32 w0)) (s1.issued f Mods.none (.unassignedEncoding (.ofNat 32 w0)) 4))
      ∧ (ahead → accessStream d.instr = false → halts d.instr = false → step s = .next (s1.passExe f d va))
      ∧ (ahead → accessStream d.instr = false → halts d.instr = true → step s = .next s0)
      ∧ (ahead → accessStream d.instr = true → free → d.mods = Mods.none → besideDest d.instr = none →
          ∀ t, exec d.instr (at_.issued f d.mods d.instr d.len) = .next t → s1.accepts t f = true →
            step s = .next (if (s1.ctx f).win = [] ∧ (s1.ctx f).apc = none then t
              else s1.joinAhead t f d.instr d.mods va (va + .ofNat 64 d.len)))
      ∧ (up → s.agenda = .work f id :: rest → c.works.find? (·.id == id) = some w → w.wait.instr = some i → s0.canWork f w = true →
          ∀ t, exec i (s0.atWork f w) = .next t → step s = .next (s0.afterWork (t.countLater f w.wait) f w))
      ∧ (∀ n k, up → s.agenda = .event i :: rest → s.latePort = some (n, k) → step s = exec (.lsPortPassover n k) { s with time := s.time + 1 })
      ∧ (up → s.agenda = .event i :: rest → s.latePort = none → (outside i = true ∨ runs ∨ s.dev.halted = false ∧ i = .partitionHalt) → step s = exec i s0)
      ∧ (∀ core source, up → s.agenda = .port core source :: rest → runs → step s = (firstEvent s0 (s0.lsNext core source)).getD (.next s0))
      ∧ (∀ n, up → s.agenda = .perform f n :: rest → step s = exec (.scoreboardDecrement f n) s0)
      ∧ (up → s.agenda = .posted pa v :: rest → runs → step s = exec (.deviceRegisterWrite pa v) s0)
      ∧ (up → s.agenda = .posted pa v :: rest → ¬runs → step s = .next { s0 with dev := { s.dev with spill := s.dev.spill ++ [(pa, v)] } })
      ∧ (¬up → (∀ r, s.agenda ≠ .event .bringUp :: r) → (∀ r, s.agenda ≠ .event .supplyRemoval :: r) → step s = .fault .deviceStopped)

/-- The memory keeps its canonical form, addresses rising and no byte listed that is an unlisted byte's (log 9), in every step. -/
def Obligations.MemoryCanonical : Prop := ∀ s t : State, Memory.wf s.mem = true → step s = .next t → Memory.wf t.mem = true

/-- R18, R30, R88, R91, R93, R94, R129, R158, R199, R357, R358: the device at reset: no context of a core runs, the umpires' are in supervisor mode, the registers, slots, masks and control registers
hold the values the spec gives them, every port is unbound, no lane group is held, the counters and the timestamp are 0, and the caches and tables are empty. The model's choices, which no rule
states: memory lists nothing (log 9), cr.asid is 0 (log 11), every granule is empty at power-on (log 13), and the scopes are those of a device that finds no partner on its Criras planes (log 15). -/
def Obligations.ResetState : Prop :=
  ∀ (f n : Nat) (i : XReg) (j : AReg) (q : PReg) (m : KReg) (sl : Slot),
    let s := State.reset
    let c := s.ctx f
    let k := s.core n
    (f < 5632 → c.live = false ∧ c.st.sup = false ∧ c.apc = none ∧ c.win = [] ∧ c.works = []) ∧ (f < 4 → (s.ctx (umpireFrame f)).st.sup = true)
      ∧ Memory.wf s.mem = true ∧ c.getX i = 0 ∧ c.getA j = 0 ∧ (c.getP q = true ↔ q = 0) ∧ (m ≠ 0 → c.getK m = 0) ∧ c.sb[sl] = 0
      ∧ c.grant = 0 ∧ c.st.upc = false ∧ c.cr.fctl = 0 ∧ c.cr.fflags = 0 ∧ c.cr.ptmo = 0x10000 ∧ c.cr.xltmo = 0x10000
      ∧ c.cr.ringhole = 0x100000 ∧ c.cr.replaylim = 4 ∧ c.cr.upcall = 0 ∧ c.cr.asid = 0 ∧ c.cr.egheap = 0 ∧ k.ports = [] ∧ k.full = [] ∧ k.wdlim = 0x80000000
      ∧ k.frozen = false ∧ k.fenced = false ∧ k.pIssued = 0 ∧ (s.clu n).vc = 0 ∧ (s.clu n).lanesFree.length = 32 ∧ (s.die n).vd = 0
      ∧ (s.die n).pSoft = 0 ∧ s.dev.rails = 6 ∧ s.dev.spill = [] ∧ s.dev.scopes = [0, 0x128, 0xE50, 0x170, 0x98, 0xB8] ∧ s.time = 0 ∧ s.l1 = [] ∧ s.l2 = [] ∧ s.tlb = [] ∧ s.launches = [] ∧ s.teams = []
end

