-- ==== Sys2Proof/Laws/Memory.lean ====
section
/-! SUPPORT. Plain memory: every write keeps the canonical form, and what each byte reads as after it. -/

namespace Sys2Proof.Machine

open Sys2Proof

/-! The canonical form. -/

theorem Memory.wfFrom_nil (lo : Nat) : Memory.wfFrom lo [] = true := rfl

theorem Memory.wfFrom_cons {lo k : Nat} {v : Byte} {t : Memory} :
    Memory.wfFrom lo ((k, v) :: t) = true ↔ lo ≤ k ∧ v ≠ Memory.unlisted ∧ Memory.wfFrom (k + 1) t = true := by
  simp [Memory.wfFrom, and_assoc]

theorem Memory.wfFrom_mono {lo lo' : Nat} {m : Memory} (h : lo' ≤ lo) (w : Memory.wfFrom lo m = true) : Memory.wfFrom lo' m = true := by
  cases m with
  | nil => rfl
  | cons c t =>
    obtain ⟨k, v⟩ := c
    rw [Memory.wfFrom_cons] at w ⊢
    exact ⟨h.trans w.1, w.2⟩

theorem Memory.wf_nil : Memory.wf [] = true := rfl

/-- Every byte set keeps the form, from a bound not above its address. -/
theorem Memory.wfFrom_set {m : Memory} : ∀ {lo n : Nat} (v : Byte), lo ≤ n → Memory.wfFrom lo m = true → Memory.wfFrom lo (m.set n v) = true := by
  induction m with
  | nil =>
    intro lo n v h _
    by_cases hv : v = Memory.unlisted <;> simp [Memory.set, hv, Memory.wfFrom, h]
  | cons c t ih =>
    intro lo n v h w
    obtain ⟨k, x⟩ := c
    rw [Memory.wfFrom_cons] at w
    obtain ⟨w1, w2, w3⟩ := w
    simp only [Memory.set]
    split
    · split
      · exact Memory.wfFrom_cons.2 ⟨w1, w2, w3⟩
      · exact Memory.wfFrom_cons.2 ⟨h, ‹_›, Memory.wfFrom_cons.2 ⟨by omega, w2, w3⟩⟩
    · split
      · split
        · exact Memory.wfFrom_mono (by omega) w3
        · exact Memory.wfFrom_cons.2 ⟨h, ‹_›, by subst n; exact w3⟩
      · exact Memory.wfFrom_cons.2 ⟨w1, w2, ih v (by omega) w3⟩

theorem Memory.wf_set {m : Memory} (n : Nat) (v : Byte) (w : m.wf = true) : (m.set n v).wf = true := Memory.wfFrom_set v (Nat.zero_le n) w

theorem Memory.wf_write {m : Memory} (p n v : Nat) (w : m.wf = true) : (m.write p n v).wf = true := by
  induction n generalizing m p v with
  | zero => exact w
  | succ n ih => exact ih _ _ (Memory.wf_set _ _ w)

theorem Memory.wf_writeBytes {m : Memory} (p : Nat) (vs : List Byte) (w : m.wf = true) : (m.writeBytes p vs).wf = true := by
  induction vs generalizing m p with
  | nil => exact w
  | cons v vs ih => exact ih _ (Memory.wf_set _ _ w)

theorem Memory.wf_writeMasked {m : Memory} (p : Nat) (d : BitVec 512) (k : BitVec 64) (n : Nat) (w : m.wf = true) : (m.writeMasked p d k n).wf = true := by
  induction n with
  | zero => exact w
  | succ n ih =>
    simp only [Memory.writeMasked]
    split
    · exact Memory.wf_set _ _ ih
    · exact ih

/-- Keeping the bytes of some addresses keeps the form. -/
theorem Memory.wfFrom_filter (p : Host.Cell → Bool) {m : Memory} : ∀ {lo : Nat}, Memory.wfFrom lo m = true → Memory.wfFrom lo (m.filter p) = true := by
  induction m with
  | nil => intro lo _; rfl
  | cons c t ih =>
    intro lo w
    obtain ⟨k, v⟩ := c
    rw [Memory.wfFrom_cons] at w
    simp only [List.filter_cons]
    split
    · exact Memory.wfFrom_cons.2 ⟨w.1, w.2.1, ih w.2.2⟩
    · exact Memory.wfFrom_mono (by omega) (ih w.2.2)

theorem Memory.wf_filter (p : Host.Cell → Bool) {m : Memory} (w : m.wf = true) : Memory.wf (m.filter p) = true := Memory.wfFrom_filter p w

/-! One byte. -/

/-- Below the bound of a canonical memory nothing is listed. -/
theorem Memory.get_below {m : Memory} {lo n : Nat} (w : Memory.wfFrom lo m = true) (h : n < lo) : m.get n = Memory.unlisted := by
  cases m with
  | nil => rfl
  | cons c t =>
    obtain ⟨k, v⟩ := c
    rw [Memory.wfFrom_cons] at w
    simp only [Memory.get, if_neg (show k ≠ n by omega), if_pos (show n < k by omega)]

theorem Memory.get_set_same {m : Memory} : ∀ {lo : Nat} (n : Nat) (v : Byte), Memory.wfFrom lo m = true → (m.set n v).get n = v := by
  induction m with
  | nil =>
    intro lo n v _
    by_cases hv : v = Memory.unlisted <;> simp [Memory.set, hv, Memory.get]
  | cons c t ih =>
    intro lo n v w
    obtain ⟨k, x⟩ := c
    rw [Memory.wfFrom_cons] at w
    simp only [Memory.set]
    split
    · split
      · rename_i h hv
        simp only [Memory.get, if_neg (show k ≠ n by omega), if_pos h, hv]
      · simp [Memory.get]
    · split
      · rename_i h1 h2
        split
        · rename_i hv
          rw [hv]; exact Memory.get_below w.2.2 (by omega)
        · simp [Memory.get]
      · rename_i h1 h2
        simp only [Memory.get, if_neg (show k ≠ n by omega), if_neg (show ¬n < k by omega)]
        exact ih n v w.2.2

theorem Memory.get_set_other {m : Memory} : ∀ {lo : Nat} {n q : Nat} (v : Byte), Memory.wfFrom lo m = true → q ≠ n → (m.set n v).get q = m.get q := by
  induction m with
  | nil =>
    intro lo n q v _ h
    by_cases hv : v = Memory.unlisted
    · simp [Memory.set, hv]
    · simp only [Memory.set, hv, if_false, Memory.get, if_neg (Ne.symm h)]
      split <;> rfl
  | cons c t ih =>
    intro lo n q v w h
    obtain ⟨k, x⟩ := c
    rw [Memory.wfFrom_cons] at w
    simp only [Memory.set]
    split
    · rename_i hk
      split
      · rfl
      · conv_lhs => rw [Memory.get]
        rw [if_neg (Ne.symm h)]
        split
        · rw [Memory.get, if_neg (show k ≠ q by omega), if_pos (show q < k by omega)]
        · rfl
    · split
      · rename_i h1 h2
        subst h2
        split
        · rw [Memory.get, if_neg (Ne.symm h)]
          split
          · exact Memory.get_below w.2.2 (by omega)
          · rfl
        · simp only [Memory.get, if_neg (Ne.symm h)]
      · simp only [Memory.get]
        split
        · rfl
        · split
          · rfl
          · exact ih v w.2.2 h

/-- A byte after one byte is set. -/
theorem Memory.get_set {m : Memory} (n q : Nat) (v : Byte) (w : m.wf = true) : (m.set n v).get q = if q = n then v else m.get q := by
  split
  · subst q; exact Memory.get_set_same n v w
  · exact Memory.get_set_other v w ‹_›

/-! Runs of bytes. -/

theorem Memory.get_writeBytes {m : Memory} (p q : Nat) (vs : List Byte) (w : m.wf = true) :
    (m.writeBytes p vs).get q = if h : p ≤ q ∧ q < p + vs.length then vs[q - p]'(by omega) else m.get q := by
  induction vs generalizing m p with
  | nil => simp [Memory.writeBytes]
  | cons v vs ih =>
    rw [Memory.writeBytes, ih _ (Memory.wf_set _ _ w), Memory.get_set _ _ _ w]
    by_cases h : p + 1 ≤ q ∧ q < p + 1 + vs.length
    · have e : q - p = (q - (p + 1)) + 1 := by omega
      rw [dif_pos h, dif_pos ⟨by omega, by simp; omega⟩]
      simp [e]
    · rw [dif_neg h]
      by_cases e : q = p
      · subst e
        rw [if_pos rfl, dif_pos ⟨by omega, by simp⟩]; simp
      · rw [if_neg e, dif_neg (by simp; omega)]

theorem Memory.get_write_other {m : Memory} {p n q : Nat} (v : Nat) (w : m.wf = true) (h : q < p ∨ p + n ≤ q) : (m.write p n v).get q = m.get q := by
  induction n generalizing m p v with
  | zero => rfl
  | succ n ih => rw [Memory.write, ih _ (Memory.wf_set _ _ w) (by omega), Memory.get_set _ _ _ w, if_neg (by omega)]

theorem Memory.get_write {m : Memory} {p n q : Nat} (v : Nat) (w : m.wf = true) (h : p ≤ q) (h' : q < p + n) :
    (m.write p n v).get q = .ofNat 8 (v / 256 ^ (q - p)) := by
  induction n generalizing m p v with
  | zero => omega
  | succ n ih =>
    rw [Memory.write]
    by_cases e : q = p
    · subst e
      rw [Memory.get_write_other _ (Memory.wf_set _ _ w) (by omega), Memory.get_set _ _ _ w]; simp
    · rw [ih _ (Memory.wf_set _ _ w) (by omega) (by omega), Nat.div_div_eq_div_mul, ← Nat.pow_succ', show (q - (p + 1)).succ = q - p by omega]

/-- A number is read from the bytes it reads alone. -/
theorem Memory.read_congr {m m' : Memory} {p n : Nat} (h : ∀ k, k < n → m.get (p + k) = m'.get (p + k)) : m.read p n = m'.read p n := by
  induction n generalizing p with
  | zero => rfl
  | succ n ih =>
    rw [Memory.read, Memory.read, show m.get p = m'.get p from h 0 (by omega), ih fun k hk => by
      have := h (k + 1) (by omega)
      rwa [show p + (k + 1) = p + 1 + k by omega] at this]

theorem Memory.read_lt (m : Memory) (p n : Nat) : m.read p n < 256 ^ n := by
  induction n generalizing p with
  | zero => simp [Memory.read]
  | succ n ih =>
    have := ih (p + 1)
    have b := (m.get p).isLt
    rw [Memory.read, Nat.pow_succ]
    omega

theorem Memory.length_readBytes (m : Memory) (p n : Nat) : (m.readBytes p n).length = n := by
  induction n generalizing p with
  | zero => rfl
  | succ n ih => simp [Memory.readBytes, ih]

theorem Memory.getElem_readBytes (m : Memory) (p n k : Nat) (h : k < (m.readBytes p n).length) : (m.readBytes p n)[k] = m.get (p + k) := by
  induction n generalizing p k with
  | zero => simp [Memory.readBytes] at h
  | succ n ih =>
    cases k with
    | zero => rfl
    | succ k =>
      have := ih (p + 1) k (by simp [Memory.readBytes] at h ⊢; omega)
      simp only [Memory.readBytes, List.getElem_cons_succ]
      rw [this]; congr 1; omega

/-! A masked line. -/

theorem Memory.get_writeMasked {m : Memory} (p q : Nat) (d : BitVec 512) (k : BitVec 64) (n : Nat) (w : m.wf = true) :
    (m.writeMasked p d k n).get q = if p ≤ q ∧ q < p + n ∧ k.getLsbD (q - p) = true then d.extractLsb' (8 * (q - p)) 8 else m.get q := by
  induction n with
  | zero => simp only [Memory.writeMasked]; rw [if_neg (by omega)]
  | succ n ih =>
    simp only [Memory.writeMasked]
    by_cases e : q = p + n
    · subst e
      split
      · rename_i hk
        rw [Memory.get_set _ _ _ (Memory.wf_writeMasked _ _ _ _ w), if_pos rfl, if_pos ⟨by omega, by omega, by simpa using hk⟩]; simp
      · rename_i hk
        rw [ih, if_neg (by omega), if_neg (by simpa using hk)]
    · have : (p ≤ q ∧ q < p + (n + 1) ∧ k.getLsbD (q - p) = true) ↔ (p ≤ q ∧ q < p + n ∧ k.getLsbD (q - p) = true) := by
        constructor <;> rintro ⟨h, h', h''⟩ <;> exact ⟨h, by omega, h''⟩
      split
      · rw [Memory.get_set _ _ _ (Memory.wf_writeMasked _ _ _ _ w), if_neg e, ih]; simp only [this]
      · rw [ih]; simp only [this]

end Sys2Proof.Machine
end

