-- ==== Sys2Proof/Laws/State.lean ====
section
/-! SUPPORT. Every field after every named update of a state and of a context, so that a proof unfolds no update. -/

namespace Sys2Proof.Machine

open Sys2Proof


/-! State.setCore. -/

@[simp] theorem State.setCore_c (s : State) (n : Nat) (v : CoreSt) : (s.setCore n v).c = s.c := rfl
@[simp] theorem State.setCore_self (s : State) (n : Nat) (v : CoreSt) : (s.setCore n v).self = s.self := rfl
@[simp] theorem State.setCore_frames (s : State) (n : Nat) (v : CoreSt) : (s.setCore n v).frames = s.frames := rfl
@[simp] theorem State.setCore_cores (s : State) (n : Nat) (v : CoreSt) : (s.setCore n v).cores = tset s.cores n v := rfl
@[simp] theorem State.setCore_clus (s : State) (n : Nat) (v : CoreSt) : (s.setCore n v).clus = s.clus := rfl
@[simp] theorem State.setCore_dies (s : State) (n : Nat) (v : CoreSt) : (s.setCore n v).dies = s.dies := rfl
@[simp] theorem State.setCore_dev (s : State) (n : Nat) (v : CoreSt) : (s.setCore n v).dev = s.dev := rfl
@[simp] theorem State.setCore_mem (s : State) (n : Nat) (v : CoreSt) : (s.setCore n v).mem = s.mem := rfl
@[simp] theorem State.setCore_poison (s : State) (n : Nat) (v : CoreSt) : (s.setCore n v).poison = s.poison := rfl
@[simp] theorem State.setCore_homes (s : State) (n : Nat) (v : CoreSt) : (s.setCore n v).homes = s.homes := rfl
@[simp] theorem State.setCore_l1 (s : State) (n : Nat) (v : CoreSt) : (s.setCore n v).l1 = s.l1 := rfl
@[simp] theorem State.setCore_l2 (s : State) (n : Nat) (v : CoreSt) : (s.setCore n v).l2 = s.l2 := rfl
@[simp] theorem State.setCore_tlb (s : State) (n : Nat) (v : CoreSt) : (s.setCore n v).tlb = s.tlb := rfl
@[simp] theorem State.setCore_launches (s : State) (n : Nat) (v : CoreSt) : (s.setCore n v).launches = s.launches := rfl
@[simp] theorem State.setCore_teams (s : State) (n : Nat) (v : CoreSt) : (s.setCore n v).teams = s.teams := rfl
@[simp] theorem State.setCore_bars (s : State) (n : Nat) (v : CoreSt) : (s.setCore n v).bars = s.bars := rfl
@[simp] theorem State.setCore_dqs (s : State) (n : Nat) (v : CoreSt) : (s.setCore n v).dqs = s.dqs := rfl
@[simp] theorem State.setCore_rings (s : State) (n : Nat) (v : CoreSt) : (s.setCore n v).rings = s.rings := rfl
@[simp] theorem State.setCore_futs (s : State) (n : Nat) (v : CoreSt) : (s.setCore n v).futs = s.futs := rfl
@[simp] theorem State.setCore_books (s : State) (n : Nat) (v : CoreSt) : (s.setCore n v).books = s.books := rfl
@[simp] theorem State.setCore_heaps (s : State) (n : Nat) (v : CoreSt) : (s.setCore n v).heaps = s.heaps := rfl
@[simp] theorem State.setCore_dugouts (s : State) (n : Nat) (v : CoreSt) : (s.setCore n v).dugouts = s.dugouts := rfl
@[simp] theorem State.setCore_out (s : State) (n : Nat) (v : CoreSt) : (s.setCore n v).out = s.out := rfl
@[simp] theorem State.setCore_time (s : State) (n : Nat) (v : CoreSt) : (s.setCore n v).time = s.time := rfl
@[simp] theorem State.setCore_nextId (s : State) (n : Nat) (v : CoreSt) : (s.setCore n v).nextId = s.nextId := rfl
@[simp] theorem State.setCore_agenda (s : State) (n : Nat) (v : CoreSt) : (s.setCore n v).agenda = s.agenda := rfl
@[simp] theorem State.setCore_fresh (s : State) (n : Nat) (v : CoreSt) : (s.setCore n v).fresh = s.fresh := rfl

/-! State.setClu. -/

@[simp] theorem State.setClu_c (s : State) (n : Nat) (v : CluSt) : (s.setClu n v).c = s.c := rfl
@[simp] theorem State.setClu_self (s : State) (n : Nat) (v : CluSt) : (s.setClu n v).self = s.self := rfl
@[simp] theorem State.setClu_frames (s : State) (n : Nat) (v : CluSt) : (s.setClu n v).frames = s.frames := rfl
@[simp] theorem State.setClu_cores (s : State) (n : Nat) (v : CluSt) : (s.setClu n v).cores = s.cores := rfl
@[simp] theorem State.setClu_clus (s : State) (n : Nat) (v : CluSt) : (s.setClu n v).clus = tset s.clus n v := rfl
@[simp] theorem State.setClu_dies (s : State) (n : Nat) (v : CluSt) : (s.setClu n v).dies = s.dies := rfl
@[simp] theorem State.setClu_dev (s : State) (n : Nat) (v : CluSt) : (s.setClu n v).dev = s.dev := rfl
@[simp] theorem State.setClu_mem (s : State) (n : Nat) (v : CluSt) : (s.setClu n v).mem = s.mem := rfl
@[simp] theorem State.setClu_poison (s : State) (n : Nat) (v : CluSt) : (s.setClu n v).poison = s.poison := rfl
@[simp] theorem State.setClu_homes (s : State) (n : Nat) (v : CluSt) : (s.setClu n v).homes = s.homes := rfl
@[simp] theorem State.setClu_l1 (s : State) (n : Nat) (v : CluSt) : (s.setClu n v).l1 = s.l1 := rfl
@[simp] theorem State.setClu_l2 (s : State) (n : Nat) (v : CluSt) : (s.setClu n v).l2 = s.l2 := rfl
@[simp] theorem State.setClu_tlb (s : State) (n : Nat) (v : CluSt) : (s.setClu n v).tlb = s.tlb := rfl
@[simp] theorem State.setClu_launches (s : State) (n : Nat) (v : CluSt) : (s.setClu n v).launches = s.launches := rfl
@[simp] theorem State.setClu_teams (s : State) (n : Nat) (v : CluSt) : (s.setClu n v).teams = s.teams := rfl
@[simp] theorem State.setClu_bars (s : State) (n : Nat) (v : CluSt) : (s.setClu n v).bars = s.bars := rfl
@[simp] theorem State.setClu_dqs (s : State) (n : Nat) (v : CluSt) : (s.setClu n v).dqs = s.dqs := rfl
@[simp] theorem State.setClu_rings (s : State) (n : Nat) (v : CluSt) : (s.setClu n v).rings = s.rings := rfl
@[simp] theorem State.setClu_futs (s : State) (n : Nat) (v : CluSt) : (s.setClu n v).futs = s.futs := rfl
@[simp] theorem State.setClu_books (s : State) (n : Nat) (v : CluSt) : (s.setClu n v).books = s.books := rfl
@[simp] theorem State.setClu_heaps (s : State) (n : Nat) (v : CluSt) : (s.setClu n v).heaps = s.heaps := rfl
@[simp] theorem State.setClu_dugouts (s : State) (n : Nat) (v : CluSt) : (s.setClu n v).dugouts = s.dugouts := rfl
@[simp] theorem State.setClu_out (s : State) (n : Nat) (v : CluSt) : (s.setClu n v).out = s.out := rfl
@[simp] theorem State.setClu_time (s : State) (n : Nat) (v : CluSt) : (s.setClu n v).time = s.time := rfl
@[simp] theorem State.setClu_nextId (s : State) (n : Nat) (v : CluSt) : (s.setClu n v).nextId = s.nextId := rfl
@[simp] theorem State.setClu_agenda (s : State) (n : Nat) (v : CluSt) : (s.setClu n v).agenda = s.agenda := rfl
@[simp] theorem State.setClu_fresh (s : State) (n : Nat) (v : CluSt) : (s.setClu n v).fresh = s.fresh := rfl

/-! State.setDie. -/

@[simp] theorem State.setDie_c (s : State) (n : Nat) (v : DieSt) : (s.setDie n v).c = s.c := rfl
@[simp] theorem State.setDie_self (s : State) (n : Nat) (v : DieSt) : (s.setDie n v).self = s.self := rfl
@[simp] theorem State.setDie_frames (s : State) (n : Nat) (v : DieSt) : (s.setDie n v).frames = s.frames := rfl
@[simp] theorem State.setDie_cores (s : State) (n : Nat) (v : DieSt) : (s.setDie n v).cores = s.cores := rfl
@[simp] theorem State.setDie_clus (s : State) (n : Nat) (v : DieSt) : (s.setDie n v).clus = s.clus := rfl
@[simp] theorem State.setDie_dies (s : State) (n : Nat) (v : DieSt) : (s.setDie n v).dies = tset s.dies n v := rfl
@[simp] theorem State.setDie_dev (s : State) (n : Nat) (v : DieSt) : (s.setDie n v).dev = s.dev := rfl
@[simp] theorem State.setDie_mem (s : State) (n : Nat) (v : DieSt) : (s.setDie n v).mem = s.mem := rfl
@[simp] theorem State.setDie_poison (s : State) (n : Nat) (v : DieSt) : (s.setDie n v).poison = s.poison := rfl
@[simp] theorem State.setDie_homes (s : State) (n : Nat) (v : DieSt) : (s.setDie n v).homes = s.homes := rfl
@[simp] theorem State.setDie_l1 (s : State) (n : Nat) (v : DieSt) : (s.setDie n v).l1 = s.l1 := rfl
@[simp] theorem State.setDie_l2 (s : State) (n : Nat) (v : DieSt) : (s.setDie n v).l2 = s.l2 := rfl
@[simp] theorem State.setDie_tlb (s : State) (n : Nat) (v : DieSt) : (s.setDie n v).tlb = s.tlb := rfl
@[simp] theorem State.setDie_launches (s : State) (n : Nat) (v : DieSt) : (s.setDie n v).launches = s.launches := rfl
@[simp] theorem State.setDie_teams (s : State) (n : Nat) (v : DieSt) : (s.setDie n v).teams = s.teams := rfl
@[simp] theorem State.setDie_bars (s : State) (n : Nat) (v : DieSt) : (s.setDie n v).bars = s.bars := rfl
@[simp] theorem State.setDie_dqs (s : State) (n : Nat) (v : DieSt) : (s.setDie n v).dqs = s.dqs := rfl
@[simp] theorem State.setDie_rings (s : State) (n : Nat) (v : DieSt) : (s.setDie n v).rings = s.rings := rfl
@[simp] theorem State.setDie_futs (s : State) (n : Nat) (v : DieSt) : (s.setDie n v).futs = s.futs := rfl
@[simp] theorem State.setDie_books (s : State) (n : Nat) (v : DieSt) : (s.setDie n v).books = s.books := rfl
@[simp] theorem State.setDie_heaps (s : State) (n : Nat) (v : DieSt) : (s.setDie n v).heaps = s.heaps := rfl
@[simp] theorem State.setDie_dugouts (s : State) (n : Nat) (v : DieSt) : (s.setDie n v).dugouts = s.dugouts := rfl
@[simp] theorem State.setDie_out (s : State) (n : Nat) (v : DieSt) : (s.setDie n v).out = s.out := rfl
@[simp] theorem State.setDie_time (s : State) (n : Nat) (v : DieSt) : (s.setDie n v).time = s.time := rfl
@[simp] theorem State.setDie_nextId (s : State) (n : Nat) (v : DieSt) : (s.setDie n v).nextId = s.nextId := rfl
@[simp] theorem State.setDie_agenda (s : State) (n : Nat) (v : DieSt) : (s.setDie n v).agenda = s.agenda := rfl
@[simp] theorem State.setDie_fresh (s : State) (n : Nat) (v : DieSt) : (s.setDie n v).fresh = s.fresh := rfl

/-! State.mapCore. -/

@[simp] theorem State.mapCore_c (s : State) (n : Nat) (g : CoreSt → CoreSt) : (s.mapCore n g).c = s.c := rfl
@[simp] theorem State.mapCore_self (s : State) (n : Nat) (g : CoreSt → CoreSt) : (s.mapCore n g).self = s.self := rfl
@[simp] theorem State.mapCore_frames (s : State) (n : Nat) (g : CoreSt → CoreSt) : (s.mapCore n g).frames = s.frames := rfl
@[simp] theorem State.mapCore_cores (s : State) (n : Nat) (g : CoreSt → CoreSt) : (s.mapCore n g).cores = tset s.cores n (g (s.core n)) := rfl
@[simp] theorem State.mapCore_clus (s : State) (n : Nat) (g : CoreSt → CoreSt) : (s.mapCore n g).clus = s.clus := rfl
@[simp] theorem State.mapCore_dies (s : State) (n : Nat) (g : CoreSt → CoreSt) : (s.mapCore n g).dies = s.dies := rfl
@[simp] theorem State.mapCore_dev (s : State) (n : Nat) (g : CoreSt → CoreSt) : (s.mapCore n g).dev = s.dev := rfl
@[simp] theorem State.mapCore_mem (s : State) (n : Nat) (g : CoreSt → CoreSt) : (s.mapCore n g).mem = s.mem := rfl
@[simp] theorem State.mapCore_poison (s : State) (n : Nat) (g : CoreSt → CoreSt) : (s.mapCore n g).poison = s.poison := rfl
@[simp] theorem State.mapCore_homes (s : State) (n : Nat) (g : CoreSt → CoreSt) : (s.mapCore n g).homes = s.homes := rfl
@[simp] theorem State.mapCore_l1 (s : State) (n : Nat) (g : CoreSt → CoreSt) : (s.mapCore n g).l1 = s.l1 := rfl
@[simp] theorem State.mapCore_l2 (s : State) (n : Nat) (g : CoreSt → CoreSt) : (s.mapCore n g).l2 = s.l2 := rfl
@[simp] theorem State.mapCore_tlb (s : State) (n : Nat) (g : CoreSt → CoreSt) : (s.mapCore n g).tlb = s.tlb := rfl
@[simp] theorem State.mapCore_launches (s : State) (n : Nat) (g : CoreSt → CoreSt) : (s.mapCore n g).launches = s.launches := rfl
@[simp] theorem State.mapCore_teams (s : State) (n : Nat) (g : CoreSt → CoreSt) : (s.mapCore n g).teams = s.teams := rfl
@[simp] theorem State.mapCore_bars (s : State) (n : Nat) (g : CoreSt → CoreSt) : (s.mapCore n g).bars = s.bars := rfl
@[simp] theorem State.mapCore_dqs (s : State) (n : Nat) (g : CoreSt → CoreSt) : (s.mapCore n g).dqs = s.dqs := rfl
@[simp] theorem State.mapCore_rings (s : State) (n : Nat) (g : CoreSt → CoreSt) : (s.mapCore n g).rings = s.rings := rfl
@[simp] theorem State.mapCore_futs (s : State) (n : Nat) (g : CoreSt → CoreSt) : (s.mapCore n g).futs = s.futs := rfl
@[simp] theorem State.mapCore_books (s : State) (n : Nat) (g : CoreSt → CoreSt) : (s.mapCore n g).books = s.books := rfl
@[simp] theorem State.mapCore_heaps (s : State) (n : Nat) (g : CoreSt → CoreSt) : (s.mapCore n g).heaps = s.heaps := rfl
@[simp] theorem State.mapCore_dugouts (s : State) (n : Nat) (g : CoreSt → CoreSt) : (s.mapCore n g).dugouts = s.dugouts := rfl
@[simp] theorem State.mapCore_out (s : State) (n : Nat) (g : CoreSt → CoreSt) : (s.mapCore n g).out = s.out := rfl
@[simp] theorem State.mapCore_time (s : State) (n : Nat) (g : CoreSt → CoreSt) : (s.mapCore n g).time = s.time := rfl
@[simp] theorem State.mapCore_nextId (s : State) (n : Nat) (g : CoreSt → CoreSt) : (s.mapCore n g).nextId = s.nextId := rfl
@[simp] theorem State.mapCore_agenda (s : State) (n : Nat) (g : CoreSt → CoreSt) : (s.mapCore n g).agenda = s.agenda := rfl
@[simp] theorem State.mapCore_fresh (s : State) (n : Nat) (g : CoreSt → CoreSt) : (s.mapCore n g).fresh = s.fresh := rfl

/-! State.mapClu. -/

@[simp] theorem State.mapClu_c (s : State) (n : Nat) (g : CluSt → CluSt) : (s.mapClu n g).c = s.c := rfl
@[simp] theorem State.mapClu_self (s : State) (n : Nat) (g : CluSt → CluSt) : (s.mapClu n g).self = s.self := rfl
@[simp] theorem State.mapClu_frames (s : State) (n : Nat) (g : CluSt → CluSt) : (s.mapClu n g).frames = s.frames := rfl
@[simp] theorem State.mapClu_cores (s : State) (n : Nat) (g : CluSt → CluSt) : (s.mapClu n g).cores = s.cores := rfl
@[simp] theorem State.mapClu_clus (s : State) (n : Nat) (g : CluSt → CluSt) : (s.mapClu n g).clus = tset s.clus n (g (s.clu n)) := rfl
@[simp] theorem State.mapClu_dies (s : State) (n : Nat) (g : CluSt → CluSt) : (s.mapClu n g).dies = s.dies := rfl
@[simp] theorem State.mapClu_dev (s : State) (n : Nat) (g : CluSt → CluSt) : (s.mapClu n g).dev = s.dev := rfl
@[simp] theorem State.mapClu_mem (s : State) (n : Nat) (g : CluSt → CluSt) : (s.mapClu n g).mem = s.mem := rfl
@[simp] theorem State.mapClu_poison (s : State) (n : Nat) (g : CluSt → CluSt) : (s.mapClu n g).poison = s.poison := rfl
@[simp] theorem State.mapClu_homes (s : State) (n : Nat) (g : CluSt → CluSt) : (s.mapClu n g).homes = s.homes := rfl
@[simp] theorem State.mapClu_l1 (s : State) (n : Nat) (g : CluSt → CluSt) : (s.mapClu n g).l1 = s.l1 := rfl
@[simp] theorem State.mapClu_l2 (s : State) (n : Nat) (g : CluSt → CluSt) : (s.mapClu n g).l2 = s.l2 := rfl
@[simp] theorem State.mapClu_tlb (s : State) (n : Nat) (g : CluSt → CluSt) : (s.mapClu n g).tlb = s.tlb := rfl
@[simp] theorem State.mapClu_launches (s : State) (n : Nat) (g : CluSt → CluSt) : (s.mapClu n g).launches = s.launches := rfl
@[simp] theorem State.mapClu_teams (s : State) (n : Nat) (g : CluSt → CluSt) : (s.mapClu n g).teams = s.teams := rfl
@[simp] theorem State.mapClu_bars (s : State) (n : Nat) (g : CluSt → CluSt) : (s.mapClu n g).bars = s.bars := rfl
@[simp] theorem State.mapClu_dqs (s : State) (n : Nat) (g : CluSt → CluSt) : (s.mapClu n g).dqs = s.dqs := rfl
@[simp] theorem State.mapClu_rings (s : State) (n : Nat) (g : CluSt → CluSt) : (s.mapClu n g).rings = s.rings := rfl
@[simp] theorem State.mapClu_futs (s : State) (n : Nat) (g : CluSt → CluSt) : (s.mapClu n g).futs = s.futs := rfl
@[simp] theorem State.mapClu_books (s : State) (n : Nat) (g : CluSt → CluSt) : (s.mapClu n g).books = s.books := rfl
@[simp] theorem State.mapClu_heaps (s : State) (n : Nat) (g : CluSt → CluSt) : (s.mapClu n g).heaps = s.heaps := rfl
@[simp] theorem State.mapClu_dugouts (s : State) (n : Nat) (g : CluSt → CluSt) : (s.mapClu n g).dugouts = s.dugouts := rfl
@[simp] theorem State.mapClu_out (s : State) (n : Nat) (g : CluSt → CluSt) : (s.mapClu n g).out = s.out := rfl
@[simp] theorem State.mapClu_time (s : State) (n : Nat) (g : CluSt → CluSt) : (s.mapClu n g).time = s.time := rfl
@[simp] theorem State.mapClu_nextId (s : State) (n : Nat) (g : CluSt → CluSt) : (s.mapClu n g).nextId = s.nextId := rfl
@[simp] theorem State.mapClu_agenda (s : State) (n : Nat) (g : CluSt → CluSt) : (s.mapClu n g).agenda = s.agenda := rfl
@[simp] theorem State.mapClu_fresh (s : State) (n : Nat) (g : CluSt → CluSt) : (s.mapClu n g).fresh = s.fresh := rfl

/-! State.mapDie. -/

@[simp] theorem State.mapDie_c (s : State) (n : Nat) (g : DieSt → DieSt) : (s.mapDie n g).c = s.c := rfl
@[simp] theorem State.mapDie_self (s : State) (n : Nat) (g : DieSt → DieSt) : (s.mapDie n g).self = s.self := rfl
@[simp] theorem State.mapDie_frames (s : State) (n : Nat) (g : DieSt → DieSt) : (s.mapDie n g).frames = s.frames := rfl
@[simp] theorem State.mapDie_cores (s : State) (n : Nat) (g : DieSt → DieSt) : (s.mapDie n g).cores = s.cores := rfl
@[simp] theorem State.mapDie_clus (s : State) (n : Nat) (g : DieSt → DieSt) : (s.mapDie n g).clus = s.clus := rfl
@[simp] theorem State.mapDie_dies (s : State) (n : Nat) (g : DieSt → DieSt) : (s.mapDie n g).dies = tset s.dies n (g (s.die n)) := rfl
@[simp] theorem State.mapDie_dev (s : State) (n : Nat) (g : DieSt → DieSt) : (s.mapDie n g).dev = s.dev := rfl
@[simp] theorem State.mapDie_mem (s : State) (n : Nat) (g : DieSt → DieSt) : (s.mapDie n g).mem = s.mem := rfl
@[simp] theorem State.mapDie_poison (s : State) (n : Nat) (g : DieSt → DieSt) : (s.mapDie n g).poison = s.poison := rfl
@[simp] theorem State.mapDie_homes (s : State) (n : Nat) (g : DieSt → DieSt) : (s.mapDie n g).homes = s.homes := rfl
@[simp] theorem State.mapDie_l1 (s : State) (n : Nat) (g : DieSt → DieSt) : (s.mapDie n g).l1 = s.l1 := rfl
@[simp] theorem State.mapDie_l2 (s : State) (n : Nat) (g : DieSt → DieSt) : (s.mapDie n g).l2 = s.l2 := rfl
@[simp] theorem State.mapDie_tlb (s : State) (n : Nat) (g : DieSt → DieSt) : (s.mapDie n g).tlb = s.tlb := rfl
@[simp] theorem State.mapDie_launches (s : State) (n : Nat) (g : DieSt → DieSt) : (s.mapDie n g).launches = s.launches := rfl
@[simp] theorem State.mapDie_teams (s : State) (n : Nat) (g : DieSt → DieSt) : (s.mapDie n g).teams = s.teams := rfl
@[simp] theorem State.mapDie_bars (s : State) (n : Nat) (g : DieSt → DieSt) : (s.mapDie n g).bars = s.bars := rfl
@[simp] theorem State.mapDie_dqs (s : State) (n : Nat) (g : DieSt → DieSt) : (s.mapDie n g).dqs = s.dqs := rfl
@[simp] theorem State.mapDie_rings (s : State) (n : Nat) (g : DieSt → DieSt) : (s.mapDie n g).rings = s.rings := rfl
@[simp] theorem State.mapDie_futs (s : State) (n : Nat) (g : DieSt → DieSt) : (s.mapDie n g).futs = s.futs := rfl
@[simp] theorem State.mapDie_books (s : State) (n : Nat) (g : DieSt → DieSt) : (s.mapDie n g).books = s.books := rfl
@[simp] theorem State.mapDie_heaps (s : State) (n : Nat) (g : DieSt → DieSt) : (s.mapDie n g).heaps = s.heaps := rfl
@[simp] theorem State.mapDie_dugouts (s : State) (n : Nat) (g : DieSt → DieSt) : (s.mapDie n g).dugouts = s.dugouts := rfl
@[simp] theorem State.mapDie_out (s : State) (n : Nat) (g : DieSt → DieSt) : (s.mapDie n g).out = s.out := rfl
@[simp] theorem State.mapDie_time (s : State) (n : Nat) (g : DieSt → DieSt) : (s.mapDie n g).time = s.time := rfl
@[simp] theorem State.mapDie_nextId (s : State) (n : Nat) (g : DieSt → DieSt) : (s.mapDie n g).nextId = s.nextId := rfl
@[simp] theorem State.mapDie_agenda (s : State) (n : Nat) (g : DieSt → DieSt) : (s.mapDie n g).agenda = s.agenda := rfl
@[simp] theorem State.mapDie_fresh (s : State) (n : Nat) (g : DieSt → DieSt) : (s.mapDie n g).fresh = s.fresh := rfl

/-! State.mapC. -/

@[simp] theorem State.mapC_c (s : State) (g : Ctx → Ctx) : (s.mapC g).c = g s.c := rfl
@[simp] theorem State.mapC_self (s : State) (g : Ctx → Ctx) : (s.mapC g).self = s.self := rfl
@[simp] theorem State.mapC_frames (s : State) (g : Ctx → Ctx) : (s.mapC g).frames = s.frames := rfl
@[simp] theorem State.mapC_cores (s : State) (g : Ctx → Ctx) : (s.mapC g).cores = s.cores := rfl
@[simp] theorem State.mapC_clus (s : State) (g : Ctx → Ctx) : (s.mapC g).clus = s.clus := rfl
@[simp] theorem State.mapC_dies (s : State) (g : Ctx → Ctx) : (s.mapC g).dies = s.dies := rfl
@[simp] theorem State.mapC_dev (s : State) (g : Ctx → Ctx) : (s.mapC g).dev = s.dev := rfl
@[simp] theorem State.mapC_mem (s : State) (g : Ctx → Ctx) : (s.mapC g).mem = s.mem := rfl
@[simp] theorem State.mapC_poison (s : State) (g : Ctx → Ctx) : (s.mapC g).poison = s.poison := rfl
@[simp] theorem State.mapC_homes (s : State) (g : Ctx → Ctx) : (s.mapC g).homes = s.homes := rfl
@[simp] theorem State.mapC_l1 (s : State) (g : Ctx → Ctx) : (s.mapC g).l1 = s.l1 := rfl
@[simp] theorem State.mapC_l2 (s : State) (g : Ctx → Ctx) : (s.mapC g).l2 = s.l2 := rfl
@[simp] theorem State.mapC_tlb (s : State) (g : Ctx → Ctx) : (s.mapC g).tlb = s.tlb := rfl
@[simp] theorem State.mapC_launches (s : State) (g : Ctx → Ctx) : (s.mapC g).launches = s.launches := rfl
@[simp] theorem State.mapC_teams (s : State) (g : Ctx → Ctx) : (s.mapC g).teams = s.teams := rfl
@[simp] theorem State.mapC_bars (s : State) (g : Ctx → Ctx) : (s.mapC g).bars = s.bars := rfl
@[simp] theorem State.mapC_dqs (s : State) (g : Ctx → Ctx) : (s.mapC g).dqs = s.dqs := rfl
@[simp] theorem State.mapC_rings (s : State) (g : Ctx → Ctx) : (s.mapC g).rings = s.rings := rfl
@[simp] theorem State.mapC_futs (s : State) (g : Ctx → Ctx) : (s.mapC g).futs = s.futs := rfl
@[simp] theorem State.mapC_books (s : State) (g : Ctx → Ctx) : (s.mapC g).books = s.books := rfl
@[simp] theorem State.mapC_heaps (s : State) (g : Ctx → Ctx) : (s.mapC g).heaps = s.heaps := rfl
@[simp] theorem State.mapC_dugouts (s : State) (g : Ctx → Ctx) : (s.mapC g).dugouts = s.dugouts := rfl
@[simp] theorem State.mapC_out (s : State) (g : Ctx → Ctx) : (s.mapC g).out = s.out := rfl
@[simp] theorem State.mapC_time (s : State) (g : Ctx → Ctx) : (s.mapC g).time = s.time := rfl
@[simp] theorem State.mapC_nextId (s : State) (g : Ctx → Ctx) : (s.mapC g).nextId = s.nextId := rfl
@[simp] theorem State.mapC_agenda (s : State) (g : Ctx → Ctx) : (s.mapC g).agenda = s.agenda := rfl
@[simp] theorem State.mapC_fresh (s : State) (g : Ctx → Ctx) : (s.mapC g).fresh = s.fresh := rfl

/-! State.done. -/

@[simp] theorem State.done_c (s : State) (g : Ctx → Ctx) : (s.done g).c = (g s.c).retire := rfl
@[simp] theorem State.done_self (s : State) (g : Ctx → Ctx) : (s.done g).self = s.self := rfl
@[simp] theorem State.done_frames (s : State) (g : Ctx → Ctx) : (s.done g).frames = s.frames := rfl
@[simp] theorem State.done_cores (s : State) (g : Ctx → Ctx) : (s.done g).cores = s.cores := rfl
@[simp] theorem State.done_clus (s : State) (g : Ctx → Ctx) : (s.done g).clus = s.clus := rfl
@[simp] theorem State.done_dies (s : State) (g : Ctx → Ctx) : (s.done g).dies = s.dies := rfl
@[simp] theorem State.done_dev (s : State) (g : Ctx → Ctx) : (s.done g).dev = s.dev := rfl
@[simp] theorem State.done_mem (s : State) (g : Ctx → Ctx) : (s.done g).mem = s.mem := rfl
@[simp] theorem State.done_poison (s : State) (g : Ctx → Ctx) : (s.done g).poison = s.poison := rfl
@[simp] theorem State.done_homes (s : State) (g : Ctx → Ctx) : (s.done g).homes = s.homes := rfl
@[simp] theorem State.done_l1 (s : State) (g : Ctx → Ctx) : (s.done g).l1 = s.l1 := rfl
@[simp] theorem State.done_l2 (s : State) (g : Ctx → Ctx) : (s.done g).l2 = s.l2 := rfl
@[simp] theorem State.done_tlb (s : State) (g : Ctx → Ctx) : (s.done g).tlb = s.tlb := rfl
@[simp] theorem State.done_launches (s : State) (g : Ctx → Ctx) : (s.done g).launches = s.launches := rfl
@[simp] theorem State.done_teams (s : State) (g : Ctx → Ctx) : (s.done g).teams = s.teams := rfl
@[simp] theorem State.done_bars (s : State) (g : Ctx → Ctx) : (s.done g).bars = s.bars := rfl
@[simp] theorem State.done_dqs (s : State) (g : Ctx → Ctx) : (s.done g).dqs = s.dqs := rfl
@[simp] theorem State.done_rings (s : State) (g : Ctx → Ctx) : (s.done g).rings = s.rings := rfl
@[simp] theorem State.done_futs (s : State) (g : Ctx → Ctx) : (s.done g).futs = s.futs := rfl
@[simp] theorem State.done_books (s : State) (g : Ctx → Ctx) : (s.done g).books = s.books := rfl
@[simp] theorem State.done_heaps (s : State) (g : Ctx → Ctx) : (s.done g).heaps = s.heaps := rfl
@[simp] theorem State.done_dugouts (s : State) (g : Ctx → Ctx) : (s.done g).dugouts = s.dugouts := rfl
@[simp] theorem State.done_out (s : State) (g : Ctx → Ctx) : (s.done g).out = s.out := rfl
@[simp] theorem State.done_time (s : State) (g : Ctx → Ctx) : (s.done g).time = s.time := rfl
@[simp] theorem State.done_nextId (s : State) (g : Ctx → Ctx) : (s.done g).nextId = s.nextId := rfl
@[simp] theorem State.done_agenda (s : State) (g : Ctx → Ctx) : (s.done g).agenda = s.agenda := rfl
@[simp] theorem State.done_fresh (s : State) (g : Ctx → Ctx) : (s.done g).fresh = s.fresh := rfl

/-! State.retire. -/

@[simp] theorem State.retire_c (s : State) : (s.retire).c = s.c.retire := rfl
@[simp] theorem State.retire_self (s : State) : (s.retire).self = s.self := rfl
@[simp] theorem State.retire_frames (s : State) : (s.retire).frames = s.frames := rfl
@[simp] theorem State.retire_cores (s : State) : (s.retire).cores = s.cores := rfl
@[simp] theorem State.retire_clus (s : State) : (s.retire).clus = s.clus := rfl
@[simp] theorem State.retire_dies (s : State) : (s.retire).dies = s.dies := rfl
@[simp] theorem State.retire_dev (s : State) : (s.retire).dev = s.dev := rfl
@[simp] theorem State.retire_mem (s : State) : (s.retire).mem = s.mem := rfl
@[simp] theorem State.retire_poison (s : State) : (s.retire).poison = s.poison := rfl
@[simp] theorem State.retire_homes (s : State) : (s.retire).homes = s.homes := rfl
@[simp] theorem State.retire_l1 (s : State) : (s.retire).l1 = s.l1 := rfl
@[simp] theorem State.retire_l2 (s : State) : (s.retire).l2 = s.l2 := rfl
@[simp] theorem State.retire_tlb (s : State) : (s.retire).tlb = s.tlb := rfl
@[simp] theorem State.retire_launches (s : State) : (s.retire).launches = s.launches := rfl
@[simp] theorem State.retire_teams (s : State) : (s.retire).teams = s.teams := rfl
@[simp] theorem State.retire_bars (s : State) : (s.retire).bars = s.bars := rfl
@[simp] theorem State.retire_dqs (s : State) : (s.retire).dqs = s.dqs := rfl
@[simp] theorem State.retire_rings (s : State) : (s.retire).rings = s.rings := rfl
@[simp] theorem State.retire_futs (s : State) : (s.retire).futs = s.futs := rfl
@[simp] theorem State.retire_books (s : State) : (s.retire).books = s.books := rfl
@[simp] theorem State.retire_heaps (s : State) : (s.retire).heaps = s.heaps := rfl
@[simp] theorem State.retire_dugouts (s : State) : (s.retire).dugouts = s.dugouts := rfl
@[simp] theorem State.retire_out (s : State) : (s.retire).out = s.out := rfl
@[simp] theorem State.retire_time (s : State) : (s.retire).time = s.time := rfl
@[simp] theorem State.retire_nextId (s : State) : (s.retire).nextId = s.nextId := rfl
@[simp] theorem State.retire_agenda (s : State) : (s.retire).agenda = s.agenda := rfl
@[simp] theorem State.retire_fresh (s : State) : (s.retire).fresh = s.fresh := rfl

/-! State.newId. -/

@[simp] theorem State.newId_c (s : State) : (s.newId).c = s.c := rfl
@[simp] theorem State.newId_self (s : State) : (s.newId).self = s.self := rfl
@[simp] theorem State.newId_frames (s : State) : (s.newId).frames = s.frames := rfl
@[simp] theorem State.newId_cores (s : State) : (s.newId).cores = s.cores := rfl
@[simp] theorem State.newId_clus (s : State) : (s.newId).clus = s.clus := rfl
@[simp] theorem State.newId_dies (s : State) : (s.newId).dies = s.dies := rfl
@[simp] theorem State.newId_dev (s : State) : (s.newId).dev = s.dev := rfl
@[simp] theorem State.newId_mem (s : State) : (s.newId).mem = s.mem := rfl
@[simp] theorem State.newId_poison (s : State) : (s.newId).poison = s.poison := rfl
@[simp] theorem State.newId_homes (s : State) : (s.newId).homes = s.homes := rfl
@[simp] theorem State.newId_l1 (s : State) : (s.newId).l1 = s.l1 := rfl
@[simp] theorem State.newId_l2 (s : State) : (s.newId).l2 = s.l2 := rfl
@[simp] theorem State.newId_tlb (s : State) : (s.newId).tlb = s.tlb := rfl
@[simp] theorem State.newId_launches (s : State) : (s.newId).launches = s.launches := rfl
@[simp] theorem State.newId_teams (s : State) : (s.newId).teams = s.teams := rfl
@[simp] theorem State.newId_bars (s : State) : (s.newId).bars = s.bars := rfl
@[simp] theorem State.newId_dqs (s : State) : (s.newId).dqs = s.dqs := rfl
@[simp] theorem State.newId_rings (s : State) : (s.newId).rings = s.rings := rfl
@[simp] theorem State.newId_futs (s : State) : (s.newId).futs = s.futs := rfl
@[simp] theorem State.newId_books (s : State) : (s.newId).books = s.books := rfl
@[simp] theorem State.newId_heaps (s : State) : (s.newId).heaps = s.heaps := rfl
@[simp] theorem State.newId_dugouts (s : State) : (s.newId).dugouts = s.dugouts := rfl
@[simp] theorem State.newId_out (s : State) : (s.newId).out = s.out := rfl
@[simp] theorem State.newId_time (s : State) : (s.newId).time = s.time := rfl
@[simp] theorem State.newId_nextId (s : State) : (s.newId).nextId = s.nextId + 1 := rfl
@[simp] theorem State.newId_agenda (s : State) : (s.newId).agenda = s.agenda := rfl
@[simp] theorem State.newId_fresh (s : State) : (s.newId).fresh = s.fresh := rfl

/-! State.setCtx. -/

@[simp] theorem State.setCtx_c (s : State) (f : Nat) (c : Ctx) : (s.setCtx f c).c = if f = s.self then c else s.c := by unfold State.setCtx; split <;> rfl
@[simp] theorem State.setCtx_self (s : State) (f : Nat) (c : Ctx) : (s.setCtx f c).self = s.self := by unfold State.setCtx; split <;> rfl
@[simp] theorem State.setCtx_frames (s : State) (f : Nat) (c : Ctx) : (s.setCtx f c).frames = if f = s.self then s.frames else tset s.frames f c := by unfold State.setCtx; split <;> rfl
@[simp] theorem State.setCtx_cores (s : State) (f : Nat) (c : Ctx) : (s.setCtx f c).cores = s.cores := by unfold State.setCtx; split <;> rfl
@[simp] theorem State.setCtx_clus (s : State) (f : Nat) (c : Ctx) : (s.setCtx f c).clus = s.clus := by unfold State.setCtx; split <;> rfl
@[simp] theorem State.setCtx_dies (s : State) (f : Nat) (c : Ctx) : (s.setCtx f c).dies = s.dies := by unfold State.setCtx; split <;> rfl
@[simp] theorem State.setCtx_dev (s : State) (f : Nat) (c : Ctx) : (s.setCtx f c).dev = s.dev := by unfold State.setCtx; split <;> rfl
@[simp] theorem State.setCtx_mem (s : State) (f : Nat) (c : Ctx) : (s.setCtx f c).mem = s.mem := by unfold State.setCtx; split <;> rfl
@[simp] theorem State.setCtx_poison (s : State) (f : Nat) (c : Ctx) : (s.setCtx f c).poison = s.poison := by unfold State.setCtx; split <;> rfl
@[simp] theorem State.setCtx_homes (s : State) (f : Nat) (c : Ctx) : (s.setCtx f c).homes = s.homes := by unfold State.setCtx; split <;> rfl
@[simp] theorem State.setCtx_l1 (s : State) (f : Nat) (c : Ctx) : (s.setCtx f c).l1 = s.l1 := by unfold State.setCtx; split <;> rfl
@[simp] theorem State.setCtx_l2 (s : State) (f : Nat) (c : Ctx) : (s.setCtx f c).l2 = s.l2 := by unfold State.setCtx; split <;> rfl
@[simp] theorem State.setCtx_tlb (s : State) (f : Nat) (c : Ctx) : (s.setCtx f c).tlb = s.tlb := by unfold State.setCtx; split <;> rfl
@[simp] theorem State.setCtx_launches (s : State) (f : Nat) (c : Ctx) : (s.setCtx f c).launches = s.launches := by unfold State.setCtx; split <;> rfl
@[simp] theorem State.setCtx_teams (s : State) (f : Nat) (c : Ctx) : (s.setCtx f c).teams = s.teams := by unfold State.setCtx; split <;> rfl
@[simp] theorem State.setCtx_bars (s : State) (f : Nat) (c : Ctx) : (s.setCtx f c).bars = s.bars := by unfold State.setCtx; split <;> rfl
@[simp] theorem State.setCtx_dqs (s : State) (f : Nat) (c : Ctx) : (s.setCtx f c).dqs = s.dqs := by unfold State.setCtx; split <;> rfl
@[simp] theorem State.setCtx_rings (s : State) (f : Nat) (c : Ctx) : (s.setCtx f c).rings = s.rings := by unfold State.setCtx; split <;> rfl
@[simp] theorem State.setCtx_futs (s : State) (f : Nat) (c : Ctx) : (s.setCtx f c).futs = s.futs := by unfold State.setCtx; split <;> rfl
@[simp] theorem State.setCtx_books (s : State) (f : Nat) (c : Ctx) : (s.setCtx f c).books = s.books := by unfold State.setCtx; split <;> rfl
@[simp] theorem State.setCtx_heaps (s : State) (f : Nat) (c : Ctx) : (s.setCtx f c).heaps = s.heaps := by unfold State.setCtx; split <;> rfl
@[simp] theorem State.setCtx_dugouts (s : State) (f : Nat) (c : Ctx) : (s.setCtx f c).dugouts = s.dugouts := by unfold State.setCtx; split <;> rfl
@[simp] theorem State.setCtx_out (s : State) (f : Nat) (c : Ctx) : (s.setCtx f c).out = s.out := by unfold State.setCtx; split <;> rfl
@[simp] theorem State.setCtx_time (s : State) (f : Nat) (c : Ctx) : (s.setCtx f c).time = s.time := by unfold State.setCtx; split <;> rfl
@[simp] theorem State.setCtx_nextId (s : State) (f : Nat) (c : Ctx) : (s.setCtx f c).nextId = s.nextId := by unfold State.setCtx; split <;> rfl
@[simp] theorem State.setCtx_agenda (s : State) (f : Nat) (c : Ctx) : (s.setCtx f c).agenda = s.agenda := by unfold State.setCtx; split <;> rfl
@[simp] theorem State.setCtx_fresh (s : State) (f : Nat) (c : Ctx) : (s.setCtx f c).fresh = s.fresh := by unfold State.setCtx; split <;> rfl

/-! State.mapCtx. -/

@[simp] theorem State.mapCtx_c (s : State) (f : Nat) (g : Ctx → Ctx) : (s.mapCtx f g).c = if f = s.self then g (s.ctx f) else s.c := State.setCtx_c s f _
@[simp] theorem State.mapCtx_self (s : State) (f : Nat) (g : Ctx → Ctx) : (s.mapCtx f g).self = s.self := State.setCtx_self s f _
@[simp] theorem State.mapCtx_frames (s : State) (f : Nat) (g : Ctx → Ctx) : (s.mapCtx f g).frames = if f = s.self then s.frames else tset s.frames f (g (s.ctx f)) := State.setCtx_frames s f _
@[simp] theorem State.mapCtx_cores (s : State) (f : Nat) (g : Ctx → Ctx) : (s.mapCtx f g).cores = s.cores := State.setCtx_cores s f _
@[simp] theorem State.mapCtx_clus (s : State) (f : Nat) (g : Ctx → Ctx) : (s.mapCtx f g).clus = s.clus := State.setCtx_clus s f _
@[simp] theorem State.mapCtx_dies (s : State) (f : Nat) (g : Ctx → Ctx) : (s.mapCtx f g).dies = s.dies := State.setCtx_dies s f _
@[simp] theorem State.mapCtx_dev (s : State) (f : Nat) (g : Ctx → Ctx) : (s.mapCtx f g).dev = s.dev := State.setCtx_dev s f _
@[simp] theorem State.mapCtx_mem (s : State) (f : Nat) (g : Ctx → Ctx) : (s.mapCtx f g).mem = s.mem := State.setCtx_mem s f _
@[simp] theorem State.mapCtx_poison (s : State) (f : Nat) (g : Ctx → Ctx) : (s.mapCtx f g).poison = s.poison := State.setCtx_poison s f _
@[simp] theorem State.mapCtx_homes (s : State) (f : Nat) (g : Ctx → Ctx) : (s.mapCtx f g).homes = s.homes := State.setCtx_homes s f _
@[simp] theorem State.mapCtx_l1 (s : State) (f : Nat) (g : Ctx → Ctx) : (s.mapCtx f g).l1 = s.l1 := State.setCtx_l1 s f _
@[simp] theorem State.mapCtx_l2 (s : State) (f : Nat) (g : Ctx → Ctx) : (s.mapCtx f g).l2 = s.l2 := State.setCtx_l2 s f _
@[simp] theorem State.mapCtx_tlb (s : State) (f : Nat) (g : Ctx → Ctx) : (s.mapCtx f g).tlb = s.tlb := State.setCtx_tlb s f _
@[simp] theorem State.mapCtx_launches (s : State) (f : Nat) (g : Ctx → Ctx) : (s.mapCtx f g).launches = s.launches := State.setCtx_launches s f _
@[simp] theorem State.mapCtx_teams (s : State) (f : Nat) (g : Ctx → Ctx) : (s.mapCtx f g).teams = s.teams := State.setCtx_teams s f _
@[simp] theorem State.mapCtx_bars (s : State) (f : Nat) (g : Ctx → Ctx) : (s.mapCtx f g).bars = s.bars := State.setCtx_bars s f _
@[simp] theorem State.mapCtx_dqs (s : State) (f : Nat) (g : Ctx → Ctx) : (s.mapCtx f g).dqs = s.dqs := State.setCtx_dqs s f _
@[simp] theorem State.mapCtx_rings (s : State) (f : Nat) (g : Ctx → Ctx) : (s.mapCtx f g).rings = s.rings := State.setCtx_rings s f _
@[simp] theorem State.mapCtx_futs (s : State) (f : Nat) (g : Ctx → Ctx) : (s.mapCtx f g).futs = s.futs := State.setCtx_futs s f _
@[simp] theorem State.mapCtx_books (s : State) (f : Nat) (g : Ctx → Ctx) : (s.mapCtx f g).books = s.books := State.setCtx_books s f _
@[simp] theorem State.mapCtx_heaps (s : State) (f : Nat) (g : Ctx → Ctx) : (s.mapCtx f g).heaps = s.heaps := State.setCtx_heaps s f _
@[simp] theorem State.mapCtx_dugouts (s : State) (f : Nat) (g : Ctx → Ctx) : (s.mapCtx f g).dugouts = s.dugouts := State.setCtx_dugouts s f _
@[simp] theorem State.mapCtx_out (s : State) (f : Nat) (g : Ctx → Ctx) : (s.mapCtx f g).out = s.out := State.setCtx_out s f _
@[simp] theorem State.mapCtx_time (s : State) (f : Nat) (g : Ctx → Ctx) : (s.mapCtx f g).time = s.time := State.setCtx_time s f _
@[simp] theorem State.mapCtx_nextId (s : State) (f : Nat) (g : Ctx → Ctx) : (s.mapCtx f g).nextId = s.nextId := State.setCtx_nextId s f _
@[simp] theorem State.mapCtx_agenda (s : State) (f : Nat) (g : Ctx → Ctx) : (s.mapCtx f g).agenda = s.agenda := State.setCtx_agenda s f _
@[simp] theorem State.mapCtx_fresh (s : State) (f : Nat) (g : Ctx → Ctx) : (s.mapCtx f g).fresh = s.fresh := State.setCtx_fresh s f _

/-! State.select. -/

@[simp] theorem State.select_cores (s : State) (f : Nat) : (s.select f).cores = s.cores := by unfold State.select; split <;> rfl
@[simp] theorem State.select_clus (s : State) (f : Nat) : (s.select f).clus = s.clus := by unfold State.select; split <;> rfl
@[simp] theorem State.select_dies (s : State) (f : Nat) : (s.select f).dies = s.dies := by unfold State.select; split <;> rfl
@[simp] theorem State.select_dev (s : State) (f : Nat) : (s.select f).dev = s.dev := by unfold State.select; split <;> rfl
@[simp] theorem State.select_mem (s : State) (f : Nat) : (s.select f).mem = s.mem := by unfold State.select; split <;> rfl
@[simp] theorem State.select_poison (s : State) (f : Nat) : (s.select f).poison = s.poison := by unfold State.select; split <;> rfl
@[simp] theorem State.select_homes (s : State) (f : Nat) : (s.select f).homes = s.homes := by unfold State.select; split <;> rfl
@[simp] theorem State.select_l1 (s : State) (f : Nat) : (s.select f).l1 = s.l1 := by unfold State.select; split <;> rfl
@[simp] theorem State.select_l2 (s : State) (f : Nat) : (s.select f).l2 = s.l2 := by unfold State.select; split <;> rfl
@[simp] theorem State.select_tlb (s : State) (f : Nat) : (s.select f).tlb = s.tlb := by unfold State.select; split <;> rfl
@[simp] theorem State.select_launches (s : State) (f : Nat) : (s.select f).launches = s.launches := by unfold State.select; split <;> rfl
@[simp] theorem State.select_teams (s : State) (f : Nat) : (s.select f).teams = s.teams := by unfold State.select; split <;> rfl
@[simp] theorem State.select_bars (s : State) (f : Nat) : (s.select f).bars = s.bars := by unfold State.select; split <;> rfl
@[simp] theorem State.select_dqs (s : State) (f : Nat) : (s.select f).dqs = s.dqs := by unfold State.select; split <;> rfl
@[simp] theorem State.select_rings (s : State) (f : Nat) : (s.select f).rings = s.rings := by unfold State.select; split <;> rfl
@[simp] theorem State.select_futs (s : State) (f : Nat) : (s.select f).futs = s.futs := by unfold State.select; split <;> rfl
@[simp] theorem State.select_books (s : State) (f : Nat) : (s.select f).books = s.books := by unfold State.select; split <;> rfl
@[simp] theorem State.select_heaps (s : State) (f : Nat) : (s.select f).heaps = s.heaps := by unfold State.select; split <;> rfl
@[simp] theorem State.select_dugouts (s : State) (f : Nat) : (s.select f).dugouts = s.dugouts := by unfold State.select; split <;> rfl
@[simp] theorem State.select_out (s : State) (f : Nat) : (s.select f).out = s.out := by unfold State.select; split <;> rfl
@[simp] theorem State.select_time (s : State) (f : Nat) : (s.select f).time = s.time := by unfold State.select; split <;> rfl
@[simp] theorem State.select_nextId (s : State) (f : Nat) : (s.select f).nextId = s.nextId := by unfold State.select; split <;> rfl
@[simp] theorem State.select_agenda (s : State) (f : Nat) : (s.select f).agenda = s.agenda := by unfold State.select; split <;> rfl
@[simp] theorem State.select_fresh (s : State) (f : Nat) : (s.select f).fresh = s.fresh := by unfold State.select; split <;> rfl
@[simp] theorem State.select_self (s : State) (f : Nat) : (s.select f).self = f := by unfold State.select; split <;> simp_all
theorem State.select_c (s : State) (f : Nat) : (s.select f).c = s.ctx f := by unfold State.select State.ctx; split <;> rfl

/-! State.stall. -/

@[simp] theorem State.stall_self (s : State) (b : Bool) : (s.stall b).self = s.self := rfl
@[simp] theorem State.stall_frames (s : State) (b : Bool) : (s.stall b).frames = s.frames := rfl
@[simp] theorem State.stall_cores (s : State) (b : Bool) : (s.stall b).cores = s.cores := rfl
@[simp] theorem State.stall_clus (s : State) (b : Bool) : (s.stall b).clus = s.clus := rfl
@[simp] theorem State.stall_dies (s : State) (b : Bool) : (s.stall b).dies = s.dies := rfl
@[simp] theorem State.stall_dev (s : State) (b : Bool) : (s.stall b).dev = s.dev := rfl
@[simp] theorem State.stall_mem (s : State) (b : Bool) : (s.stall b).mem = s.mem := rfl
@[simp] theorem State.stall_poison (s : State) (b : Bool) : (s.stall b).poison = s.poison := rfl
@[simp] theorem State.stall_homes (s : State) (b : Bool) : (s.stall b).homes = s.homes := rfl
@[simp] theorem State.stall_l1 (s : State) (b : Bool) : (s.stall b).l1 = s.l1 := rfl
@[simp] theorem State.stall_l2 (s : State) (b : Bool) : (s.stall b).l2 = s.l2 := rfl
@[simp] theorem State.stall_tlb (s : State) (b : Bool) : (s.stall b).tlb = s.tlb := rfl
@[simp] theorem State.stall_launches (s : State) (b : Bool) : (s.stall b).launches = s.launches := rfl
@[simp] theorem State.stall_teams (s : State) (b : Bool) : (s.stall b).teams = s.teams := rfl
@[simp] theorem State.stall_bars (s : State) (b : Bool) : (s.stall b).bars = s.bars := rfl
@[simp] theorem State.stall_dqs (s : State) (b : Bool) : (s.stall b).dqs = s.dqs := rfl
@[simp] theorem State.stall_rings (s : State) (b : Bool) : (s.stall b).rings = s.rings := rfl
@[simp] theorem State.stall_futs (s : State) (b : Bool) : (s.stall b).futs = s.futs := rfl
@[simp] theorem State.stall_books (s : State) (b : Bool) : (s.stall b).books = s.books := rfl
@[simp] theorem State.stall_heaps (s : State) (b : Bool) : (s.stall b).heaps = s.heaps := rfl
@[simp] theorem State.stall_dugouts (s : State) (b : Bool) : (s.stall b).dugouts = s.dugouts := rfl
@[simp] theorem State.stall_out (s : State) (b : Bool) : (s.stall b).out = s.out := rfl
@[simp] theorem State.stall_time (s : State) (b : Bool) : (s.stall b).time = s.time := rfl
@[simp] theorem State.stall_nextId (s : State) (b : Bool) : (s.stall b).nextId = s.nextId := rfl
@[simp] theorem State.stall_agenda (s : State) (b : Bool) : (s.stall b).agenda = s.agenda := rfl
@[simp] theorem State.stall_fresh (s : State) (b : Bool) : (s.stall b).fresh = s.fresh := rfl

/-! Ctx.setX. -/

@[simp] theorem Ctx.setX_live (c : Ctx) (i : XReg) (v : Word) : (c.setX i v).live = c.live := by unfold Ctx.setX; split <;> rfl
@[simp] theorem Ctx.setX_kind (c : Ctx) (i : XReg) (v : Word) : (c.setX i v).kind = c.kind := by unfold Ctx.setX; split <;> rfl
@[simp] theorem Ctx.setX_pc (c : Ctx) (i : XReg) (v : Word) : (c.setX i v).pc = c.pc := by unfold Ctx.setX; split <;> rfl
@[simp] theorem Ctx.setX_apc (c : Ctx) (i : XReg) (v : Word) : (c.setX i v).apc = c.apc := by unfold Ctx.setX; split <;> rfl
@[simp] theorem Ctx.setX_win (c : Ctx) (i : XReg) (v : Word) : (c.setX i v).win = c.win := by unfold Ctx.setX; split <;> rfl
@[simp] theorem Ctx.setX_works (c : Ctx) (i : XReg) (v : Word) : (c.setX i v).works = c.works := by unfold Ctx.setX; split <;> rfl
@[simp] theorem Ctx.setX_npc (c : Ctx) (i : XReg) (v : Word) : (c.setX i v).npc = c.npc := by unfold Ctx.setX; split <;> rfl
@[simp] theorem Ctx.setX_cur (c : Ctx) (i : XReg) (v : Word) : (c.setX i v).cur = c.cur := by unfold Ctx.setX; split <;> rfl
@[simp] theorem Ctx.setX_mods (c : Ctx) (i : XReg) (v : Word) : (c.setX i v).mods = c.mods := by unfold Ctx.setX; split <;> rfl
@[simp] theorem Ctx.setX_x (c : Ctx) (i : XReg) (v : Word) : (c.setX i v).x = if i = 0 then c.x else c.x.set i v := by unfold Ctx.setX; split <;> rfl
@[simp] theorem Ctx.setX_a (c : Ctx) (i : XReg) (v : Word) : (c.setX i v).a = c.a := by unfold Ctx.setX; split <;> rfl
@[simp] theorem Ctx.setX_p (c : Ctx) (i : XReg) (v : Word) : (c.setX i v).p = c.p := by unfold Ctx.setX; split <;> rfl
@[simp] theorem Ctx.setX_k (c : Ctx) (i : XReg) (v : Word) : (c.setX i v).k = c.k := by unfold Ctx.setX; split <;> rfl
@[simp] theorem Ctx.setX_v (c : Ctx) (i : XReg) (v : Word) : (c.setX i v).v = c.v := by unfold Ctx.setX; split <;> rfl
@[simp] theorem Ctx.setX_sb (c : Ctx) (i : XReg) (v : Word) : (c.setX i v).sb = c.sb := by unfold Ctx.setX; split <;> rfl
@[simp] theorem Ctx.setX_groups (c : Ctx) (i : XReg) (v : Word) : (c.setX i v).groups = c.groups := by unfold Ctx.setX; split <;> rfl
@[simp] theorem Ctx.setX_ncount (c : Ctx) (i : XReg) (v : Word) : (c.setX i v).ncount = c.ncount := by unfold Ctx.setX; split <;> rfl
@[simp] theorem Ctx.setX_nlatch (c : Ctx) (i : XReg) (v : Word) : (c.setX i v).nlatch = c.nlatch := by unfold Ctx.setX; split <;> rfl
@[simp] theorem Ctx.setX_st (c : Ctx) (i : XReg) (v : Word) : (c.setX i v).st = c.st := by unfold Ctx.setX; split <;> rfl
@[simp] theorem Ctx.setX_cr (c : Ctx) (i : XReg) (v : Word) : (c.setX i v).cr = c.cr := by unfold Ctx.setX; split <;> rfl
@[simp] theorem Ctx.setX_ids (c : Ctx) (i : XReg) (v : Word) : (c.setX i v).ids = c.ids := by unfold Ctx.setX; split <;> rfl
@[simp] theorem Ctx.setX_mprio (c : Ctx) (i : XReg) (v : Word) : (c.setX i v).mprio = c.mprio := by unfold Ctx.setX; split <;> rfl
@[simp] theorem Ctx.setX_chEnd (c : Ctx) (i : XReg) (v : Word) : (c.setX i v).chEnd = c.chEnd := by unfold Ctx.setX; split <;> rfl
@[simp] theorem Ctx.setX_chStep (c : Ctx) (i : XReg) (v : Word) : (c.setX i v).chStep = c.chStep := by unfold Ctx.setX; split <;> rfl
@[simp] theorem Ctx.setX_chRun (c : Ctx) (i : XReg) (v : Word) : (c.setX i v).chRun = c.chRun := by unfold Ctx.setX; split <;> rfl
@[simp] theorem Ctx.setX_acc (c : Ctx) (i : XReg) (v : Word) : (c.setX i v).acc = c.acc := by unfold Ctx.setX; split <;> rfl
@[simp] theorem Ctx.setX_owes (c : Ctx) (i : XReg) (v : Word) : (c.setX i v).owes = c.owes := by unfold Ctx.setX; split <;> rfl
@[simp] theorem Ctx.setX_latch (c : Ctx) (i : XReg) (v : Word) : (c.setX i v).latch = c.latch := by unfold Ctx.setX; split <;> rfl
@[simp] theorem Ctx.setX_go (c : Ctx) (i : XReg) (v : Word) : (c.setX i v).go = c.go := by unfold Ctx.setX; split <;> rfl
@[simp] theorem Ctx.setX_wait (c : Ctx) (i : XReg) (v : Word) : (c.setX i v).wait = c.wait := by unfold Ctx.setX; split <;> rfl
@[simp] theorem Ctx.setX_parks (c : Ctx) (i : XReg) (v : Word) : (c.setX i v).parks = c.parks := by unfold Ctx.setX; split <;> rfl
@[simp] theorem Ctx.setX_pending (c : Ctx) (i : XReg) (v : Word) : (c.setX i v).pending = c.pending := by unfold Ctx.setX; split <;> rfl
@[simp] theorem Ctx.setX_mtch (c : Ctx) (i : XReg) (v : Word) : (c.setX i v).mtch = c.mtch := by unfold Ctx.setX; split <;> rfl
@[simp] theorem Ctx.setX_team (c : Ctx) (i : XReg) (v : Word) : (c.setX i v).team = c.team := by unfold Ctx.setX; split <;> rfl
@[simp] theorem Ctx.setX_task (c : Ctx) (i : XReg) (v : Word) : (c.setX i v).task = c.task := by unfold Ctx.setX; split <;> rfl
@[simp] theorem Ctx.setX_inv (c : Ctx) (i : XReg) (v : Word) : (c.setX i v).inv = c.inv := by unfold Ctx.setX; split <;> rfl
@[simp] theorem Ctx.setX_deadline (c : Ctx) (i : XReg) (v : Word) : (c.setX i v).deadline = c.deadline := by unfold Ctx.setX; split <;> rfl
@[simp] theorem Ctx.setX_yielded (c : Ctx) (i : XReg) (v : Word) : (c.setX i v).yielded = c.yielded := by unfold Ctx.setX; split <;> rfl
@[simp] theorem Ctx.setX_wake (c : Ctx) (i : XReg) (v : Word) : (c.setX i v).wake = c.wake := by unfold Ctx.setX; split <;> rfl
@[simp] theorem Ctx.setX_parked (c : Ctx) (i : XReg) (v : Word) : (c.setX i v).parked = c.parked := by unfold Ctx.setX; split <;> rfl
@[simp] theorem Ctx.setX_exitv (c : Ctx) (i : XReg) (v : Word) : (c.setX i v).exitv = c.exitv := by unfold Ctx.setX; split <;> rfl
@[simp] theorem Ctx.setX_gen (c : Ctx) (i : XReg) (v : Word) : (c.setX i v).gen = c.gen := by unfold Ctx.setX; split <;> rfl
@[simp] theorem Ctx.setX_region (c : Ctx) (i : XReg) (v : Word) : (c.setX i v).region = c.region := by unfold Ctx.setX; split <;> rfl
@[simp] theorem Ctx.setX_sidx (c : Ctx) (i : XReg) (v : Word) : (c.setX i v).sidx = c.sidx := by unfold Ctx.setX; split <;> rfl
@[simp] theorem Ctx.setX_released (c : Ctx) (i : XReg) (v : Word) : (c.setX i v).released = c.released := by unfold Ctx.setX; split <;> rfl
@[simp] theorem Ctx.setX_barGen (c : Ctx) (i : XReg) (v : Word) : (c.setX i v).barGen = c.barGen := by unfold Ctx.setX; split <;> rfl
@[simp] theorem Ctx.setX_bound (c : Ctx) (i : XReg) (v : Word) : (c.setX i v).bound = c.bound := by unfold Ctx.setX; split <;> rfl
@[simp] theorem Ctx.setX_pause (c : Ctx) (i : XReg) (v : Word) : (c.setX i v).pause = c.pause := by unfold Ctx.setX; split <;> rfl
@[simp] theorem Ctx.setX_hinted (c : Ctx) (i : XReg) (v : Word) : (c.setX i v).hinted = c.hinted := by unfold Ctx.setX; split <;> rfl
@[simp] theorem Ctx.setX_placed (c : Ctx) (i : XReg) (v : Word) : (c.setX i v).placed = c.placed := by unfold Ctx.setX; split <;> rfl

/-! Ctx.setA. -/

@[simp] theorem Ctx.setA_live (c : Ctx) (i : AReg) (v : Word) : (c.setA i v).live = c.live := rfl
@[simp] theorem Ctx.setA_kind (c : Ctx) (i : AReg) (v : Word) : (c.setA i v).kind = c.kind := rfl
@[simp] theorem Ctx.setA_pc (c : Ctx) (i : AReg) (v : Word) : (c.setA i v).pc = c.pc := rfl
@[simp] theorem Ctx.setA_apc (c : Ctx) (i : AReg) (v : Word) : (c.setA i v).apc = c.apc := rfl
@[simp] theorem Ctx.setA_win (c : Ctx) (i : AReg) (v : Word) : (c.setA i v).win = c.win := rfl
@[simp] theorem Ctx.setA_works (c : Ctx) (i : AReg) (v : Word) : (c.setA i v).works = c.works := rfl
@[simp] theorem Ctx.setA_npc (c : Ctx) (i : AReg) (v : Word) : (c.setA i v).npc = c.npc := rfl
@[simp] theorem Ctx.setA_cur (c : Ctx) (i : AReg) (v : Word) : (c.setA i v).cur = c.cur := rfl
@[simp] theorem Ctx.setA_mods (c : Ctx) (i : AReg) (v : Word) : (c.setA i v).mods = c.mods := rfl
@[simp] theorem Ctx.setA_x (c : Ctx) (i : AReg) (v : Word) : (c.setA i v).x = c.x := rfl
@[simp] theorem Ctx.setA_a (c : Ctx) (i : AReg) (v : Word) : (c.setA i v).a = c.a.set i v := rfl
@[simp] theorem Ctx.setA_p (c : Ctx) (i : AReg) (v : Word) : (c.setA i v).p = c.p := rfl
@[simp] theorem Ctx.setA_k (c : Ctx) (i : AReg) (v : Word) : (c.setA i v).k = c.k := rfl
@[simp] theorem Ctx.setA_v (c : Ctx) (i : AReg) (v : Word) : (c.setA i v).v = c.v := rfl
@[simp] theorem Ctx.setA_sb (c : Ctx) (i : AReg) (v : Word) : (c.setA i v).sb = c.sb := rfl
@[simp] theorem Ctx.setA_groups (c : Ctx) (i : AReg) (v : Word) : (c.setA i v).groups = c.groups := rfl
@[simp] theorem Ctx.setA_ncount (c : Ctx) (i : AReg) (v : Word) : (c.setA i v).ncount = c.ncount := rfl
@[simp] theorem Ctx.setA_nlatch (c : Ctx) (i : AReg) (v : Word) : (c.setA i v).nlatch = c.nlatch := rfl
@[simp] theorem Ctx.setA_st (c : Ctx) (i : AReg) (v : Word) : (c.setA i v).st = c.st := rfl
@[simp] theorem Ctx.setA_cr (c : Ctx) (i : AReg) (v : Word) : (c.setA i v).cr = c.cr := rfl
@[simp] theorem Ctx.setA_ids (c : Ctx) (i : AReg) (v : Word) : (c.setA i v).ids = c.ids := rfl
@[simp] theorem Ctx.setA_mprio (c : Ctx) (i : AReg) (v : Word) : (c.setA i v).mprio = c.mprio := rfl
@[simp] theorem Ctx.setA_chEnd (c : Ctx) (i : AReg) (v : Word) : (c.setA i v).chEnd = c.chEnd := rfl
@[simp] theorem Ctx.setA_chStep (c : Ctx) (i : AReg) (v : Word) : (c.setA i v).chStep = c.chStep := rfl
@[simp] theorem Ctx.setA_chRun (c : Ctx) (i : AReg) (v : Word) : (c.setA i v).chRun = c.chRun := rfl
@[simp] theorem Ctx.setA_acc (c : Ctx) (i : AReg) (v : Word) : (c.setA i v).acc = c.acc := rfl
@[simp] theorem Ctx.setA_owes (c : Ctx) (i : AReg) (v : Word) : (c.setA i v).owes = c.owes := rfl
@[simp] theorem Ctx.setA_latch (c : Ctx) (i : AReg) (v : Word) : (c.setA i v).latch = c.latch := rfl
@[simp] theorem Ctx.setA_go (c : Ctx) (i : AReg) (v : Word) : (c.setA i v).go = c.go := rfl
@[simp] theorem Ctx.setA_wait (c : Ctx) (i : AReg) (v : Word) : (c.setA i v).wait = c.wait := rfl
@[simp] theorem Ctx.setA_parks (c : Ctx) (i : AReg) (v : Word) : (c.setA i v).parks = c.parks := rfl
@[simp] theorem Ctx.setA_pending (c : Ctx) (i : AReg) (v : Word) : (c.setA i v).pending = c.pending := rfl
@[simp] theorem Ctx.setA_mtch (c : Ctx) (i : AReg) (v : Word) : (c.setA i v).mtch = c.mtch := rfl
@[simp] theorem Ctx.setA_team (c : Ctx) (i : AReg) (v : Word) : (c.setA i v).team = c.team := rfl
@[simp] theorem Ctx.setA_task (c : Ctx) (i : AReg) (v : Word) : (c.setA i v).task = c.task := rfl
@[simp] theorem Ctx.setA_inv (c : Ctx) (i : AReg) (v : Word) : (c.setA i v).inv = c.inv := rfl
@[simp] theorem Ctx.setA_deadline (c : Ctx) (i : AReg) (v : Word) : (c.setA i v).deadline = c.deadline := rfl
@[simp] theorem Ctx.setA_yielded (c : Ctx) (i : AReg) (v : Word) : (c.setA i v).yielded = c.yielded := rfl
@[simp] theorem Ctx.setA_wake (c : Ctx) (i : AReg) (v : Word) : (c.setA i v).wake = c.wake := rfl
@[simp] theorem Ctx.setA_parked (c : Ctx) (i : AReg) (v : Word) : (c.setA i v).parked = c.parked := rfl
@[simp] theorem Ctx.setA_exitv (c : Ctx) (i : AReg) (v : Word) : (c.setA i v).exitv = c.exitv := rfl
@[simp] theorem Ctx.setA_gen (c : Ctx) (i : AReg) (v : Word) : (c.setA i v).gen = c.gen := rfl
@[simp] theorem Ctx.setA_region (c : Ctx) (i : AReg) (v : Word) : (c.setA i v).region = c.region := rfl
@[simp] theorem Ctx.setA_sidx (c : Ctx) (i : AReg) (v : Word) : (c.setA i v).sidx = c.sidx := rfl
@[simp] theorem Ctx.setA_released (c : Ctx) (i : AReg) (v : Word) : (c.setA i v).released = c.released := rfl
@[simp] theorem Ctx.setA_barGen (c : Ctx) (i : AReg) (v : Word) : (c.setA i v).barGen = c.barGen := rfl
@[simp] theorem Ctx.setA_bound (c : Ctx) (i : AReg) (v : Word) : (c.setA i v).bound = c.bound := rfl
@[simp] theorem Ctx.setA_pause (c : Ctx) (i : AReg) (v : Word) : (c.setA i v).pause = c.pause := rfl
@[simp] theorem Ctx.setA_hinted (c : Ctx) (i : AReg) (v : Word) : (c.setA i v).hinted = c.hinted := rfl
@[simp] theorem Ctx.setA_placed (c : Ctx) (i : AReg) (v : Word) : (c.setA i v).placed = c.placed := rfl

/-! Ctx.setP. -/

@[simp] theorem Ctx.setP_live (c : Ctx) (i : PReg) (v : Bool) : (c.setP i v).live = c.live := by unfold Ctx.setP; split <;> rfl
@[simp] theorem Ctx.setP_kind (c : Ctx) (i : PReg) (v : Bool) : (c.setP i v).kind = c.kind := by unfold Ctx.setP; split <;> rfl
@[simp] theorem Ctx.setP_pc (c : Ctx) (i : PReg) (v : Bool) : (c.setP i v).pc = c.pc := by unfold Ctx.setP; split <;> rfl
@[simp] theorem Ctx.setP_apc (c : Ctx) (i : PReg) (v : Bool) : (c.setP i v).apc = c.apc := by unfold Ctx.setP; split <;> rfl
@[simp] theorem Ctx.setP_win (c : Ctx) (i : PReg) (v : Bool) : (c.setP i v).win = c.win := by unfold Ctx.setP; split <;> rfl
@[simp] theorem Ctx.setP_works (c : Ctx) (i : PReg) (v : Bool) : (c.setP i v).works = c.works := by unfold Ctx.setP; split <;> rfl
@[simp] theorem Ctx.setP_npc (c : Ctx) (i : PReg) (v : Bool) : (c.setP i v).npc = c.npc := by unfold Ctx.setP; split <;> rfl
@[simp] theorem Ctx.setP_cur (c : Ctx) (i : PReg) (v : Bool) : (c.setP i v).cur = c.cur := by unfold Ctx.setP; split <;> rfl
@[simp] theorem Ctx.setP_mods (c : Ctx) (i : PReg) (v : Bool) : (c.setP i v).mods = c.mods := by unfold Ctx.setP; split <;> rfl
@[simp] theorem Ctx.setP_x (c : Ctx) (i : PReg) (v : Bool) : (c.setP i v).x = c.x := by unfold Ctx.setP; split <;> rfl
@[simp] theorem Ctx.setP_a (c : Ctx) (i : PReg) (v : Bool) : (c.setP i v).a = c.a := by unfold Ctx.setP; split <;> rfl
@[simp] theorem Ctx.setP_p (c : Ctx) (i : PReg) (v : Bool) : (c.setP i v).p = if i = 0 then c.p else c.p.set i v := by unfold Ctx.setP; split <;> rfl
@[simp] theorem Ctx.setP_k (c : Ctx) (i : PReg) (v : Bool) : (c.setP i v).k = c.k := by unfold Ctx.setP; split <;> rfl
@[simp] theorem Ctx.setP_v (c : Ctx) (i : PReg) (v : Bool) : (c.setP i v).v = c.v := by unfold Ctx.setP; split <;> rfl
@[simp] theorem Ctx.setP_sb (c : Ctx) (i : PReg) (v : Bool) : (c.setP i v).sb = c.sb := by unfold Ctx.setP; split <;> rfl
@[simp] theorem Ctx.setP_groups (c : Ctx) (i : PReg) (v : Bool) : (c.setP i v).groups = c.groups := by unfold Ctx.setP; split <;> rfl
@[simp] theorem Ctx.setP_ncount (c : Ctx) (i : PReg) (v : Bool) : (c.setP i v).ncount = c.ncount := by unfold Ctx.setP; split <;> rfl
@[simp] theorem Ctx.setP_nlatch (c : Ctx) (i : PReg) (v : Bool) : (c.setP i v).nlatch = c.nlatch := by unfold Ctx.setP; split <;> rfl
@[simp] theorem Ctx.setP_st (c : Ctx) (i : PReg) (v : Bool) : (c.setP i v).st = c.st := by unfold Ctx.setP; split <;> rfl
@[simp] theorem Ctx.setP_cr (c : Ctx) (i : PReg) (v : Bool) : (c.setP i v).cr = c.cr := by unfold Ctx.setP; split <;> rfl
@[simp] theorem Ctx.setP_ids (c : Ctx) (i : PReg) (v : Bool) : (c.setP i v).ids = c.ids := by unfold Ctx.setP; split <;> rfl
@[simp] theorem Ctx.setP_mprio (c : Ctx) (i : PReg) (v : Bool) : (c.setP i v).mprio = c.mprio := by unfold Ctx.setP; split <;> rfl
@[simp] theorem Ctx.setP_chEnd (c : Ctx) (i : PReg) (v : Bool) : (c.setP i v).chEnd = c.chEnd := by unfold Ctx.setP; split <;> rfl
@[simp] theorem Ctx.setP_chStep (c : Ctx) (i : PReg) (v : Bool) : (c.setP i v).chStep = c.chStep := by unfold Ctx.setP; split <;> rfl
@[simp] theorem Ctx.setP_chRun (c : Ctx) (i : PReg) (v : Bool) : (c.setP i v).chRun = c.chRun := by unfold Ctx.setP; split <;> rfl
@[simp] theorem Ctx.setP_acc (c : Ctx) (i : PReg) (v : Bool) : (c.setP i v).acc = c.acc := by unfold Ctx.setP; split <;> rfl
@[simp] theorem Ctx.setP_owes (c : Ctx) (i : PReg) (v : Bool) : (c.setP i v).owes = c.owes := by unfold Ctx.setP; split <;> rfl
@[simp] theorem Ctx.setP_latch (c : Ctx) (i : PReg) (v : Bool) : (c.setP i v).latch = c.latch := by unfold Ctx.setP; split <;> rfl
@[simp] theorem Ctx.setP_go (c : Ctx) (i : PReg) (v : Bool) : (c.setP i v).go = c.go := by unfold Ctx.setP; split <;> rfl
@[simp] theorem Ctx.setP_wait (c : Ctx) (i : PReg) (v : Bool) : (c.setP i v).wait = c.wait := by unfold Ctx.setP; split <;> rfl
@[simp] theorem Ctx.setP_parks (c : Ctx) (i : PReg) (v : Bool) : (c.setP i v).parks = c.parks := by unfold Ctx.setP; split <;> rfl
@[simp] theorem Ctx.setP_pending (c : Ctx) (i : PReg) (v : Bool) : (c.setP i v).pending = c.pending := by unfold Ctx.setP; split <;> rfl
@[simp] theorem Ctx.setP_mtch (c : Ctx) (i : PReg) (v : Bool) : (c.setP i v).mtch = c.mtch := by unfold Ctx.setP; split <;> rfl
@[simp] theorem Ctx.setP_team (c : Ctx) (i : PReg) (v : Bool) : (c.setP i v).team = c.team := by unfold Ctx.setP; split <;> rfl
@[simp] theorem Ctx.setP_task (c : Ctx) (i : PReg) (v : Bool) : (c.setP i v).task = c.task := by unfold Ctx.setP; split <;> rfl
@[simp] theorem Ctx.setP_inv (c : Ctx) (i : PReg) (v : Bool) : (c.setP i v).inv = c.inv := by unfold Ctx.setP; split <;> rfl
@[simp] theorem Ctx.setP_deadline (c : Ctx) (i : PReg) (v : Bool) : (c.setP i v).deadline = c.deadline := by unfold Ctx.setP; split <;> rfl
@[simp] theorem Ctx.setP_yielded (c : Ctx) (i : PReg) (v : Bool) : (c.setP i v).yielded = c.yielded := by unfold Ctx.setP; split <;> rfl
@[simp] theorem Ctx.setP_wake (c : Ctx) (i : PReg) (v : Bool) : (c.setP i v).wake = c.wake := by unfold Ctx.setP; split <;> rfl
@[simp] theorem Ctx.setP_parked (c : Ctx) (i : PReg) (v : Bool) : (c.setP i v).parked = c.parked := by unfold Ctx.setP; split <;> rfl
@[simp] theorem Ctx.setP_exitv (c : Ctx) (i : PReg) (v : Bool) : (c.setP i v).exitv = c.exitv := by unfold Ctx.setP; split <;> rfl
@[simp] theorem Ctx.setP_gen (c : Ctx) (i : PReg) (v : Bool) : (c.setP i v).gen = c.gen := by unfold Ctx.setP; split <;> rfl
@[simp] theorem Ctx.setP_region (c : Ctx) (i : PReg) (v : Bool) : (c.setP i v).region = c.region := by unfold Ctx.setP; split <;> rfl
@[simp] theorem Ctx.setP_sidx (c : Ctx) (i : PReg) (v : Bool) : (c.setP i v).sidx = c.sidx := by unfold Ctx.setP; split <;> rfl
@[simp] theorem Ctx.setP_released (c : Ctx) (i : PReg) (v : Bool) : (c.setP i v).released = c.released := by unfold Ctx.setP; split <;> rfl
@[simp] theorem Ctx.setP_barGen (c : Ctx) (i : PReg) (v : Bool) : (c.setP i v).barGen = c.barGen := by unfold Ctx.setP; split <;> rfl
@[simp] theorem Ctx.setP_bound (c : Ctx) (i : PReg) (v : Bool) : (c.setP i v).bound = c.bound := by unfold Ctx.setP; split <;> rfl
@[simp] theorem Ctx.setP_pause (c : Ctx) (i : PReg) (v : Bool) : (c.setP i v).pause = c.pause := by unfold Ctx.setP; split <;> rfl
@[simp] theorem Ctx.setP_hinted (c : Ctx) (i : PReg) (v : Bool) : (c.setP i v).hinted = c.hinted := by unfold Ctx.setP; split <;> rfl
@[simp] theorem Ctx.setP_placed (c : Ctx) (i : PReg) (v : Bool) : (c.setP i v).placed = c.placed := by unfold Ctx.setP; split <;> rfl

/-! Ctx.setK. -/

@[simp] theorem Ctx.setK_live (c : Ctx) (i : KReg) (v : BitVec 256) : (c.setK i v).live = c.live := by unfold Ctx.setK; split <;> rfl
@[simp] theorem Ctx.setK_kind (c : Ctx) (i : KReg) (v : BitVec 256) : (c.setK i v).kind = c.kind := by unfold Ctx.setK; split <;> rfl
@[simp] theorem Ctx.setK_pc (c : Ctx) (i : KReg) (v : BitVec 256) : (c.setK i v).pc = c.pc := by unfold Ctx.setK; split <;> rfl
@[simp] theorem Ctx.setK_apc (c : Ctx) (i : KReg) (v : BitVec 256) : (c.setK i v).apc = c.apc := by unfold Ctx.setK; split <;> rfl
@[simp] theorem Ctx.setK_win (c : Ctx) (i : KReg) (v : BitVec 256) : (c.setK i v).win = c.win := by unfold Ctx.setK; split <;> rfl
@[simp] theorem Ctx.setK_works (c : Ctx) (i : KReg) (v : BitVec 256) : (c.setK i v).works = c.works := by unfold Ctx.setK; split <;> rfl
@[simp] theorem Ctx.setK_npc (c : Ctx) (i : KReg) (v : BitVec 256) : (c.setK i v).npc = c.npc := by unfold Ctx.setK; split <;> rfl
@[simp] theorem Ctx.setK_cur (c : Ctx) (i : KReg) (v : BitVec 256) : (c.setK i v).cur = c.cur := by unfold Ctx.setK; split <;> rfl
@[simp] theorem Ctx.setK_mods (c : Ctx) (i : KReg) (v : BitVec 256) : (c.setK i v).mods = c.mods := by unfold Ctx.setK; split <;> rfl
@[simp] theorem Ctx.setK_x (c : Ctx) (i : KReg) (v : BitVec 256) : (c.setK i v).x = c.x := by unfold Ctx.setK; split <;> rfl
@[simp] theorem Ctx.setK_a (c : Ctx) (i : KReg) (v : BitVec 256) : (c.setK i v).a = c.a := by unfold Ctx.setK; split <;> rfl
@[simp] theorem Ctx.setK_p (c : Ctx) (i : KReg) (v : BitVec 256) : (c.setK i v).p = c.p := by unfold Ctx.setK; split <;> rfl
@[simp] theorem Ctx.setK_k (c : Ctx) (i : KReg) (v : BitVec 256) : (c.setK i v).k = if i = 0 then c.k else c.k.set i (v &&& c.lanes) := by unfold Ctx.setK; split <;> rfl
@[simp] theorem Ctx.setK_v (c : Ctx) (i : KReg) (v : BitVec 256) : (c.setK i v).v = c.v := by unfold Ctx.setK; split <;> rfl
@[simp] theorem Ctx.setK_sb (c : Ctx) (i : KReg) (v : BitVec 256) : (c.setK i v).sb = c.sb := by unfold Ctx.setK; split <;> rfl
@[simp] theorem Ctx.setK_groups (c : Ctx) (i : KReg) (v : BitVec 256) : (c.setK i v).groups = c.groups := by unfold Ctx.setK; split <;> rfl
@[simp] theorem Ctx.setK_ncount (c : Ctx) (i : KReg) (v : BitVec 256) : (c.setK i v).ncount = c.ncount := by unfold Ctx.setK; split <;> rfl
@[simp] theorem Ctx.setK_nlatch (c : Ctx) (i : KReg) (v : BitVec 256) : (c.setK i v).nlatch = c.nlatch := by unfold Ctx.setK; split <;> rfl
@[simp] theorem Ctx.setK_st (c : Ctx) (i : KReg) (v : BitVec 256) : (c.setK i v).st = c.st := by unfold Ctx.setK; split <;> rfl
@[simp] theorem Ctx.setK_cr (c : Ctx) (i : KReg) (v : BitVec 256) : (c.setK i v).cr = c.cr := by unfold Ctx.setK; split <;> rfl
@[simp] theorem Ctx.setK_ids (c : Ctx) (i : KReg) (v : BitVec 256) : (c.setK i v).ids = c.ids := by unfold Ctx.setK; split <;> rfl
@[simp] theorem Ctx.setK_mprio (c : Ctx) (i : KReg) (v : BitVec 256) : (c.setK i v).mprio = c.mprio := by unfold Ctx.setK; split <;> rfl
@[simp] theorem Ctx.setK_chEnd (c : Ctx) (i : KReg) (v : BitVec 256) : (c.setK i v).chEnd = c.chEnd := by unfold Ctx.setK; split <;> rfl
@[simp] theorem Ctx.setK_chStep (c : Ctx) (i : KReg) (v : BitVec 256) : (c.setK i v).chStep = c.chStep := by unfold Ctx.setK; split <;> rfl
@[simp] theorem Ctx.setK_chRun (c : Ctx) (i : KReg) (v : BitVec 256) : (c.setK i v).chRun = c.chRun := by unfold Ctx.setK; split <;> rfl
@[simp] theorem Ctx.setK_acc (c : Ctx) (i : KReg) (v : BitVec 256) : (c.setK i v).acc = c.acc := by unfold Ctx.setK; split <;> rfl
@[simp] theorem Ctx.setK_owes (c : Ctx) (i : KReg) (v : BitVec 256) : (c.setK i v).owes = c.owes := by unfold Ctx.setK; split <;> rfl
@[simp] theorem Ctx.setK_latch (c : Ctx) (i : KReg) (v : BitVec 256) : (c.setK i v).latch = c.latch := by unfold Ctx.setK; split <;> rfl
@[simp] theorem Ctx.setK_go (c : Ctx) (i : KReg) (v : BitVec 256) : (c.setK i v).go = c.go := by unfold Ctx.setK; split <;> rfl
@[simp] theorem Ctx.setK_wait (c : Ctx) (i : KReg) (v : BitVec 256) : (c.setK i v).wait = c.wait := by unfold Ctx.setK; split <;> rfl
@[simp] theorem Ctx.setK_parks (c : Ctx) (i : KReg) (v : BitVec 256) : (c.setK i v).parks = c.parks := by unfold Ctx.setK; split <;> rfl
@[simp] theorem Ctx.setK_pending (c : Ctx) (i : KReg) (v : BitVec 256) : (c.setK i v).pending = c.pending := by unfold Ctx.setK; split <;> rfl
@[simp] theorem Ctx.setK_mtch (c : Ctx) (i : KReg) (v : BitVec 256) : (c.setK i v).mtch = c.mtch := by unfold Ctx.setK; split <;> rfl
@[simp] theorem Ctx.setK_team (c : Ctx) (i : KReg) (v : BitVec 256) : (c.setK i v).team = c.team := by unfold Ctx.setK; split <;> rfl
@[simp] theorem Ctx.setK_task (c : Ctx) (i : KReg) (v : BitVec 256) : (c.setK i v).task = c.task := by unfold Ctx.setK; split <;> rfl
@[simp] theorem Ctx.setK_inv (c : Ctx) (i : KReg) (v : BitVec 256) : (c.setK i v).inv = c.inv := by unfold Ctx.setK; split <;> rfl
@[simp] theorem Ctx.setK_deadline (c : Ctx) (i : KReg) (v : BitVec 256) : (c.setK i v).deadline = c.deadline := by unfold Ctx.setK; split <;> rfl
@[simp] theorem Ctx.setK_yielded (c : Ctx) (i : KReg) (v : BitVec 256) : (c.setK i v).yielded = c.yielded := by unfold Ctx.setK; split <;> rfl
@[simp] theorem Ctx.setK_wake (c : Ctx) (i : KReg) (v : BitVec 256) : (c.setK i v).wake = c.wake := by unfold Ctx.setK; split <;> rfl
@[simp] theorem Ctx.setK_parked (c : Ctx) (i : KReg) (v : BitVec 256) : (c.setK i v).parked = c.parked := by unfold Ctx.setK; split <;> rfl
@[simp] theorem Ctx.setK_exitv (c : Ctx) (i : KReg) (v : BitVec 256) : (c.setK i v).exitv = c.exitv := by unfold Ctx.setK; split <;> rfl
@[simp] theorem Ctx.setK_gen (c : Ctx) (i : KReg) (v : BitVec 256) : (c.setK i v).gen = c.gen := by unfold Ctx.setK; split <;> rfl
@[simp] theorem Ctx.setK_region (c : Ctx) (i : KReg) (v : BitVec 256) : (c.setK i v).region = c.region := by unfold Ctx.setK; split <;> rfl
@[simp] theorem Ctx.setK_sidx (c : Ctx) (i : KReg) (v : BitVec 256) : (c.setK i v).sidx = c.sidx := by unfold Ctx.setK; split <;> rfl
@[simp] theorem Ctx.setK_released (c : Ctx) (i : KReg) (v : BitVec 256) : (c.setK i v).released = c.released := by unfold Ctx.setK; split <;> rfl
@[simp] theorem Ctx.setK_barGen (c : Ctx) (i : KReg) (v : BitVec 256) : (c.setK i v).barGen = c.barGen := by unfold Ctx.setK; split <;> rfl
@[simp] theorem Ctx.setK_bound (c : Ctx) (i : KReg) (v : BitVec 256) : (c.setK i v).bound = c.bound := by unfold Ctx.setK; split <;> rfl
@[simp] theorem Ctx.setK_pause (c : Ctx) (i : KReg) (v : BitVec 256) : (c.setK i v).pause = c.pause := by unfold Ctx.setK; split <;> rfl
@[simp] theorem Ctx.setK_hinted (c : Ctx) (i : KReg) (v : BitVec 256) : (c.setK i v).hinted = c.hinted := by unfold Ctx.setK; split <;> rfl
@[simp] theorem Ctx.setK_placed (c : Ctx) (i : KReg) (v : BitVec 256) : (c.setK i v).placed = c.placed := by unfold Ctx.setK; split <;> rfl

/-! Ctx.setV. -/

@[simp] theorem Ctx.setV_live (c : Ctx) (i : VReg) (v : BitVec 8192) : (c.setV i v).live = c.live := rfl
@[simp] theorem Ctx.setV_kind (c : Ctx) (i : VReg) (v : BitVec 8192) : (c.setV i v).kind = c.kind := rfl
@[simp] theorem Ctx.setV_pc (c : Ctx) (i : VReg) (v : BitVec 8192) : (c.setV i v).pc = c.pc := rfl
@[simp] theorem Ctx.setV_apc (c : Ctx) (i : VReg) (v : BitVec 8192) : (c.setV i v).apc = c.apc := rfl
@[simp] theorem Ctx.setV_win (c : Ctx) (i : VReg) (v : BitVec 8192) : (c.setV i v).win = c.win := rfl
@[simp] theorem Ctx.setV_works (c : Ctx) (i : VReg) (v : BitVec 8192) : (c.setV i v).works = c.works := rfl
@[simp] theorem Ctx.setV_npc (c : Ctx) (i : VReg) (v : BitVec 8192) : (c.setV i v).npc = c.npc := rfl
@[simp] theorem Ctx.setV_cur (c : Ctx) (i : VReg) (v : BitVec 8192) : (c.setV i v).cur = c.cur := rfl
@[simp] theorem Ctx.setV_mods (c : Ctx) (i : VReg) (v : BitVec 8192) : (c.setV i v).mods = c.mods := rfl
@[simp] theorem Ctx.setV_x (c : Ctx) (i : VReg) (v : BitVec 8192) : (c.setV i v).x = c.x := rfl
@[simp] theorem Ctx.setV_a (c : Ctx) (i : VReg) (v : BitVec 8192) : (c.setV i v).a = c.a := rfl
@[simp] theorem Ctx.setV_p (c : Ctx) (i : VReg) (v : BitVec 8192) : (c.setV i v).p = c.p := rfl
@[simp] theorem Ctx.setV_k (c : Ctx) (i : VReg) (v : BitVec 8192) : (c.setV i v).k = c.k := rfl
@[simp] theorem Ctx.setV_v (c : Ctx) (i : VReg) (v : BitVec 8192) : (c.setV i v).v = c.v.set i v := rfl
@[simp] theorem Ctx.setV_sb (c : Ctx) (i : VReg) (v : BitVec 8192) : (c.setV i v).sb = c.sb := rfl
@[simp] theorem Ctx.setV_groups (c : Ctx) (i : VReg) (v : BitVec 8192) : (c.setV i v).groups = c.groups := rfl
@[simp] theorem Ctx.setV_ncount (c : Ctx) (i : VReg) (v : BitVec 8192) : (c.setV i v).ncount = c.ncount := rfl
@[simp] theorem Ctx.setV_nlatch (c : Ctx) (i : VReg) (v : BitVec 8192) : (c.setV i v).nlatch = c.nlatch := rfl
@[simp] theorem Ctx.setV_st (c : Ctx) (i : VReg) (v : BitVec 8192) : (c.setV i v).st = c.st := rfl
@[simp] theorem Ctx.setV_cr (c : Ctx) (i : VReg) (v : BitVec 8192) : (c.setV i v).cr = c.cr := rfl
@[simp] theorem Ctx.setV_ids (c : Ctx) (i : VReg) (v : BitVec 8192) : (c.setV i v).ids = c.ids := rfl
@[simp] theorem Ctx.setV_mprio (c : Ctx) (i : VReg) (v : BitVec 8192) : (c.setV i v).mprio = c.mprio := rfl
@[simp] theorem Ctx.setV_chEnd (c : Ctx) (i : VReg) (v : BitVec 8192) : (c.setV i v).chEnd = c.chEnd := rfl
@[simp] theorem Ctx.setV_chStep (c : Ctx) (i : VReg) (v : BitVec 8192) : (c.setV i v).chStep = c.chStep := rfl
@[simp] theorem Ctx.setV_chRun (c : Ctx) (i : VReg) (v : BitVec 8192) : (c.setV i v).chRun = c.chRun := rfl
@[simp] theorem Ctx.setV_acc (c : Ctx) (i : VReg) (v : BitVec 8192) : (c.setV i v).acc = c.acc := rfl
@[simp] theorem Ctx.setV_owes (c : Ctx) (i : VReg) (v : BitVec 8192) : (c.setV i v).owes = c.owes := rfl
@[simp] theorem Ctx.setV_latch (c : Ctx) (i : VReg) (v : BitVec 8192) : (c.setV i v).latch = c.latch := rfl
@[simp] theorem Ctx.setV_go (c : Ctx) (i : VReg) (v : BitVec 8192) : (c.setV i v).go = c.go := rfl
@[simp] theorem Ctx.setV_wait (c : Ctx) (i : VReg) (v : BitVec 8192) : (c.setV i v).wait = c.wait := rfl
@[simp] theorem Ctx.setV_parks (c : Ctx) (i : VReg) (v : BitVec 8192) : (c.setV i v).parks = c.parks := rfl
@[simp] theorem Ctx.setV_pending (c : Ctx) (i : VReg) (v : BitVec 8192) : (c.setV i v).pending = c.pending := rfl
@[simp] theorem Ctx.setV_mtch (c : Ctx) (i : VReg) (v : BitVec 8192) : (c.setV i v).mtch = c.mtch := rfl
@[simp] theorem Ctx.setV_team (c : Ctx) (i : VReg) (v : BitVec 8192) : (c.setV i v).team = c.team := rfl
@[simp] theorem Ctx.setV_task (c : Ctx) (i : VReg) (v : BitVec 8192) : (c.setV i v).task = c.task := rfl
@[simp] theorem Ctx.setV_inv (c : Ctx) (i : VReg) (v : BitVec 8192) : (c.setV i v).inv = c.inv := rfl
@[simp] theorem Ctx.setV_deadline (c : Ctx) (i : VReg) (v : BitVec 8192) : (c.setV i v).deadline = c.deadline := rfl
@[simp] theorem Ctx.setV_yielded (c : Ctx) (i : VReg) (v : BitVec 8192) : (c.setV i v).yielded = c.yielded := rfl
@[simp] theorem Ctx.setV_wake (c : Ctx) (i : VReg) (v : BitVec 8192) : (c.setV i v).wake = c.wake := rfl
@[simp] theorem Ctx.setV_parked (c : Ctx) (i : VReg) (v : BitVec 8192) : (c.setV i v).parked = c.parked := rfl
@[simp] theorem Ctx.setV_exitv (c : Ctx) (i : VReg) (v : BitVec 8192) : (c.setV i v).exitv = c.exitv := rfl
@[simp] theorem Ctx.setV_gen (c : Ctx) (i : VReg) (v : BitVec 8192) : (c.setV i v).gen = c.gen := rfl
@[simp] theorem Ctx.setV_region (c : Ctx) (i : VReg) (v : BitVec 8192) : (c.setV i v).region = c.region := rfl
@[simp] theorem Ctx.setV_sidx (c : Ctx) (i : VReg) (v : BitVec 8192) : (c.setV i v).sidx = c.sidx := rfl
@[simp] theorem Ctx.setV_released (c : Ctx) (i : VReg) (v : BitVec 8192) : (c.setV i v).released = c.released := rfl
@[simp] theorem Ctx.setV_barGen (c : Ctx) (i : VReg) (v : BitVec 8192) : (c.setV i v).barGen = c.barGen := rfl
@[simp] theorem Ctx.setV_bound (c : Ctx) (i : VReg) (v : BitVec 8192) : (c.setV i v).bound = c.bound := rfl
@[simp] theorem Ctx.setV_pause (c : Ctx) (i : VReg) (v : BitVec 8192) : (c.setV i v).pause = c.pause := rfl
@[simp] theorem Ctx.setV_hinted (c : Ctx) (i : VReg) (v : BitVec 8192) : (c.setV i v).hinted = c.hinted := rfl
@[simp] theorem Ctx.setV_placed (c : Ctx) (i : VReg) (v : BitVec 8192) : (c.setV i v).placed = c.placed := rfl

/-! Ctx.putLanes. -/

@[simp] theorem Ctx.putLanes_live (c : Ctx) (i : VReg) (m : BitVec 256) (v : BitVec 8192) : (c.putLanes i m v).live = c.live := rfl
@[simp] theorem Ctx.putLanes_kind (c : Ctx) (i : VReg) (m : BitVec 256) (v : BitVec 8192) : (c.putLanes i m v).kind = c.kind := rfl
@[simp] theorem Ctx.putLanes_pc (c : Ctx) (i : VReg) (m : BitVec 256) (v : BitVec 8192) : (c.putLanes i m v).pc = c.pc := rfl
@[simp] theorem Ctx.putLanes_apc (c : Ctx) (i : VReg) (m : BitVec 256) (v : BitVec 8192) : (c.putLanes i m v).apc = c.apc := rfl
@[simp] theorem Ctx.putLanes_win (c : Ctx) (i : VReg) (m : BitVec 256) (v : BitVec 8192) : (c.putLanes i m v).win = c.win := rfl
@[simp] theorem Ctx.putLanes_works (c : Ctx) (i : VReg) (m : BitVec 256) (v : BitVec 8192) : (c.putLanes i m v).works = c.works := rfl
@[simp] theorem Ctx.putLanes_npc (c : Ctx) (i : VReg) (m : BitVec 256) (v : BitVec 8192) : (c.putLanes i m v).npc = c.npc := rfl
@[simp] theorem Ctx.putLanes_cur (c : Ctx) (i : VReg) (m : BitVec 256) (v : BitVec 8192) : (c.putLanes i m v).cur = c.cur := rfl
@[simp] theorem Ctx.putLanes_mods (c : Ctx) (i : VReg) (m : BitVec 256) (v : BitVec 8192) : (c.putLanes i m v).mods = c.mods := rfl
@[simp] theorem Ctx.putLanes_x (c : Ctx) (i : VReg) (m : BitVec 256) (v : BitVec 8192) : (c.putLanes i m v).x = c.x := rfl
@[simp] theorem Ctx.putLanes_a (c : Ctx) (i : VReg) (m : BitVec 256) (v : BitVec 8192) : (c.putLanes i m v).a = c.a := rfl
@[simp] theorem Ctx.putLanes_p (c : Ctx) (i : VReg) (m : BitVec 256) (v : BitVec 8192) : (c.putLanes i m v).p = c.p := rfl
@[simp] theorem Ctx.putLanes_k (c : Ctx) (i : VReg) (m : BitVec 256) (v : BitVec 8192) : (c.putLanes i m v).k = c.k := rfl
@[simp] theorem Ctx.putLanes_sb (c : Ctx) (i : VReg) (m : BitVec 256) (v : BitVec 8192) : (c.putLanes i m v).sb = c.sb := rfl
@[simp] theorem Ctx.putLanes_groups (c : Ctx) (i : VReg) (m : BitVec 256) (v : BitVec 8192) : (c.putLanes i m v).groups = c.groups := rfl
@[simp] theorem Ctx.putLanes_ncount (c : Ctx) (i : VReg) (m : BitVec 256) (v : BitVec 8192) : (c.putLanes i m v).ncount = c.ncount := rfl
@[simp] theorem Ctx.putLanes_nlatch (c : Ctx) (i : VReg) (m : BitVec 256) (v : BitVec 8192) : (c.putLanes i m v).nlatch = c.nlatch := rfl
@[simp] theorem Ctx.putLanes_st (c : Ctx) (i : VReg) (m : BitVec 256) (v : BitVec 8192) : (c.putLanes i m v).st = c.st := rfl
@[simp] theorem Ctx.putLanes_cr (c : Ctx) (i : VReg) (m : BitVec 256) (v : BitVec 8192) : (c.putLanes i m v).cr = c.cr := rfl
@[simp] theorem Ctx.putLanes_ids (c : Ctx) (i : VReg) (m : BitVec 256) (v : BitVec 8192) : (c.putLanes i m v).ids = c.ids := rfl
@[simp] theorem Ctx.putLanes_mprio (c : Ctx) (i : VReg) (m : BitVec 256) (v : BitVec 8192) : (c.putLanes i m v).mprio = c.mprio := rfl
@[simp] theorem Ctx.putLanes_chEnd (c : Ctx) (i : VReg) (m : BitVec 256) (v : BitVec 8192) : (c.putLanes i m v).chEnd = c.chEnd := rfl
@[simp] theorem Ctx.putLanes_chStep (c : Ctx) (i : VReg) (m : BitVec 256) (v : BitVec 8192) : (c.putLanes i m v).chStep = c.chStep := rfl
@[simp] theorem Ctx.putLanes_chRun (c : Ctx) (i : VReg) (m : BitVec 256) (v : BitVec 8192) : (c.putLanes i m v).chRun = c.chRun := rfl
@[simp] theorem Ctx.putLanes_acc (c : Ctx) (i : VReg) (m : BitVec 256) (v : BitVec 8192) : (c.putLanes i m v).acc = c.acc := rfl
@[simp] theorem Ctx.putLanes_owes (c : Ctx) (i : VReg) (m : BitVec 256) (v : BitVec 8192) : (c.putLanes i m v).owes = c.owes := rfl
@[simp] theorem Ctx.putLanes_latch (c : Ctx) (i : VReg) (m : BitVec 256) (v : BitVec 8192) : (c.putLanes i m v).latch = c.latch := rfl
@[simp] theorem Ctx.putLanes_go (c : Ctx) (i : VReg) (m : BitVec 256) (v : BitVec 8192) : (c.putLanes i m v).go = c.go := rfl
@[simp] theorem Ctx.putLanes_wait (c : Ctx) (i : VReg) (m : BitVec 256) (v : BitVec 8192) : (c.putLanes i m v).wait = c.wait := rfl
@[simp] theorem Ctx.putLanes_parks (c : Ctx) (i : VReg) (m : BitVec 256) (v : BitVec 8192) : (c.putLanes i m v).parks = c.parks := rfl
@[simp] theorem Ctx.putLanes_pending (c : Ctx) (i : VReg) (m : BitVec 256) (v : BitVec 8192) : (c.putLanes i m v).pending = c.pending := rfl
@[simp] theorem Ctx.putLanes_mtch (c : Ctx) (i : VReg) (m : BitVec 256) (v : BitVec 8192) : (c.putLanes i m v).mtch = c.mtch := rfl
@[simp] theorem Ctx.putLanes_team (c : Ctx) (i : VReg) (m : BitVec 256) (v : BitVec 8192) : (c.putLanes i m v).team = c.team := rfl
@[simp] theorem Ctx.putLanes_task (c : Ctx) (i : VReg) (m : BitVec 256) (v : BitVec 8192) : (c.putLanes i m v).task = c.task := rfl
@[simp] theorem Ctx.putLanes_inv (c : Ctx) (i : VReg) (m : BitVec 256) (v : BitVec 8192) : (c.putLanes i m v).inv = c.inv := rfl
@[simp] theorem Ctx.putLanes_deadline (c : Ctx) (i : VReg) (m : BitVec 256) (v : BitVec 8192) : (c.putLanes i m v).deadline = c.deadline := rfl
@[simp] theorem Ctx.putLanes_yielded (c : Ctx) (i : VReg) (m : BitVec 256) (v : BitVec 8192) : (c.putLanes i m v).yielded = c.yielded := rfl
@[simp] theorem Ctx.putLanes_wake (c : Ctx) (i : VReg) (m : BitVec 256) (v : BitVec 8192) : (c.putLanes i m v).wake = c.wake := rfl
@[simp] theorem Ctx.putLanes_parked (c : Ctx) (i : VReg) (m : BitVec 256) (v : BitVec 8192) : (c.putLanes i m v).parked = c.parked := rfl
@[simp] theorem Ctx.putLanes_exitv (c : Ctx) (i : VReg) (m : BitVec 256) (v : BitVec 8192) : (c.putLanes i m v).exitv = c.exitv := rfl
@[simp] theorem Ctx.putLanes_gen (c : Ctx) (i : VReg) (m : BitVec 256) (v : BitVec 8192) : (c.putLanes i m v).gen = c.gen := rfl
@[simp] theorem Ctx.putLanes_region (c : Ctx) (i : VReg) (m : BitVec 256) (v : BitVec 8192) : (c.putLanes i m v).region = c.region := rfl
@[simp] theorem Ctx.putLanes_sidx (c : Ctx) (i : VReg) (m : BitVec 256) (v : BitVec 8192) : (c.putLanes i m v).sidx = c.sidx := rfl
@[simp] theorem Ctx.putLanes_released (c : Ctx) (i : VReg) (m : BitVec 256) (v : BitVec 8192) : (c.putLanes i m v).released = c.released := rfl
@[simp] theorem Ctx.putLanes_barGen (c : Ctx) (i : VReg) (m : BitVec 256) (v : BitVec 8192) : (c.putLanes i m v).barGen = c.barGen := rfl
@[simp] theorem Ctx.putLanes_bound (c : Ctx) (i : VReg) (m : BitVec 256) (v : BitVec 8192) : (c.putLanes i m v).bound = c.bound := rfl
@[simp] theorem Ctx.putLanes_pause (c : Ctx) (i : VReg) (m : BitVec 256) (v : BitVec 8192) : (c.putLanes i m v).pause = c.pause := rfl
@[simp] theorem Ctx.putLanes_hinted (c : Ctx) (i : VReg) (m : BitVec 256) (v : BitVec 8192) : (c.putLanes i m v).hinted = c.hinted := rfl
@[simp] theorem Ctx.putLanes_placed (c : Ctx) (i : VReg) (m : BitVec 256) (v : BitVec 8192) : (c.putLanes i m v).placed = c.placed := rfl

/-! Ctx.setReg. -/

@[simp] theorem Ctx.setReg_live (c : Ctx) (r : Reg) (v : Word) : (c.setReg r v).live = c.live := by cases r <;> simp [Ctx.setReg]
@[simp] theorem Ctx.setReg_kind (c : Ctx) (r : Reg) (v : Word) : (c.setReg r v).kind = c.kind := by cases r <;> simp [Ctx.setReg]
@[simp] theorem Ctx.setReg_pc (c : Ctx) (r : Reg) (v : Word) : (c.setReg r v).pc = c.pc := by cases r <;> simp [Ctx.setReg]
@[simp] theorem Ctx.setReg_apc (c : Ctx) (r : Reg) (v : Word) : (c.setReg r v).apc = c.apc := by cases r <;> simp [Ctx.setReg]
@[simp] theorem Ctx.setReg_win (c : Ctx) (r : Reg) (v : Word) : (c.setReg r v).win = c.win := by cases r <;> simp [Ctx.setReg]
@[simp] theorem Ctx.setReg_works (c : Ctx) (r : Reg) (v : Word) : (c.setReg r v).works = c.works := by cases r <;> simp [Ctx.setReg]
@[simp] theorem Ctx.setReg_npc (c : Ctx) (r : Reg) (v : Word) : (c.setReg r v).npc = c.npc := by cases r <;> simp [Ctx.setReg]
@[simp] theorem Ctx.setReg_cur (c : Ctx) (r : Reg) (v : Word) : (c.setReg r v).cur = c.cur := by cases r <;> simp [Ctx.setReg]
@[simp] theorem Ctx.setReg_mods (c : Ctx) (r : Reg) (v : Word) : (c.setReg r v).mods = c.mods := by cases r <;> simp [Ctx.setReg]
@[simp] theorem Ctx.setReg_p (c : Ctx) (r : Reg) (v : Word) : (c.setReg r v).p = c.p := by cases r <;> simp [Ctx.setReg]
@[simp] theorem Ctx.setReg_k (c : Ctx) (r : Reg) (v : Word) : (c.setReg r v).k = c.k := by cases r <;> simp [Ctx.setReg]
@[simp] theorem Ctx.setReg_v (c : Ctx) (r : Reg) (v : Word) : (c.setReg r v).v = c.v := by cases r <;> simp [Ctx.setReg]
@[simp] theorem Ctx.setReg_sb (c : Ctx) (r : Reg) (v : Word) : (c.setReg r v).sb = c.sb := by cases r <;> simp [Ctx.setReg]
@[simp] theorem Ctx.setReg_groups (c : Ctx) (r : Reg) (v : Word) : (c.setReg r v).groups = c.groups := by cases r <;> simp [Ctx.setReg]
@[simp] theorem Ctx.setReg_ncount (c : Ctx) (r : Reg) (v : Word) : (c.setReg r v).ncount = c.ncount := by cases r <;> simp [Ctx.setReg]
@[simp] theorem Ctx.setReg_nlatch (c : Ctx) (r : Reg) (v : Word) : (c.setReg r v).nlatch = c.nlatch := by cases r <;> simp [Ctx.setReg]
@[simp] theorem Ctx.setReg_st (c : Ctx) (r : Reg) (v : Word) : (c.setReg r v).st = c.st := by cases r <;> simp [Ctx.setReg]
@[simp] theorem Ctx.setReg_cr (c : Ctx) (r : Reg) (v : Word) : (c.setReg r v).cr = c.cr := by cases r <;> simp [Ctx.setReg]
@[simp] theorem Ctx.setReg_ids (c : Ctx) (r : Reg) (v : Word) : (c.setReg r v).ids = c.ids := by cases r <;> simp [Ctx.setReg]
@[simp] theorem Ctx.setReg_mprio (c : Ctx) (r : Reg) (v : Word) : (c.setReg r v).mprio = c.mprio := by cases r <;> simp [Ctx.setReg]
@[simp] theorem Ctx.setReg_chEnd (c : Ctx) (r : Reg) (v : Word) : (c.setReg r v).chEnd = c.chEnd := by cases r <;> simp [Ctx.setReg]
@[simp] theorem Ctx.setReg_chStep (c : Ctx) (r : Reg) (v : Word) : (c.setReg r v).chStep = c.chStep := by cases r <;> simp [Ctx.setReg]
@[simp] theorem Ctx.setReg_chRun (c : Ctx) (r : Reg) (v : Word) : (c.setReg r v).chRun = c.chRun := by cases r <;> simp [Ctx.setReg]
@[simp] theorem Ctx.setReg_acc (c : Ctx) (r : Reg) (v : Word) : (c.setReg r v).acc = c.acc := by cases r <;> simp [Ctx.setReg]
@[simp] theorem Ctx.setReg_owes (c : Ctx) (r : Reg) (v : Word) : (c.setReg r v).owes = c.owes := by cases r <;> simp [Ctx.setReg]
@[simp] theorem Ctx.setReg_latch (c : Ctx) (r : Reg) (v : Word) : (c.setReg r v).latch = c.latch := by cases r <;> simp [Ctx.setReg]
@[simp] theorem Ctx.setReg_go (c : Ctx) (r : Reg) (v : Word) : (c.setReg r v).go = c.go := by cases r <;> simp [Ctx.setReg]
@[simp] theorem Ctx.setReg_wait (c : Ctx) (r : Reg) (v : Word) : (c.setReg r v).wait = c.wait := by cases r <;> simp [Ctx.setReg]
@[simp] theorem Ctx.setReg_parks (c : Ctx) (r : Reg) (v : Word) : (c.setReg r v).parks = c.parks := by cases r <;> simp [Ctx.setReg]
@[simp] theorem Ctx.setReg_pending (c : Ctx) (r : Reg) (v : Word) : (c.setReg r v).pending = c.pending := by cases r <;> simp [Ctx.setReg]
@[simp] theorem Ctx.setReg_mtch (c : Ctx) (r : Reg) (v : Word) : (c.setReg r v).mtch = c.mtch := by cases r <;> simp [Ctx.setReg]
@[simp] theorem Ctx.setReg_team (c : Ctx) (r : Reg) (v : Word) : (c.setReg r v).team = c.team := by cases r <;> simp [Ctx.setReg]
@[simp] theorem Ctx.setReg_task (c : Ctx) (r : Reg) (v : Word) : (c.setReg r v).task = c.task := by cases r <;> simp [Ctx.setReg]
@[simp] theorem Ctx.setReg_inv (c : Ctx) (r : Reg) (v : Word) : (c.setReg r v).inv = c.inv := by cases r <;> simp [Ctx.setReg]
@[simp] theorem Ctx.setReg_deadline (c : Ctx) (r : Reg) (v : Word) : (c.setReg r v).deadline = c.deadline := by cases r <;> simp [Ctx.setReg]
@[simp] theorem Ctx.setReg_yielded (c : Ctx) (r : Reg) (v : Word) : (c.setReg r v).yielded = c.yielded := by cases r <;> simp [Ctx.setReg]
@[simp] theorem Ctx.setReg_wake (c : Ctx) (r : Reg) (v : Word) : (c.setReg r v).wake = c.wake := by cases r <;> simp [Ctx.setReg]
@[simp] theorem Ctx.setReg_parked (c : Ctx) (r : Reg) (v : Word) : (c.setReg r v).parked = c.parked := by cases r <;> simp [Ctx.setReg]
@[simp] theorem Ctx.setReg_exitv (c : Ctx) (r : Reg) (v : Word) : (c.setReg r v).exitv = c.exitv := by cases r <;> simp [Ctx.setReg]
@[simp] theorem Ctx.setReg_gen (c : Ctx) (r : Reg) (v : Word) : (c.setReg r v).gen = c.gen := by cases r <;> simp [Ctx.setReg]
@[simp] theorem Ctx.setReg_region (c : Ctx) (r : Reg) (v : Word) : (c.setReg r v).region = c.region := by cases r <;> simp [Ctx.setReg]
@[simp] theorem Ctx.setReg_sidx (c : Ctx) (r : Reg) (v : Word) : (c.setReg r v).sidx = c.sidx := by cases r <;> simp [Ctx.setReg]
@[simp] theorem Ctx.setReg_released (c : Ctx) (r : Reg) (v : Word) : (c.setReg r v).released = c.released := by cases r <;> simp [Ctx.setReg]
@[simp] theorem Ctx.setReg_barGen (c : Ctx) (r : Reg) (v : Word) : (c.setReg r v).barGen = c.barGen := by cases r <;> simp [Ctx.setReg]
@[simp] theorem Ctx.setReg_bound (c : Ctx) (r : Reg) (v : Word) : (c.setReg r v).bound = c.bound := by cases r <;> simp [Ctx.setReg]
@[simp] theorem Ctx.setReg_pause (c : Ctx) (r : Reg) (v : Word) : (c.setReg r v).pause = c.pause := by cases r <;> simp [Ctx.setReg]
@[simp] theorem Ctx.setReg_hinted (c : Ctx) (r : Reg) (v : Word) : (c.setReg r v).hinted = c.hinted := by cases r <;> simp [Ctx.setReg]
@[simp] theorem Ctx.setReg_placed (c : Ctx) (r : Reg) (v : Word) : (c.setReg r v).placed = c.placed := by cases r <;> simp [Ctx.setReg]

/-! Ctx.orFlags. -/

@[simp] theorem Ctx.orFlags_live (c : Ctx) (fl : Fl) : (c.orFlags fl).live = c.live := rfl
@[simp] theorem Ctx.orFlags_kind (c : Ctx) (fl : Fl) : (c.orFlags fl).kind = c.kind := rfl
@[simp] theorem Ctx.orFlags_pc (c : Ctx) (fl : Fl) : (c.orFlags fl).pc = c.pc := rfl
@[simp] theorem Ctx.orFlags_apc (c : Ctx) (fl : Fl) : (c.orFlags fl).apc = c.apc := rfl
@[simp] theorem Ctx.orFlags_win (c : Ctx) (fl : Fl) : (c.orFlags fl).win = c.win := rfl
@[simp] theorem Ctx.orFlags_works (c : Ctx) (fl : Fl) : (c.orFlags fl).works = c.works := rfl
@[simp] theorem Ctx.orFlags_npc (c : Ctx) (fl : Fl) : (c.orFlags fl).npc = c.npc := rfl
@[simp] theorem Ctx.orFlags_cur (c : Ctx) (fl : Fl) : (c.orFlags fl).cur = c.cur := rfl
@[simp] theorem Ctx.orFlags_mods (c : Ctx) (fl : Fl) : (c.orFlags fl).mods = c.mods := rfl
@[simp] theorem Ctx.orFlags_x (c : Ctx) (fl : Fl) : (c.orFlags fl).x = c.x := rfl
@[simp] theorem Ctx.orFlags_a (c : Ctx) (fl : Fl) : (c.orFlags fl).a = c.a := rfl
@[simp] theorem Ctx.orFlags_p (c : Ctx) (fl : Fl) : (c.orFlags fl).p = c.p := rfl
@[simp] theorem Ctx.orFlags_k (c : Ctx) (fl : Fl) : (c.orFlags fl).k = c.k := rfl
@[simp] theorem Ctx.orFlags_v (c : Ctx) (fl : Fl) : (c.orFlags fl).v = c.v := rfl
@[simp] theorem Ctx.orFlags_sb (c : Ctx) (fl : Fl) : (c.orFlags fl).sb = c.sb := rfl
@[simp] theorem Ctx.orFlags_groups (c : Ctx) (fl : Fl) : (c.orFlags fl).groups = c.groups := rfl
@[simp] theorem Ctx.orFlags_ncount (c : Ctx) (fl : Fl) : (c.orFlags fl).ncount = c.ncount := rfl
@[simp] theorem Ctx.orFlags_nlatch (c : Ctx) (fl : Fl) : (c.orFlags fl).nlatch = c.nlatch := rfl
@[simp] theorem Ctx.orFlags_st (c : Ctx) (fl : Fl) : (c.orFlags fl).st = c.st := rfl
@[simp] theorem Ctx.orFlags_cr (c : Ctx) (fl : Fl) : (c.orFlags fl).cr = { c.cr with fflags := c.cr.fflags ||| fl.zeroExtend 64 } := rfl
@[simp] theorem Ctx.orFlags_ids (c : Ctx) (fl : Fl) : (c.orFlags fl).ids = c.ids := rfl
@[simp] theorem Ctx.orFlags_mprio (c : Ctx) (fl : Fl) : (c.orFlags fl).mprio = c.mprio := rfl
@[simp] theorem Ctx.orFlags_chEnd (c : Ctx) (fl : Fl) : (c.orFlags fl).chEnd = c.chEnd := rfl
@[simp] theorem Ctx.orFlags_chStep (c : Ctx) (fl : Fl) : (c.orFlags fl).chStep = c.chStep := rfl
@[simp] theorem Ctx.orFlags_chRun (c : Ctx) (fl : Fl) : (c.orFlags fl).chRun = c.chRun := rfl
@[simp] theorem Ctx.orFlags_acc (c : Ctx) (fl : Fl) : (c.orFlags fl).acc = c.acc := rfl
@[simp] theorem Ctx.orFlags_owes (c : Ctx) (fl : Fl) : (c.orFlags fl).owes = c.owes := rfl
@[simp] theorem Ctx.orFlags_latch (c : Ctx) (fl : Fl) : (c.orFlags fl).latch = c.latch := rfl
@[simp] theorem Ctx.orFlags_go (c : Ctx) (fl : Fl) : (c.orFlags fl).go = c.go := rfl
@[simp] theorem Ctx.orFlags_wait (c : Ctx) (fl : Fl) : (c.orFlags fl).wait = c.wait := rfl
@[simp] theorem Ctx.orFlags_parks (c : Ctx) (fl : Fl) : (c.orFlags fl).parks = c.parks := rfl
@[simp] theorem Ctx.orFlags_pending (c : Ctx) (fl : Fl) : (c.orFlags fl).pending = c.pending := rfl
@[simp] theorem Ctx.orFlags_mtch (c : Ctx) (fl : Fl) : (c.orFlags fl).mtch = c.mtch := rfl
@[simp] theorem Ctx.orFlags_team (c : Ctx) (fl : Fl) : (c.orFlags fl).team = c.team := rfl
@[simp] theorem Ctx.orFlags_task (c : Ctx) (fl : Fl) : (c.orFlags fl).task = c.task := rfl
@[simp] theorem Ctx.orFlags_inv (c : Ctx) (fl : Fl) : (c.orFlags fl).inv = c.inv := rfl
@[simp] theorem Ctx.orFlags_deadline (c : Ctx) (fl : Fl) : (c.orFlags fl).deadline = c.deadline := rfl
@[simp] theorem Ctx.orFlags_yielded (c : Ctx) (fl : Fl) : (c.orFlags fl).yielded = c.yielded := rfl
@[simp] theorem Ctx.orFlags_wake (c : Ctx) (fl : Fl) : (c.orFlags fl).wake = c.wake := rfl
@[simp] theorem Ctx.orFlags_parked (c : Ctx) (fl : Fl) : (c.orFlags fl).parked = c.parked := rfl
@[simp] theorem Ctx.orFlags_exitv (c : Ctx) (fl : Fl) : (c.orFlags fl).exitv = c.exitv := rfl
@[simp] theorem Ctx.orFlags_gen (c : Ctx) (fl : Fl) : (c.orFlags fl).gen = c.gen := rfl
@[simp] theorem Ctx.orFlags_region (c : Ctx) (fl : Fl) : (c.orFlags fl).region = c.region := rfl
@[simp] theorem Ctx.orFlags_sidx (c : Ctx) (fl : Fl) : (c.orFlags fl).sidx = c.sidx := rfl
@[simp] theorem Ctx.orFlags_released (c : Ctx) (fl : Fl) : (c.orFlags fl).released = c.released := rfl
@[simp] theorem Ctx.orFlags_barGen (c : Ctx) (fl : Fl) : (c.orFlags fl).barGen = c.barGen := rfl
@[simp] theorem Ctx.orFlags_bound (c : Ctx) (fl : Fl) : (c.orFlags fl).bound = c.bound := rfl
@[simp] theorem Ctx.orFlags_pause (c : Ctx) (fl : Fl) : (c.orFlags fl).pause = c.pause := rfl
@[simp] theorem Ctx.orFlags_hinted (c : Ctx) (fl : Fl) : (c.orFlags fl).hinted = c.hinted := rfl
@[simp] theorem Ctx.orFlags_placed (c : Ctx) (fl : Fl) : (c.orFlags fl).placed = c.placed := rfl

/-! Ctx.setFault. -/

@[simp] theorem Ctx.setFault_live (c : Ctx) (a b d e : Word) : (c.setFault a b d e).live = c.live := rfl
@[simp] theorem Ctx.setFault_kind (c : Ctx) (a b d e : Word) : (c.setFault a b d e).kind = c.kind := rfl
@[simp] theorem Ctx.setFault_pc (c : Ctx) (a b d e : Word) : (c.setFault a b d e).pc = c.pc := rfl
@[simp] theorem Ctx.setFault_apc (c : Ctx) (a b d e : Word) : (c.setFault a b d e).apc = c.apc := rfl
@[simp] theorem Ctx.setFault_win (c : Ctx) (a b d e : Word) : (c.setFault a b d e).win = c.win := rfl
@[simp] theorem Ctx.setFault_works (c : Ctx) (a b d e : Word) : (c.setFault a b d e).works = c.works := rfl
@[simp] theorem Ctx.setFault_npc (c : Ctx) (a b d e : Word) : (c.setFault a b d e).npc = c.npc := rfl
@[simp] theorem Ctx.setFault_cur (c : Ctx) (a b d e : Word) : (c.setFault a b d e).cur = c.cur := rfl
@[simp] theorem Ctx.setFault_mods (c : Ctx) (a b d e : Word) : (c.setFault a b d e).mods = c.mods := rfl
@[simp] theorem Ctx.setFault_x (c : Ctx) (a b d e : Word) : (c.setFault a b d e).x = c.x := rfl
@[simp] theorem Ctx.setFault_a (c : Ctx) (a b d e : Word) : (c.setFault a b d e).a = c.a := rfl
@[simp] theorem Ctx.setFault_p (c : Ctx) (a b d e : Word) : (c.setFault a b d e).p = c.p := rfl
@[simp] theorem Ctx.setFault_k (c : Ctx) (a b d e : Word) : (c.setFault a b d e).k = c.k := rfl
@[simp] theorem Ctx.setFault_v (c : Ctx) (a b d e : Word) : (c.setFault a b d e).v = c.v := rfl
@[simp] theorem Ctx.setFault_sb (c : Ctx) (a b d e : Word) : (c.setFault a b d e).sb = c.sb := rfl
@[simp] theorem Ctx.setFault_groups (c : Ctx) (a b d e : Word) : (c.setFault a b d e).groups = c.groups := rfl
@[simp] theorem Ctx.setFault_ncount (c : Ctx) (a b d e : Word) : (c.setFault a b d e).ncount = c.ncount := rfl
@[simp] theorem Ctx.setFault_nlatch (c : Ctx) (a b d e : Word) : (c.setFault a b d e).nlatch = c.nlatch := rfl
@[simp] theorem Ctx.setFault_st (c : Ctx) (a b d e : Word) : (c.setFault a b d e).st = c.st := rfl
@[simp] theorem Ctx.setFault_cr (c : Ctx) (a b d e : Word) : (c.setFault a b d e).cr = { c.cr with fault0 := a, fault1 := b, fault2 := d, fault3 := e } := rfl
@[simp] theorem Ctx.setFault_ids (c : Ctx) (a b d e : Word) : (c.setFault a b d e).ids = c.ids := rfl
@[simp] theorem Ctx.setFault_mprio (c : Ctx) (a b d e : Word) : (c.setFault a b d e).mprio = c.mprio := rfl
@[simp] theorem Ctx.setFault_chEnd (c : Ctx) (a b d e : Word) : (c.setFault a b d e).chEnd = c.chEnd := rfl
@[simp] theorem Ctx.setFault_chStep (c : Ctx) (a b d e : Word) : (c.setFault a b d e).chStep = c.chStep := rfl
@[simp] theorem Ctx.setFault_chRun (c : Ctx) (a b d e : Word) : (c.setFault a b d e).chRun = c.chRun := rfl
@[simp] theorem Ctx.setFault_acc (c : Ctx) (a b d e : Word) : (c.setFault a b d e).acc = c.acc := rfl
@[simp] theorem Ctx.setFault_owes (c : Ctx) (a b d e : Word) : (c.setFault a b d e).owes = c.owes := rfl
@[simp] theorem Ctx.setFault_latch (c : Ctx) (a b d e : Word) : (c.setFault a b d e).latch = c.latch := rfl
@[simp] theorem Ctx.setFault_go (c : Ctx) (a b d e : Word) : (c.setFault a b d e).go = c.go := rfl
@[simp] theorem Ctx.setFault_wait (c : Ctx) (a b d e : Word) : (c.setFault a b d e).wait = c.wait := rfl
@[simp] theorem Ctx.setFault_parks (c : Ctx) (a b d e : Word) : (c.setFault a b d e).parks = c.parks := rfl
@[simp] theorem Ctx.setFault_pending (c : Ctx) (a b d e : Word) : (c.setFault a b d e).pending = c.pending := rfl
@[simp] theorem Ctx.setFault_mtch (c : Ctx) (a b d e : Word) : (c.setFault a b d e).mtch = c.mtch := rfl
@[simp] theorem Ctx.setFault_team (c : Ctx) (a b d e : Word) : (c.setFault a b d e).team = c.team := rfl
@[simp] theorem Ctx.setFault_task (c : Ctx) (a b d e : Word) : (c.setFault a b d e).task = c.task := rfl
@[simp] theorem Ctx.setFault_inv (c : Ctx) (a b d e : Word) : (c.setFault a b d e).inv = c.inv := rfl
@[simp] theorem Ctx.setFault_deadline (c : Ctx) (a b d e : Word) : (c.setFault a b d e).deadline = c.deadline := rfl
@[simp] theorem Ctx.setFault_yielded (c : Ctx) (a b d e : Word) : (c.setFault a b d e).yielded = c.yielded := rfl
@[simp] theorem Ctx.setFault_wake (c : Ctx) (a b d e : Word) : (c.setFault a b d e).wake = c.wake := rfl
@[simp] theorem Ctx.setFault_parked (c : Ctx) (a b d e : Word) : (c.setFault a b d e).parked = c.parked := rfl
@[simp] theorem Ctx.setFault_exitv (c : Ctx) (a b d e : Word) : (c.setFault a b d e).exitv = c.exitv := rfl
@[simp] theorem Ctx.setFault_gen (c : Ctx) (a b d e : Word) : (c.setFault a b d e).gen = c.gen := rfl
@[simp] theorem Ctx.setFault_region (c : Ctx) (a b d e : Word) : (c.setFault a b d e).region = c.region := rfl
@[simp] theorem Ctx.setFault_sidx (c : Ctx) (a b d e : Word) : (c.setFault a b d e).sidx = c.sidx := rfl
@[simp] theorem Ctx.setFault_released (c : Ctx) (a b d e : Word) : (c.setFault a b d e).released = c.released := rfl
@[simp] theorem Ctx.setFault_barGen (c : Ctx) (a b d e : Word) : (c.setFault a b d e).barGen = c.barGen := rfl
@[simp] theorem Ctx.setFault_bound (c : Ctx) (a b d e : Word) : (c.setFault a b d e).bound = c.bound := rfl
@[simp] theorem Ctx.setFault_pause (c : Ctx) (a b d e : Word) : (c.setFault a b d e).pause = c.pause := rfl
@[simp] theorem Ctx.setFault_hinted (c : Ctx) (a b d e : Word) : (c.setFault a b d e).hinted = c.hinted := rfl
@[simp] theorem Ctx.setFault_placed (c : Ctx) (a b d e : Word) : (c.setFault a b d e).placed = c.placed := rfl

/-! Ctx.incSlot. -/

@[simp] theorem Ctx.incSlot_live (c : Ctx) (i : Slot) : (c.incSlot i).live = c.live := rfl
@[simp] theorem Ctx.incSlot_kind (c : Ctx) (i : Slot) : (c.incSlot i).kind = c.kind := rfl
@[simp] theorem Ctx.incSlot_pc (c : Ctx) (i : Slot) : (c.incSlot i).pc = c.pc := rfl
@[simp] theorem Ctx.incSlot_apc (c : Ctx) (i : Slot) : (c.incSlot i).apc = c.apc := rfl
@[simp] theorem Ctx.incSlot_win (c : Ctx) (i : Slot) : (c.incSlot i).win = c.win := rfl
@[simp] theorem Ctx.incSlot_works (c : Ctx) (i : Slot) : (c.incSlot i).works = c.works := rfl
@[simp] theorem Ctx.incSlot_npc (c : Ctx) (i : Slot) : (c.incSlot i).npc = c.npc := rfl
@[simp] theorem Ctx.incSlot_cur (c : Ctx) (i : Slot) : (c.incSlot i).cur = c.cur := rfl
@[simp] theorem Ctx.incSlot_mods (c : Ctx) (i : Slot) : (c.incSlot i).mods = c.mods := rfl
@[simp] theorem Ctx.incSlot_x (c : Ctx) (i : Slot) : (c.incSlot i).x = c.x := rfl
@[simp] theorem Ctx.incSlot_a (c : Ctx) (i : Slot) : (c.incSlot i).a = c.a := rfl
@[simp] theorem Ctx.incSlot_p (c : Ctx) (i : Slot) : (c.incSlot i).p = c.p := rfl
@[simp] theorem Ctx.incSlot_k (c : Ctx) (i : Slot) : (c.incSlot i).k = c.k := rfl
@[simp] theorem Ctx.incSlot_v (c : Ctx) (i : Slot) : (c.incSlot i).v = c.v := rfl
@[simp] theorem Ctx.incSlot_sb (c : Ctx) (i : Slot) : (c.incSlot i).sb = c.sb.set i (c.sb[i] + 1) := rfl
@[simp] theorem Ctx.incSlot_groups (c : Ctx) (i : Slot) : (c.incSlot i).groups = c.groups := rfl
@[simp] theorem Ctx.incSlot_ncount (c : Ctx) (i : Slot) : (c.incSlot i).ncount = c.ncount := rfl
@[simp] theorem Ctx.incSlot_nlatch (c : Ctx) (i : Slot) : (c.incSlot i).nlatch = c.nlatch := rfl
@[simp] theorem Ctx.incSlot_st (c : Ctx) (i : Slot) : (c.incSlot i).st = c.st := rfl
@[simp] theorem Ctx.incSlot_cr (c : Ctx) (i : Slot) : (c.incSlot i).cr = c.cr := rfl
@[simp] theorem Ctx.incSlot_ids (c : Ctx) (i : Slot) : (c.incSlot i).ids = c.ids := rfl
@[simp] theorem Ctx.incSlot_mprio (c : Ctx) (i : Slot) : (c.incSlot i).mprio = c.mprio := rfl
@[simp] theorem Ctx.incSlot_chEnd (c : Ctx) (i : Slot) : (c.incSlot i).chEnd = c.chEnd := rfl
@[simp] theorem Ctx.incSlot_chStep (c : Ctx) (i : Slot) : (c.incSlot i).chStep = c.chStep := rfl
@[simp] theorem Ctx.incSlot_chRun (c : Ctx) (i : Slot) : (c.incSlot i).chRun = c.chRun := rfl
@[simp] theorem Ctx.incSlot_acc (c : Ctx) (i : Slot) : (c.incSlot i).acc = c.acc := rfl
@[simp] theorem Ctx.incSlot_owes (c : Ctx) (i : Slot) : (c.incSlot i).owes = c.owes := rfl
@[simp] theorem Ctx.incSlot_latch (c : Ctx) (i : Slot) : (c.incSlot i).latch = c.latch := rfl
@[simp] theorem Ctx.incSlot_go (c : Ctx) (i : Slot) : (c.incSlot i).go = c.go := rfl
@[simp] theorem Ctx.incSlot_wait (c : Ctx) (i : Slot) : (c.incSlot i).wait = c.wait := rfl
@[simp] theorem Ctx.incSlot_parks (c : Ctx) (i : Slot) : (c.incSlot i).parks = c.parks := rfl
@[simp] theorem Ctx.incSlot_pending (c : Ctx) (i : Slot) : (c.incSlot i).pending = c.pending := rfl
@[simp] theorem Ctx.incSlot_mtch (c : Ctx) (i : Slot) : (c.incSlot i).mtch = c.mtch := rfl
@[simp] theorem Ctx.incSlot_team (c : Ctx) (i : Slot) : (c.incSlot i).team = c.team := rfl
@[simp] theorem Ctx.incSlot_task (c : Ctx) (i : Slot) : (c.incSlot i).task = c.task := rfl
@[simp] theorem Ctx.incSlot_inv (c : Ctx) (i : Slot) : (c.incSlot i).inv = c.inv := rfl
@[simp] theorem Ctx.incSlot_deadline (c : Ctx) (i : Slot) : (c.incSlot i).deadline = c.deadline := rfl
@[simp] theorem Ctx.incSlot_yielded (c : Ctx) (i : Slot) : (c.incSlot i).yielded = c.yielded := rfl
@[simp] theorem Ctx.incSlot_wake (c : Ctx) (i : Slot) : (c.incSlot i).wake = c.wake := rfl
@[simp] theorem Ctx.incSlot_parked (c : Ctx) (i : Slot) : (c.incSlot i).parked = c.parked := rfl
@[simp] theorem Ctx.incSlot_exitv (c : Ctx) (i : Slot) : (c.incSlot i).exitv = c.exitv := rfl
@[simp] theorem Ctx.incSlot_gen (c : Ctx) (i : Slot) : (c.incSlot i).gen = c.gen := rfl
@[simp] theorem Ctx.incSlot_region (c : Ctx) (i : Slot) : (c.incSlot i).region = c.region := rfl
@[simp] theorem Ctx.incSlot_sidx (c : Ctx) (i : Slot) : (c.incSlot i).sidx = c.sidx := rfl
@[simp] theorem Ctx.incSlot_released (c : Ctx) (i : Slot) : (c.incSlot i).released = c.released := rfl
@[simp] theorem Ctx.incSlot_barGen (c : Ctx) (i : Slot) : (c.incSlot i).barGen = c.barGen := rfl
@[simp] theorem Ctx.incSlot_bound (c : Ctx) (i : Slot) : (c.incSlot i).bound = c.bound := rfl
@[simp] theorem Ctx.incSlot_pause (c : Ctx) (i : Slot) : (c.incSlot i).pause = c.pause := rfl
@[simp] theorem Ctx.incSlot_hinted (c : Ctx) (i : Slot) : (c.incSlot i).hinted = c.hinted := rfl
@[simp] theorem Ctx.incSlot_placed (c : Ctx) (i : Slot) : (c.incSlot i).placed = c.placed := rfl

/-! Ctx.decSlot. -/

@[simp] theorem Ctx.decSlot_live (c : Ctx) (i : Slot) : (c.decSlot i).live = c.live := rfl
@[simp] theorem Ctx.decSlot_kind (c : Ctx) (i : Slot) : (c.decSlot i).kind = c.kind := rfl
@[simp] theorem Ctx.decSlot_pc (c : Ctx) (i : Slot) : (c.decSlot i).pc = c.pc := rfl
@[simp] theorem Ctx.decSlot_apc (c : Ctx) (i : Slot) : (c.decSlot i).apc = c.apc := rfl
@[simp] theorem Ctx.decSlot_win (c : Ctx) (i : Slot) : (c.decSlot i).win = c.win := rfl
@[simp] theorem Ctx.decSlot_works (c : Ctx) (i : Slot) : (c.decSlot i).works = c.works := rfl
@[simp] theorem Ctx.decSlot_npc (c : Ctx) (i : Slot) : (c.decSlot i).npc = c.npc := rfl
@[simp] theorem Ctx.decSlot_cur (c : Ctx) (i : Slot) : (c.decSlot i).cur = c.cur := rfl
@[simp] theorem Ctx.decSlot_mods (c : Ctx) (i : Slot) : (c.decSlot i).mods = c.mods := rfl
@[simp] theorem Ctx.decSlot_x (c : Ctx) (i : Slot) : (c.decSlot i).x = c.x := rfl
@[simp] theorem Ctx.decSlot_a (c : Ctx) (i : Slot) : (c.decSlot i).a = c.a := rfl
@[simp] theorem Ctx.decSlot_p (c : Ctx) (i : Slot) : (c.decSlot i).p = c.p := rfl
@[simp] theorem Ctx.decSlot_k (c : Ctx) (i : Slot) : (c.decSlot i).k = c.k := rfl
@[simp] theorem Ctx.decSlot_v (c : Ctx) (i : Slot) : (c.decSlot i).v = c.v := rfl
@[simp] theorem Ctx.decSlot_sb (c : Ctx) (i : Slot) : (c.decSlot i).sb = c.sb.set i (c.sb[i] - 1) := rfl
@[simp] theorem Ctx.decSlot_groups (c : Ctx) (i : Slot) : (c.decSlot i).groups = c.groups := rfl
@[simp] theorem Ctx.decSlot_ncount (c : Ctx) (i : Slot) : (c.decSlot i).ncount = c.ncount := rfl
@[simp] theorem Ctx.decSlot_nlatch (c : Ctx) (i : Slot) : (c.decSlot i).nlatch = c.nlatch := rfl
@[simp] theorem Ctx.decSlot_st (c : Ctx) (i : Slot) : (c.decSlot i).st = c.st := rfl
@[simp] theorem Ctx.decSlot_cr (c : Ctx) (i : Slot) : (c.decSlot i).cr = c.cr := rfl
@[simp] theorem Ctx.decSlot_ids (c : Ctx) (i : Slot) : (c.decSlot i).ids = c.ids := rfl
@[simp] theorem Ctx.decSlot_mprio (c : Ctx) (i : Slot) : (c.decSlot i).mprio = c.mprio := rfl
@[simp] theorem Ctx.decSlot_chEnd (c : Ctx) (i : Slot) : (c.decSlot i).chEnd = c.chEnd := rfl
@[simp] theorem Ctx.decSlot_chStep (c : Ctx) (i : Slot) : (c.decSlot i).chStep = c.chStep := rfl
@[simp] theorem Ctx.decSlot_chRun (c : Ctx) (i : Slot) : (c.decSlot i).chRun = c.chRun := rfl
@[simp] theorem Ctx.decSlot_acc (c : Ctx) (i : Slot) : (c.decSlot i).acc = c.acc := rfl
@[simp] theorem Ctx.decSlot_owes (c : Ctx) (i : Slot) : (c.decSlot i).owes = c.owes := rfl
@[simp] theorem Ctx.decSlot_latch (c : Ctx) (i : Slot) : (c.decSlot i).latch = c.latch := rfl
@[simp] theorem Ctx.decSlot_go (c : Ctx) (i : Slot) : (c.decSlot i).go = c.go := rfl
@[simp] theorem Ctx.decSlot_wait (c : Ctx) (i : Slot) : (c.decSlot i).wait = c.wait := rfl
@[simp] theorem Ctx.decSlot_parks (c : Ctx) (i : Slot) : (c.decSlot i).parks = c.parks := rfl
@[simp] theorem Ctx.decSlot_pending (c : Ctx) (i : Slot) : (c.decSlot i).pending = c.pending := rfl
@[simp] theorem Ctx.decSlot_mtch (c : Ctx) (i : Slot) : (c.decSlot i).mtch = c.mtch := rfl
@[simp] theorem Ctx.decSlot_team (c : Ctx) (i : Slot) : (c.decSlot i).team = c.team := rfl
@[simp] theorem Ctx.decSlot_task (c : Ctx) (i : Slot) : (c.decSlot i).task = c.task := rfl
@[simp] theorem Ctx.decSlot_inv (c : Ctx) (i : Slot) : (c.decSlot i).inv = c.inv := rfl
@[simp] theorem Ctx.decSlot_deadline (c : Ctx) (i : Slot) : (c.decSlot i).deadline = c.deadline := rfl
@[simp] theorem Ctx.decSlot_yielded (c : Ctx) (i : Slot) : (c.decSlot i).yielded = c.yielded := rfl
@[simp] theorem Ctx.decSlot_wake (c : Ctx) (i : Slot) : (c.decSlot i).wake = c.wake := rfl
@[simp] theorem Ctx.decSlot_parked (c : Ctx) (i : Slot) : (c.decSlot i).parked = c.parked := rfl
@[simp] theorem Ctx.decSlot_exitv (c : Ctx) (i : Slot) : (c.decSlot i).exitv = c.exitv := rfl
@[simp] theorem Ctx.decSlot_gen (c : Ctx) (i : Slot) : (c.decSlot i).gen = c.gen := rfl
@[simp] theorem Ctx.decSlot_region (c : Ctx) (i : Slot) : (c.decSlot i).region = c.region := rfl
@[simp] theorem Ctx.decSlot_sidx (c : Ctx) (i : Slot) : (c.decSlot i).sidx = c.sidx := rfl
@[simp] theorem Ctx.decSlot_released (c : Ctx) (i : Slot) : (c.decSlot i).released = c.released := rfl
@[simp] theorem Ctx.decSlot_barGen (c : Ctx) (i : Slot) : (c.decSlot i).barGen = c.barGen := rfl
@[simp] theorem Ctx.decSlot_bound (c : Ctx) (i : Slot) : (c.decSlot i).bound = c.bound := rfl
@[simp] theorem Ctx.decSlot_pause (c : Ctx) (i : Slot) : (c.decSlot i).pause = c.pause := rfl
@[simp] theorem Ctx.decSlot_hinted (c : Ctx) (i : Slot) : (c.decSlot i).hinted = c.hinted := rfl
@[simp] theorem Ctx.decSlot_placed (c : Ctx) (i : Slot) : (c.decSlot i).placed = c.placed := rfl

/-! Ctx.dropLatch. -/

@[simp] theorem Ctx.dropLatch_live (c : Ctx) : (c.dropLatch).live = c.live := by unfold Ctx.dropLatch; split <;> rfl
@[simp] theorem Ctx.dropLatch_kind (c : Ctx) : (c.dropLatch).kind = c.kind := by unfold Ctx.dropLatch; split <;> rfl
@[simp] theorem Ctx.dropLatch_pc (c : Ctx) : (c.dropLatch).pc = c.pc := by unfold Ctx.dropLatch; split <;> rfl
@[simp] theorem Ctx.dropLatch_apc (c : Ctx) : (c.dropLatch).apc = c.apc := by unfold Ctx.dropLatch; split <;> rfl
@[simp] theorem Ctx.dropLatch_win (c : Ctx) : (c.dropLatch).win = c.win := by unfold Ctx.dropLatch; split <;> rfl
@[simp] theorem Ctx.dropLatch_works (c : Ctx) : (c.dropLatch).works = c.works := by unfold Ctx.dropLatch; split <;> rfl
@[simp] theorem Ctx.dropLatch_npc (c : Ctx) : (c.dropLatch).npc = c.npc := by unfold Ctx.dropLatch; split <;> rfl
@[simp] theorem Ctx.dropLatch_cur (c : Ctx) : (c.dropLatch).cur = c.cur := by unfold Ctx.dropLatch; split <;> rfl
@[simp] theorem Ctx.dropLatch_mods (c : Ctx) : (c.dropLatch).mods = c.mods := by unfold Ctx.dropLatch; split <;> rfl
@[simp] theorem Ctx.dropLatch_x (c : Ctx) : (c.dropLatch).x = c.x := by unfold Ctx.dropLatch; split <;> rfl
@[simp] theorem Ctx.dropLatch_a (c : Ctx) : (c.dropLatch).a = c.a := by unfold Ctx.dropLatch; split <;> rfl
@[simp] theorem Ctx.dropLatch_p (c : Ctx) : (c.dropLatch).p = c.p := by unfold Ctx.dropLatch; split <;> rfl
@[simp] theorem Ctx.dropLatch_k (c : Ctx) : (c.dropLatch).k = c.k := by unfold Ctx.dropLatch; split <;> rfl
@[simp] theorem Ctx.dropLatch_v (c : Ctx) : (c.dropLatch).v = c.v := by unfold Ctx.dropLatch; split <;> rfl
@[simp] theorem Ctx.dropLatch_groups (c : Ctx) : (c.dropLatch).groups = c.groups := by unfold Ctx.dropLatch; split <;> rfl
@[simp] theorem Ctx.dropLatch_ncount (c : Ctx) : (c.dropLatch).ncount = c.ncount := by unfold Ctx.dropLatch; split <;> rfl
@[simp] theorem Ctx.dropLatch_nlatch (c : Ctx) : (c.dropLatch).nlatch = c.nlatch := by unfold Ctx.dropLatch; split <;> rfl
@[simp] theorem Ctx.dropLatch_st (c : Ctx) : (c.dropLatch).st = c.st := by unfold Ctx.dropLatch; split <;> rfl
@[simp] theorem Ctx.dropLatch_cr (c : Ctx) : (c.dropLatch).cr = c.cr := by unfold Ctx.dropLatch; split <;> rfl
@[simp] theorem Ctx.dropLatch_ids (c : Ctx) : (c.dropLatch).ids = c.ids := by unfold Ctx.dropLatch; split <;> rfl
@[simp] theorem Ctx.dropLatch_mprio (c : Ctx) : (c.dropLatch).mprio = c.mprio := by unfold Ctx.dropLatch; split <;> rfl
@[simp] theorem Ctx.dropLatch_chEnd (c : Ctx) : (c.dropLatch).chEnd = c.chEnd := by unfold Ctx.dropLatch; split <;> rfl
@[simp] theorem Ctx.dropLatch_chStep (c : Ctx) : (c.dropLatch).chStep = c.chStep := by unfold Ctx.dropLatch; split <;> rfl
@[simp] theorem Ctx.dropLatch_chRun (c : Ctx) : (c.dropLatch).chRun = c.chRun := by unfold Ctx.dropLatch; split <;> rfl
@[simp] theorem Ctx.dropLatch_acc (c : Ctx) : (c.dropLatch).acc = c.acc := by unfold Ctx.dropLatch; split <;> rfl
@[simp] theorem Ctx.dropLatch_owes (c : Ctx) : (c.dropLatch).owes = c.owes := by unfold Ctx.dropLatch; split <;> rfl
@[simp] theorem Ctx.dropLatch_go (c : Ctx) : (c.dropLatch).go = c.go := by unfold Ctx.dropLatch; split <;> rfl
@[simp] theorem Ctx.dropLatch_wait (c : Ctx) : (c.dropLatch).wait = c.wait := by unfold Ctx.dropLatch; split <;> rfl
@[simp] theorem Ctx.dropLatch_parks (c : Ctx) : (c.dropLatch).parks = c.parks := by unfold Ctx.dropLatch; split <;> rfl
@[simp] theorem Ctx.dropLatch_pending (c : Ctx) : (c.dropLatch).pending = c.pending := by unfold Ctx.dropLatch; split <;> rfl
@[simp] theorem Ctx.dropLatch_mtch (c : Ctx) : (c.dropLatch).mtch = c.mtch := by unfold Ctx.dropLatch; split <;> rfl
@[simp] theorem Ctx.dropLatch_team (c : Ctx) : (c.dropLatch).team = c.team := by unfold Ctx.dropLatch; split <;> rfl
@[simp] theorem Ctx.dropLatch_task (c : Ctx) : (c.dropLatch).task = c.task := by unfold Ctx.dropLatch; split <;> rfl
@[simp] theorem Ctx.dropLatch_inv (c : Ctx) : (c.dropLatch).inv = c.inv := by unfold Ctx.dropLatch; split <;> rfl
@[simp] theorem Ctx.dropLatch_deadline (c : Ctx) : (c.dropLatch).deadline = c.deadline := by unfold Ctx.dropLatch; split <;> rfl
@[simp] theorem Ctx.dropLatch_yielded (c : Ctx) : (c.dropLatch).yielded = c.yielded := by unfold Ctx.dropLatch; split <;> rfl
@[simp] theorem Ctx.dropLatch_wake (c : Ctx) : (c.dropLatch).wake = c.wake := by unfold Ctx.dropLatch; split <;> rfl
@[simp] theorem Ctx.dropLatch_parked (c : Ctx) : (c.dropLatch).parked = c.parked := by unfold Ctx.dropLatch; split <;> rfl
@[simp] theorem Ctx.dropLatch_exitv (c : Ctx) : (c.dropLatch).exitv = c.exitv := by unfold Ctx.dropLatch; split <;> rfl
@[simp] theorem Ctx.dropLatch_gen (c : Ctx) : (c.dropLatch).gen = c.gen := by unfold Ctx.dropLatch; split <;> rfl
@[simp] theorem Ctx.dropLatch_region (c : Ctx) : (c.dropLatch).region = c.region := by unfold Ctx.dropLatch; split <;> rfl
@[simp] theorem Ctx.dropLatch_sidx (c : Ctx) : (c.dropLatch).sidx = c.sidx := by unfold Ctx.dropLatch; split <;> rfl
@[simp] theorem Ctx.dropLatch_released (c : Ctx) : (c.dropLatch).released = c.released := by unfold Ctx.dropLatch; split <;> rfl
@[simp] theorem Ctx.dropLatch_barGen (c : Ctx) : (c.dropLatch).barGen = c.barGen := by unfold Ctx.dropLatch; split <;> rfl
@[simp] theorem Ctx.dropLatch_bound (c : Ctx) : (c.dropLatch).bound = c.bound := by unfold Ctx.dropLatch; split <;> rfl
@[simp] theorem Ctx.dropLatch_pause (c : Ctx) : (c.dropLatch).pause = c.pause := by unfold Ctx.dropLatch; split <;> rfl
@[simp] theorem Ctx.dropLatch_hinted (c : Ctx) : (c.dropLatch).hinted = c.hinted := by unfold Ctx.dropLatch; split <;> rfl
@[simp] theorem Ctx.dropLatch_placed (c : Ctx) : (c.dropLatch).placed = c.placed := by unfold Ctx.dropLatch; split <;> rfl
@[simp] theorem Ctx.dropLatch_latch (c : Ctx) : c.dropLatch.latch = none := by unfold Ctx.dropLatch; split <;> simp_all

/-! Ctx.retire. -/

@[simp] theorem Ctx.retire_live (c : Ctx) : (c.retire).live = c.live := Ctx.dropLatch_live c
@[simp] theorem Ctx.retire_kind (c : Ctx) : (c.retire).kind = c.kind := Ctx.dropLatch_kind c
@[simp] theorem Ctx.retire_apc (c : Ctx) : (c.retire).apc = c.apc := Ctx.dropLatch_apc c
@[simp] theorem Ctx.retire_win (c : Ctx) : (c.retire).win = c.win := Ctx.dropLatch_win c
@[simp] theorem Ctx.retire_works (c : Ctx) : (c.retire).works = c.works := Ctx.dropLatch_works c
@[simp] theorem Ctx.retire_npc (c : Ctx) : (c.retire).npc = c.npc := Ctx.dropLatch_npc c
@[simp] theorem Ctx.retire_cur (c : Ctx) : (c.retire).cur = c.cur := Ctx.dropLatch_cur c
@[simp] theorem Ctx.retire_mods (c : Ctx) : (c.retire).mods = c.mods := Ctx.dropLatch_mods c
@[simp] theorem Ctx.retire_x (c : Ctx) : (c.retire).x = c.x := Ctx.dropLatch_x c
@[simp] theorem Ctx.retire_a (c : Ctx) : (c.retire).a = c.a := Ctx.dropLatch_a c
@[simp] theorem Ctx.retire_p (c : Ctx) : (c.retire).p = c.p := Ctx.dropLatch_p c
@[simp] theorem Ctx.retire_k (c : Ctx) : (c.retire).k = c.k := Ctx.dropLatch_k c
@[simp] theorem Ctx.retire_v (c : Ctx) : (c.retire).v = c.v := Ctx.dropLatch_v c
@[simp] theorem Ctx.retire_groups (c : Ctx) : (c.retire).groups = c.groups := Ctx.dropLatch_groups c
@[simp] theorem Ctx.retire_ncount (c : Ctx) : (c.retire).ncount = c.ncount := Ctx.dropLatch_ncount c
@[simp] theorem Ctx.retire_nlatch (c : Ctx) : (c.retire).nlatch = c.nlatch := Ctx.dropLatch_nlatch c
@[simp] theorem Ctx.retire_st (c : Ctx) : (c.retire).st = c.st := Ctx.dropLatch_st c
@[simp] theorem Ctx.retire_cr (c : Ctx) : (c.retire).cr = c.cr := Ctx.dropLatch_cr c
@[simp] theorem Ctx.retire_ids (c : Ctx) : (c.retire).ids = c.ids := Ctx.dropLatch_ids c
@[simp] theorem Ctx.retire_mprio (c : Ctx) : (c.retire).mprio = c.mprio := Ctx.dropLatch_mprio c
@[simp] theorem Ctx.retire_chEnd (c : Ctx) : (c.retire).chEnd = c.chEnd := Ctx.dropLatch_chEnd c
@[simp] theorem Ctx.retire_chStep (c : Ctx) : (c.retire).chStep = c.chStep := Ctx.dropLatch_chStep c
@[simp] theorem Ctx.retire_chRun (c : Ctx) : (c.retire).chRun = c.chRun := Ctx.dropLatch_chRun c
@[simp] theorem Ctx.retire_acc (c : Ctx) : (c.retire).acc = c.acc := Ctx.dropLatch_acc c
@[simp] theorem Ctx.retire_owes (c : Ctx) : (c.retire).owes = c.owes := Ctx.dropLatch_owes c
@[simp] theorem Ctx.retire_latch (c : Ctx) : (c.retire).latch = none := Ctx.dropLatch_latch c
@[simp] theorem Ctx.retire_go (c : Ctx) : (c.retire).go = c.go := Ctx.dropLatch_go c
@[simp] theorem Ctx.retire_parks (c : Ctx) : (c.retire).parks = c.parks := Ctx.dropLatch_parks c
@[simp] theorem Ctx.retire_pending (c : Ctx) : (c.retire).pending = c.pending := Ctx.dropLatch_pending c
@[simp] theorem Ctx.retire_mtch (c : Ctx) : (c.retire).mtch = c.mtch := Ctx.dropLatch_mtch c
@[simp] theorem Ctx.retire_team (c : Ctx) : (c.retire).team = c.team := Ctx.dropLatch_team c
@[simp] theorem Ctx.retire_task (c : Ctx) : (c.retire).task = c.task := Ctx.dropLatch_task c
@[simp] theorem Ctx.retire_inv (c : Ctx) : (c.retire).inv = c.inv := Ctx.dropLatch_inv c
@[simp] theorem Ctx.retire_deadline (c : Ctx) : (c.retire).deadline = c.deadline := Ctx.dropLatch_deadline c
@[simp] theorem Ctx.retire_yielded (c : Ctx) : (c.retire).yielded = c.yielded := Ctx.dropLatch_yielded c
@[simp] theorem Ctx.retire_wake (c : Ctx) : (c.retire).wake = c.wake := Ctx.dropLatch_wake c
@[simp] theorem Ctx.retire_parked (c : Ctx) : (c.retire).parked = c.parked := Ctx.dropLatch_parked c
@[simp] theorem Ctx.retire_exitv (c : Ctx) : (c.retire).exitv = c.exitv := Ctx.dropLatch_exitv c
@[simp] theorem Ctx.retire_gen (c : Ctx) : (c.retire).gen = c.gen := Ctx.dropLatch_gen c
@[simp] theorem Ctx.retire_region (c : Ctx) : (c.retire).region = c.region := Ctx.dropLatch_region c
@[simp] theorem Ctx.retire_sidx (c : Ctx) : (c.retire).sidx = c.sidx := Ctx.dropLatch_sidx c
@[simp] theorem Ctx.retire_released (c : Ctx) : (c.retire).released = c.released := Ctx.dropLatch_released c
@[simp] theorem Ctx.retire_barGen (c : Ctx) : (c.retire).barGen = c.barGen := Ctx.dropLatch_barGen c
@[simp] theorem Ctx.retire_bound (c : Ctx) : (c.retire).bound = c.bound := Ctx.dropLatch_bound c
@[simp] theorem Ctx.retire_pause (c : Ctx) : (c.retire).pause = c.pause := Ctx.dropLatch_pause c
@[simp] theorem Ctx.retire_hinted (c : Ctx) : (c.retire).hinted = c.hinted := Ctx.dropLatch_hinted c
@[simp] theorem Ctx.retire_placed (c : Ctx) : (c.retire).placed = c.placed := Ctx.dropLatch_placed c
@[simp] theorem Ctx.retire_pc (c : Ctx) : c.retire.pc = c.npc := rfl
@[simp] theorem Ctx.retire_wait (c : Ctx) : c.retire.wait = none := rfl
@[simp] theorem Ctx.retire_sb (c : Ctx) : c.retire.sb = c.dropLatch.sb := rfl

end Sys2Proof.Machine
end

