-- ==== Sys2Proof/Laws/Tables.lean ====
section
/-! SUPPORT. Sparse tables, and what a core, a cluster, a die and a frame's context read as after each is written. -/

namespace Sys2Proof.Machine

open Sys2Proof

/-! Tables. -/

theorem tget_tset {α : Type} (dflt v : α) (t : Tab α) (n m : Nat) : tget dflt (tset t n v) m = if m = n then v else tget dflt t m := by
  induction t with
  | nil =>
    by_cases h : m = n
    · subst h; simp [tset, tget]
    · simp only [tset, tget, if_neg h, if_neg (Ne.symm h)]
  | cons c t ih =>
    obtain ⟨k, w⟩ := c
    simp only [tset]
    split
    · by_cases h : m = n
      · subst h; simp [tget]
      · rw [if_neg h, tget, if_neg (Ne.symm h)]
    · split
      · rename_i e
        subst e
        by_cases h : m = n
        · subst h; simp [tget]
        · simp only [tget, if_neg (Ne.symm h), if_neg h]
      · simp only [tget, ih]
        by_cases h : m = n
        · subst h; simp only [if_true]; rw [if_neg (by omega)]
        · simp only [if_neg h]

@[simp] theorem tget_tset_same {α : Type} (dflt v : α) (t : Tab α) (n : Nat) : tget dflt (tset t n v) n = v := by simp [tget_tset]

theorem tget_tset_other {α : Type} (dflt v : α) (t : Tab α) {n m : Nat} (h : m ≠ n) : tget dflt (tset t n v) m = tget dflt t m := by simp [tget_tset, h]

theorem tget_terase_other {α : Type} (dflt : α) (t : Tab α) {n m : Nat} (h : m ≠ n) : tget dflt (terase t n) m = tget dflt t m := by
  induction t with
  | nil => rfl
  | cons c t ih =>
    obtain ⟨k, w⟩ := c
    simp only [terase]
    split
    · rename_i e; subst e; simp only [tget, if_neg (Ne.symm h)]
    · simp only [tget, ih]

/-! Cores, clusters and dies. -/

theorem State.core_setCore (s : State) (n m : Nat) (v : CoreSt) : (s.setCore n v).core m = if m = n then v else s.core m := tget_tset _ _ _ _ _
theorem State.clu_setClu (s : State) (n m : Nat) (v : CluSt) : (s.setClu n v).clu m = if m = n then v else s.clu m := tget_tset _ _ _ _ _
theorem State.die_setDie (s : State) (n m : Nat) (v : DieSt) : (s.setDie n v).die m = if m = n then v else s.die m := tget_tset _ _ _ _ _
theorem State.core_mapCore (s : State) (n m : Nat) (g : CoreSt → CoreSt) : (s.mapCore n g).core m = if m = n then g (s.core n) else s.core m := tget_tset _ _ _ _ _
theorem State.clu_mapClu (s : State) (n m : Nat) (g : CluSt → CluSt) : (s.mapClu n g).clu m = if m = n then g (s.clu n) else s.clu m := tget_tset _ _ _ _ _
theorem State.die_mapDie (s : State) (n m : Nat) (g : DieSt → DieSt) : (s.mapDie n g).die m = if m = n then g (s.die n) else s.die m := tget_tset _ _ _ _ _

@[simp] theorem State.core_setClu (s : State) (n m : Nat) (v : CluSt) : (s.setClu n v).core m = s.core m := rfl
@[simp] theorem State.core_setDie (s : State) (n m : Nat) (v : DieSt) : (s.setDie n v).core m = s.core m := rfl
@[simp] theorem State.core_mapC (s : State) (g : Ctx → Ctx) (m : Nat) : (s.mapC g).core m = s.core m := rfl
@[simp] theorem State.clu_setCore (s : State) (n m : Nat) (v : CoreSt) : (s.setCore n v).clu m = s.clu m := rfl
@[simp] theorem State.clu_setDie (s : State) (n m : Nat) (v : DieSt) : (s.setDie n v).clu m = s.clu m := rfl
@[simp] theorem State.clu_mapC (s : State) (g : Ctx → Ctx) (m : Nat) : (s.mapC g).clu m = s.clu m := rfl
@[simp] theorem State.die_setCore (s : State) (n m : Nat) (v : CoreSt) : (s.setCore n v).die m = s.die m := rfl
@[simp] theorem State.die_setClu (s : State) (n m : Nat) (v : CluSt) : (s.setClu n v).die m = s.die m := rfl
@[simp] theorem State.die_mapC (s : State) (g : Ctx → Ctx) (m : Nat) : (s.mapC g).die m = s.die m := rfl
@[simp] theorem State.core_setCtx (s : State) (f m : Nat) (c : Ctx) : (s.setCtx f c).core m = s.core m := by simp [State.core]
@[simp] theorem State.clu_setCtx (s : State) (f m : Nat) (c : Ctx) : (s.setCtx f c).clu m = s.clu m := by simp [State.clu]
@[simp] theorem State.die_setCtx (s : State) (f m : Nat) (c : Ctx) : (s.setCtx f c).die m = s.die m := by simp [State.die]
@[simp] theorem State.core_mapCtx (s : State) (f m : Nat) (g : Ctx → Ctx) : (s.mapCtx f g).core m = s.core m := State.core_setCtx s f m _
@[simp] theorem State.clu_mapCtx (s : State) (f m : Nat) (g : Ctx → Ctx) : (s.mapCtx f g).clu m = s.clu m := State.clu_setCtx s f m _
@[simp] theorem State.die_mapCtx (s : State) (f m : Nat) (g : Ctx → Ctx) : (s.mapCtx f g).die m = s.die m := State.die_setCtx s f m _
@[simp] theorem State.core_select (s : State) (f m : Nat) : (s.select f).core m = s.core m := by simp [State.core]
@[simp] theorem State.clu_select (s : State) (f m : Nat) : (s.select f).clu m = s.clu m := by simp [State.clu]
@[simp] theorem State.die_select (s : State) (f m : Nat) : (s.select f).die m = s.die m := by simp [State.die]

/-! Contexts. -/

@[simp] theorem State.ctx_self (s : State) : s.ctx s.self = s.c := if_pos rfl

theorem State.ctx_setCtx (s : State) (f g : Nat) (c : Ctx) : (s.setCtx f c).ctx g = if g = f then c else s.ctx g := by
  unfold State.setCtx State.ctx
  by_cases h : f = s.self
  · subst h
    simp only [if_true]
    split <;> rfl
  · simp only [if_neg h, tget_tset]
    by_cases e : g = s.self
    · have : g ≠ f := fun x => h (x ▸ e)
      simp [e, Ne.symm h]
    · simp [e]

theorem State.ctx_mapCtx (s : State) (f g : Nat) (h : Ctx → Ctx) : (s.mapCtx f h).ctx g = if g = f then h (s.ctx f) else s.ctx g := State.ctx_setCtx s f g _

theorem State.ctx_mapC (s : State) (g : Nat) (h : Ctx → Ctx) : (s.mapC h).ctx g = if g = s.self then h s.c else s.ctx g := by
  unfold State.mapC State.ctx
  split <;> rfl

@[simp] theorem State.ctx_setCore (s : State) (n g : Nat) (v : CoreSt) : (s.setCore n v).ctx g = s.ctx g := rfl
@[simp] theorem State.ctx_setClu (s : State) (n g : Nat) (v : CluSt) : (s.setClu n v).ctx g = s.ctx g := rfl
@[simp] theorem State.ctx_setDie (s : State) (n g : Nat) (v : DieSt) : (s.setDie n v).ctx g = s.ctx g := rfl

/-- Selecting a frame changes no context. -/
@[simp] theorem State.ctx_select (s : State) (f g : Nat) : (s.select f).ctx g = s.ctx g := by
  unfold State.select
  split
  · rfl
  · rename_i h
    unfold State.ctx
    dsimp only
    by_cases e : g = f
    · subst e; rw [if_pos rfl, if_neg h]
    · rw [if_neg e, tget_terase_other _ _ e, tget_tset]

end Sys2Proof.Machine
end

