-- ==== Sys2Proof/Laws/Ops.lean ====
section
/-! SUPPORT. What the shared operations of Machine/Ops.lean can do: completing, waiting, aborting huddles, freezing, and taking an upcall. -/

namespace Sys2Proof.Machine

open Sys2Proof

/-! The scoreboard. -/

theorem Ctx.dropLatch_sb_get (c : Ctx) (j : Slot) : c.dropLatch.sb[j] = if c.latch = some j then c.sb[j] - 1 else c.sb[j] := by
  unfold Ctx.dropLatch
  cases h : c.latch with
  | none => simp
  | some i =>
    by_cases e : i = j
    · subst e; simp [Ctx.decSlot]
    · have e' : i.val ≠ j.val := fun x => e (Fin.ext x)
      have := Vector.getElem_set_ne (xs := c.sb) (i := i.val) (j := j.val) i.isLt j.isLt (x := c.sb[i] - 1) e'
      simpa [Ctx.decSlot, e] using this

theorem Ctx.dropLatch_of_none {c : Ctx} (h : c.latch = none) : c.dropLatch = c := by
  unfold Ctx.dropLatch
  split
  · rename_i e; rw [h] at e; cases e
  · rfl

/-- A context whose instruction has set no slot completes with its slots as they were. -/
theorem Ctx.retire_of_none {c : Ctx} (h : c.latch = none) : c.retire = { c with pc := c.npc, wait := none } := by
  unfold Ctx.retire
  rw [Ctx.dropLatch_of_none h]

/-- Waiting changes nothing but the context's wait. -/
theorem State.stall_eq (s : State) (b : Bool) : s.stall b = { s with c := { s.c with wait := (s.stall b).c.wait } } := by
  unfold State.stall State.mapC
  dsimp only
  split <;> rfl

theorem State.stall_isSome (s : State) (b : Bool) : (s.stall b).c.wait.isSome = true := by
  unfold State.stall State.mapC
  dsimp only
  split <;> rfl

/-! Machine events. -/

theorem State.toUmpire_eq (s : State) (n : Nat) (e : UEvent) : s.toUmpire n e = s.setDie n { s.die n with umpire := (s.die n).umpire ++ [e] } := rfl
@[simp] theorem State.toUmpire_ctx (s : State) (n : Nat) (e : UEvent) (f : Nat) : (s.toUmpire n e).ctx f = s.ctx f := rfl
@[simp] theorem State.toUmpire_core (s : State) (n : Nat) (e : UEvent) (m : Nat) : (s.toUmpire n e).core m = s.core m := rfl
@[simp] theorem State.toUmpire_mem (s : State) (n : Nat) (e : UEvent) : (s.toUmpire n e).mem = s.mem := rfl

/-! Huddles and waiting GFUSEs (R233, R344). -/

/-- Two states that agree but for what aborting huddles and failing GFUSEs change: matrix jobs, ring elements and pins, and the predicates, flags,
slots, owed counts and waits of contexts. -/
structure Aborted (s t : State) : Prop where
  rest : t = { s with c := t.c, frames := t.frames, cores := t.cores, clus := t.clus, l2 := t.l2, fresh := t.fresh }
  ctx : ∀ f, t.ctx f = { s.ctx f with p := (t.ctx f).p, sb := (t.ctx f).sb, owes := (t.ctx f).owes, parks := (t.ctx f).parks, wait := (t.ctx f).wait,
                                      cr := { (s.ctx f).cr with fflags := (t.ctx f).cr.fflags } }
  core : ∀ n, t.core n = { s.core n with ring := (t.core n).ring, mjobs := (t.core n).mjobs, running := (t.core n).running }

theorem Aborted.refl (s : State) : Aborted s s := ⟨rfl, fun _ => rfl, fun _ => rfl⟩

theorem Aborted.trans {s t u : State} (h : Aborted s t) (k : Aborted t u) : Aborted s u where
  rest := by have a := h.rest; have b := k.rest; rw [a] at b; exact b
  ctx f := by have a := h.ctx f; have b := k.ctx f; rw [a] at b; exact b
  core n := by have a := h.core n; have b := k.core n; rw [a] at b; exact b

/-- Steps that each disturb no more do so together. -/
theorem Aborted.foldl {α : Type} (g : State → α → State) (h : ∀ s a, Aborted s (g s a)) (l : List α) : ∀ s : State, Aborted s (l.foldl g s) := by
  induction l with
  | nil => exact Aborted.refl
  | cons a l ih => exact fun s => (h s a).trans (ih _)

/-- Writing a context changes the context alone. -/
theorem State.setCtx_eq (s : State) (f : Nat) (c : Ctx) : s.setCtx f c = { s with c := (s.setCtx f c).c, frames := (s.setCtx f c).frames } := by
  unfold State.setCtx
  split <;> rfl

/-- A change of a context in those fields alone. -/
theorem Aborted.of_ctx (s : State) (f : Nat) (g : Ctx → Ctx)
    (h : ∀ c, g c = { c with p := (g c).p, sb := (g c).sb, owes := (g c).owes, parks := (g c).parks, wait := (g c).wait, cr := { c.cr with fflags := (g c).cr.fflags } }) :
    Aborted s (s.mapCtx f g) := by
  refine ⟨?_, ?_, fun _ => ?_⟩
  · rw [State.mapCtx, State.setCtx_eq]
  · intro q
    rw [State.ctx_mapCtx]
    split
    · rename_i e; subst e; exact h _
    · rfl
  · rw [State.core_mapCtx]

/-- A change of a core in those fields alone. -/
theorem Aborted.of_core (s : State) (core : Nat) (ring : Tab (BitVec 32)) (jobs : List MJob) (run : Option Nat) :
    Aborted s (s.setCore core { s.core core with ring := ring, mjobs := jobs, running := run }) := by
  refine ⟨rfl, fun _ => rfl, fun m => ?_⟩
  rw [State.core_setCore]
  split
  · rename_i e; subst e; rfl
  · rfl

theorem Ctx.payOwed_eq (c : Ctx) (id : Nat) :
    c.payOwed id = { c with sb := (c.payOwed id).sb, owes := (c.payOwed id).owes, parks := (c.payOwed id).parks } := by
  unfold Ctx.payOwed
  split <;> rfl

theorem Ctx.setP_eq (c : Ctx) (i : PReg) (v : Bool) : c.setP i v = { c with p := (c.setP i v).p } := by
  unfold Ctx.setP
  split <;> rfl

/-- A change of the context that issued a unit's work, in those fields alone. -/
theorem Aborted.of_owner (s : State) (f : Nat) (gen : BitVec 8) (g : Ctx → Ctx)
    (h : ∀ c, g c = { c with p := (g c).p, sb := (g c).sb, owes := (g c).owes, parks := (g c).parks, wait := (g c).wait, cr := { c.cr with fflags := (g c).cr.fflags } }) :
    Aborted s (s.mapOwner f gen g) := by
  unfold State.mapOwner
  split
  · exact Aborted.of_ctx s f g h
  · exact Aborted.refl s

theorem State.abortOn_aborted (s : State) (id core : Nat) : Aborted s (s.abortOn id core) := by
  unfold State.abortOn
  dsimp only
  split
  · exact Aborted.refl s
  · rename_i j _
    refine Aborted.trans ?_ (Aborted.of_owner _ _ _ _ fun c => ?_)
    · refine Aborted.trans (t := { s.unpin [j.id] with fresh := s.fresh + 4096 }) ⟨rfl, fun _ => rfl, fun _ => rfl⟩ ?_
      exact Aborted.of_core { s.unpin [j.id] with fresh := s.fresh + 4096 } core _ _ _
    · have e := Ctx.payOwed_eq ((c.orFlags j.flags).setP (parPred j.par) false) j.id
      generalize ((c.orFlags j.flags).setP (parPred j.par) false).payOwed j.id = r at e ⊢
      rw [e, Ctx.setP_eq]
      rfl

/-- Aborting huddles changes what Aborted lists and nothing else. -/
theorem State.abortHuddles_aborted (s : State) (n : Nat) (bad : Huddle → Bool) : Aborted s (s.abortHuddles n bad) := by
  unfold State.abortHuddles
  dsimp only
  exact (Aborted.foldl _ (fun s (h : Huddle) => Aborted.foldl _ (fun s f => State.abortOn_aborted s h.id (coreOf f)) h.joined s) _ s).trans
    ⟨rfl, fun _ => rfl, fun _ => rfl⟩

/-- Failing GFUSEs marks waits and nothing else. -/
theorem State.failFuses_aborted (s : State) (core : Nat) (of : Option Nat → Bool) : Aborted s (s.failFuses core of) := by
  unfold State.failFuses
  exact Aborted.foldl _ (fun s g => Aborted.of_ctx s g _ fun c => rfl) _ s

theorem Aborted.mem {s t : State} (h : Aborted s t) : t.mem = s.mem := by rw [h.rest]
theorem Aborted.self {s t : State} (h : Aborted s t) : t.self = s.self := by rw [h.rest]
theorem Aborted.time {s t : State} (h : Aborted s t) : t.time = s.time := by rw [h.rest]
theorem Aborted.dies {s t : State} (h : Aborted s t) : t.dies = s.dies := by rw [h.rest]
theorem Aborted.frozen {s t : State} (h : Aborted s t) (n : Nat) : (t.core n).frozen = (s.core n).frozen := by rw [h.core n]
theorem Aborted.fcode {s t : State} (h : Aborted s t) (n : Nat) : (t.core n).fcode = (s.core n).fcode := by rw [h.core n]
theorem Aborted.pc {s t : State} (h : Aborted s t) (f : Nat) : (t.ctx f).pc = (s.ctx f).pc := by rw [h.ctx f]
theorem Aborted.cr {s t : State} (h : Aborted s t) (f : Nat) : (t.ctx f).cr = { (s.ctx f).cr with fflags := (t.ctx f).cr.fflags } := congrArg Ctx.cr (h.ctx f)

/-! Freezes (R366, R372). -/

theorem State.freezeCore_core (s : State) (core : Nat) (b : Bool) (code f m : Nat) :
    (s.freezeCore core b code f).core m = if m = core then
      { s.core core with frozen := true, byGang := b, fcode := code, fframe := f, frozeAt := if (s.core core).frozen then (s.core core).frozeAt else s.time }
    else s.core m := State.core_setCore _ _ _ _

@[simp] theorem State.freezeCore_ctx (s : State) (core : Nat) (b : Bool) (code f g : Nat) : (s.freezeCore core b code f).ctx g = s.ctx g := rfl
@[simp] theorem State.freezeCore_mem (s : State) (core : Nat) (b : Bool) (code f : Nat) : (s.freezeCore core b code f).mem = s.mem := rfl
@[simp] theorem State.freezeCore_die (s : State) (core : Nat) (b : Bool) (code f n : Nat) : (s.freezeCore core b code f).die n = s.die n := rfl

/-- Freezing what is not frozen yet changes cores alone. -/
theorem State.freezeOthers (l : List Nat) (code : Nat) (s : State) :
    l.foldl (fun s g => if (s.core (coreOf g)).frozen then s else s.freezeCore (coreOf g) true code g) s
      = { s with cores := (l.foldl (fun s g => if (s.core (coreOf g)).frozen then s else s.freezeCore (coreOf g) true code g) s).cores } := by
  induction l generalizing s with
  | nil => rfl
  | cons g l ih =>
    rw [List.foldl_cons]
    split
    · exact ih s
    · exact ih (s.freezeCore (coreOf g) true code g)

/-- The GFUSEs that a freeze fails. -/
theorem State.freezeFuses (l : List Nat) (s : State) : Aborted s (l.foldl (fun s k => s.failFuses k fun _ => true) s) :=
  Aborted.foldl _ (fun s k => State.failFuses_aborted s k _) l s

/-- What a freeze is, but for what it disturbs besides: the state before it with its cores and its die's umpire queue changed. -/
theorem State.freezeFrame_parts (s : State) (f code : Nat) (r : List Word) :
    ∃ u v : State, Aborted s u ∧ v = { u with cores := v.cores, dies := v.dies } ∧ Aborted v (s.freezeFrame f code r) := by
  unfold State.freezeFrame
  dsimp only
  refine ⟨_, _, State.freezeFuses (coreOf f :: (s.gangsOn (coreOf f)).map coreOf) s, ?_, State.abortHuddles_aborted _ _ _⟩
  rw [State.freezeOthers]
  rfl

/-- A freeze leaves memory alone. -/
theorem State.freezeFrame_mem (s : State) (f code : Nat) (r : List Word) : (s.freezeFrame f code r).mem = s.mem := by
  obtain ⟨u, v, h, e, k⟩ := State.freezeFrame_parts s f code r
  rw [k.mem, e, h.mem]

theorem State.freezeFrame_self (s : State) (f code : Nat) (r : List Word) : (s.freezeFrame f code r).self = s.self := by
  obtain ⟨u, v, h, e, k⟩ := State.freezeFrame_parts s f code r
  rw [k.self, e, h.self]

theorem State.freezeFrame_pc (s : State) (f code : Nat) (r : List Word) (g : Nat) : ((s.freezeFrame f code r).ctx g).pc = (s.ctx g).pc := by
  obtain ⟨u, v, h, e, k⟩ := State.freezeFrame_parts s f code r
  have : v.ctx g = u.ctx g := by rw [e]; rfl
  rw [k.pc, this, h.pc]

/-- A freeze keeps every control register but the flags that an aborted huddle sets. -/
theorem State.freezeFrame_cr (s : State) (f code : Nat) (r : List Word) (g : Nat) :
    ((s.freezeFrame f code r).ctx g).cr = { (s.ctx g).cr with fflags := ((s.freezeFrame f code r).ctx g).cr.fflags } := by
  obtain ⟨u, v, h, e, k⟩ := State.freezeFrame_parts s f code r
  have : v.ctx g = u.ctx g := by rw [e]; rfl
  rw [k.cr, this, h.cr]

theorem State.freezeRec_mem (s : State) (f code info : Nat) (a t w : Word) (b : Bool) : (s.freezeRec f code info a t w b).mem = s.mem := by
  unfold State.freezeRec
  dsimp only
  rw [State.freezeFrame_mem]; simp

theorem State.freezeRec_self (s : State) (f code info : Nat) (a t w : Word) (b : Bool) : (s.freezeRec f code info a t w b).self = s.self := by
  unfold State.freezeRec
  dsimp only
  rw [State.freezeFrame_self]; simp

/-- A freeze raised by an instruction leaves memory and the pc alone and writes the record. -/
theorem State.raise_mem (s : State) (code info : Nat) (a : Word) : (s.raise code info a).mem = s.mem := State.freezeRec_mem _ _ _ _ _ _ _ _

theorem State.raise_pc (s : State) (code info : Nat) (a : Word) : (s.raise code info a).c.pc = s.c.pc := by
  unfold State.raise State.mapC
  dsimp only
  rw [Ctx.dropLatch_pc]
  have h := State.freezeRec_self s s.self code info a 0 s.c.pc false
  have : (s.freezeRec s.self code info a 0 s.c.pc false).c = (s.freezeRec s.self code info a 0 s.c.pc false).ctx s.self := by rw [← State.ctx_self, h]
  rw [this]
  unfold State.freezeRec
  dsimp only
  rw [State.freezeFrame_pc, State.ctx_mapCtx, if_pos rfl, State.ctx_self]
  rfl

/-! Upcalls (R367). -/

/-- Squashing what is speculative changes the a-registers, the slots, the accesses, the count of recorded stores, what is between the streams and where the
access stream stands. -/
theorem Ctx.squash_eq (c : Ctx) : c.squash = { c with a := c.squash.a, sb := c.squash.sb, acc := c.squash.acc, win := c.squash.win, apc := c.squash.apc, sidx := c.squash.sidx } := by
  unfold Ctx.squash
  split
  · rfl
  · split
    · split <;> rfl
    · rfl

/-- With no branch unresolved there is nothing speculative. -/
theorem Ctx.squash_of_resolved {c : Ctx} (h : c.branchAt = none) : c.squash = c := by
  unfold Ctx.squash
  rw [h]

/-- Taking back what has begun nothing changes no register but what speculation had done to the a-registers. -/
theorem Ctx.takeBack_eq (c : Ctx) :
    c.takeBack = { c with a := c.squash.a, sb := c.takeBack.sb, acc := c.takeBack.acc, works := c.takeBack.works, win := c.squash.win, apc := c.squash.apc,
                          latch := c.takeBack.latch, wait := c.takeBack.wait, sidx := c.squash.sidx } := by
  have h := Ctx.squash_eq c
  unfold Ctx.takeBack
  generalize c.squash = d at h ⊢
  dsimp only
  generalize d.wait.any (·.begun) = b
  cases b
  · unfold Ctx.dropLatch
    cases hl : d.latch <;> rw [h] <;> rfl
  · rw [h]
    rfl

/-- Parking the stream state keeps every register and the record, but for what speculation had done to the a-registers. -/
theorem Ctx.park_keeps (c : Ctx) (k : Nat) :
    (c.park k).cr = c.cr ∧ (c.park k).st = c.st ∧ (c.park k).x = c.x ∧ (c.park k).a = c.squash.a ∧ (c.park k).p = c.p ∧ (c.park k).k = c.k ∧ (c.park k).v = c.v
      ∧ (c.park k).groups = c.groups ∧ (c.park k).ids = c.ids ∧ (c.park k).live = c.live ∧ (c.park k).sb = .replicate 16 0 ∧ (c.park k).acc = [] ∧ (c.park k).wait = none := by
  have h := Ctx.takeBack_eq c
  unfold Ctx.park
  dsimp only
  generalize c.takeBack = d at h ⊢
  rw [h]
  exact ⟨rfl, rfl, rfl, rfl, rfl, rfl, rfl, rfl, rfl, rfl, rfl, rfl, rfl⟩

/-- Taking an upcall: issue begins at the handler's address with upc set, and no register changes but those that speculation had changed. -/
theorem Ctx.takeUpcall_keeps (c : Ctx) (u : Upcall) (k : Nat) :
    (c.takeUpcall u k).pc = c.cr.upcall ∧ (c.takeUpcall u k).st = { c.st with upc := true } ∧ (c.takeUpcall u k).x = c.x ∧ (c.takeUpcall u k).a = c.squash.a
      ∧ (c.takeUpcall u k).p = c.p ∧ (c.takeUpcall u k).k = c.k ∧ (c.takeUpcall u k).v = c.v ∧ (c.takeUpcall u k).sb = .replicate 16 0
      ∧ (c.takeUpcall u k).acc = [] ∧ (c.takeUpcall u k).wait = none := by
  obtain ⟨h1, h2, h3, h4, h5, h6, h7, -, -, -, h11, h12, h13⟩ := Ctx.park_keeps c k
  unfold Ctx.takeUpcall
  generalize c.park k = d at *
  exact ⟨(congrArg Crs.upcall h1 : d.cr.upcall = c.cr.upcall), congrArg (fun t : Status => { t with upc := true }) h2, h3, h4, h5, h6, h7, h11, h12, h13⟩

@[simp] theorem State.addUpcall_mem (s : State) (f : Nat) (u : Upcall) : (s.addUpcall f u).mem = s.mem := State.mapCtx_mem _ _ _

/-- A pending upcall is the last of its frame, and no other context differs. -/
theorem State.ctx_addUpcall (s : State) (f g : Nat) (u : Upcall) :
    (s.addUpcall f u).ctx g = if g = f then { s.ctx f with pending := (s.ctx f).pending ++ [u] } else s.ctx g := State.ctx_mapCtx _ _ _ _

end Sys2Proof.Machine
end

