-- ==== Sys2Proof/Laws/Home.lean ====
section
/-! SUPPORT. Every operation that writes physical memory itself keeps the canonical form: what the caches and the agents call ends in one of these. -/

namespace Sys2Proof.Machine

open Sys2Proof

/-! The home (R163, R359). -/

/-- A sample changes the die's sampler and its waiting samples alone. -/
theorem State.heatTick_eq (s : State) (pa : Nat) : s.heatTick pa = { s with dies := (s.heatTick pa).dies } := by
  unfold State.heatTick State.setDie
  dsimp only
  split
  · split <;> rfl
  · rfl

@[simp] theorem State.heatTick_mem (s : State) (pa : Nat) : (s.heatTick pa).mem = s.mem := by rw [State.heatTick_eq]

/-- Marking a copied line changes the dies alone. -/
theorem State.noteMoved_eq (s : State) (pa : Nat) : s.noteMoved pa = { s with dies := (s.noteMoved pa).dies } := by
  have key : ∀ (l : List Nat) (g : State → Nat → State), (∀ s k, g s k = { s with dies := (g s k).dies }) → ∀ s : State, l.foldl g s = { s with dies := (l.foldl g s).dies } := by
    intro l g hg
    induction l with
    | nil => exact fun _ => rfl
    | cons k l ih => intro s; rw [List.foldl_cons, ih, hg s k]
  unfold State.noteMoved
  refine key _ _ (fun s k => ?_) s
  dsimp only
  split <;> rfl

@[simp] theorem State.noteMoved_mem (s : State) (pa : Nat) : (s.noteMoved pa).mem = s.mem := by rw [State.noteMoved_eq]

/-- A masked write at a home that counts no sample changes memory or what the home holds, poison, and the dies' copies alone. -/
theorem State.quietWrite_eq (s : State) (pa : Nat) (d : BitVec 512) (k : BitVec 64) :
    s.quietWrite pa d k = { s with mem := (s.quietWrite pa d k).mem, homes := (s.quietWrite pa d k).homes, poison := (s.quietWrite pa d k).poison,
                                   dies := (s.quietWrite pa d k).dies } := by
  unfold State.quietWrite
  split
  · rfl
  · dsimp only
    rw [State.noteMoved_eq]
    split <;> rfl

/-- Pool and host memory are written through later; any other memory is written at once (R170, R182). -/
theorem State.quietWrite_mem (s : State) (pa : Nat) (d : BitVec 512) (k : BitVec 64) :
    (s.quietWrite pa d k).mem = if k = 0 ∨ paClass pa = .pool ∨ paClass pa = .host then s.mem else s.mem.writeMasked pa d k 64 := by
  unfold State.quietWrite
  by_cases h : k = 0
  · simp [h]
  · by_cases c : paClass pa = .pool ∨ paClass pa = .host
    · simp only [if_neg h, if_pos c, if_pos (Or.inr c : k = 0 ∨ _), State.noteMoved_mem]
    · simp only [if_neg h, if_neg c, if_neg (fun x : k = 0 ∨ _ => x.elim h c), State.noteMoved_mem]

/-- A counted write has the same effect on memory. -/
theorem State.homeWrite_mem (s : State) (pa : Nat) (d : BitVec 512) (k : BitVec 64) :
    (s.homeWrite pa d k).mem = if k = 0 ∨ paClass pa = .pool ∨ paClass pa = .host then s.mem else s.mem.writeMasked pa d k 64 := by
  unfold State.homeWrite
  by_cases h : k = 0
  · simp [h]
  · rw [if_neg h, State.quietWrite_mem, State.heatTick_mem]

theorem State.quietWrite_wf (s : State) (pa : Nat) (d : BitVec 512) (k : BitVec 64) (w : s.mem.wf = true) : (s.quietWrite pa d k).mem.wf = true := by
  rw [State.quietWrite_mem]
  split
  · exact w
  · exact Memory.wf_writeMasked _ _ _ _ w

theorem State.homeWrite_wf (s : State) (pa : Nat) (d : BitVec 512) (k : BitVec 64) (w : s.mem.wf = true) : (s.homeWrite pa d k).mem.wf = true := by
  rw [State.homeWrite_mem, ← State.quietWrite_mem]
  exact State.quietWrite_wf _ _ _ _ w

/-- The bytes of the mask, and no others, are those of the data after a masked write to memory that is written at once. -/
theorem State.homeWrite_get (s : State) (pa q : Nat) (d : BitVec 512) (k : BitVec 64) (w : s.mem.wf = true) (c : ¬(paClass pa = .pool ∨ paClass pa = .host)) :
    (s.homeWrite pa d k).mem.get q = if pa ≤ q ∧ q < pa + 64 ∧ k.getLsbD (q - pa) = true then d.extractLsb' (8 * (q - pa)) 8 else s.mem.get q := by
  rw [State.homeWrite_mem]
  split
  · rename_i h
    have : k = 0 := h.resolve_right c
    simp [this]
  · exact Memory.get_writeMasked _ _ _ _ _ w

/-- What a home holds is written through in the canonical form. -/
theorem State.writeThrough_wf (s : State) (pa : Nat) (w : s.mem.wf = true) : (s.writeThrough pa).mem.wf = true := by
  unfold State.writeThrough
  split
  · exact Memory.wf_writeMasked _ _ _ _ w
  · exact w

theorem State.homePut_wf (n : Nat) : ∀ (s : State) (pa : Nat) (bs : List Byte), s.mem.wf = true → (s.homePut pa n bs).mem.wf = true := by
  induction n with
  | zero => exact fun _ _ _ w => w
  | succ n ih =>
    intro s pa bs w
    unfold State.homePut
    dsimp only
    split
    · exact w
    · exact ih _ _ _ (State.homeWrite_wf _ _ _ _ w)

theorem State.quietPut_wf (n : Nat) : ∀ (s : State) (pa : Nat) (bs : List Byte), s.mem.wf = true → (s.quietPut pa n bs).mem.wf = true := by
  induction n with
  | zero => exact fun _ _ _ w => w
  | succ n ih =>
    intro s pa bs w
    unfold State.quietPut
    dsimp only
    split
    · exact w
    · exact ih _ _ _ (State.quietWrite_wf _ _ _ _ w)

theorem State.homeNum_wf (s : State) (pa n v : Nat) (w : s.mem.wf = true) : (s.homeNum pa n v).mem.wf = true := State.quietPut_wf _ _ _ _ w

/-! Folds of writes. -/

theorem wf_foldl {α : Type} (f : State → α → State) (h : ∀ s a, s.mem.wf = true → (f s a).mem.wf = true) (l : List α) :
    ∀ s : State, s.mem.wf = true → (l.foldl f s).mem.wf = true := by
  induction l with
  | nil => exact fun _ w => w
  | cons a l ih => exact fun s w => ih _ (h s a w)

theorem mem_foldl {α : Type} (f : State → α → State) (h : ∀ s a, (f s a).mem = s.mem) (l : List α) : ∀ s : State, (l.foldl f s).mem = s.mem := by
  induction l with
  | nil => exact fun _ => rfl
  | cons a l ih => exact fun s => (ih _).trans (h s a)

/-! Compressed blocks, moves and the collector. -/

theorem State.writeBlock_wf {s t : State} {asid cb pa : Nat} {bs : List Byte} (w : s.mem.wf = true) (h : s.writeBlock asid cb pa bs = .ok t) : t.mem.wf = true := by
  unfold State.writeBlock at h
  dsimp only at h
  split at h
  · cases h
  · split at h
    · cases h
    · split at h
      · cases h
      · split at h <;>
        · split at h
          · cases h
          · split at h
            · cases h
            · injection h with h
              subst h
              exact State.homeNum_wf _ _ _ _ (State.homeNum_wf _ _ _ _ (wf_foldl _ (fun s a w => State.homePut_wf _ _ _ _ w) _ _ w))

theorem State.copyPa_wf (s : State) (src dst n : Nat) (w : s.mem.wf = true) : (s.copyPa src dst n).mem.wf = true := State.quietPut_wf _ _ _ _ w

theorem State.endMove_wf (s : State) (die a st : Nat) (w : s.mem.wf = true) : (s.endMove die a st).mem.wf = true := by
  unfold State.endMove
  rw [State.mapDie_mem]
  exact State.homeWrite_wf _ _ _ _ w

theorem execCollectorCopy_wf {s t : State} {asid : Nat} (w : s.mem.wf = true) (h : execCollectorCopy asid s = .next t) : t.mem.wf = true := by
  unfold execCollectorCopy at h
  split at h
  · injection h with h; subst h; exact w
  · dsimp only at h
    split at h
    · injection h with h; subst h; exact w
    · injection h with h
      subst h
      refine State.homeNum_wf _ _ _ _ (State.homeNum_wf _ _ _ _ (wf_foldl _ ?_ _ _ w))
      intro s a w
      exact State.quietPut_wf _ _ _ _ w

theorem execSectorFree_wf {s t : State} {asid : Nat} (w : s.mem.wf = true) (h : execSectorFree asid s = .next t) : t.mem.wf = true := by
  unfold execSectorFree at h
  dsimp only at h
  split at h <;> injection h with h <;> subst h
  · exact w
  · exact State.homeNum_wf _ _ _ _ w

theorem execPoolAgentWrite_wf {s t : State} {pa : BitVec 48} {v : List Byte} (w : s.mem.wf = true) (h : execPoolAgentWrite pa v s = .next t) : t.mem.wf = true := by
  unfold execPoolAgentWrite at h
  injection h with h
  subst h
  split
  · rw [mem_foldl _ fun s k => State.noteMoved_mem s _]
    exact Memory.wf_writeBytes _ _ w
  · exact w

/-- Fencing a unit leaves memory alone. -/
@[simp] theorem State.fenceUnit_mem (s : State) (u : DevUnit) : (s.fenceUnit u).mem = s.mem := by
  cases u <;> rfl

/-- Writing the scope table leaves memory alone. -/
@[simp] theorem State.writeScopes_mem (s : State) : s.writeScopes.mem = s.mem := by
  unfold State.writeScopes
  dsimp only
  rw [mem_foldl _ fun s d => State.mapDie_mem _ _ _]

/-- A device that comes up keeps the bytes of other memory: the form stays. -/
theorem execBringUp_wf {s u : State} (w : s.mem.wf = true) (h : execBringUp s = .next u) : u.mem.wf = true := by
  injection h with h
  subst h
  split
  · exact w
  · split
    · unfold State.comeUp
      rw [State.writeScopes_mem, mem_foldl _ State.fenceUnit_mem]
      exact Memory.wf_filter _ w
    · exact w

end Sys2Proof.Machine
end

