-- ==== Sys2Proof/Laws/PerInstr.lean ====
section
/-! SUPPORT. Facts about every instruction as syntax, one lemma per constructor. -/

namespace Sys2Proof.Laws.Canon

open Sys2Proof

/-- The instruction the decoder gives for shared words has the same words, is its own decoder's choice, and is well-formed with the one it stands for. -/
def Statement (i : Instr) : Prop := i.canon.enc = i.enc ∧ i.canon.canon = i.canon ∧ i.canon.coded = i.coded ∧ i.canon.wellFormed = i.wellFormed

theorem add (v0 : Reg) (v1 : Reg) (v2 : Src) : Statement (.add v0 v1 v2) := ⟨rfl, rfl, rfl, rfl⟩
theorem sub (v0 : Reg) (v1 : Reg) (v2 : Src) : Statement (.sub v0 v1 v2) := ⟨rfl, rfl, rfl, rfl⟩
theorem mul (v0 : Reg) (v1 : Reg) (v2 : Src) : Statement (.mul v0 v1 v2) := ⟨rfl, rfl, rfl, rfl⟩
theorem mulh (v0 : Reg) (v1 : Reg) (v2 : Src) : Statement (.mulh v0 v1 v2) := ⟨rfl, rfl, rfl, rfl⟩
theorem mulhu (v0 : Reg) (v1 : Reg) (v2 : Src) : Statement (.mulhu v0 v1 v2) := ⟨rfl, rfl, rfl, rfl⟩
theorem div (v0 : Reg) (v1 : Reg) (v2 : Src) : Statement (.div v0 v1 v2) := ⟨rfl, rfl, rfl, rfl⟩
theorem divu (v0 : Reg) (v1 : Reg) (v2 : Src) : Statement (.divu v0 v1 v2) := ⟨rfl, rfl, rfl, rfl⟩
theorem rem (v0 : Reg) (v1 : Reg) (v2 : Src) : Statement (.rem v0 v1 v2) := ⟨rfl, rfl, rfl, rfl⟩
theorem remu (v0 : Reg) (v1 : Reg) (v2 : Src) : Statement (.remu v0 v1 v2) := ⟨rfl, rfl, rfl, rfl⟩
theorem and (v0 : Reg) (v1 : Reg) (v2 : Src) : Statement (.and v0 v1 v2) := ⟨rfl, rfl, rfl, rfl⟩
theorem or (v0 : Reg) (v1 : Reg) (v2 : Src) : Statement (.or v0 v1 v2) := ⟨rfl, rfl, rfl, rfl⟩
theorem xor (v0 : Reg) (v1 : Reg) (v2 : Src) : Statement (.xor v0 v1 v2) := ⟨rfl, rfl, rfl, rfl⟩
theorem andn (v0 : Reg) (v1 : Reg) (v2 : Src) : Statement (.andn v0 v1 v2) := ⟨rfl, rfl, rfl, rfl⟩
theorem shl (v0 : Reg) (v1 : Reg) (v2 : Src) : Statement (.shl v0 v1 v2) := ⟨rfl, rfl, rfl, rfl⟩
theorem shr (v0 : Reg) (v1 : Reg) (v2 : Src) : Statement (.shr v0 v1 v2) := ⟨rfl, rfl, rfl, rfl⟩
theorem sar (v0 : Reg) (v1 : Reg) (v2 : Src) : Statement (.sar v0 v1 v2) := ⟨rfl, rfl, rfl, rfl⟩
theorem rol (v0 : Reg) (v1 : Reg) (v2 : Src) : Statement (.rol v0 v1 v2) := ⟨rfl, rfl, rfl, rfl⟩
theorem ror (v0 : Reg) (v1 : Reg) (v2 : Src) : Statement (.ror v0 v1 v2) := ⟨rfl, rfl, rfl, rfl⟩
theorem min (v0 : Reg) (v1 : Reg) (v2 : Src) : Statement (.min v0 v1 v2) := ⟨rfl, rfl, rfl, rfl⟩
theorem max (v0 : Reg) (v1 : Reg) (v2 : Src) : Statement (.max v0 v1 v2) := ⟨rfl, rfl, rfl, rfl⟩
theorem minu (v0 : Reg) (v1 : Reg) (v2 : Src) : Statement (.minu v0 v1 v2) := ⟨rfl, rfl, rfl, rfl⟩
theorem maxu (v0 : Reg) (v1 : Reg) (v2 : Src) : Statement (.maxu v0 v1 v2) := ⟨rfl, rfl, rfl, rfl⟩
theorem addI (v0 : Reg) (v1 : Reg) (v2 : BitVec 44) : Statement (.addI v0 v1 v2) := ⟨rfl, rfl, rfl, rfl⟩
theorem mulI (v0 : Reg) (v1 : Reg) (v2 : BitVec 44) : Statement (.mulI v0 v1 v2) := ⟨rfl, rfl, rfl, rfl⟩
theorem andI (v0 : Reg) (v1 : Reg) (v2 : BitVec 44) : Statement (.andI v0 v1 v2) := ⟨rfl, rfl, rfl, rfl⟩
theorem orI (v0 : Reg) (v1 : Reg) (v2 : BitVec 44) : Statement (.orI v0 v1 v2) := ⟨rfl, rfl, rfl, rfl⟩
theorem xorI (v0 : Reg) (v1 : Reg) (v2 : BitVec 44) : Statement (.xorI v0 v1 v2) := ⟨rfl, rfl, rfl, rfl⟩
theorem shlI (v0 : Reg) (v1 : Reg) (v2 : BitVec 6) : Statement (.shlI v0 v1 v2) := ⟨rfl, rfl, rfl, rfl⟩
theorem shrI (v0 : Reg) (v1 : Reg) (v2 : BitVec 6) : Statement (.shrI v0 v1 v2) := ⟨rfl, rfl, rfl, rfl⟩
theorem sarI (v0 : Reg) (v1 : Reg) (v2 : BitVec 6) : Statement (.sarI v0 v1 v2) := ⟨rfl, rfl, rfl, rfl⟩
theorem rolI (v0 : Reg) (v1 : Reg) (v2 : BitVec 6) : Statement (.rolI v0 v1 v2) := ⟨rfl, rfl, rfl, rfl⟩
theorem rorI (v0 : Reg) (v1 : Reg) (v2 : BitVec 6) : Statement (.rorI v0 v1 v2) := ⟨rfl, rfl, rfl, rfl⟩
theorem li (v0 : Reg) (v1 : BitVec 44) : Statement (.li v0 v1) := ⟨rfl, rfl, rfl, rfl⟩
theorem bext (v0 : Reg) (v1 : Reg) (v2 : BitVec 6) (v3 : BitVec 6) : Statement (.bext v0 v1 v2 v3) := ⟨rfl, rfl, rfl, rfl⟩
theorem bextu (v0 : Reg) (v1 : Reg) (v2 : BitVec 6) (v3 : BitVec 6) : Statement (.bextu v0 v1 v2 v3) := ⟨rfl, rfl, rfl, rfl⟩
theorem bins (v0 : Reg) (v1 : Reg) (v2 : BitVec 6) (v3 : BitVec 6) : Statement (.bins v0 v1 v2 v3) := ⟨rfl, rfl, rfl, rfl⟩
theorem mov (v0 : RegN) (v1 : RegN) : Statement (.mov v0 v1) := ⟨rfl, rfl, rfl, rfl⟩
theorem popc (v0 : Reg) (v1 : Reg) : Statement (.popc v0 v1) := ⟨rfl, rfl, rfl, rfl⟩
theorem clz (v0 : Reg) (v1 : Reg) : Statement (.clz v0 v1) := ⟨rfl, rfl, rfl, rfl⟩
theorem ctz (v0 : Reg) (v1 : Reg) : Statement (.ctz v0 v1) := ⟨rfl, rfl, rfl, rfl⟩
theorem brev (v0 : Reg) (v1 : Reg) : Statement (.brev v0 v1) := ⟨rfl, rfl, rfl, rfl⟩
theorem abs (v0 : Reg) (v1 : Reg) : Statement (.abs v0 v1) := ⟨rfl, rfl, rfl, rfl⟩
theorem sext8 (v0 : Reg) (v1 : Reg) : Statement (.sext8 v0 v1) := ⟨rfl, rfl, rfl, rfl⟩
theorem sext16 (v0 : Reg) (v1 : Reg) : Statement (.sext16 v0 v1) := ⟨rfl, rfl, rfl, rfl⟩
theorem sext32 (v0 : Reg) (v1 : Reg) : Statement (.sext32 v0 v1) := ⟨rfl, rfl, rfl, rfl⟩
theorem zext8 (v0 : Reg) (v1 : Reg) : Statement (.zext8 v0 v1) := ⟨rfl, rfl, rfl, rfl⟩
theorem zext16 (v0 : Reg) (v1 : Reg) : Statement (.zext16 v0 v1) := ⟨rfl, rfl, rfl, rfl⟩
theorem zext32 (v0 : Reg) (v1 : Reg) : Statement (.zext32 v0 v1) := ⟨rfl, rfl, rfl, rfl⟩
theorem atx (v0 : XReg) (v1 : AReg) : Statement (.atx v0 v1) := ⟨rfl, rfl, rfl, rfl⟩
theorem rdtime (v0 : XReg) : Statement (.rdtime v0) := ⟨rfl, rfl, rfl, rfl⟩
theorem cmp (v0 : Cond) (v1 : PReg) (v2 : XReg) (v3 : XSrc) : Statement (.cmp v0 v1 v2 v3) := ⟨rfl, rfl, rfl, rfl⟩
theorem pand (v0 : PReg) (v1 : PReg) (v2 : PReg) : Statement (.pand v0 v1 v2) := ⟨rfl, rfl, rfl, rfl⟩
theorem por (v0 : PReg) (v1 : PReg) (v2 : PReg) : Statement (.por v0 v1 v2) := ⟨rfl, rfl, rfl, rfl⟩
theorem pnot (v0 : PReg) (v1 : PReg) : Statement (.pnot v0 v1) := ⟨rfl, rfl, rfl, rfl⟩
theorem sel (v0 : Reg) (v1 : PReg) (v2 : Reg) (v3 : Reg) : Statement (.sel v0 v1 v2 v3) := ⟨rfl, rfl, rfl, rfl⟩
theorem fcmp (v0 : FCond) (v1 : SFmt) (v2 : PReg) (v3 : XReg) (v4 : XSrc) : Statement (.fcmp v0 v1 v2 v3 v4) := ⟨rfl, rfl, rfl, rfl⟩
theorem fcvt (v0 : Fmt) (v1 : Fmt) (v2 : XReg) (v3 : XReg) : Statement (.fcvt v0 v1 v2 v3) := ⟨rfl, rfl, rfl, rfl⟩
theorem lea (v0 : Reg) (v1 : Reg) (v2 : Src) (v3 : BitVec 3) : Statement (.lea v0 v1 v2 v3) := ⟨rfl, rfl, rfl, rfl⟩
theorem fshl (v0 : Reg) (v1 : Reg) (v2 : Src) (v3 : BitVec 6) : Statement (.fshl v0 v1 v2 v3) := ⟨rfl, rfl, rfl, rfl⟩
theorem fshr (v0 : Reg) (v1 : Reg) (v2 : Src) (v3 : BitVec 6) : Statement (.fshr v0 v1 v2 v3) := ⟨rfl, rfl, rfl, rfl⟩
theorem crr (v0 : XReg) (v1 : BitVec 12) : Statement (.crr v0 v1) := ⟨rfl, rfl, rfl, rfl⟩
theorem crw (v0 : BitVec 12) (v1 : XReg) : Statement (.crw v0 v1) := ⟨rfl, rfl, rfl, rfl⟩
theorem wait (v0 : BitVec 16) : Statement (.wait v0) := ⟨rfl, rfl, rfl, rfl⟩
theorem trap (v0 : BitVec 12) : Statement (.trap v0) := ⟨rfl, rfl, rfl, rfl⟩
theorem hint (v0 : BitVec 6) (v1 : BitVec 6) (v2 : BitVec 6) (v3 : BitVec 6) : Statement (.hint v0 v1 v2 v3) := ⟨rfl, rfl, rfl, rfl⟩
theorem nop : Statement (.nop) := ⟨rfl, rfl, rfl, rfl⟩
theorem faddF32 (v0 : XReg) (v1 : XReg) (v2 : XSrc) : Statement (.faddF32 v0 v1 v2) := ⟨rfl, rfl, rfl, rfl⟩
theorem fsubF32 (v0 : XReg) (v1 : XReg) (v2 : XSrc) : Statement (.fsubF32 v0 v1 v2) := ⟨rfl, rfl, rfl, rfl⟩
theorem fmulF32 (v0 : XReg) (v1 : XReg) (v2 : XSrc) : Statement (.fmulF32 v0 v1 v2) := ⟨rfl, rfl, rfl, rfl⟩
theorem fdivF32 (v0 : XReg) (v1 : XReg) (v2 : XSrc) : Statement (.fdivF32 v0 v1 v2) := ⟨rfl, rfl, rfl, rfl⟩
theorem fminF32 (v0 : XReg) (v1 : XReg) (v2 : XSrc) : Statement (.fminF32 v0 v1 v2) := ⟨rfl, rfl, rfl, rfl⟩
theorem fmaxF32 (v0 : XReg) (v1 : XReg) (v2 : XSrc) : Statement (.fmaxF32 v0 v1 v2) := ⟨rfl, rfl, rfl, rfl⟩
theorem fsqrtF32 (v0 : XReg) (v1 : XReg) : Statement (.fsqrtF32 v0 v1) := ⟨rfl, rfl, rfl, rfl⟩
theorem fabsF32 (v0 : XReg) (v1 : XReg) : Statement (.fabsF32 v0 v1) := ⟨rfl, rfl, rfl, rfl⟩
theorem fnegF32 (v0 : XReg) (v1 : XReg) : Statement (.fnegF32 v0 v1) := ⟨rfl, rfl, rfl, rfl⟩
theorem fclassF32 (v0 : XReg) (v1 : XReg) : Statement (.fclassF32 v0 v1) := ⟨rfl, rfl, rfl, rfl⟩
theorem fsinF32 (v0 : XReg) (v1 : XReg) : Statement (.fsinF32 v0 v1) := ⟨rfl, rfl, rfl, rfl⟩
theorem fcosF32 (v0 : XReg) (v1 : XReg) : Statement (.fcosF32 v0 v1) := ⟨rfl, rfl, rfl, rfl⟩
theorem fexp2F32 (v0 : XReg) (v1 : XReg) : Statement (.fexp2F32 v0 v1) := ⟨rfl, rfl, rfl, rfl⟩
theorem flog2F32 (v0 : XReg) (v1 : XReg) : Statement (.flog2F32 v0 v1) := ⟨rfl, rfl, rfl, rfl⟩
theorem frcpF32 (v0 : XReg) (v1 : XReg) : Statement (.frcpF32 v0 v1) := ⟨rfl, rfl, rfl, rfl⟩
theorem frsqF32 (v0 : XReg) (v1 : XReg) : Statement (.frsqF32 v0 v1) := ⟨rfl, rfl, rfl, rfl⟩
theorem ffmaF32 (v0 : XReg) (v1 : XReg) (v2 : XSrc) : Statement (.ffmaF32 v0 v1 v2) := ⟨rfl, rfl, rfl, rfl⟩
theorem faddF16 (v0 : XReg) (v1 : XReg) (v2 : XSrc) : Statement (.faddF16 v0 v1 v2) := ⟨rfl, rfl, rfl, rfl⟩
theorem fsubF16 (v0 : XReg) (v1 : XReg) (v2 : XSrc) : Statement (.fsubF16 v0 v1 v2) := ⟨rfl, rfl, rfl, rfl⟩
theorem fmulF16 (v0 : XReg) (v1 : XReg) (v2 : XSrc) : Statement (.fmulF16 v0 v1 v2) := ⟨rfl, rfl, rfl, rfl⟩
theorem fdivF16 (v0 : XReg) (v1 : XReg) (v2 : XSrc) : Statement (.fdivF16 v0 v1 v2) := ⟨rfl, rfl, rfl, rfl⟩
theorem fminF16 (v0 : XReg) (v1 : XReg) (v2 : XSrc) : Statement (.fminF16 v0 v1 v2) := ⟨rfl, rfl, rfl, rfl⟩
theorem fmaxF16 (v0 : XReg) (v1 : XReg) (v2 : XSrc) : Statement (.fmaxF16 v0 v1 v2) := ⟨rfl, rfl, rfl, rfl⟩
theorem fsqrtF16 (v0 : XReg) (v1 : XReg) : Statement (.fsqrtF16 v0 v1) := ⟨rfl, rfl, rfl, rfl⟩
theorem fabsF16 (v0 : XReg) (v1 : XReg) : Statement (.fabsF16 v0 v1) := ⟨rfl, rfl, rfl, rfl⟩
theorem fnegF16 (v0 : XReg) (v1 : XReg) : Statement (.fnegF16 v0 v1) := ⟨rfl, rfl, rfl, rfl⟩
theorem fclassF16 (v0 : XReg) (v1 : XReg) : Statement (.fclassF16 v0 v1) := ⟨rfl, rfl, rfl, rfl⟩
theorem fsinF16 (v0 : XReg) (v1 : XReg) : Statement (.fsinF16 v0 v1) := ⟨rfl, rfl, rfl, rfl⟩
theorem fcosF16 (v0 : XReg) (v1 : XReg) : Statement (.fcosF16 v0 v1) := ⟨rfl, rfl, rfl, rfl⟩
theorem fexp2F16 (v0 : XReg) (v1 : XReg) : Statement (.fexp2F16 v0 v1) := ⟨rfl, rfl, rfl, rfl⟩
theorem flog2F16 (v0 : XReg) (v1 : XReg) : Statement (.flog2F16 v0 v1) := ⟨rfl, rfl, rfl, rfl⟩
theorem frcpF16 (v0 : XReg) (v1 : XReg) : Statement (.frcpF16 v0 v1) := ⟨rfl, rfl, rfl, rfl⟩
theorem frsqF16 (v0 : XReg) (v1 : XReg) : Statement (.frsqF16 v0 v1) := ⟨rfl, rfl, rfl, rfl⟩
theorem ffmaF16 (v0 : XReg) (v1 : XReg) (v2 : XSrc) : Statement (.ffmaF16 v0 v1 v2) := ⟨rfl, rfl, rfl, rfl⟩
theorem faddBF16 (v0 : XReg) (v1 : XReg) (v2 : XSrc) : Statement (.faddBF16 v0 v1 v2) := ⟨rfl, rfl, rfl, rfl⟩
theorem fsubBF16 (v0 : XReg) (v1 : XReg) (v2 : XSrc) : Statement (.fsubBF16 v0 v1 v2) := ⟨rfl, rfl, rfl, rfl⟩
theorem fmulBF16 (v0 : XReg) (v1 : XReg) (v2 : XSrc) : Statement (.fmulBF16 v0 v1 v2) := ⟨rfl, rfl, rfl, rfl⟩
theorem fdivBF16 (v0 : XReg) (v1 : XReg) (v2 : XSrc) : Statement (.fdivBF16 v0 v1 v2) := ⟨rfl, rfl, rfl, rfl⟩
theorem fminBF16 (v0 : XReg) (v1 : XReg) (v2 : XSrc) : Statement (.fminBF16 v0 v1 v2) := ⟨rfl, rfl, rfl, rfl⟩
theorem fmaxBF16 (v0 : XReg) (v1 : XReg) (v2 : XSrc) : Statement (.fmaxBF16 v0 v1 v2) := ⟨rfl, rfl, rfl, rfl⟩
theorem fsqrtBF16 (v0 : XReg) (v1 : XReg) : Statement (.fsqrtBF16 v0 v1) := ⟨rfl, rfl, rfl, rfl⟩
theorem fabsBF16 (v0 : XReg) (v1 : XReg) : Statement (.fabsBF16 v0 v1) := ⟨rfl, rfl, rfl, rfl⟩
theorem fnegBF16 (v0 : XReg) (v1 : XReg) : Statement (.fnegBF16 v0 v1) := ⟨rfl, rfl, rfl, rfl⟩
theorem fclassBF16 (v0 : XReg) (v1 : XReg) : Statement (.fclassBF16 v0 v1) := ⟨rfl, rfl, rfl, rfl⟩
theorem fsinBF16 (v0 : XReg) (v1 : XReg) : Statement (.fsinBF16 v0 v1) := ⟨rfl, rfl, rfl, rfl⟩
theorem fcosBF16 (v0 : XReg) (v1 : XReg) : Statement (.fcosBF16 v0 v1) := ⟨rfl, rfl, rfl, rfl⟩
theorem fexp2BF16 (v0 : XReg) (v1 : XReg) : Statement (.fexp2BF16 v0 v1) := ⟨rfl, rfl, rfl, rfl⟩
theorem flog2BF16 (v0 : XReg) (v1 : XReg) : Statement (.flog2BF16 v0 v1) := ⟨rfl, rfl, rfl, rfl⟩
theorem frcpBF16 (v0 : XReg) (v1 : XReg) : Statement (.frcpBF16 v0 v1) := ⟨rfl, rfl, rfl, rfl⟩
theorem frsqBF16 (v0 : XReg) (v1 : XReg) : Statement (.frsqBF16 v0 v1) := ⟨rfl, rfl, rfl, rfl⟩
theorem ffmaBF16 (v0 : XReg) (v1 : XReg) (v2 : XSrc) : Statement (.ffmaBF16 v0 v1 v2) := ⟨rfl, rfl, rfl, rfl⟩
theorem ldS8 (v0 : Slot) (v1 : BitVec 32) (v2 : AReg) (v3 : Reg) : Statement (.ldS8 v0 v1 v2 v3) := ⟨rfl, rfl, rfl, rfl⟩
theorem ldU8 (v0 : Slot) (v1 : BitVec 32) (v2 : AReg) (v3 : Reg) : Statement (.ldU8 v0 v1 v2 v3) := ⟨rfl, rfl, rfl, rfl⟩
theorem ldS16 (v0 : Slot) (v1 : BitVec 32) (v2 : AReg) (v3 : Reg) : Statement (.ldS16 v0 v1 v2 v3) := ⟨rfl, rfl, rfl, rfl⟩
theorem ldU16 (v0 : Slot) (v1 : BitVec 32) (v2 : AReg) (v3 : Reg) : Statement (.ldU16 v0 v1 v2 v3) := ⟨rfl, rfl, rfl, rfl⟩
theorem ldS32 (v0 : Slot) (v1 : BitVec 32) (v2 : AReg) (v3 : Reg) : Statement (.ldS32 v0 v1 v2 v3) := ⟨rfl, rfl, rfl, rfl⟩
theorem ldU32 (v0 : Slot) (v1 : BitVec 32) (v2 : AReg) (v3 : Reg) : Statement (.ldU32 v0 v1 v2 v3) := ⟨rfl, rfl, rfl, rfl⟩
theorem ld64 (v0 : Slot) (v1 : BitVec 32) (v2 : AReg) (v3 : Reg) : Statement (.ld64 v0 v1 v2 v3) := ⟨rfl, rfl, rfl, rfl⟩
theorem st8 (v0 : Slot) (v1 : BitVec 32) (v2 : AReg) (v3 : Reg) : Statement (.st8 v0 v1 v2 v3) := ⟨rfl, rfl, rfl, rfl⟩
theorem st16 (v0 : Slot) (v1 : BitVec 32) (v2 : AReg) (v3 : Reg) : Statement (.st16 v0 v1 v2 v3) := ⟨rfl, rfl, rfl, rfl⟩
theorem st32 (v0 : Slot) (v1 : BitVec 32) (v2 : AReg) (v3 : Reg) : Statement (.st32 v0 v1 v2 v3) := ⟨rfl, rfl, rfl, rfl⟩
theorem st64 (v0 : Slot) (v1 : BitVec 32) (v2 : AReg) (v3 : Reg) : Statement (.st64 v0 v1 v2 v3) := ⟨rfl, rfl, rfl, rfl⟩
theorem ldl8 (v0 : Slot) (v1 : BitVec 32) (v2 : AReg) (v3 : Reg) : Statement (.ldl8 v0 v1 v2 v3) := ⟨rfl, rfl, rfl, rfl⟩
theorem ldl16 (v0 : Slot) (v1 : BitVec 32) (v2 : AReg) (v3 : Reg) : Statement (.ldl16 v0 v1 v2 v3) := ⟨rfl, rfl, rfl, rfl⟩
theorem ldl32 (v0 : Slot) (v1 : BitVec 32) (v2 : AReg) (v3 : Reg) : Statement (.ldl32 v0 v1 v2 v3) := ⟨rfl, rfl, rfl, rfl⟩
theorem ldl64 (v0 : Slot) (v1 : BitVec 32) (v2 : AReg) (v3 : Reg) : Statement (.ldl64 v0 v1 v2 v3) := ⟨rfl, rfl, rfl, rfl⟩
theorem stl8 (v0 : Slot) (v1 : BitVec 32) (v2 : AReg) (v3 : Reg) : Statement (.stl8 v0 v1 v2 v3) := ⟨rfl, rfl, rfl, rfl⟩
theorem stl16 (v0 : Slot) (v1 : BitVec 32) (v2 : AReg) (v3 : Reg) : Statement (.stl16 v0 v1 v2 v3) := ⟨rfl, rfl, rfl, rfl⟩
theorem stl32 (v0 : Slot) (v1 : BitVec 32) (v2 : AReg) (v3 : Reg) : Statement (.stl32 v0 v1 v2 v3) := ⟨rfl, rfl, rfl, rfl⟩
theorem stl64 (v0 : Slot) (v1 : BitVec 32) (v2 : AReg) (v3 : Reg) : Statement (.stl64 v0 v1 v2 v3) := ⟨rfl, rfl, rfl, rfl⟩
theorem ldfeC (v0 : Slot) (v1 : BitVec 32) (v2 : AReg) (v3 : Reg) : Statement (.ldfeC v0 v1 v2 v3) := ⟨rfl, rfl, rfl, rfl⟩
theorem ldfeK (v0 : Slot) (v1 : BitVec 32) (v2 : AReg) (v3 : Reg) : Statement (.ldfeK v0 v1 v2 v3) := ⟨rfl, rfl, rfl, rfl⟩
theorem stfe (v0 : Slot) (v1 : BitVec 32) (v2 : AReg) (v3 : Reg) : Statement (.stfe v0 v1 v2 v3) := ⟨rfl, rfl, rfl, rfl⟩
theorem femarkE (v0 : Slot) (v1 : BitVec 32) (v2 : AReg) (v3 : Reg) : Statement (.femarkE v0 v1 v2 v3) := ⟨rfl, rfl, rfl, rfl⟩
theorem femarkF (v0 : Slot) (v1 : BitVec 32) (v2 : AReg) (v3 : Reg) : Statement (.femarkF v0 v1 v2 v3) := ⟨rfl, rfl, rfl, rfl⟩
theorem pref (v0 : Slot) (v1 : BitVec 32) (v2 : AReg) (v3 : Bool) : Statement (.pref v0 v1 v2 v3) := ⟨rfl, rfl, rfl, rfl⟩
theorem fence (v0 : Slot) (v1 : Scope) : Statement (.fence v0 v1) := ⟨rfl, rfl, rfl, rfl⟩
theorem czfence (v0 : Slot) (v1 : BitVec 32) (v2 : AReg) (v3 : Reg) : Statement (.czfence v0 v1 v2 v3) := ⟨rfl, rfl, rfl, rfl⟩
theorem cbload (v0 : Slot) (v1 : BitVec 32) (v2 : AReg) (v3 : Reg) : Statement (.cbload v0 v1 v2 v3) := ⟨rfl, rfl, rfl, rfl⟩
theorem czstat (v0 : Slot) (v1 : BitVec 32) (v2 : AReg) (v3 : Reg) : Statement (.czstat v0 v1 v2 v3) := ⟨rfl, rfl, rfl, rfl⟩
theorem j (v0 : BitVec 8) (v1 : AReg) : Statement (.j v0 v1) := ⟨rfl, rfl, rfl, rfl⟩
theorem ret : Statement (.ret) := ⟨rfl, rfl, rfl, rfl⟩
theorem b (v0 : BitVec 20) (v1 : Bool) (v2 : PReg) : Statement (.b v0 v1 v2) := ⟨rfl, rfl, rfl, rfl⟩
theorem bp (v0 : BitVec 20) (v1 : Bool) (v2 : PReg) : Statement (.bp v0 v1 v2) := ⟨rfl, rfl, rfl, rfl⟩
theorem call (v0 : BitVec 20) : Statement (.call v0) := ⟨rfl, rfl, rfl, rfl⟩
theorem loop (v0 : BitVec 20) (v1 : BitVec 3) : Statement (.loop v0 v1) := ⟨rfl, rfl, rfl, rfl⟩
theorem longForm (v0 : Mods) : Statement (.longForm v0) := ⟨rfl, rfl, rfl, rfl⟩
theorem vadd (v0 : KReg) (v1 : Fmt) (v2 : VReg) (v3 : VReg) (v4 : VSrc) : Statement (.vadd v0 v1 v2 v3 v4) := ⟨rfl, rfl, rfl, rfl⟩
theorem vsub (v0 : KReg) (v1 : Fmt) (v2 : VReg) (v3 : VReg) (v4 : VSrc) : Statement (.vsub v0 v1 v2 v3 v4) := ⟨rfl, rfl, rfl, rfl⟩
theorem vmul (v0 : KReg) (v1 : Fmt) (v2 : VReg) (v3 : VReg) (v4 : VSrc) : Statement (.vmul v0 v1 v2 v3 v4) := ⟨rfl, rfl, rfl, rfl⟩
theorem vfma (v0 : KReg) (v1 : Fmt) (v2 : VReg) (v3 : VReg) (v4 : VSrc) : Statement (.vfma v0 v1 v2 v3 v4) := ⟨rfl, rfl, rfl, rfl⟩
theorem vdiv (v0 : KReg) (v1 : Fmt) (v2 : VReg) (v3 : VReg) (v4 : VSrc) : Statement (.vdiv v0 v1 v2 v3 v4) := ⟨rfl, rfl, rfl, rfl⟩
theorem vsqrt (v0 : KReg) (v1 : Fmt) (v2 : VReg) (v3 : VReg) : Statement (.vsqrt v0 v1 v2 v3) := ⟨rfl, rfl, rfl, rfl⟩
theorem vmin (v0 : KReg) (v1 : Fmt) (v2 : VReg) (v3 : VReg) (v4 : VSrc) : Statement (.vmin v0 v1 v2 v3 v4) := ⟨rfl, rfl, rfl, rfl⟩
theorem vmax (v0 : KReg) (v1 : Fmt) (v2 : VReg) (v3 : VReg) (v4 : VSrc) : Statement (.vmax v0 v1 v2 v3 v4) := ⟨rfl, rfl, rfl, rfl⟩
theorem vand (v0 : KReg) (v1 : Fmt) (v2 : VReg) (v3 : VReg) (v4 : VSrc) : Statement (.vand v0 v1 v2 v3 v4) := ⟨rfl, rfl, rfl, rfl⟩
theorem vor (v0 : KReg) (v1 : Fmt) (v2 : VReg) (v3 : VReg) (v4 : VSrc) : Statement (.vor v0 v1 v2 v3 v4) := ⟨rfl, rfl, rfl, rfl⟩
theorem vxor (v0 : KReg) (v1 : Fmt) (v2 : VReg) (v3 : VReg) (v4 : VSrc) : Statement (.vxor v0 v1 v2 v3 v4) := ⟨rfl, rfl, rfl, rfl⟩
theorem vshl (v0 : KReg) (v1 : Fmt) (v2 : VReg) (v3 : VReg) (v4 : VSrc) : Statement (.vshl v0 v1 v2 v3 v4) := ⟨rfl, rfl, rfl, rfl⟩
theorem vshr (v0 : KReg) (v1 : Fmt) (v2 : VReg) (v3 : VReg) (v4 : VSrc) : Statement (.vshr v0 v1 v2 v3 v4) := ⟨rfl, rfl, rfl, rfl⟩
theorem vfsh (v0 : KReg) (v1 : Fmt) (v2 : VReg) (v3 : VReg) (v4 : VSrc) : Statement (.vfsh v0 v1 v2 v3 v4) := ⟨rfl, rfl, rfl, rfl⟩
theorem vbext (v0 : KReg) (v1 : Fmt) (v2 : VReg) (v3 : VReg) (v4 : VSrc) : Statement (.vbext v0 v1 v2 v3 v4) := ⟨rfl, rfl, rfl, rfl⟩
theorem vpopc (v0 : KReg) (v1 : Fmt) (v2 : VReg) (v3 : VReg) : Statement (.vpopc v0 v1 v2 v3) := ⟨rfl, rfl, rfl, rfl⟩
theorem vclz (v0 : KReg) (v1 : Fmt) (v2 : VReg) (v3 : VReg) : Statement (.vclz v0 v1 v2 v3) := ⟨rfl, rfl, rfl, rfl⟩
theorem vsel (v0 : KReg) (v1 : VReg) (v2 : VReg) (v3 : VSrc) : Statement (.vsel v0 v1 v2 v3) := ⟨rfl, rfl, rfl, rfl⟩
theorem vbcast (v0 : KReg) (v1 : VReg) (v2 : XReg) : Statement (.vbcast v0 v1 v2) := ⟨rfl, rfl, rfl, rfl⟩
theorem vextr (v0 : XReg) (v1 : VReg) (v2 : XSrc) : Statement (.vextr v0 v1 v2) := ⟨rfl, rfl, rfl, rfl⟩
theorem vins (v0 : VReg) (v1 : XReg) (v2 : XSrc) : Statement (.vins v0 v1 v2) := ⟨rfl, rfl, rfl, rfl⟩
theorem vneigh (v0 : KReg) (v1 : VReg) (v2 : VReg) (v3 : PReg) (v4 : BitVec 3) : Statement (.vneigh v0 v1 v2 v3 v4) := ⟨rfl, rfl, rfl, rfl⟩
theorem vlut (v0 : KReg) (v1 : VReg) (v2 : VReg) (v3 : VSrc) : Statement (.vlut v0 v1 v2 v3) := ⟨rfl, rfl, rfl, rfl⟩
theorem vperm (v0 : KReg) (v1 : VReg) (v2 : VReg) (v3 : VSrc) : Statement (.vperm v0 v1 v2 v3) := ⟨rfl, rfl, rfl, rfl⟩
theorem vsfnSin (v0 : KReg) (v1 : Fmt) (v2 : VReg) (v3 : VReg) : Statement (.vsfnSin v0 v1 v2 v3) := ⟨rfl, rfl, rfl, rfl⟩
theorem vsfnCos (v0 : KReg) (v1 : Fmt) (v2 : VReg) (v3 : VReg) : Statement (.vsfnCos v0 v1 v2 v3) := ⟨rfl, rfl, rfl, rfl⟩
theorem vsfnExp2 (v0 : KReg) (v1 : Fmt) (v2 : VReg) (v3 : VReg) : Statement (.vsfnExp2 v0 v1 v2 v3) := ⟨rfl, rfl, rfl, rfl⟩
theorem vsfnLog2 (v0 : KReg) (v1 : Fmt) (v2 : VReg) (v3 : VReg) : Statement (.vsfnLog2 v0 v1 v2 v3) := ⟨rfl, rfl, rfl, rfl⟩
theorem vsfnRcp (v0 : KReg) (v1 : Fmt) (v2 : VReg) (v3 : VReg) : Statement (.vsfnRcp v0 v1 v2 v3) := ⟨rfl, rfl, rfl, rfl⟩
theorem vsfnRsq (v0 : KReg) (v1 : Fmt) (v2 : VReg) (v3 : VReg) : Statement (.vsfnRsq v0 v1 v2 v3) := ⟨rfl, rfl, rfl, rfl⟩
theorem vcmp (v0 : KReg) (v1 : Fmt) (v2 : FCond) (v3 : KReg) (v4 : VReg) (v5 : VSrc) : Statement (.vcmp v0 v1 v2 v3 v4 v5) := ⟨rfl, rfl, rfl, rfl⟩
theorem vcvt (v0 : KReg) (v1 : Fmt) (v2 : Fmt) (v3 : VReg) (v4 : VReg) : Statement (.vcvt v0 v1 v2 v3 v4) := ⟨rfl, rfl, rfl, rfl⟩
theorem vredAdd (v0 : KReg) (v1 : Fmt) (v2 : XReg) (v3 : VReg) : Statement (.vredAdd v0 v1 v2 v3) := ⟨rfl, rfl, rfl, rfl⟩
theorem vredMin (v0 : KReg) (v1 : Fmt) (v2 : XReg) (v3 : VReg) : Statement (.vredMin v0 v1 v2 v3) := ⟨rfl, rfl, rfl, rfl⟩
theorem vredMax (v0 : KReg) (v1 : Fmt) (v2 : XReg) (v3 : VReg) : Statement (.vredMax v0 v1 v2 v3) := ⟨rfl, rfl, rfl, rfl⟩
theorem vredAnd (v0 : KReg) (v1 : Fmt) (v2 : XReg) (v3 : VReg) : Statement (.vredAnd v0 v1 v2 v3) := ⟨rfl, rfl, rfl, rfl⟩
theorem vredOr (v0 : KReg) (v1 : Fmt) (v2 : XReg) (v3 : VReg) : Statement (.vredOr v0 v1 v2 v3) := ⟨rfl, rfl, rfl, rfl⟩
theorem vredXor (v0 : KReg) (v1 : Fmt) (v2 : XReg) (v3 : VReg) : Statement (.vredXor v0 v1 v2 v3) := ⟨rfl, rfl, rfl, rfl⟩
theorem vscanAdd (v0 : KReg) (v1 : Fmt) (v2 : VReg) (v3 : VReg) : Statement (.vscanAdd v0 v1 v2 v3) := ⟨rfl, rfl, rfl, rfl⟩
theorem vscanMin (v0 : KReg) (v1 : Fmt) (v2 : VReg) (v3 : VReg) : Statement (.vscanMin v0 v1 v2 v3) := ⟨rfl, rfl, rfl, rfl⟩
theorem vscanMax (v0 : KReg) (v1 : Fmt) (v2 : VReg) (v3 : VReg) : Statement (.vscanMax v0 v1 v2 v3) := ⟨rfl, rfl, rfl, rfl⟩
theorem vscanAnd (v0 : KReg) (v1 : Fmt) (v2 : VReg) (v3 : VReg) : Statement (.vscanAnd v0 v1 v2 v3) := ⟨rfl, rfl, rfl, rfl⟩
theorem vscanOr (v0 : KReg) (v1 : Fmt) (v2 : VReg) (v3 : VReg) : Statement (.vscanOr v0 v1 v2 v3) := ⟨rfl, rfl, rfl, rfl⟩
theorem vscanXor (v0 : KReg) (v1 : Fmt) (v2 : VReg) (v3 : VReg) : Statement (.vscanXor v0 v1 v2 v3) := ⟨rfl, rfl, rfl, rfl⟩
theorem kopAnd (v0 : KReg) (v1 : KReg) (v2 : KReg) : Statement (.kopAnd v0 v1 v2) := ⟨rfl, rfl, rfl, rfl⟩
theorem kopOr (v0 : KReg) (v1 : KReg) (v2 : KReg) : Statement (.kopOr v0 v1 v2) := ⟨rfl, rfl, rfl, rfl⟩
theorem kopXor (v0 : KReg) (v1 : KReg) (v2 : KReg) : Statement (.kopXor v0 v1 v2) := ⟨rfl, rfl, rfl, rfl⟩
theorem kopAndn (v0 : KReg) (v1 : KReg) (v2 : KReg) : Statement (.kopAndn v0 v1 v2) := ⟨rfl, rfl, rfl, rfl⟩
theorem kopNot (v0 : KReg) (v1 : KReg) : Statement (.kopNot v0 v1) := ⟨rfl, rfl, rfl, rfl⟩
theorem kpopc (v0 : XReg) (v1 : KReg) : Statement (.kpopc v0 v1) := ⟨rfl, rfl, rfl, rfl⟩
theorem vclaim (v0 : XReg) (v1 : BitVec 12) : Statement (.vclaim v0 v1) := ⟨rfl, rfl, rfl, rfl⟩
theorem vrel : Statement (.vrel) := ⟨rfl, rfl, rfl, rfl⟩
theorem vld (v0 : KReg) (v1 : Fmt) (v2 : Slot) (v3 : BitVec 8) (v4 : AReg) (v5 : VReg) : Statement (.vld v0 v1 v2 v3 v4 v5) := ⟨rfl, rfl, rfl, rfl⟩
theorem vst (v0 : KReg) (v1 : Fmt) (v2 : Slot) (v3 : BitVec 8) (v4 : AReg) (v5 : VReg) : Statement (.vst v0 v1 v2 v3 v4 v5) := ⟨rfl, rfl, rfl, rfl⟩
theorem vldx (v0 : KReg) (v1 : Fmt) (v2 : Slot) (v3 : VReg) (v4 : AReg) (v5 : VReg) : Statement (.vldx v0 v1 v2 v3 v4 v5) := ⟨rfl, rfl, rfl, rfl⟩
theorem vstx (v0 : KReg) (v1 : Fmt) (v2 : Slot) (v3 : VReg) (v4 : AReg) (v5 : VReg) : Statement (.vstx v0 v1 v2 v3 v4 v5) := ⟨rfl, rfl, rfl, rfl⟩
theorem lda (v0 : BitVec 2) (v1 : Scope) (v2 : Slot) (v3 : BitVec 8) (v4 : AReg) (v5 : Reg) : Statement (.lda v0 v1 v2 v3 v4 v5) := ⟨rfl, rfl, rfl, rfl⟩
theorem strl (v0 : BitVec 2) (v1 : Scope) (v2 : Slot) (v3 : BitVec 8) (v4 : AReg) (v5 : Reg) : Statement (.strl v0 v1 v2 v3 v4 v5) := ⟨rfl, rfl, rfl, rfl⟩
theorem amo32Add (v0 : Scope) (v1 : Slot) (v2 : BitVec 8) (v3 : AReg) (v4 : XReg) : Statement (.amo32Add v0 v1 v2 v3 v4) := ⟨rfl, rfl, rfl, rfl⟩
theorem amo32Fadd (v0 : Scope) (v1 : Slot) (v2 : BitVec 8) (v3 : AReg) (v4 : XReg) : Statement (.amo32Fadd v0 v1 v2 v3 v4) := ⟨rfl, rfl, rfl, rfl⟩
theorem amo32Min (v0 : Scope) (v1 : Slot) (v2 : BitVec 8) (v3 : AReg) (v4 : XReg) : Statement (.amo32Min v0 v1 v2 v3 v4) := ⟨rfl, rfl, rfl, rfl⟩
theorem amo32Max (v0 : Scope) (v1 : Slot) (v2 : BitVec 8) (v3 : AReg) (v4 : XReg) : Statement (.amo32Max v0 v1 v2 v3 v4) := ⟨rfl, rfl, rfl, rfl⟩
theorem amo32And (v0 : Scope) (v1 : Slot) (v2 : BitVec 8) (v3 : AReg) (v4 : XReg) : Statement (.amo32And v0 v1 v2 v3 v4) := ⟨rfl, rfl, rfl, rfl⟩
theorem amo32Or (v0 : Scope) (v1 : Slot) (v2 : BitVec 8) (v3 : AReg) (v4 : XReg) : Statement (.amo32Or v0 v1 v2 v3 v4) := ⟨rfl, rfl, rfl, rfl⟩
theorem amo32Xor (v0 : Scope) (v1 : Slot) (v2 : BitVec 8) (v3 : AReg) (v4 : XReg) : Statement (.amo32Xor v0 v1 v2 v3 v4) := ⟨rfl, rfl, rfl, rfl⟩
theorem amo32Swap (v0 : Scope) (v1 : Slot) (v2 : BitVec 8) (v3 : AReg) (v4 : XReg) : Statement (.amo32Swap v0 v1 v2 v3 v4) := ⟨rfl, rfl, rfl, rfl⟩
theorem amo64Add (v0 : Scope) (v1 : Slot) (v2 : BitVec 8) (v3 : AReg) (v4 : XReg) : Statement (.amo64Add v0 v1 v2 v3 v4) := ⟨rfl, rfl, rfl, rfl⟩
theorem amo64Min (v0 : Scope) (v1 : Slot) (v2 : BitVec 8) (v3 : AReg) (v4 : XReg) : Statement (.amo64Min v0 v1 v2 v3 v4) := ⟨rfl, rfl, rfl, rfl⟩
theorem amo64Max (v0 : Scope) (v1 : Slot) (v2 : BitVec 8) (v3 : AReg) (v4 : XReg) : Statement (.amo64Max v0 v1 v2 v3 v4) := ⟨rfl, rfl, rfl, rfl⟩
theorem amo64And (v0 : Scope) (v1 : Slot) (v2 : BitVec 8) (v3 : AReg) (v4 : XReg) : Statement (.amo64And v0 v1 v2 v3 v4) := ⟨rfl, rfl, rfl, rfl⟩
theorem amo64Or (v0 : Scope) (v1 : Slot) (v2 : BitVec 8) (v3 : AReg) (v4 : XReg) : Statement (.amo64Or v0 v1 v2 v3 v4) := ⟨rfl, rfl, rfl, rfl⟩
theorem amo64Xor (v0 : Scope) (v1 : Slot) (v2 : BitVec 8) (v3 : AReg) (v4 : XReg) : Statement (.amo64Xor v0 v1 v2 v3 v4) := ⟨rfl, rfl, rfl, rfl⟩
theorem amo64Swap (v0 : Scope) (v1 : Slot) (v2 : BitVec 8) (v3 : AReg) (v4 : XReg) : Statement (.amo64Swap v0 v1 v2 v3 v4) := ⟨rfl, rfl, rfl, rfl⟩
theorem cas (v0 : Bool) (v1 : Scope) (v2 : Slot) (v3 : BitVec 8) (v4 : AReg) (v5 : Fin 15) : Statement (.cas v0 v1 v2 v3 v4 v5) := ⟨rfl, rfl, rfl, rfl⟩
theorem mmaNew (v0 : Bool) (v1 : Bool) (v2 : XReg) (v3 : AReg) (v4 : AReg) : Statement (.mmaNew v0 v1 v2 v3 v4) := ⟨rfl, rfl, rfl, rfl⟩
theorem mmaAcc (v0 : Bool) (v1 : Bool) (v2 : XReg) (v3 : AReg) (v4 : AReg) : Statement (.mmaAcc v0 v1 v2 v3 v4) := ⟨rfl, rfl, rfl, rfl⟩
theorem mgangNew (v0 : Bool) (v1 : Bool) (v2 : XReg) (v3 : AReg) (v4 : AReg) : Statement (.mgangNew v0 v1 v2 v3 v4) := ⟨rfl, rfl, rfl, rfl⟩
theorem mgangAcc (v0 : Bool) (v1 : Bool) (v2 : XReg) (v3 : AReg) (v4 : AReg) : Statement (.mgangAcc v0 v1 v2 v3 v4) := ⟨rfl, rfl, rfl, rfl⟩
theorem mzero (v0 : MReg) : Statement (.mzero v0) := ⟨rfl, rfl, rfl, rfl⟩
theorem mepi (v0 : XReg) (v1 : AReg) (v2 : AReg) : Statement (.mepi v0 v1 v2) := ⟨rfl, rfl, rfl, rfl⟩
theorem mwait : Statement (.mwait) := ⟨rfl, rfl, rfl, rfl⟩
theorem mprio (v0 : XReg) : Statement (.mprio v0) := ⟨rfl, rfl, rfl, rfl⟩
theorem chbond (v0 : BdReg) (v1 : XReg) : Statement (.chbond v0 v1) := ⟨rfl, rfl, rfl, rfl⟩
theorem chload (v0 : AReg) : Statement (.chload v0) := ⟨rfl, rfl, rfl, rfl⟩
theorem chrun (v0 : XReg) (v1 : AReg) (v2 : AReg) : Statement (.chrun v0 v1 v2) := ⟨rfl, rfl, rfl, rfl⟩
theorem chstep (v0 : XReg) (v1 : AReg) (v2 : AReg) : Statement (.chstep v0 v1 v2) := ⟨rfl, rfl, rfl, rfl⟩
theorem chwait (v0 : XReg) : Statement (.chwait v0) := ⟨rfl, rfl, rfl, rfl⟩
theorem enq (v0 : XReg) (v1 : Fin 7) (v2 : AReg) : Statement (.enq v0 v1 v2) := ⟨rfl, rfl, rfl, rfl⟩
theorem jpoll (v0 : XReg) (v1 : XReg) : Statement (.jpoll v0 v1) := ⟨rfl, rfl, rfl, rfl⟩
theorem jwait (v0 : XReg) (v1 : XReg) : Statement (.jwait v0 v1) := ⟨rfl, rfl, rfl, rfl⟩
theorem jcancel (v0 : XReg) (v1 : XReg) : Statement (.jcancel v0 v1) := ⟨rfl, rfl, rfl, rfl⟩
theorem pcfg (v0 : NReg) (v1 : XReg) : Statement (.pcfg v0 v1) := ⟨rfl, rfl, rfl, rfl⟩
theorem ptry (v0 : Reg) (v1 : NReg) (v2 : PReg) : Statement (.ptry v0 v1 v2) := ⟨rfl, rfl, rfl, rfl⟩
theorem ptrys (v0 : NReg) (v1 : Reg) (v2 : PReg) : Statement (.ptrys v0 v1 v2) := ⟨rfl, rfl, rfl, rfl⟩
theorem rqres (v0 : XReg) (v1 : AReg) (v2 : PReg) : Statement (.rqres v0 v1 v2) := ⟨rfl, rfl, rfl, rfl⟩
theorem rqpub (v0 : AReg) (v1 : XReg) : Statement (.rqpub v0 v1) := ⟨rfl, rfl, rfl, rfl⟩
theorem rqtake (v0 : XReg) (v1 : AReg) (v2 : PReg) : Statement (.rqtake v0 v1 v2) := ⟨rfl, rfl, rfl, rfl⟩
theorem rqdone (v0 : AReg) (v1 : XReg) : Statement (.rqdone v0 v1) := ⟨rfl, rfl, rfl, rfl⟩
theorem dqbind (v0 : XReg) (v1 : AReg) (v2 : XReg) : Statement (.dqbind v0 v1 v2) := ⟨rfl, rfl, rfl, rfl⟩
theorem dqpush (v0 : XReg) (v1 : AReg) (v2 : AReg) : Statement (.dqpush v0 v1 v2) := ⟨rfl, rfl, rfl, rfl⟩
theorem dqpop (v0 : XReg) (v1 : AReg) (v2 : AReg) : Statement (.dqpop v0 v1 v2) := ⟨rfl, rfl, rfl, rfl⟩
theorem dqcons (v0 : AReg) : Statement (.dqcons v0) := ⟨rfl, rfl, rfl, rfl⟩
theorem dqarr (v0 : XReg) (v1 : AReg) (v2 : AReg) : Statement (.dqarr v0 v1 v2) := ⟨rfl, rfl, rfl, rfl⟩
theorem dqlook (v0 : XReg) (v1 : AReg) (v2 : AReg) : Statement (.dqlook v0 v1 v2) := ⟨rfl, rfl, rfl, rfl⟩
theorem dqadv (v0 : XReg) (v1 : AReg) (v2 : XReg) : Statement (.dqadv v0 v1 v2) := ⟨rfl, rfl, rfl, rfl⟩
theorem dqfront (v0 : XReg) (v1 : AReg) : Statement (.dqfront v0 v1) := ⟨rfl, rfl, rfl, rfl⟩
theorem dqwait (v0 : AReg) (v1 : XReg) : Statement (.dqwait v0 v1) := ⟨rfl, rfl, rfl, rfl⟩
theorem srfence (v0 : Option AReg) : Statement (.srfence v0) := ⟨rfl, rfl, rfl, rfl⟩
theorem bar (v0 : Scope) : Statement (.bar v0) := ⟨rfl, rfl, rfl, rfl⟩
theorem bara (v0 : Scope) (v1 : XReg) : Statement (.bara v0 v1) := ⟨rfl, rfl, rfl, rfl⟩
theorem barw (v0 : Scope) (v1 : XReg) : Statement (.barw v0 v1) := ⟨rfl, rfl, rfl, rfl⟩
theorem fresume (v0 : XReg) (v1 : XReg) : Statement (.fresume v0 v1) := ⟨rfl, rfl, rfl, rfl⟩
theorem ptfence (v0 : AReg) (v1 : XReg) : Statement (.ptfence v0 v1) := ⟨rfl, rfl, rfl, rfl⟩
theorem recbeg (v0 : XReg) (v1 : XReg) (v2 : AReg) : Statement (.recbeg v0 v1 v2) := ⟨rfl, rfl, rfl, rfl⟩
theorem recend (v0 : XReg) : Statement (.recend v0) := ⟨rfl, rfl, rfl, rfl⟩
theorem rplbeg (v0 : XReg) (v1 : XReg) : Statement (.rplbeg v0 v1) := ⟨rfl, rfl, rfl, rfl⟩
theorem rplend (v0 : XReg) : Statement (.rplend v0) := ⟨rfl, rfl, rfl, rfl⟩
theorem rerecord (v0 : XReg) : Statement (.rerecord v0) := ⟨rfl, rfl, rfl, rfl⟩
theorem rerecordFree (v0 : XReg) : Statement (.rerecordFree v0) := ⟨rfl, rfl, rfl, rfl⟩
theorem recstat (v0 : XReg) (v1 : XReg) : Statement (.recstat v0 v1) := ⟨rfl, rfl, rfl, rfl⟩
theorem egopen (v0 : XReg) (v1 : XReg) (v2 : AReg) : Statement (.egopen v0 v1 v2) := ⟨rfl, rfl, rfl, rfl⟩
theorem egins (v0 : XReg) (v1 : AReg) : Statement (.egins v0 v1) := ⟨rfl, rfl, rfl, rfl⟩
theorem egmrg (v0 : XReg) (v1 : XReg) (v2 : XReg) : Statement (.egmrg v0 v1 v2) := ⟨rfl, rfl, rfl, rfl⟩
theorem egfind (v0 : XReg) (v1 : XReg) : Statement (.egfind v0 v1) := ⟨rfl, rfl, rfl, rfl⟩
theorem egsame (v0 : PReg) (v1 : XReg) (v2 : XReg) : Statement (.egsame v0 v1 v2) := ⟨rfl, rfl, rfl, rfl⟩
theorem egsync (v0 : XReg) : Statement (.egsync v0) := ⟨rfl, rfl, rfl, rfl⟩
theorem egnode (v0 : XReg) (v1 : XReg) (v2 : AReg) : Statement (.egnode v0 v1 v2) := ⟨rfl, rfl, rfl, rfl⟩
theorem egclass (v0 : XReg) (v1 : XReg) (v2 : XReg) : Statement (.egclass v0 v1 v2) := ⟨rfl, rfl, rfl, rfl⟩
theorem egmatch (v0 : XReg) (v1 : AReg) : Statement (.egmatch v0 v1) := ⟨rfl, rfl, rfl, rfl⟩
theorem egnext (v0 : XReg) (v1 : AReg) : Statement (.egnext v0 v1) := ⟨rfl, rfl, rfl, rfl⟩
theorem egchk (v0 : XReg) (v1 : AReg) : Statement (.egchk v0 v1) := ⟨rfl, rfl, rfl, rfl⟩
theorem egcost (v0 : XReg) (v1 : AReg) (v2 : XReg) : Statement (.egcost v0 v1 v2) := ⟨rfl, rfl, rfl, rfl⟩
theorem egextr (v0 : XReg) (v1 : AReg) : Statement (.egextr v0 v1) := ⟨rfl, rfl, rfl, rfl⟩
theorem launch (v0 : XReg) (v1 : AReg) : Statement (.launch v0 v1) := ⟨rfl, rfl, rfl, rfl⟩
theorem dnext (v0 : XReg) : Statement (.dnext v0) := ⟨rfl, rfl, rfl, rfl⟩
theorem hstart (v0 : XReg) (v1 : XReg) (v2 : AReg) : Statement (.hstart v0 v1 v2) := ⟨rfl, rfl, rfl, rfl⟩
theorem hexit (v0 : XReg) : Statement (.hexit v0) := ⟨rfl, rfl, rfl, rfl⟩
theorem hjoin (v0 : XReg) (v1 : XReg) : Statement (.hjoin v0 v1) := ⟨rfl, rfl, rfl, rfl⟩
theorem gfuse (v0 : PReg) (v1 : XReg) : Statement (.gfuse v0 v1) := ⟨rfl, rfl, rfl, rfl⟩
theorem gsplit : Statement (.gsplit) := ⟨rfl, rfl, rfl, rfl⟩
theorem tknew (v0 : XReg) (v1 : AReg) : Statement (.tknew v0 v1) := ⟨rfl, rfl, rfl, rfl⟩
theorem tkdep (v0 : XReg) (v1 : AReg) (v2 : AReg) : Statement (.tkdep v0 v1 v2) := ⟨rfl, rfl, rfl, rfl⟩
theorem tkrel (v0 : XReg) (v1 : AReg) : Statement (.tkrel v0 v1) := ⟨rfl, rfl, rfl, rfl⟩
theorem tkdone (v0 : XReg) (v1 : AReg) (v2 : AReg) : Statement (.tkdone v0 v1 v2) := ⟨rfl, rfl, rfl, rfl⟩
theorem ftnew (v0 : XReg) (v1 : AReg) (v2 : XReg) : Statement (.ftnew v0 v1 v2) := ⟨rfl, rfl, rfl, rfl⟩
theorem ftsetReady (v0 : XReg) (v1 : AReg) (v2 : Fin 15) : Statement (.ftsetReady v0 v1 v2) := ⟨rfl, rfl, rfl, rfl⟩
theorem ftsetPoison (v0 : XReg) (v1 : AReg) (v2 : Fin 15) : Statement (.ftsetPoison v0 v1 v2) := ⟨rfl, rfl, rfl, rfl⟩
theorem ftsetFree (v0 : XReg) (v1 : AReg) (v2 : Fin 15) : Statement (.ftsetFree v0 v1 v2) := ⟨rfl, rfl, rfl, rfl⟩
theorem ftget (v0 : XReg) (v1 : AReg) (v2 : PReg) : Statement (.ftget v0 v1 v2) := ⟨rfl, rfl, rfl, rfl⟩
theorem yieldRef (v0 : XReg) : Statement (.yieldRef v0) := ⟨rfl, rfl, rfl, rfl⟩
theorem park (v0 : XReg) (v1 : XReg) : Statement (.park v0 v1) := ⟨rfl, rfl, rfl, rfl⟩
theorem wake (v0 : XReg) (v1 : XReg) : Statement (.wake v0 v1) := ⟨rfl, rfl, rfl, rfl⟩
theorem ctrdTimestamp (v0 : XReg) (v1 : XReg) : Statement (.ctrdTimestamp v0 v1) := ⟨rfl, rfl, rfl, rfl⟩
theorem ctrdSlot (v0 : XReg) (v1 : XReg) : Statement (.ctrdSlot v0 v1) := ⟨rfl, rfl, rfl, rfl⟩
theorem ctrdVc (v0 : XReg) (v1 : XReg) : Statement (.ctrdVc v0 v1) := ⟨rfl, rfl, rfl, rfl⟩
theorem ctrdVd (v0 : XReg) (v1 : XReg) : Statement (.ctrdVd v0 v1) := ⟨rfl, rfl, rfl, rfl⟩
theorem ctrdNeighbour (v0 : XReg) (v1 : XReg) : Statement (.ctrdNeighbour v0 v1) := ⟨rfl, rfl, rfl, rfl⟩
theorem pmrd (v0 : XReg) (v1 : XReg) : Statement (.pmrd v0 v1) := ⟨rfl, rfl, rfl, rfl⟩
theorem upret (v0 : XReg) : Statement (.upret v0) := ⟨rfl, rfl, rfl, rfl⟩
theorem upretContinue (v0 : XReg) : Statement (.upretContinue v0) := ⟨rfl, rfl, rfl, rfl⟩
theorem fraiseUpcall (v0 : XReg) (v1 : XReg) : Statement (.fraiseUpcall v0 v1) := ⟨rfl, rfl, rfl, rfl⟩
theorem fraiseFreeze (v0 : XReg) (v1 : XReg) : Statement (.fraiseFreeze v0 v1) := ⟨rfl, rfl, rfl, rfl⟩
theorem scoreboardDecrement (v0 : Nat) (v1 : Nat) : Statement (.scoreboardDecrement v0 v1) := ⟨rfl, rfl, rfl, rfl⟩
theorem pushArrival (v0 : Nat) : Statement (.pushArrival v0) := ⟨rfl, rfl, rfl, rfl⟩
theorem sweeperVisit (v0 : Bool) (v1 : Nat) (v2 : Nat) : Statement (.sweeperVisit v0 v1 v2) := ⟨rfl, rfl, rfl, rfl⟩
theorem heatSample (v0 : Nat) (v1 : Nat) (v2 : Nat) : Statement (.heatSample v0 v1 v2) := ⟨rfl, rfl, rfl, rfl⟩
theorem heatDecayEpoch (v0 : Nat) (v1 : Nat) : Statement (.heatDecayEpoch v0 v1) := ⟨rfl, rfl, rfl, rfl⟩
theorem lsPortPassover (v0 : Nat) (v1 : Nat) : Statement (.lsPortPassover v0 v1) := ⟨rfl, rfl, rfl, rfl⟩
theorem dispatchPassover (v0 : Nat) : Statement (.dispatchPassover v0) := ⟨rfl, rfl, rfl, rfl⟩
theorem hintPauseEnd (v0 : Nat) : Statement (.hintPauseEnd v0) := ⟨rfl, rfl, rfl, rfl⟩
theorem dispatchStep (v0 : Nat) : Statement (.dispatchStep v0) := ⟨rfl, rfl, rfl, rfl⟩
theorem freeSlotAdvert (v0 : Nat) (v1 : Nat) (v2 : Nat) : Statement (.freeSlotAdvert v0 v1 v2) := ⟨rfl, rfl, rfl, rfl⟩
theorem teamMigration (v0 : Nat) (v1 : Nat) : Statement (.teamMigration v0 v1) := ⟨rfl, rfl, rfl, rfl⟩
theorem gangForm (v0 : Nat) (v1 : Nat) : Statement (.gangForm v0 v1) := ⟨rfl, rfl, rfl, rfl⟩
theorem portWordDelivery (v0 : Nat) : Statement (.portWordDelivery v0) := ⟨rfl, rfl, rfl, rfl⟩
theorem ptryTimeout (v0 : Nat) : Statement (.ptryTimeout v0) := ⟨rfl, rfl, rfl, rfl⟩
theorem ptrysTimeout (v0 : Nat) : Statement (.ptrysTimeout v0) := ⟨rfl, rfl, rfl, rfl⟩
theorem vneighTimeout (v0 : Nat) : Statement (.vneighTimeout v0) := ⟨rfl, rfl, rfl, rfl⟩
theorem parkTimeout (v0 : Nat) : Statement (.parkTimeout v0) := ⟨rfl, rfl, rfl, rfl⟩
theorem ringHole (v0 : Nat) : Statement (.ringHole v0) := ⟨rfl, rfl, rfl, rfl⟩
theorem watchdog (v0 : Nat) : Statement (.watchdog v0) := ⟨rfl, rfl, rfl, rfl⟩
theorem matrixJobAccept (v0 : Nat) : Statement (.matrixJobAccept v0) := ⟨rfl, rfl, rfl, rfl⟩
theorem kstepBoundary (v0 : Nat) : Statement (.kstepBoundary v0) := ⟨rfl, rfl, rfl, rfl⟩
theorem huddleOpen (v0 : Nat) (v1 : Nat) : Statement (.huddleOpen v0 v1) := ⟨rfl, rfl, rfl, rfl⟩
theorem epilogueDrain (v0 : Nat) : Statement (.epilogueDrain v0) := ⟨rfl, rfl, rfl, rfl⟩
theorem chainRunStart (v0 : Nat) : Statement (.chainRunStart v0) := ⟨rfl, rfl, rfl, rfl⟩
theorem chainLoad (v0 : Nat) : Statement (.chainLoad v0) := ⟨rfl, rfl, rfl, rfl⟩
theorem chainAbsorb (v0 : Nat) : Statement (.chainAbsorb v0) := ⟨rfl, rfl, rfl, rfl⟩
theorem chainEmit (v0 : Nat) : Statement (.chainEmit v0) := ⟨rfl, rfl, rfl, rfl⟩
theorem chainPerm (v0 : Nat) : Statement (.chainPerm v0) := ⟨rfl, rfl, rfl, rfl⟩
theorem chainEnd (v0 : Nat) : Statement (.chainEnd v0) := ⟨rfl, rfl, rfl, rfl⟩
theorem jobStart (v0 : Nat) : Statement (.jobStart v0) := ⟨rfl, rfl, rfl, rfl⟩
theorem copyJob (v0 : Nat) (v1 : Nat) : Statement (.copyJob v0 v1) := ⟨rfl, rfl, rfl, rfl⟩
theorem fillJob (v0 : Nat) (v1 : Nat) : Statement (.fillJob v0 v1) := ⟨rfl, rfl, rfl, rfl⟩
theorem gatherJob (v0 : Nat) (v1 : Nat) : Statement (.gatherJob v0 v1) := ⟨rfl, rfl, rfl, rfl⟩
theorem scatterJob (v0 : Nat) (v1 : Nat) : Statement (.scatterJob v0 v1) := ⟨rfl, rfl, rfl, rfl⟩
theorem postJob (v0 : Nat) (v1 : Nat) : Statement (.postJob v0 v1) := ⟨rfl, rfl, rfl, rfl⟩
theorem allReduce (v0 : Nat) (v1 : Nat) : Statement (.allReduce v0 v1) := ⟨rfl, rfl, rfl, rfl⟩
theorem allGather (v0 : Nat) (v1 : Nat) : Statement (.allGather v0 v1) := ⟨rfl, rfl, rfl, rfl⟩
theorem reduceScatter (v0 : Nat) (v1 : Nat) : Statement (.reduceScatter v0 v1) := ⟨rfl, rfl, rfl, rfl⟩
theorem broadcast (v0 : Nat) (v1 : Nat) : Statement (.broadcast v0 v1) := ⟨rfl, rfl, rfl, rfl⟩
theorem collectiveStart (v0 : Nat) (v1 : Nat) (v2 : List Peer) : Statement (.collectiveStart v0 v1 v2) := ⟨rfl, rfl, rfl, rfl⟩
theorem jobCompletion (v0 : Nat) (v1 : Nat) : Statement (.jobCompletion v0 v1) := ⟨rfl, rfl, rfl, rfl⟩
theorem invocationCreate (v0 : Nat) : Statement (.invocationCreate v0) := ⟨rfl, rfl, rfl, rfl⟩
theorem heapUnion (v0 : Nat) : Statement (.heapUnion v0) := ⟨rfl, rfl, rfl, rfl⟩
theorem heapAdopt (v0 : Nat) : Statement (.heapAdopt v0) := ⟨rfl, rfl, rfl, rfl⟩
theorem heapRehash (v0 : Nat) : Statement (.heapRehash v0) := ⟨rfl, rfl, rfl, rfl⟩
theorem matcherDeliver (v0 : Nat) : Statement (.matcherDeliver v0) := ⟨rfl, rfl, rfl, rfl⟩
theorem replayAttempt (v0 : Nat) (v1 : Nat) (v2 : Nat) : Statement (.replayAttempt v0 v1 v2) := ⟨rfl, rfl, rfl, rfl⟩
theorem resumeNotice (v0 : Nat) (v1 : Nat) (v2 : Nat) : Statement (.resumeNotice v0 v1 v2) := ⟨rfl, rfl, rfl, rfl⟩
theorem upcallDelivery (v0 : Nat) : Statement (.upcallDelivery v0) := ⟨rfl, rfl, rfl, rfl⟩
theorem collectorCopy (v0 : Nat) : Statement (.collectorCopy v0) := ⟨rfl, rfl, rfl, rfl⟩
theorem sectorFree (v0 : Nat) : Statement (.sectorFree v0) := ⟨rfl, rfl, rfl, rfl⟩
theorem moveDoorbell (v0 : Nat) (v1 : BitVec 48) : Statement (.moveDoorbell v0 v1) := ⟨rfl, rfl, rfl, rfl⟩
theorem frameMove (v0 : Nat) : Statement (.frameMove v0) := ⟨rfl, rfl, rfl, rfl⟩
theorem copyWhileWritable (v0 : Nat) : Statement (.copyWhileWritable v0) := ⟨rfl, rfl, rfl, rfl⟩
theorem debugResume (v0 : Nat) : Statement (.debugResume v0) := ⟨rfl, rfl, rfl, rfl⟩
theorem debugFence (v0 : Nat) : Statement (.debugFence v0) := ⟨rfl, rfl, rfl, rfl⟩
theorem debugKillFrame (v0 : Nat) : Statement (.debugKillFrame v0) := ⟨rfl, rfl, rfl, rfl⟩
theorem debugKillCore (v0 : Nat) : Statement (.debugKillCore v0) := ⟨rfl, rfl, rfl, rfl⟩
theorem debugPcWrite (v0 : Nat) (v1 : Bool) (v2 : Word) : Statement (.debugPcWrite v0 v1 v2) := ⟨rfl, rfl, rfl, rfl⟩
theorem debugLsdataAccess (v0 : Nat) (v1 : Option Word) : Statement (.debugLsdataAccess v0 v1) := ⟨rfl, rfl, rfl, rfl⟩
theorem deviceRegisterWrite (v0 : BitVec 48) (v1 : Word) : Statement (.deviceRegisterWrite v0 v1) := ⟨rfl, rfl, rfl, rfl⟩
theorem preemptSchedule (v0 : Word) (v1 : Nat) : Statement (.preemptSchedule v0 v1) := ⟨rfl, rfl, rfl, rfl⟩
theorem partitionHalt : Statement (.partitionHalt) := ⟨rfl, rfl, rfl, rfl⟩
theorem partitionResume : Statement (.partitionResume) := ⟨rfl, rfl, rfl, rfl⟩
theorem freezeSignal : Statement (.freezeSignal) := ⟨rfl, rfl, rfl, rfl⟩
theorem thermalTrip (v0 : Nat) : Statement (.thermalTrip v0) := ⟨rfl, rfl, rfl, rfl⟩
theorem powerCapSet (v0 : Nat) : Statement (.powerCapSet v0) := ⟨rfl, rfl, rfl, rfl⟩
theorem bringUp : Statement (.bringUp) := ⟨rfl, rfl, rfl, rfl⟩
theorem functionLevelReset : Statement (.functionLevelReset) := ⟨rfl, rfl, rfl, rfl⟩
theorem attestationRequest (v0 : BitVec 256) : Statement (.attestationRequest v0) := ⟨rfl, rfl, rfl, rfl⟩
theorem hostWrite (v0 : BitVec 48) (v1 : List Byte) : Statement (.hostWrite v0 v1) := ⟨rfl, rfl, rfl, rfl⟩
theorem hostRead (v0 : BitVec 48) (v1 : Nat) : Statement (.hostRead v0 v1) := ⟨rfl, rfl, rfl, rfl⟩
theorem hostSnoop (v0 : BitVec 48) : Statement (.hostSnoop v0) := ⟨rfl, rfl, rfl, rfl⟩
theorem poolLinkFail (v0 : Nat) : Statement (.poolLinkFail v0) := ⟨rfl, rfl, rfl, rfl⟩
theorem crirasPlaneFail (v0 : Nat) : Statement (.crirasPlaneFail v0) := ⟨rfl, rfl, rfl, rfl⟩
theorem unassignedEncoding (v0 : BitVec 32) : Statement (.unassignedEncoding v0) := ⟨rfl, rfl, rfl, rfl⟩
theorem correctedSoftError (v0 : Nat) : Statement (.correctedSoftError v0) := ⟨rfl, rfl, rfl, rfl⟩
theorem poisonedLine (v0 : BitVec 48) : Statement (.poisonedLine v0) := ⟨rfl, rfl, rfl, rfl⟩
theorem unitUncorrectableError (v0 : DevUnit) : Statement (.unitUncorrectableError v0) := ⟨rfl, rfl, rfl, rfl⟩
theorem remoteHomeRequest (v0 : BitVec 48) (v1 : RemoteReq) : Statement (.remoteHomeRequest v0 v1) := ⟨rfl, rfl, rfl, rfl⟩
theorem poolAgentWrite (v0 : BitVec 48) (v1 : List Byte) : Statement (.poolAgentWrite v0 v1) := ⟨rfl, rfl, rfl, rfl⟩
theorem supplyRemoval : Statement (.supplyRemoval) := ⟨rfl, rfl, rfl, rfl⟩

end Sys2Proof.Laws.Canon
end

