-- ==== Sys2Proof/Safety.lean ====
section
/-! DEFINITION. What claims call a running device, an invariant, and a safe run. -/

namespace Sys2Proof

open Sys2Proof.Machine

/-- The device takes steps: its clocks run, its supplies are on and its dies are released (R381, R391, R393). -/
def Running (s : State) : Prop := s.dev.stopped = false ∧ s.dev.powered = true ∧ s.dev.released = true

/-- A property of states that every step keeps. -/
def Invariant (p : State → Prop) : Prop := ∀ s t : State, p s → step s = .next t → p t

/-- A state that some number of steps reaches. -/
def Reaches (s t : State) : Prop := ∃ k, core.run k s = .next t

/-- A safe run: every state that steps reach from s has a property. Stopping at a fault is safe. -/
def SafeFrom (p : State → Prop) (s : State) : Prop := ∀ t, Reaches s t → p t

end Sys2Proof
end

