-- ==== Sys2Proof/Laws/Step.lean ====
section
/-! SUPPORT. A property that every step keeps holds in every state a run reaches; a step ends in a next state or in the one fault. -/

namespace Sys2Proof

open Sys2Proof.Machine

theorem run_keeps (M : Host.Core) {p : M.State → Prop} (inv : ∀ s t, p s → M.step s = .next t → p t) :
    ∀ (k : Nat) (s t : M.State), p s → M.run k s = .next t → p t := by
  intro k
  induction k with
  | zero =>
    intro s t h e
    simp only [Host.Core.run, Host.Outcome.next.injEq] at e
    exact e ▸ h
  | succ k ih =>
    intro s t h e
    unfold Host.Core.run at e
    split at e
    · exact ih _ t (inv s _ h ‹_›) e
    · cases e
    · cases e

/-- A property of a state that every step keeps is safe from there on. -/
theorem safe_of_invariant {p : State → Prop} {s : State} (inv : Invariant p) (h : p s) : SafeFrom p s := fun t ⟨k, e⟩ => run_keeps core inv k s t h e

/-- A device that does not run stops, but for coming up and losing its supplies. -/
theorem step_of_not_running {s : State} (h : s.dev.stopped = true ∨ s.dev.powered = false ∨ s.dev.released = false) :
    step s = .fault .deviceStopped ∨ (∃ r, s.agenda = .event .bringUp :: r) ∨ ∃ r, s.agenda = .event .supplyRemoval :: r := by
  unfold step
  have c : (s.dev.stopped || !s.dev.powered || !s.dev.released) = true := by
    rcases h with h | h | h <;> simp [h]
  rw [if_pos c]
  split
  · exact .inr (.inl ⟨_, ‹_›⟩)
  · exact .inr (.inr ⟨_, ‹_›⟩)
  · exact .inl rfl

/-- A running device moves. -/
theorem step_of_running {s : State} (h : Running s) : step s = s.move := by
  unfold step
  rw [if_neg (by simp [h.1, h.2.1, h.2.2])]

/-- Placing an instruction writes the tables and the words alone. -/
theorem withFetchWord_mem (s : State) (n w : Nat) : (s.withFetchWord n w).mem =
    ((((s.mem.write 0 8 0x8001).write 0x8000 8 0x8000000000010000).write 0x10000 8 0x8000000000018000).write 0x18000 8 0xF800000000030000).write 0x30000 12 (w % 2 ^ n) := by
  simp only [State.withFetchWord]

theorem withFetchWord_wf (s : State) (n w : Nat) (h : s.mem.wf = true) : (s.withFetchWord n w).mem.wf = true := by
  rw [withFetchWord_mem]
  have := Memory.wf_write 0 8 0x8001 h
  have := Memory.wf_write 0x8000 8 0x8000000000010000 this
  have := Memory.wf_write 0x10000 8 0x8000000000018000 this
  have := Memory.wf_write 0x18000 8 0xF800000000030000 this
  exact Memory.wf_write 0x30000 12 (w % 2 ^ n) this

end Sys2Proof
end

