-- ==== Sys2Proof/Tests/Slice0.lean ====
section
/-! SUPPORT. Tests: ill-formed terms that the checks refuse, words written out from the encoding tables of spec/04 and the later chapters, single
steps on small states, and, for every statement with hypotheses, states and operands that meet them. -/

namespace Sys2Proof.Tests

open Sys2Proof Sys2Proof.Machine
set_option Elab.async false

/-! WellFormed. -/

/-- R65: an execute-stream instruction with an a source. -/
theorem test_ill_stream : (Instr.add (.x 1) (.a 2) (.reg (.x 3))).wellFormed = false ∧ (Instr.add (.x 1) (.x 2) (.reg (.a 3))).wellFormed = false
    ∧ (Instr.popc (.x 1) (.a 2)).wellFormed = false ∧ (Instr.addI (.x 1) (.a 2) 0).wellFormed = false ∧ (Instr.sel (.x 1) 1 (.x 2) (.a 3)).wellFormed = false
    ∧ (Instr.add (.a 1) (.a 2) (.reg (.a 3))).wellFormed = true := by decide
/-- R109. -/
theorem test_ill_mov : (Instr.mov (.x 1) (.a 2)).wellFormed = false ∧ (Instr.mov (.a 1) (.x 2)).wellFormed = true := by decide
/-- R105. -/
theorem test_ill_field : (Instr.bext (.x 1) (.x 2) 5 59).wellFormed = false ∧ (Instr.bext (.x 1) (.x 2) 5 58).wellFormed = true := by decide
/-- R112, R130. -/
theorem test_ill_branch : (Instr.b 0 true 0).wellFormed = false ∧ (Instr.bp 0 true 0).wellFormed = false ∧ (Instr.vclaim 1 8).wellFormed = false
    ∧ (Instr.vclaim 1 272).wellFormed = false ∧ (Instr.vclaim 1 256).wellFormed = true := by decide
/-- R136, R145. -/
theorem test_ill_format : (Instr.vadd 0 .t6 1 2 (.reg 3)).wellFormed = false ∧ (Instr.vdiv 0 .si32 1 2 (.reg 3)).wellFormed = false
    ∧ (Instr.vand 0 .f32 1 2 (.reg 3)).wellFormed = false ∧ (Instr.vld 0 .si64 0 0 1 2).wellFormed = false ∧ (Instr.vcmp 0 .si8 .un 1 2 (.reg 3)).wellFormed = false
    ∧ (Instr.vcvt 0 .f32 .ui64 1 2).wellFormed = false := by decide
/-- R61, R72. -/
theorem test_ill_mods : (Instr.nop).modsOk ⟨0, true, false, 0, 0⟩ = false ∧ (Instr.nop).modsOk ⟨1, false, false, 3, 0⟩ = false
    ∧ (Instr.ld64 0 0 1 (.x 2)).modsOk ⟨0, false, true, 1, 0⟩ = false ∧ (Instr.hint 0 0 0 0).modsOk ⟨1, false, false, 0, 0⟩ = false := by decide

/-! Decoding: words in the fields of R57, R60, R66, R67 and R68. -/

/-- Word 0 in the RR layout. -/
def rr (cls maj fn s2 s1 d : Nat) : Nat := cls + 2 ^ 2 * maj + 2 ^ 8 * d + 2 ^ 14 * s1 + 2 ^ 20 * s2 + 2 ^ 26 * fn
/-- Word 0 in the M layout. -/
def ml (cls maj slot off base data : Nat) : Nat := cls + 2 ^ 2 * maj + 2 ^ 8 * data + 2 ^ 14 * base + 2 ^ 20 * off + 2 ^ 28 * slot
/-- ext in word 1. -/
def ext (v : Nat) : Nat := 2 ^ 25 * v
/-- What words decode to. -/
noncomputable def got (w0 w1 w2 : Nat) : Option Instr :=
  match decodeWords w0 w1 w2 with
  | .ok d => some d.instr
  | .error _ => none

theorem test_decode_alu : (([.add, .sub, .mul, .mulh, .mulhu, .div, .divu, .rem, .remu, .and, .or, .xor, .andn, .shl, .shr, .sar, .rol, .ror, .min, .max,
    .minu, .maxu] : List (Reg → Reg → Src → Instr)).zipIdx.all fun p => got (rr 0 0x00 p.2 5 4 3) 0 0 == some (p.1 (.x 3) (.x 4) (.reg (.x 5)))
      && got (rr 3 0x3F p.2 0 36 35) 0 0x80000000 == some (p.1 (.a 3) (.a 4) (.lit 0x80000000))) = true := by decide +kernel
theorem test_decode_one_source : (([.popc, .clz, .ctz, .brev, .abs, .sext8, .sext16, .sext32, .zext8, .zext16, .zext32] : List (Reg → Reg → Instr)).zipIdx.all
    fun p => got (rr 0 0x01 (p.2 + 1) 0 4 3) 0 0 == some (p.1 (.x 3) (.x 4))) = true := by decide +kernel
theorem test_decode_moves : got (rr 0 0x01 0 0 48 32) 0 0 = some (.mov (.a 0) (.n 0)) ∧ got (rr 0 0x01 12 0 47 31) 0 0 = some (.atx 31 15)
    ∧ got (rr 0 0x01 13 0 0 3) 0 0 = some (.rdtime 3) ∧ got (rr 0 0x01 0 0 33 1) 0 0 = none ∧ got (rr 0 0x01 14 0 0 3) 0 0 = none := by decide +kernel
theorem test_decode_ri : (([.addI, .mulI, .andI, .orI, .xorI] : List (Reg → Reg → BitVec 44 → Instr)).zipIdx.all
      fun p => got (rr 0 (0x10 + p.2) 32 0 4 3) 0 0 == some (p.1 (.x 3) (.x 4) (-2048)) && got (rr 3 0x3F 0 1 4 3) (ext (0x10 + p.2)) 2 == some (p.1 (.x 3) (.x 4) 0x100000002)) = true
    ∧ (([.shlI, .shrI, .sarI, .rolI, .rorI] : List (Reg → Reg → BitVec 6 → Instr)).zipIdx.all
      fun p => got (rr 0 (0x15 + p.2) 0 63 4 3) 0 0 == some (p.1 (.x 3) (.x 4) 63) && got (rr 0 (0x15 + p.2) 1 0 4 3) 0 0 == none) = true
    ∧ got (rr 0 0x1A 31 63 0 3) 0 0 = some (.li (.x 3) 2047)
    ∧ (([.bext, .bextu, .bins] : List (Reg → Reg → BitVec 6 → BitVec 6 → Instr)).zipIdx.all
      fun p => got (rr 0 (0x1B + p.2) 5 12 9 5) 0 0 == some (p.1 (.x 5) (.x 9) 5 12)) = true := by decide +kernel
theorem test_decode_predicates : (([.eq, .ne, .lt, .le, .gt, .ge, .ltu, .leu, .gtu, .geu] : List Cond).zipIdx.all
      fun p => got (rr 0 0x02 p.2 5 4 2) 0 0 == some (.cmp p.1 2 4 (.reg 5))) = true
    ∧ got (rr 0 0x03 0 5 4 2) 0 0 = some (.pand 2 4 5) ∧ got (rr 0 0x03 1 5 4 2) 0 0 = some (.por 2 4 5) ∧ got (rr 0 0x03 2 0 4 2) 0 0 = some (.pnot 2 4)
    ∧ got (rr 0 0x04 6 5 4 3) 0 0 = some (.sel (.x 3) 6 (.x 4) (.x 5)) ∧ got (rr 0 0x02 0 5 4 8) 0 0 = none := by decide +kernel
theorem test_decode_float : (([(0x05, .faddF32), (0x0D, .faddF16), (0x0E, .faddBF16), (0x105, .fsubF32), (0x10D, .fsubF16), (0x10E, .fsubBF16), (0x205, .fmulF32),
      (0x20D, .fmulF16), (0x20E, .fmulBF16), (0x305, .fdivF32), (0x30D, .fdivF16), (0x30E, .fdivBF16), (0x405, .fminF32), (0x40D, .fminF16), (0x40E, .fminBF16),
      (0x505, .fmaxF32), (0x50D, .fmaxF16), (0x50E, .fmaxBF16), (0x1005, .ffmaF32), (0x100D, .ffmaF16), (0x100E, .ffmaBF16)] : List (Nat × (XReg → XReg → XSrc → Instr))).all
        fun p => got (rr 0 (p.1 % 256) (p.1 / 256) 5 4 3) 0 0 == some (p.2 3 4 (.reg 5))) = true
    ∧ (([(0x605, .fsqrtF32), (0x60D, .fsqrtF16), (0x60E, .fsqrtBF16), (0x705, .fabsF32), (0x70D, .fabsF16), (0x70E, .fabsBF16), (0x805, .fnegF32), (0x80D, .fnegF16),
      (0x80E, .fnegBF16), (0x905, .fclassF32), (0x90D, .fclassF16), (0x90E, .fclassBF16), (0xA05, .fsinF32), (0xA0D, .fsinF16), (0xA0E, .fsinBF16), (0xB05, .fcosF32),
      (0xB0D, .fcosF16), (0xB0E, .fcosBF16), (0xC05, .fexp2F32), (0xC0D, .fexp2F16), (0xC0E, .fexp2BF16), (0xD05, .flog2F32), (0xD0D, .flog2F16), (0xD0E, .flog2BF16),
      (0xE05, .frcpF32), (0xE0D, .frcpF16), (0xE0E, .frcpBF16), (0xF05, .frsqF32), (0xF0D, .frsqF16), (0xF0E, .frsqBF16)] : List (Nat × (XReg → XReg → Instr))).all
        fun p => got (rr 0 (p.1 % 256) (p.1 / 256) 0 4 3) 0 0 == some (p.2 3 4)) = true := by decide +kernel
theorem test_decode_float_conditions : (([.eq, .ne, .lt, .le, .gt, .ge, .un, .ord] : List FCond).zipIdx.all fun p =>
      (([.f32, .f16, .bf16] : List SFmt).zipIdx.all fun q => got (rr 0 0x06 (p.2 + 8 * q.2) 5 4 2) 0 0 == some (.fcmp p.1 q.1 2 4 (.reg 5)))) = true
    ∧ got (rr 0 0x07 15 0 4 3) 0 0 = some (.fcvt .ui64 .f32 3 4) ∧ got (rr 0 0x07 7 0 4 3) 0 0 = none := by decide +kernel
theorem test_decode_wide : got (rr 0 0x08 7 5 4 3) 0 0 = some (.lea (.x 3) (.x 4) (.reg (.x 5)) 7) ∧ got (rr 0 0x09 63 5 4 3) 0 0 = some (.fshl (.x 3) (.x 4) (.reg (.x 5)) 63)
    ∧ got (rr 0 0x0A 1 5 4 3) 0 0 = some (.fshr (.x 3) (.x 4) (.reg (.x 5)) 1) ∧ got (rr 0 0x08 8 5 4 3) 0 0 = none := by decide +kernel
theorem test_decode_special : got (0x2C + 2 ^ 8 * 4 + 2 ^ 14 * 0x811) 0 0 = some (.crr 4 0x811) ∧ got (0x30 + 2 ^ 8 * 4 + 2 ^ 14 * 0x001) 0 0 = some (.crw 0x001 4)
    ∧ got (0xF0 + 2 ^ 8 * 0x8001) 0 0 = some (.wait 0x8001) ∧ got (0xF4 + 2 ^ 20 * 0xFFF) 0 0 = some (.trap 0xFFF) ∧ got (rr 0 0x3E 1 2 3 4) 0 0 = some (.hint 1 4 3 2)
    ∧ got 0xFC 0 0 = some .nop ∧ got 0x1FC 0 0 = none := by decide +kernel
theorem test_decode_memory : (([(0x00, 1, .ldS8), (0x01, 1, .ldU8), (0x02, 2, .ldS16), (0x03, 2, .ldU16), (0x04, 4, .ldS32), (0x05, 4, .ldU32), (0x06, 8, .ld64),
      (0x08, 1, .st8), (0x09, 2, .st16), (0x0A, 4, .st32), (0x0B, 8, .st64), (0x0C, 1, .ldl8), (0x0D, 2, .ldl16), (0x0E, 4, .ldl32), (0x0F, 8, .ldl64), (0x10, 1, .stl8),
      (0x11, 2, .stl16), (0x12, 4, .stl32), (0x13, 8, .stl64), (0x14, 8, .ldfeC), (0x15, 8, .ldfeK), (0x16, 8, .stfe), (0x17, 16, .femarkE), (0x18, 16, .femarkF),
      (0x1B, 4096, .czfence), (0x1C, 64, .cbload), (0x1D, 4096, .czstat)] : List (Nat × Nat × (Slot → BitVec 32 → AReg → Reg → Instr))).all
        fun p => got (ml 1 p.1 3 0x80 34 7) 0 0 == some (p.2.2 3 (.ofInt 32 (-128 * p.2.1)) 2 (.x 7))
          && got (ml 3 0x3F 15 0 47 32) (ext (64 + p.1)) 0x80000001 == some (p.2.2 15 0x80000001 15 (.a 0))) = true
    ∧ got (ml 1 0x19 3 1 34 1) 0 0 = some (.pref 3 64 2 true) ∧ got (ml 1 0x19 3 1 34 2) 0 0 = none ∧ got (ml 1 0x1A 3 5 0 0) 0 0 = some (.fence 3 .sys)
    ∧ got (ml 1 0x06 3 0 2 7) 0 0 = none := by decide +kernel
theorem test_decode_branches : got (ml 1 0x20 0 0xFF 33 0) 0 0 = some (.j 0xFF 1) ∧ got 0x85 0 0 = some .ret ∧ got (0xC1 + 2 ^ 12 * 0xFFFFD + 2 ^ 8 * 0xA) 0 0 = some (.b 0xFFFFD true 2)
    ∧ got (0xC5 + 2 ^ 12 * 1 + 2 ^ 8 * 7) 0 0 = some (.bp 1 false 7) ∧ got (0xC9 + 2 ^ 12 * 0x80000) 0 0 = some (.call 0x80000)
    ∧ got (0xCD + 2 ^ 12 * 2 + 2 ^ 8 * 7) 0 0 = some (.loop 2 7) := by decide +kernel
theorem test_decode_vector : (([(0, .vadd), (1, .vsub), (2, .vmul), (3, .vfma), (4, .vdiv), (6, .vmin), (7, .vmax)] : List (Nat × (KReg → Fmt → VReg → VReg → VSrc → Instr))).all
        fun p => got (rr 2 0x00 p.1 5 4 3) (ext (16 * 7 + 2)) 0 == some (p.2 7 .bf16 3 4 (.reg 5))) = true
    ∧ (([(8, .vand), (9, .vor), (10, .vxor), (11, .vshl), (12, .vshr), (13, .vfsh), (14, .vbext)] : List (Nat × (KReg → Fmt → VReg → VReg → VSrc → Instr))).all
        fun p => got (rr 3 0x00 p.1 0 4 3) (ext (16 * 1 + 13)) 9 == some (p.2 1 .ui32 3 4 (.lit 9))) = true
    ∧ got (rr 2 0x00 5 0 4 3) (ext 17) 0 = some (.vsqrt 1 .f16 3 4) ∧ got (rr 2 0x00 15 0 4 3) (ext 24) 0 = some (.vpopc 1 .si8 3 4)
    ∧ got (rr 2 0x00 16 0 4 3) (ext 25) 0 = some (.vclz 1 .ui8 3 4) ∧ got (rr 2 0x00 17 5 4 3) (ext 16) 0 = some (.vsel 1 3 4 (.reg 5))
    ∧ got (rr 2 0x00 18 0 4 3) (ext 16) 0 = some (.vbcast 1 3 4) ∧ got (rr 2 0x00 19 5 4 3) 0 0 = some (.vextr 3 4 (.reg 5)) ∧ got (rr 2 0x00 20 5 4 3) 0 0 = some (.vins 3 4 (.reg 5))
    ∧ got (rr 2 0x00 21 29 4 3) 0 0 = some (.vneigh 0 3 4 3 5) ∧ got (rr 2 0x00 22 5 4 3) (ext 9) 0 = some (.vlut 0 3 4 (.reg 5))
    ∧ got (rr 2 0x00 23 5 4 3) (ext 32) 0 = some (.vperm 2 3 4 (.reg 5)) ∧ got (rr 2 0x00 24 5 4 3) 0 0 = none := by decide +kernel
theorem test_decode_vector_others : (([.vsfnSin, .vsfnCos, .vsfnExp2, .vsfnLog2, .vsfnRcp, .vsfnRsq] : List (KReg → Fmt → VReg → VReg → Instr)).zipIdx.all
        fun p => got (rr 2 0x01 p.2 0 4 3) (ext 16) 0 == some (p.1 1 .f32 3 4)) = true
    ∧ (([.eq, .ne, .lt, .le, .gt, .ge, .un, .ord] : List FCond).zipIdx.all fun p => got (rr 2 0x02 p.2 5 4 3) (ext 16) 0 == some (.vcmp 1 .f32 p.1 3 4 (.reg 5))) = true
    ∧ got (rr 2 0x03 4 0 4 3) (ext 16) 0 = some (.vcvt 1 .e5m2 .f32 3 4)
    ∧ (([.vredAdd, .vredMin, .vredMax, .vredAnd, .vredOr, .vredXor] : List (KReg → Fmt → XReg → VReg → Instr)).zipIdx.all
        fun p => got (rr 2 0x04 p.2 0 4 3) (ext 28) 0 == some (p.1 1 .si32 3 4)) = true
    ∧ (([.vscanAdd, .vscanMin, .vscanMax, .vscanAnd, .vscanOr, .vscanXor] : List (KReg → Fmt → VReg → VReg → Instr)).zipIdx.all
        fun p => got (rr 2 0x05 p.2 0 4 3) (ext 28) 0 == some (p.1 1 .si32 3 4)) = true
    ∧ (([.kopAnd, .kopOr, .kopXor, .kopAndn] : List (KReg → KReg → KReg → Instr)).zipIdx.all fun p => got (rr 2 0x06 p.2 5 4 3) 0 0 == some (p.1 3 4 5)) = true
    ∧ got (rr 2 0x06 4 0 4 3) 0 0 = some (.kopNot 3 4) ∧ got (rr 2 0x06 5 0 4 3) 0 0 = some (.kpopc 3 4) ∧ got (rr 2 0x07 4 0 0 5) 0 0 = some (.vclaim 5 256)
    ∧ got (rr 2 0x08 0 0 0 0) 0 0 = some .vrel ∧ got (ml 2 0x09 3 0xFF 34 7) (ext 16) 0 = some (.vld 1 .f32 3 0xFF 2 7) ∧ got (ml 2 0x0A 3 0xFF 34 7) (ext 16) 0 = some (.vst 1 .f32 3 0xFF 2 7)
    ∧ got (ml 2 0x0B 3 31 34 7) (ext 16) 0 = some (.vldx 1 .f32 3 31 2 7) ∧ got (ml 2 0x0C 3 31 34 7) (ext 16) 0 = some (.vstx 1 .f32 3 31 2 7)
    ∧ got (ml 2 0x0B 3 32 34 7) (ext 16) 0 = none := by decide +kernel
theorem test_decode_atomics : (([.amo32Add, .amo32Fadd, .amo32Min, .amo32Max, .amo32And, .amo32Or, .amo32Xor, .amo32Swap] : List (Scope → Slot → BitVec 8 → AReg → XReg → Instr)).zipIdx.all
        fun p => got (ml 2 0x12 2 0x80 33 5) (ext (8 * p.2 + 5)) 0 == some (p.1 .sys 2 0x80 1 5)) = true
    ∧ (([(0, .amo64Add), (2, .amo64Min), (3, .amo64Max), (4, .amo64And), (5, .amo64Or), (6, .amo64Xor), (7, .amo64Swap)] : List (Nat × (Scope → Slot → BitVec 8 → AReg → XReg → Instr))).all
        fun p => got (ml 2 0x13 2 0x80 33 5) (ext (8 * p.1)) 0 == some (p.2 .core 2 0x80 1 5)) = true
    ∧ got (ml 2 0x13 2 0 33 5) (ext 8) 0 = none ∧ got (ml 2 0x14 2 1 33 30) (ext (8 * 2 + 4)) 0 = some (.cas false .pod 2 1 1 14) ∧ got (ml 2 0x14 2 1 33 3) (ext 16) 0 = none
    ∧ got (ml 2 0x10 2 1 33 37) (ext (8 * 3 + 3)) 0 = some (.lda 3 .dev 2 1 1 (.a 5)) ∧ got (ml 2 0x11 2 1 33 5) (ext 1) 0 = some (.strl 0 .clu 2 1 1 (.x 5))
    ∧ got (ml 2 0x10 2 1 33 37) (ext 6) 0 = none := by decide +kernel
theorem test_decode_matrix : got (rr 2 0x18 0 35 34 4) (ext 3) 0 = some (.mmaNew true true 4 2 3) ∧ got (rr 2 0x18 1 35 34 4) (ext 2) 0 = some (.mmaAcc true false 4 2 3)
    ∧ got (rr 2 0x18 2 35 34 4) (ext 1) 0 = some (.mgangNew false true 4 2 3) ∧ got (rr 2 0x18 3 35 34 4) 0 0 = some (.mgangAcc false false 4 2 3)
    ∧ got (rr 2 0x18 4 0 0 7) 0 0 = some (.mzero 7) ∧ got (rr 2 0x18 5 35 34 4) 0 0 = some (.mepi 4 2 3) ∧ got (rr 2 0x18 6 0 0 0) 0 0 = some .mwait
    ∧ got (rr 2 0x18 7 0 5 0) 0 0 = some (.mprio 5) ∧ got (rr 2 0x1E 0 0 5 16) 0 0 = some (.chbond 16 5) ∧ got (rr 2 0x1E 1 0 34 0) 0 0 = some (.chload 2)
    ∧ got (rr 2 0x1E 2 35 34 4) 0 0 = some (.chrun 4 2 3) ∧ got (rr 2 0x1E 3 35 34 4) 0 0 = some (.chstep 4 2 3) ∧ got (rr 2 0x1E 4 0 0 6) 0 0 = some (.chwait 6)
    ∧ got (rr 2 0x1E 0 0 5 17) 0 0 = none := by decide +kernel
theorem test_decode_queues : got (rr 2 0x20 0 37 28 3) 0 0 = some (.enq 3 6 5) ∧ got (rr 2 0x20 0 37 0 3) 0 0 = none ∧ got (rr 2 0x20 1 0 4 3) 0 0 = some (.jpoll 3 4)
    ∧ got (rr 2 0x20 2 0 4 3) 0 0 = some (.jwait 3 4) ∧ got (rr 2 0x20 3 0 4 3) 0 0 = some (.jcancel 3 4) ∧ got (rr 2 0x21 0 0 5 55) 0 0 = some (.pcfg 7 5)
    ∧ got (rr 2 0x21 1 2 48 4) 0 0 = some (.ptry (.x 4) 0 2) ∧ got (rr 2 0x21 2 2 36 49) 0 0 = some (.ptrys 1 (.a 4) 2) ∧ got (rr 2 0x22 0 1 34 5) 0 0 = some (.rqres 5 2 1)
    ∧ got (rr 2 0x22 1 5 34 0) 0 0 = some (.rqpub 2 5) ∧ got (rr 2 0x22 2 1 34 5) 0 0 = some (.rqtake 5 2 1) ∧ got (rr 2 0x22 3 5 34 0) 0 0 = some (.rqdone 2 5)
    ∧ got (rr 2 0x23 0 5 34 4) 0 0 = some (.dqbind 4 2 5) ∧ got (rr 2 0x23 1 35 34 4) 0 0 = some (.dqpush 4 2 3) ∧ got (rr 2 0x23 2 35 34 4) 0 0 = some (.dqpop 4 2 3)
    ∧ got (rr 2 0x23 3 0 34 0) 0 0 = some (.dqcons 2) ∧ got (rr 2 0x23 4 35 34 4) 0 0 = some (.dqarr 4 2 3) ∧ got (rr 2 0x23 5 35 34 4) 0 0 = some (.dqlook 4 2 3)
    ∧ got (rr 2 0x23 6 5 34 4) 0 0 = some (.dqadv 4 2 5) ∧ got (rr 2 0x23 7 0 34 4) 0 0 = some (.dqfront 4 2) ∧ got (rr 2 0x23 8 5 34 0) 0 0 = some (.dqwait 2 5)
    ∧ got (rr 2 0x24 0 0 0 0) 0 0 = some (.srfence none) ∧ got (rr 2 0x24 0 0 47 0) 0 0 = some (.srfence (some 15)) ∧ got (rr 2 0x24 1 0 0 0) (ext 2) 0 = some (.bar .die)
    ∧ got (rr 2 0x24 2 0 0 6) (ext 3) 0 = some (.bara .dev 6) ∧ got (rr 2 0x24 3 0 6 0) (ext 4) 0 = some (.barw .pod 6) := by decide +kernel
theorem test_decode_records : got (rr 2 0x25 0 0 4 3) 0 0 = some (.fresume 3 4) ∧ got (rr 2 0x25 1 5 34 0) 0 0 = some (.ptfence 2 5) ∧ got (rr 2 0x25 2 35 4 3) 0 0 = some (.recbeg 3 4 3)
    ∧ got (rr 2 0x25 3 0 4 0) 0 0 = some (.recend 4) ∧ got (rr 2 0x25 4 0 4 3) 0 0 = some (.rplbeg 3 4) ∧ got (rr 2 0x25 5 0 4 0) 0 0 = some (.rplend 4)
    ∧ got (rr 2 0x25 6 0 4 0) 0 0 = some (.rerecord 4) ∧ (Instr.rerecordFree 4).enc = (Instr.rerecord 4).enc ∧ got (rr 2 0x25 7 0 4 3) 0 0 = some (.recstat 3 4)
    ∧ got (rr 2 0x25 8 0 4 3) 0 0 = none := by decide +kernel
theorem test_decode_heap : got (rr 2 0x26 0 35 4 3) 0 0 = some (.egopen 3 4 3) ∧ got (rr 2 0x26 1 0 34 3) 0 0 = some (.egins 3 2) ∧ got (rr 2 0x26 2 5 4 3) 0 0 = some (.egmrg 3 4 5)
    ∧ got (rr 2 0x26 3 0 4 3) 0 0 = some (.egfind 3 4) ∧ got (rr 2 0x26 4 5 4 3) 0 0 = some (.egsame 3 4 5) ∧ got (rr 2 0x26 5 0 4 0) 0 0 = some (.egsync 4)
    ∧ got (rr 2 0x26 6 35 4 3) 0 0 = some (.egnode 3 4 3) ∧ got (rr 2 0x26 7 5 4 3) 0 0 = some (.egclass 3 4 5) ∧ got (rr 2 0x26 8 0 34 3) 0 0 = some (.egmatch 3 2)
    ∧ got (rr 2 0x26 9 0 34 3) 0 0 = some (.egnext 3 2) ∧ got (rr 2 0x26 10 0 34 3) 0 0 = some (.egchk 3 2) ∧ got (rr 2 0x26 11 5 34 3) 0 0 = some (.egcost 3 2 5)
    ∧ got (rr 2 0x26 12 0 34 3) 0 0 = some (.egextr 3 2) := by decide +kernel
theorem test_decode_tasks : got (rr 2 0x27 0 0 34 3) 0 0 = some (.launch 3 2) ∧ got (rr 2 0x27 1 0 0 3) 0 0 = some (.dnext 3) ∧ got (rr 2 0x27 2 35 4 3) 0 0 = some (.hstart 3 4 3)
    ∧ got (rr 2 0x27 3 0 4 0) 0 0 = some (.hexit 4) ∧ got (rr 2 0x27 4 0 4 3) 0 0 = some (.hjoin 3 4) ∧ got (rr 2 0x27 5 0 4 3) 0 0 = some (.gfuse 3 4)
    ∧ got (rr 2 0x27 6 0 0 0) 0 0 = some .gsplit ∧ got (rr 2 0x27 7 0 34 3) 0 0 = some (.tknew 3 2) ∧ got (rr 2 0x27 8 35 34 3) 0 0 = some (.tkdep 3 2 3)
    ∧ got (rr 2 0x27 9 0 34 3) 0 0 = some (.tkrel 3 2) ∧ got (rr 2 0x27 10 35 34 3) 0 0 = some (.tkdone 3 2 3) ∧ got (rr 2 0x27 11 5 34 3) 0 0 = some (.ftnew 3 2 5)
    ∧ got (rr 2 0x27 12 30 34 3) 0 0 = some (.ftsetReady 3 2 14) ∧ (Instr.ftsetPoison 3 2 14).enc = (Instr.ftsetReady 3 2 14).enc
    ∧ (Instr.ftsetFree 3 2 14).enc = (Instr.ftsetReady 3 2 14).enc ∧ got (rr 2 0x27 13 5 34 3) 0 0 = some (.ftget 3 2 5) ∧ got (rr 2 0x27 14 0 0 3) 0 0 = some (.yieldRef 3)
    ∧ got (rr 2 0x27 15 0 4 3) 0 0 = some (.park 3 4) ∧ got (rr 2 0x27 16 0 4 3) 0 0 = some (.wake 3 4) ∧ got (rr 2 0x27 17 0 4 3) 0 0 = none := by decide +kernel
theorem test_decode_counters_and_faults : got (rr 2 0x28 0 0 5 4) 0 0 = some (.ctrdTimestamp 4 5) ∧ (Instr.ctrdSlot 4 5).enc = (Instr.ctrdTimestamp 4 5).enc
    ∧ (Instr.ctrdVc 4 5).enc = (Instr.ctrdTimestamp 4 5).enc ∧ (Instr.ctrdVd 4 5).enc = (Instr.ctrdTimestamp 4 5).enc ∧ (Instr.ctrdNeighbour 4 5).enc = (Instr.ctrdTimestamp 4 5).enc
    ∧ got (rr 2 0x28 1 0 5 4) 0 0 = some (.pmrd 4 5) ∧ got (rr 2 0x29 0 0 5 0) 0 0 = some (.upret 5) ∧ (Instr.upretContinue 5).enc = (Instr.upret 5).enc
    ∧ got (rr 2 0x29 1 6 5 0) 0 0 = some (.fraiseUpcall 5 6) ∧ (Instr.fraiseFreeze 5 6).enc = (Instr.fraiseUpcall 5 6).enc := by decide +kernel
theorem test_decode_unassigned : got 0 0 0 = none ∧ got (rr 0 0x0F 0 0 0 0) 0 0 = none ∧ got (rr 1 0x07 0 0 0 0) 0 0 = none ∧ got (rr 2 0x2A 0 0 0 0) 0 0 = none
    ∧ got (rr 2 0x3F 0 5 4 3) (ext 0x0F) 0 = none ∧ got (rr 3 0x18 6 0 0 0) 0 0 = none ∧ got (rr 0 0x00 22 5 4 3) 0 0 = none ∧ got (rr 0 0x00 0 5 4 56) 0 0 = none := by decide +kernel

/-- The worked encodings of spec/07, 08, 10, 12, 13 and 17. -/
theorem test_decode_worked : got 0x04510300 0 0 = some (.sub (.x 3) (.x 4) (.reg (.x 5))) ∧ got 0x14C24570 0 0 = some (.bextu (.x 5) (.x 9) 5 12)
    ∧ got 0xFFF00368 0 0 = some (.li (.x 3) (-1)) ∧ got 0x08510208 0 0 = some (.cmp .lt 2 4 (.reg 5)) ∧ got 0x00016304 0 0 = some (.mov (.a 3) (.x 5))
    ∧ got 0x3008C504 0 0 = some (.atx 5 3) ∧ got 0x0081C638 0 0 = some (.faddBF16 6 7 (.reg 8)) ∧ got 0x0C01C61C 0 0 = some (.fcvt .e4m3 .f32 6 7)
    ∧ got 0x0000842C 0 0 = some (.crr 4 2) ∧ got 0x000005F0 0 0 = some (.wait 5) ∧ got 0x005000F4 0 0 = some (.trap 5) ∧ got 0xFFFFD2C1 0 0 = some (.b (-3) false 2)
    ∧ got 0x00000085 0 0 = some .ret ∧ got 0x00510302 0 0 = some (.vadd 0 .f32 3 4 (.reg 5)) ∧ got 0x0C308102 0x44000000 0 = some (.vfma 2 .bf16 1 2 (.reg 3))
    ∧ got 0x55804202 0 0 = some (.vneigh 0 2 1 3 0) ∧ got 0x0400051E 0 0 = some (.vclaim 5 64) ∧ got 0x30288726 0 0 = some (.vld 0 .f32 3 2 2 7)
    ∧ got 0x2038C439 0 0 = some (.ldl32 2 12 3 (.x 4)) ∧ got 0x30300069 0 0 = some (.fence 3 .dev) ∧ got 0x5009886D 0 0 = some (.czfence 5 0 6 (.x 8))
    ∧ got 0x00090742 0x24000000 0 = some (.lda 2 .die 0 0 4 (.x 7)) ∧ got 0x10184546 0x24000000 0 = some (.strl 2 .die 1 1 1 (.x 5))
    ∧ got 0x00088652 0x36000000 0 = some (.cas true .dev 0 0 2 2) := by decide +kernel
theorem test_decode_worked_units : got 0x02388462 0 0 = some (.mmaNew false false 4 2 3) ∧ got 0x06388462 0x02000000 0 = some (.mmaAcc false true 4 2 3)
    ∧ got 0x0A388462 0 0 = some (.mgangNew false false 4 2 3) ∧ got 0x10000262 0 0 = some (.mzero 2) ∧ got 0x16388462 0 0 = some (.mepi 4 2 3) ∧ got 0x18000062 0 0 = some .mwait
    ∧ got 0x1C014062 0 0 = some (.mprio 5) ∧ got 0x0001417A 0 0 = some (.chbond 1 5) ∧ got 0x0408807A 0 0 = some (.chload 2) ∧ got 0x0A38847A 0 0 = some (.chrun 4 2 3)
    ∧ got 0x1000067A 0 0 = some (.chwait 6) ∧ got 0x02510382 0 0 = some (.enq 3 0 5) ∧ got 0x0800C682 0 0 = some (.jwait 6 3) ∧ got 0x00017186 0 0 = some (.pcfg 1 5)
    ∧ got 0x042C0486 0 0 = some (.ptry (.x 4) 0 2) ∧ got 0x0018858A 0 0 = some (.rqres 5 2 1) ∧ got 0x0638848E 0 0 = some (.dqpush 4 2 3) ∧ got 0x00088092 0 0 = some (.srfence (some 2))
    ∧ got 0x04000092 0x02000000 0 = some (.bar .clu) ∧ got 0x000144A2 0 0 = some (.ctrdTimestamp 4 5) ∧ got 0x040144A2 0 0 = some (.pmrd 4 5) := by decide +kernel

/-! States for the tests: frame 0 runs at va 0 in an address space whose page 0 stands at physical 0x30000. -/

def base : State := State.reset.withFetchWord 0 0
/-- Little-endian numbers of n bytes put at offsets of the page. -/
def poke (s : State) (l : List (Nat × Nat × Nat)) : State := l.foldl (fun s p => { s with mem := s.mem.write (0x30000 + p.1) p.2.1 p.2.2 }) s
def withC (s : State) (g : Ctx → Ctx) : State := { s with c := g s.c }
/-- A context with x2 to x4 and a2 to a4. -/
def regs (x2 x3 x4 a2 a3 a4 : Word) : State := withC base fun c => (((((c.setX 2 x2).setX 3 x3).setX 4 x4).setA 2 a2).setA 3 a3).setA 4 a4
/-- Does a computation succeed with a result that satisfies a test? -/
def okB {ε α : Type} (r : Except ε α) (p : α → Bool) : Bool :=
  match r with
  | .ok v => p v
  | .error _ => false
/-- Is the outcome a next state that satisfies a test? -/
def nextB (o : Out) (p : State → Bool) : Bool :=
  match o with
  | .next t => p t
  | _ => false
/-- A wait of frame 0 that began at 0. -/
def waiting (i : Instr) : Wait := { instr := some i, mods := Mods.none, pc := 0, npc := 4, since := 0, begun := true, wrap := false, arg := 0, barked := 0, limit := 0, ticket := 0 }
/-- A wait whose limit it has sampled. -/
def waitingFor (i : Instr) (limit : Word) (arg : Nat := 0) : Wait := { waiting i with limit := limit, arg := arg }
/-- An issued access. -/
def access (op : MemOp) (ea : Word) : Access :=
  { aid := 7, slot := some 3, pc := 0, ea := ea, asid := 0, op := op, inHandler := false, held := false, back := false, done := 0, got := 0, recNo := none, work := none }

/-! Conditions of the statements, met. -/

theorem witness_DivisionResults : let s := regs 0x8000000000000000 (BitVec.allOnes 64) 5 0 0 0
    s.c.getReg (.x 2) = 0x8000000000000000 ∧ s.c.src (.reg (.x 3)) = BitVec.allOnes 64 ∧ s.c.src (.reg (.x 1)) = 0 ∧ s.c.src (.reg (.x 4)) ≠ 0
      ∧ ¬(s.c.getReg (.x 4) = 0x8000000000000000 ∧ s.c.src (.reg (.x 3)) = BitVec.allOnes 64) := by decide +kernel
theorem witness_FieldAndFunnelResults : (0 : BitVec 6).toNat + (63 : BitVec 6).toNat < 64 ∧ (63 : BitVec 6).toNat + (0 : BitVec 6).toNat < 64 := by decide
theorem witness_FloatResults : Says.untrapped base Fl.nv ∧ Says.untrapped base 0 ∧ ¬Says.untrapped (withC base fun c => { c with cr := { c.cr with fctl := 0x7F0 } }) Fl.nv := by
  simp only [Says.untrapped]; decide +kernel
/-- FP32 and BF16 operands of each case: infinities, zeros, the least and the greatest finite numbers, a quiet and a signalling NaN. -/
theorem witness_FloatSpecialCases :
    let inf := 2 ^ 31 - 2 ^ 23
    let neg := 2 ^ 31
    let nan := inf + 2 ^ 22
    let clean (x : Nat) : Prop := x < 2 ^ 32 ∧ (x % neg = 0 ∨ 1 ≤ x % neg)
    (∀ x ∈ [inf, neg + inf, 0, neg, 1, neg + 1, inf - 1, nan, neg + inf + 1], clean x) ∧ ((neg ≤ inf) ≠ (neg ≤ neg + inf)) ∧ ¬((neg ≤ inf) ≠ (neg ≤ inf))
      ∧ inf % neg = inf ∧ (neg + inf) % neg = inf ∧ neg % neg = 0 ∧ 0 < (neg + 1) % neg ∧ (neg + 1) % neg < inf ∧ 0 < (inf - 1) % neg ∧ (inf - 1) % neg < inf
      ∧ neg < neg + inf ∧ inf < nan % neg ∧ inf < (neg + inf + 1) % neg ∧ (neg + inf + 1) % neg < nan ∧ ¬(nan % neg < nan) ∧ 2 ^ 7 ≤ (2 ^ 15 + 2 ^ 7) % 2 ^ 15 := by decide
theorem witness_BranchResults : let s := withC (regs 0 0 0 8 6 0) fun c => ((c.setP 1 true).setA 14 12).setA 8 2
    s.c.getP 1 ≠ false ∧ s.c.getP 1 = true ∧ (s.c.getA 2 + .ofInt 64 (4 * (-1 : BitVec 8).toInt)).toNat % 4 = 0 ∧ (s.c.getA 3 + .ofInt 64 (4 * (1 : BitVec 8).toInt)).toNat % 4 ≠ 0
      ∧ (s.c.getA 14).toNat % 4 = 0 ∧ ((withC s fun c => c.setA 14 3).c.getA 14).toNat % 4 ≠ 0 ∧ s.c.getA 8 - 1 ≠ 0 ∧ (withC s fun c => c.setA 8 1).c.getA 8 - 1 = 0 := by decide +kernel
theorem witness_WaitAndWrapperResults : let s := withC base fun c => { c with sb := c.sb.set 15 62, pause := 5 }
    (∀ i : Slot, (0x7FFF : BitVec 16).getLsbD i → s.c.sb[i] = 0) ∧ ¬(∀ i : Slot, (0x8000 : BitVec 16).getLsbD i → s.c.sb[i] = 0) ∧ (1 : BitVec 6) ≠ 0
      ∧ (s.ctx 0).pause ≠ 0 ∧ ({ s with time := 5 } : State).c.pause ≤ 5 ∧ s.c.wait = none ∧ s.c.getP 0 ≠ false ∧ s.c.getP 1 = false ∧ s.c.sb[(15 : Slot)] ≠ 63
      ∧ (withC base fun c => { c with sb := c.sb.set 15 63 }).c.sb[(15 : Slot)] = 63 := by decide +kernel
theorem witness_TrapFreezes : (∀ g ∈ framesOf base.myCore, (base.ctx g).st.gang = 0) ∧ base.fuses 11 = [] ∧ base.fuses base.self = [] ∧ 11 ≠ base.self
    ∧ (base.clu base.myClu).huddles = [] ∧ base.c.latch = none ∧ (withC base fun c => { c with latch := some 3 }).c.latch = some 3 := by decide +kernel
theorem witness_ControlRegisterAccess : let s := withC (regs 5 0x7F0 0 0 0 0) fun c => { c with st := { c.st with sup := true } }
    base.c.st.sup = false ∧ s.c.st.sup = true ∧ crOk 0x001 (s.c.getX 2) = false ∧ crOk 0x001 (s.c.getX 3) = true ∧ (∀ i : Slot, s.c.sb[i] = 0) ∧ crOk 0x030 0xFFFF = true
      ∧ crOk 0x811 0x10001 = false ∧ 0x005 ∉ [0x000, 0x001, 0x030, 0x800]
      ∧ bitsOf (s.c.getX 3) 63 11 = 0 ∧ bitsOf (s.c.getX 3) 2 0 ≤ 4 ∧ 4 < bitsOf (s.c.getX 2) 2 0 ∧ bitsOf (s.c.getX 2) 63 16 = 0
      ∧ ¬(∀ i : Slot, (withC s fun c => { c with sb := c.sb.set 3 1 }).c.sb[i] = 0) := by decide +kernel
theorem witness_PortResults : let bw : Word := 0x8000000000000024
    let p : Port := { binding := some bw, by_ := 0, buf := [7] }
    let s := base.setCore 0 ((base.core 0).setPort 2 p)
    let t := withC { s with time := 0x10000 } fun c => { c with wait := some (waitingFor (.ptry (.x 1) 1 1) 0x10000) }
    let t' := withC { s with time := 0x10000 } fun c => { c with wait := some (waitingFor (.ptrys 1 (.x 1) 1) 0x10000) }
    let t2 := withC s fun c => { c with wait := some (waiting (.mov (.x 1) (.n 2))) }
    s.earlier takesFrom 2 = false ∧ (s.core 0).port 2 = p ∧ s.earlier sendsOn 2 = false ∧ bindingDest bw = (1, 1) ∧ (s.core 1).frozen = false ∧ (s.core 1).fenced = false
      ∧ s.dev.halted = false ∧ ((s.core 1).port 1).buf.length < 4 ∧ bitsOf bw 62 14 = 0 ∧ bitsOf bw 1 0 = 0 ∧ (regs bw 0 0 0 0 0).c.getX 2 = bw
      ∧ t.c.live = true ∧ (waitingFor (.ptry (.x 1) 1 1) 0x10000).limit ≠ 0 ∧ (0x10000 : Word).toNat ≤ (t.time - 0).toNat ∧ s.c.wait = none ∧ (s.portTake 1).isNone ∧ (s.portSend 1 0).isNone
      ∧ (t.portTake 1).isNone ∧ (t'.portSend 1 0).isNone
      ∧ t2.c.wait = some (waiting (.mov (.x 1) (.n 2))) ∧ ((t2.core t2.myCore).port 2).buf = [7] := by decide +kernel
theorem witness_VirtualAccessIssue : let s := regs 0 0 0 16 17 0
    let full := withC s fun c => { c with sb := c.sb.set 3 63 }
    (s.c.getA 2 + .ofInt 64 (-8 : BitVec 32).toInt).toNat % 8 = 0 ∧ (s.c.getA 3 + .ofInt 64 (-8 : BitVec 32).toInt).toNat % 8 ≠ 0 ∧ s.c.sb[(3 : Slot)] ≠ 63 ∧ full.c.sb[(3 : Slot)] = 63
      ∧ (s.c.getA 2 + .ofInt 64 (-16 : BitVec 32).toInt).toNat % 4096 = 0 := by decide +kernel
theorem witness_LocalStoreIssue : let s := regs 0 1 0 0x3FFF8 0x3FFF0 0x8000000000000000
    let end_ := 16384 * s.c.st.lsblk.toNat
    ¬((s.c.getA 2).toNat % 8 ≠ 0 ∨ 2 ^ 18 ≤ (s.c.getA 2).toNat ∨ end_ < (s.c.getA 2).toNat + 8) ∧ 2 ^ 18 ≤ (s.c.getA 2).toNat + 8
      ∧ ¬((s.c.getA 3).toNat % 16 ≠ 0 ∨ 2 ^ 18 ≤ (s.c.getA 3).toNat ∨ end_ < (s.c.getA 3).toNat + 16 * (s.c.getReg (.x 3)).toNat)
      ∧ ¬((s.c.getA 4).toNat % 2 ^ 63 % 8 ≠ 0 ∨ 2 ^ 18 ≤ (s.c.getA 4).toNat % 2 ^ 63 ∨ end_ < (s.c.getA 4).toNat % 2 ^ 63 + 8) := by decide +kernel
theorem witness_AtomicIssue : (regs 0 0 0 0 0 0x8000000000000008).c.getA 4 = 0x8000000000000008 ∧ 2 ^ 63 ≤ (0x8000000000000008 : Word).toNat ∧ (0x8000000000000008 : Word).toNat % 2 ^ 63 % 8 = 0
    ∧ 2 ^ 32 - 1 < 2 ^ (8 * 4) ∧ 2 ^ 64 - 1 < 2 ^ (8 * 8) := by decide +kernel
theorem witness_VectorAccessIssue : let s := withC (regs 0 0 0 64 2 0x800000000003FFC0) fun c => { c with groups := [0] }
    let k := s.c.getK 0 &&& s.c.lanes
    s.c.grant ≠ 0 ∧ base.c.grant = 0 ∧ s.c.sb[(3 : Slot)] ≠ 63 ∧ s.c.region = none ∧ (∀ i : Fin 256, k.getLsbD i = true → (s.c.getA 2 + .ofNat 64 (i.val * 4)).toNat % 4 = 0)
      ∧ (∀ i : Fin 256, k.getLsbD i = true → (s.c.getA 2).toNat < 2 ^ 63) ∧ k.getLsbD 0 = true ∧ (s.c.getA 3).toNat % 4 ≠ 0
      ∧ 16384 * s.c.st.lsblk.toNat < (s.c.getA 4).toNat % 2 ^ 63 + 64 + 4 := by decide +kernel
theorem witness_MemoryReadAfterWrite : Memory.wf [] = true ∧ Memory.wf [(3, 1), (4, 2)] = true ∧ Memory.wf [(3, 0)] = false ∧ Memory.wf [(4, 1), (3, 1)] = false := by decide
theorem witness_LocalStorePerformed : let s := withC base fun c => { c with acc := [access (.ldl 4 (.x 1)) 8], sb := c.sb.set 3 1 }
    let e : Passed := { id := 7, instr := .ldl32 3 8 2 (.x 1), mods := Mods.none, pc := 4, npc := 8, next := 8, kind := .past, xs := [], ps := [], vs := [] }
    s.c.acc.find? (·.aid == 7) = some (access (.ldl 4 (.x 1)) 8) ∧ (access (.stl 4 9) 8).held = false ∧ (access (.stl 4 9) 8).back = false ∧ s.c.win = []
      ∧ behind [e] 7 = true := by decide +kernel
theorem witness_VirtualAccessPerformed : let s := poke (regs 0 0 0 0x100 0 0) [(0x100, 8, 0xFFFFFFFFFFFFFF80)]
    let a := access (.ld 1 true (.x 1)) 0x100
    let w := access (.st 8 5) 0x100
    s.c.speculative 7 = false ∧ okB (s.accRead (a.req s.c 0 8) .clu 0x100 1) (fun r => r.1 == 0x80) = true ∧ okB (s.accWrite (w.req s.c 0 12) .clu 0x100 8 5 none) (fun _ => true) = true
      ∧ okB (s.accRead (a.req s.c 0 8) .dev 0x100 8) (fun r => okB (r.2.acquire r.2.myClu .dev) fun _ => true) = true
      ∧ s.c.unreleased 7 = false ∧ okB (s.releaseOf 0 .dev) (fun u => okB (u.accWrite (w.req s.c 0 12) .dev 0x100 8 5 none) fun _ => true) = true
      ∧ okB (s.accAtomic (w.req s.c 0 12) .sys 0x100 8 (fun old => some (amoNew .add 8 old 1).1) none) (fun r => r.1 == 0xFFFFFFFFFFFFFF80) = true
      ∧ okB (s.accAtomic (w.req s.c 0 12) .clu 0x100 4 (fun old => if old = 0xFFFFFF80 then some 1 else none) none) (fun r => r.1 == 0xFFFFFF80) = true := by decide +kernel

/-- Full-empty accesses on granule 2, alone and with an LDFE of frame 1 that waits there. -/
theorem witness_LocalStorePerformed_granules :
    let s (op : MemOp) := withC base fun c => { c with acc := [access op 0x28], sb := c.sb.set 3 1 }
    let full (s : State) := s.mapCore 0 fun k => { k with full := [2] }
    let on (s : State) (op : MemOp) := (s.feAccs s.myCore).filter fun x => (x.2.granules (s.ctx x.1)).any ((access op 0x28).granules s.c).contains
    let b := { access (.ldfe true (.x 1)) 0x28 with aid := 5 }
    let two (op : MemOp) (aid : Nat) := (s op).mapCtx 1 fun c => { c with live := true, acc := [{ b with aid := aid }] }
    (∀ op ∈ [MemOp.ldfe true (.x 1), .ldfe false (.x 1), .stfe 9, .femark true 2, .femark false 2],
        (s op).c.live = true ∧ (s op).c.win = [] ∧ (s op).c.acc.find? (·.aid == 7) = some (access op 0x28) ∧ on (s op) op = [(0, access op 0x28)])
      ∧ ((s (.stfe 9)).core 0).isFull 2 = false ∧ ((full (s (.stfe 9))).core 0).isFull 2 = true ∧ on (full (s (.ldfe true (.x 1)))) (.ldfe true (.x 1)) = [(0, access (.ldfe true (.x 1)) 0x28)]
      ∧ (access (.femark true 0) 0x28).granules base.c = []
      ∧ on (two (.stfe 9) 5) (.stfe 9) = [(1, b), (0, access (.stfe 9) 0x28)] ∧ on (two (.femark true 2) 9) (.femark true 2) = [(0, access (.femark true 2) 0x28), (1, { b with aid := 9 })]
      ∧ coreOf 1 = base.myCore ∧ ((two (.stfe 9) 5).ctx 1).acc.find? (·.aid == 5) = some b ∧ (∀ h ∈ b.granules ((two (.stfe 9) 5).ctx 1), ((two (.stfe 9) 5).core 0).isFull h = false)
      ∧ nextB (exec (.scoreboardDecrement 0 7) (two (.stfe 9) 5)) (fun t => (t.ctx 1).getX 1 == 9 && !(t.core 0).isFull 2) = true := by decide +kernel
/-- Prefetches, fences, codebooks and a block's status; and vector accesses, in the local store and of one lane in virtual memory. -/
theorem witness_VirtualAccessPerformed_control :
    let a := access (.fence .dev) 0x100
    let r (s : State) : Req := { a.req s.c 0 8 with who := none }
    let book := poke base [(0x140, 1, 0x11)]
    let older := { book with mem := ((book.mem.write 0x20 8 0x60000).write 0x60000 2 0x101).write 0x6000C 4 1 }
    let rec_ (s : State) (p : List Byte → State → Bool) : Bool := okB (s.readBytesAt (a.req s.c 0 8) .clu 5 0x100 192) fun x => p x.1 x.2
    let early := withC base fun c => { c with acc := [{ access (.st 8 1) 8 with aid := 6 }, a] }
    let v : BitVec 8192 := setLane 0 1 4
    okB (base.l1Get (r base) 4) (fun x => !x.1.poison) = true ∧ okB (base.l2Get (r base) 4) (fun x => !x.1.poison) = true ∧ okB (base.l1Get (r base) (2 ^ 52)) (fun _ => true) = false
      ∧ okB (base.l2Get (r base) (2 ^ 52)) (fun _ => true) = false ∧ early.c.unreleased 7 = true ∧ base.c.unreleased 7 = false
      ∧ okB (base.releaseOf 0 .dev) (fun u => okB (u.acquire u.myClu .dev) fun _ => true) = true
      ∧ (match base.publishAll 0 .dev [] with
         | (u, none) => okB (u.translate 0 (u.served 0 (sliceOf 0)) 0 0 (a.req base.c 0 0).need) fun x => !x.1.comp
         | _ => false) = true
      ∧ rec_ base (fun bs _ => (codebookOf bs).isNone) = true ∧ rec_ book (fun bs u => (codebookOf bs).any fun x => x.1 == 0 && (u.installBook 0 0 x.2).isSome) = true
      ∧ rec_ older (fun bs u => (codebookOf bs).any fun x => (u.installBook 0 0 x.2).isNone) = true
      ∧ okB (base.translate 0 (base.served 0 (sliceOf 0x100)) 0 0x100 8) (fun x => !x.1.comp) = true
      ∧ ((List.range 256).filter fun n => (1 : BitVec 256).getLsbD n) = [0] ∧ (0x100 : Word).toNat < 2 ^ 63 ∧ 2 ^ 63 ≤ ((0x8000000000000000 : Word) + .ofNat 64 (255 * 4)).toNat
      ∧ (0x100 + .ofNat 64 ((laneOf v 1).toNat * 4) : Word) = 0x110 ∧ okB (base.accRead (a.req base.c 0 8) .clu 0x100 4) (fun _ => true) = true
      ∧ okB (base.accWrite (a.req base.c 0 12) .clu 0x100 4 5 none) (fun _ => true) = true := by decide +kernel

/-- Two groups of 16 lanes held, beside two free. -/
def vec : State := (withC (regs 0x1F 3 16 0 0 0) fun c => { c with groups := [0, 1] }).mapClu 0 fun k => { k with lanesFree := [2, 3] }
theorem witness_VectorLaneResults : vec.c.grant ≠ 0 ∧ base.c.grant = 0 ∧ (fmtInt .si8).isSome = true ∧ fmtInt .si8 = some true ∧ fmtInt .ui8 ≠ some true ∧ (fmtInt .f32).isSome = false
    ∧ Says.untrapped vec Fl.nv ∧ (vec.c.getK 0 &&& vec.c.lanes).getLsbD 31 = true ∧ (vec.c.getK 0 &&& vec.c.lanes).getLsbD 32 = false := by
  simp only [Says.untrapped]; decide +kernel
/-- A context that traps an invalid operation, with a signalling NaN in lane 0 of v1. -/
theorem witness_VectorLaneResults_traps :
    let s := vec.mapC fun c => { (c.setV 1 (setLane 0 0 0x7F800001)) with cr := { c.cr with fctl := 0x7F0 } }
    let k := s.c.getK 0 &&& s.c.lanes
    s.c.grant ≠ 0 ∧ k.getLsbD 0 = true ∧ ¬Says.untrapped s Fl.nv ∧ ¬Says.untrapped s (fCompare .lt .f32 (laneOf (s.c.getV 1) 0).toNat 0).2
      ∧ ¬Says.untrapped s (Says.fold .add .f32 .rne k (s.c.getV 1) 256).2 ∧ ¬Says.untrapped s (Says.tree .max .f32 .rne k (s.c.getV 1) 8 0).2 := by
  simp only [Says.untrapped]; decide +kernel
theorem witness_VectorMoves : vec.c.grant ≠ 0 ∧ base.c.grant = 0 ∧ (vec.c.getX 2).toNat < vec.c.grant ∧ vec.c.grant ≤ ((vec.mapC fun c => c.setX 2 32).c.getX 2).toNat := by decide +kernel
theorem witness_VectorCompareAndMasks : vec.c.grant ≠ 0 ∧ base.c.grant = 0 ∧ (∀ j, j < 256 → Says.untrapped vec (fCompare .lt .f32 0x7FC00000 j).2) ∧ (3 : KReg) ≠ 0 := by
  simp only [Says.untrapped]; decide +kernel
theorem witness_VectorReductions : vec.c.grant ≠ 0 ∧ base.c.grant = 0 ∧ fmtInt .ui16 = some false ∧ fmtInt .si16 = some true
    ∧ Says.untrapped vec (Says.tree .max .bf16 .rne (vec.c.getK 0 &&& vec.c.lanes) (vec.c.getV 1) 8 0).2
    ∧ Says.untrapped vec (Says.fold .add .f32 .rne (vec.c.getK 0 &&& vec.c.lanes) (vec.c.getV 1) 256).2 := by
  simp only [Says.untrapped]; decide +kernel
theorem witness_VectorGrants : vec.c.acc = [] ∧ vec.c.parks = [] ∧ access (.vld 1 .f32 0) 0 ∈ (withC vec fun c => { c with acc := [access (.vld 1 .f32 0) 0] }).c.acc
    ∧ (32 : BitVec 12).toNat / 16 ≤ vec.c.groups.length ∧ vec.c.groups.length < (79 : BitVec 12).toNat / 16 := by decide +kernel
/-- Cores 0 and 1 hold frames of one team with lanes. -/
def pair (n : BitVec 32) (l : List Neigh) : State :=
  let s := withC vec fun c => { c with team := some 1, ncount := 4 }
  s.mapCtx 11 fun c => { c with live := true, ids := { c.ids with ctx := s.c.ids.ctx }, team := some 1, groups := [4], ncount := n, nlatch := l }
theorem witness_VectorNeighbour :
    let e : Neigh := { count := 5, time := 0, lo := 1, hi := 2 }
    vec.c.wait = none ∧ 16 ≤ vec.c.grant ∧ vec.c.grant ≤ 256 ∧ (vec.c.getK 0 &&& vec.c.lanes).getLsbD 31 = true ∧ (∀ j, j < 256 → ((0 : BitVec 256) &&& vec.c.lanes).getLsbD j = false)
      ∧ vec.partner true = none ∧ (pair 5 [e]).partner true = some 11 ∧ 11 ≠ (pair 5 [e]).self ∧ ((pair 5 [e]).ctx 11).ncount = (pair 5 [e]).c.ncount + 1
      ∧ ((pair 5 [e]).ctx 11).nlatch.find? (·.count == 5) = some e ∧ ((pair 4 []).ctx 11).ncount = (pair 4 []).c.ncount := by decide +kernel
/-- A VNEIGH of frame 0 that has waited as long as its limit. -/
def stale : State := { (pair 4 []).mapC (fun c => { c with wait := some (waitingFor (.vneigh 0 1 2 3 1) 5 5), ncount := 5 }) with time := 5 }
theorem witness_VectorNeighbour_timeout :
    let u := (stale.select 0).mapC fun c => { c with npc := 4 }
    let late := { (pair 5 [{ count := 5, time := 5, lo := 1, hi := 2 }]).mapC (fun c => { c with wait := some (waitingFor (.vneigh 0 1 2 3 1) 5 5), ncount := 5 }) with time := 6 }
    let y := (late.select 0).mapC fun c => { c with npc := 4 }
    (stale.ctx 0).live = true ∧ (stale.core 0).frozen = false ∧ (stale.ctx 0).wait = some (waitingFor (.vneigh 0 1 2 3 1) 5 5) ∧ 16 ≤ (stale.ctx 0).grant ∧ (5 : Word) ≠ 0
      ∧ (5 : Word).toNat ≤ (stale.time - 0).toNat ∧ (u.c.getK 0 &&& u.c.lanes).getLsbD 31 = true ∧ (u.c.grant : Int) ≤ 31 + neighDelta 1
      ∧ 0 < neighDelta 1 ∧ u.partner true = some 11 ∧ ((u.ctx 11).ncount - .ofNat 32 5).msb = true ∧ 2 ^ 40 ≤ (waitingFor (.vneigh 0 1 2 3 1) 5 (2 ^ 40 + 5)).arg
      ∧ y.partner true = some 11 ∧ ((y.ctx 11).ncount - .ofNat 32 5).msb = false ∧ (y.ctx 11).nlatch.find? (·.count == 5) = some { count := 5, time := 5, lo := 1, hi := 2 } ∧ (5 : Word).toNat ≤ (5 - 0 : BitVec 64).toNat := by decide +kernel

/-- A ring of rc slots in use, and a parameter word of one k-step with rows of 32 bytes. -/
def mat (rc : Nat) : State := (regs 0x0000_0002_0002_0001 0x0001_0000_0001_0001 0x1000_0001_0001 0x100 0x200 0).mapCore 0 fun k => { k with rc := rc }
/-- A job of the ring. -/
def mjob (id : Nat) (kind : MKind) : MJob :=
  { id := id, frame := 0, kind := kind, slot := some 2, par := 0x0000_0002_0002_0001, aBase := 0x100, bBase := 0x200, la := false, lb := false, fmta := 0, fmtb := 0, prio := 0,
    nk := 1, done := 0, waited := 0, last := 0, susp := false, flags := 0, pc := 0, asid := 0, gen := 0, zero := false, win := (0, 262144) }
theorem witness_MatrixAcceptance :
    let s := mat 7
    let par := s.c.getX 2
    (s.core s.myCore).queueFull = false ∧ (s.core s.myCore).rc < 8 ∧ (s.core s.myCore).rc ≠ 0 ∧ par.toNat < 2 ^ 48 ∧ par.toNat / 2 ^ 12 % 16 = 0 ∧ par.toNat % 2 ^ 12 ≠ 0
      ∧ classOf s.c.cr.fmta s.c.cr.fmtb = some 8 ∧ s.c.operandBad true false true (s.c.getA 2) (s.c.getA 3) par s.c.cr.fmta s.c.cr.fmtb 8 = none
      ∧ (s.core s.myCore).mjobs = [] ∧ (s.core s.myCore).ejobs = [] ∧ s.overtakes .opens = false ∧ s.overtakes .keeps = false ∧ (s.participants.head? == some s.myCore) = true ∧ 2 ^ 48 ≤ (s.c.getX 3).toNat ∧ (s.c.getX 3).toNat < 2 ^ 59 ∧ 6 < (s.core s.myCore).rc ∧ (s.core s.myCore).rc ≤ 7
      ∧ 8 ≤ ((mat 8).core 0).rc ∧ ((mat 0).core 0).rc = 0 ∧ 2 ^ 12 * 0 + (base.c.getX 2).toNat % 2 ^ 12 = 0
      ∧ (((mat 1).mapCore 0 fun k => { k with mjobs := (List.range 16).map fun i => mjob i .mma }).core 0).queueFull = true := by decide +kernel
/-- Another context's MMA.acc, issued at 0, waits before one that issues at 5. -/
theorem witness_MatrixAcceptance_order :
    let s := (mat 3).mapCtx 1 fun c => { c with live := true, wait := some { waiting (.mmaAcc false false 2 2 3) with begun := false } }
    let me := withC { s with time := 5 } fun c => { c with wait := some { waiting (.mepi 2 2 3) with since := 5, begun := false } }
    (∀ g ∈ framesOf (mat 3).myCore, g ≠ (mat 3).self → ((mat 3).ctx g).waits = []) ∧ me.overtakes .frees = true ∧ me.overtakes .keeps = true ∧ me.boundEpi = none
      ∧ ({ me with time := 5 }.mapCore 0 fun k => { k with rc := 8 }).overtakes .frees = true := by decide +kernel
theorem witness_MatrixWaits :
    let s := poke ((mat 1).mapC fun c => (c.setX 2 0x0101).setA 3 0x200) [(0x218, 4, 64)]
    let w := s.mapC fun c => { c with wait := some (waiting (.mzero 2)) }
    let e : EJob := { id := 3, frame := 0, slot := 0, par := 0, dst := 0, rscale := 0, cscale := 0, bias := 0, stride := 4, fmt := 0, actKind := 0, actJ := 0, clo := 0, chi := 0,
                      fctl := 0, done := 0, susp := false, flags := 0, pc := 0, asid := 0, gen := 0, win := (0, 262144), ready := true }
    let bound := (s.mapC fun c => { c with wait := some (waitingFor (.mepi 2 2 3) 0 3) }).mapCore 0 fun k => { k with ejobs := [{ e with ready := false }] }
    (s.core 0).ejobs = [] ∧ (s.core 0).mjobs = [] ∧ e ∈ ((s.mapCore 0 fun k => { k with ejobs := [e] }).core s.myCore).ejobs ∧ e.frame = s.self
      ∧ ((s.mapC fun c => c.setX 3 7).c.getX 3).toNat ≤ 7 ∧ 7 < ((s.mapC fun c => c.setX 3 8).c.getX 3).toNat
      ∧ ((mat 0).core (mat 0).myCore).rc = 0 ∧ (s.core s.myCore).queueFull = false ∧ (s.core s.myCore).rc ≠ 0 ∧ (s.c.getA 3).toNat % 64 = 0 ∧ mepiParBad (s.c.getX 2) = false
      ∧ s.boundEpi = none ∧ s.overtakes .frees = false ∧ okB (s.newId.readMem s.self s.c.asid .clu (s.c.getA 3) 64) (fun r => r.2.self == s.self && (r.2.core s.myCore).ejobs.isEmpty && !mepiRecBad (wordOfBytes r.1) && decide (wordOfBytes r.1 / 2 ^ 192 % 2 ^ 32 = 64)
          && decide (wordOfBytes r.1 % 2 ^ 192 = 0) && decide (wordOfBytes r.1 / 2 ^ 224 = 0)) = true
      ∧ (s.c.getA 2).toNat % 4 = 0 ∧ fmtNum 0 = some .f32 ∧ (w.ctx 0).live = true ∧ (w.core (coreOf 0)).frozen = false ∧ (w.ctx 0).wait = some (waiting (.mzero 2)) ∧ e.gen = s.c.gen
      ∧ bound.boundEpi = some { e with ready := false } ∧ okB (bound.readMem bound.self bound.c.asid .clu (bound.c.getA 3) 64) (fun r => r.2.self == bound.self) = true := by decide +kernel
theorem witness_MatrixSteps :
    let s (j : MJob) : State := (mat 3).mapCore 0 fun k => { k with mjobs := [j] }
    let h : Huddle := { id := 9, tag := 1, parts := [0], opened := none, joined := [0], team := none }
    let hud := ((mat 3).mapCore 0 fun k => { k with mjobs := [mjob 4 (.joint 9)] }).mapClu 0 fun k => { k with huddles := [h] }
    let one := hud.mapClu 0 fun k => { k with huddles := [{ h with opened := some 2 }] }
    let two := hud.mapClu 0 fun k => { k with huddles := [{ h with opened := some 2, parts := [0, 1] }] }
    (s (mjob 4 .mzero)).chosen 0 = some (mjob 4 .mzero) ∧ (s (mjob 4 .mma)).chosen 0 = some (mjob 4 .mma) ∧ (mjob 4 .mma).slot = some 2
      ∧ okB (((s (mjob 4 .mma)).unpin (((s (mjob 4 .mma)).core 0).mjobs.map (·.id))).panelA 0 (mjob 4 .mma) .f32 8 0) (fun r => okB (r.2.panelB 0 (mjob 4 .mma) .f32 8 0) fun _ => true) = true
      ∧ (mjob 4 .mma).done + 1 = (mjob 4 .mma).nk ∧ (fmtField 0).getD .f16 = .f32
      ∧ one.chosen 0 = some (mjob 4 (.joint 9)) ∧ (one.clu (cluOf 0)).huddles.find? (·.id == 9) = some { h with opened := some 2 } ∧ one.jointJobs h = [(0, mjob 4 (.joint 9))]
      ∧ (let sj := (one.unpin ((one.core 0).mjobs.map (·.id))).turnJoint { h with opened := some 2 }
         match sj.jointJobs { h with opened := some 2 } with
         | [(0, j)] => j.frame == 0 && j.slot == some 2 && okB (sj.panelA 0 j .f32 8 j.done) fun r => okB (r.2.jointPanels [j.id] 8 j.done [(0, j)]) fun x => x.1.length == 1
         | _ => false) = true
      ∧ two.chosen 0 = some (mjob 4 (.joint 9)) ∧ two.chosen 1 = none ∧ (one.ctx 0).owns 0 = true ∧ (hud.jointJobs { h with parts := [0, 1] }) = [(0, mjob 4 (.joint 9))]
      ∧ (hud.clu 0).huddles.find? (fun h => h.tag == 1 && h.opened.isNone && h.parts.all fun k => h.joined.any fun f => coreOf f == k) = some h ∧ hud.jointJobs h ≠ [] := by decide +kernel
theorem witness_EpilogueResults :
    let j : EJob := { id := 3, frame := 0, slot := 3, par := 0x0101, dst := 0x400, rscale := 0, cscale := 0, bias := 0, stride := 4, fmt := 0, actKind := 2, actJ := 3, clo := 0, chi := 0,
                      fctl := 0, done := 0, susp := false, flags := 0, pc := 0, asid := 0, gen := 0, win := (0, 262144), ready := true }
    let s := (mat 1).mapCore 0 fun k => { k with ejobs := [j] }
    let r := s.epiRun 0 j 64
    (s.core 0).ejobs.find? (fun j => j.ready && !j.susp && (s.core 0).slotReady j.id (some j.slot)) = some j ∧ r.2 = none ∧ r.1.1.id = j.id ∧ r.1.1.par = j.par
      ∧ j.par.toNat % 128 * (j.par.toNat / 256 % 128) ≤ r.1.1.done ∧ (decodeRaw .f32 0x7FC00000).isNan = true ∧ (decodeRaw .f32 0xBF800000).neg = true := by decide +kernel

/-- A descriptor of one 2 by 3 core of FP32 entries at offset 0x100, and the step words LOAD, ABSORB, PERM, EMIT, END at 0x200. -/
def chain : State :=
  let s := poke (regs 0 0 0 0x100 0x300 0x400) [(0x100, 2, 0x0201), (0x140, 8, 0x500), (0x150, 4, 0x00030002), (0x200, 4, 0x10000000), (0x204, 4, 0x20000000), (0x208, 4, 0x40000000),
    (0x20C, 4, 0x30000000)]
  s.mapClu 0 fun k => { k with desc := some { fmt := 2, cores := [{ base := 0x500, scales := 0, nin := 2, nout := 3 }] } }
/-- The chain run at a step, its job chosen. -/
def crun (step : Nat) (ax : List Axis) : ChRun :=
  { id := 5, frame := 0, pc := 0, asid := 0, step := step, single := false, inA := 0x300, outA := 0x400, started := true, prog := 0x200, bbase := 0, bsize := 64, fctl := 0, prio := 0,
    desc := some { fmt := 2, cores := [{ base := 0x500, scales := 0, nin := 2, nout := 3 }] }, bds := List.replicate 17 1, axes := ax, done := 0, acc := 0, flags := 0, susp := false, gen := 0, sampled := true, win := (0, 262144), team := none, kept := false }
def atStep (r : ChRun) : State :=
  (chain.mapClu 0 fun k => { k with runs := [r] }).mapCore 0 fun k => { k with mjobs := if r.started then [{ mjob 5 (.chain 5) with slot := none }] else [] }
/-- The turn's conditions, as a test of the step word read. -/
def turnB (r : ChRun) (st : CStep) (ax : List Axis) (p : State → Bool) : Bool :=
  let s := atStep r
  (s.clu 0).run == some r && (match s.chosen 0 with | some j => j.kind == .chain r.id | none => false) && !r.susp && decide (r.step < 1024)
    && okB (s.stepWord r r.step) (fun w => parseStep w.1 == some st && (match r.desc with
        | some d => p (((st.sources r d).foldl (fun s n => s.lsGrant 0 n) (w.2.unpin [r.id])).mapCore 0 fun k => k.turnTo w.2.time (some r.id)) && axesAfter d r.bds r.axes st == some ax
        | none => false))
theorem witness_ChainInstructions :
    let s := chain
    let busy := { withC s (fun c => { c with chRun := some 5 }) with self := 0 }.mapClu 0 fun k => { k with runs := [crun 0 []] }
    let ended := withC s fun c => { c with pending := [{ code := 0x10, info := 0, addr := 0, token := 0, whence := 0, soft := false, park := none }] }
    (s.c.getX 2).toNat = 0 ∧ ((regs 257 1024 256 0 0 0).c.getX 4).toNat ≤ 256 ∧ 256 < ((regs 257 1024 256 0 0 0).c.getX 2).toNat ∧ 1024 ≤ ((regs 257 1024 256 0 0 0).c.getX 3).toNat
      ∧ s.runsFull = false ∧ (∀ q ∈ coresOf s.myClu, ∀ g ∈ framesOf q, g ≠ s.self → (s.ctx g).waits = [])
      ∧ (s.mapCtx 11 fun c => { c with live := true, wait := some { waiting (.chrun 2 2 3) with begun := false } }).runsFull = true
      ∧ (s.clu 0).runs.length < 8 ∧ 8 ≤ ((s.mapClu 0 fun k => { k with runs := List.replicate 8 (crun 0 []) }).clu 0).runs.length
      ∧ busy.c.chRun = some 5 ∧ crun 0 [] ∈ (busy.clu busy.myClu).runs ∧ s.c.chRun = none ∧ s.c.pending = [] ∧ ended.c.deliverable = true ∧ (∃ q ∈ ended.c.pending, q.code = 0x10) ∧ (s.c.getA 2).toNat % 64 = 0 ∧ ((s.c.setA 2 0x120).getA 2).toNat % 64 ≠ 0
      ∧ okB (s.readBytesAt (s.req 8) .clu 2 0x100 64) (fun h => okB (h.2.readBytesAt (h.2.req 8) .clu 10 0x140 (32 * min 16 (wordOfBytes (h.1.take 1)))) fun e =>
          (parseChain (h.1 ++ e.1)).isSome && (parseChain (List.replicate 64 0 ++ e.1)).isNone) = true := by decide +kernel
theorem witness_ChainSteps_turns :
    let inAx : Axis := { kind := 0, idx := 1, size := 2 }
    let outAx : Axis := { kind := 1, idx := 1, size := 3 }
    turnB (crun 0 []) (.load 0) [inAx] (fun u => okB (u.readMem 0 0 .die 0x300 8) fun _ => true) = true ∧ 4 * axesSize [inAx] ≤ 64 ∧ turnB { crun 0 [] with bsize := 7 } (.load 0) [inAx] (fun _ => true) = true
      ∧ turnB (crun 1 [inAx]) (.absorb 1 0 1) [outAx] (fun u => okB (u.chainTerms (crun 1 [inAx]) { fmt := 2, cores := [] } { base := 0x500, scales := 0, nin := 2, nout := 3 } [(0, 0), (1, 3)]) fun _ => true) = true
      ∧ 4 * axesSize [outAx] ≤ 64 ∧ turnB { crun 1 [inAx] with done := 2 } (.absorb 1 0 1) [outAx] (fun _ => true) = true ∧ 2 + 1 = ((1 * 2 + 7) / 8) * axesSize [outAx]
      ∧ turnB (crun 2 [outAx]) (.perm 0 0) [outAx] (fun _ => true) = true
      ∧ turnB (crun 3 [outAx]) (.emit 0) [outAx] (fun u => let e := u.emitFrom (crun 3 [outAx]) .f32 3 0; e.2.isNone && e.1.1.id == 5 && !e.1.1.single && e.1.1.step == 3 && e.1.1.frame == 0) = true
      ∧ turnB (crun 4 [outAx]) .fin [outAx] (fun _ => true) = true := by decide +kernel
theorem witness_ChainSteps_start :
    let r := { crun 0 [] with started := false, sampled := false }
    let s := atStep r
    let r' := { r with sampled := true, kept := true, prog := s.c.cr.chprog, bbase := s.c.cr.bbase.toNat, bsize := s.c.cr.bsize.toNat, fctl := s.c.cr.fctl, prio := s.c.mprio.toNat, desc := (s.clu 0).desc, bds := List.replicate 17 1 }
    (s.clu 0).run = none ∧ (s.clu 0).runs.head? = some r ∧ r.susp = false ∧ (s.clu 0).desc.isSome = true ∧ (s.ctx 0).cr.bbase.toNat + (s.ctx 0).cr.bsize.toNat ≤ r.win.2 ∧ (s.ctx 0).owns r.gen = true
      ∧ okB ((s.mapRun 0 5 fun _ => r').deriveAxes r' { fmt := 2, cores := [] } 0 0 []) (fun _ => true) = true ∧ ((s.mapClu 0 fun k => { k with desc := none }).clu 0).desc = none := by decide +kernel

/-- A job of the cluster. -/
def job (eng cmd state : Nat) (w1 w2 w3 : Word) : Job :=
  { q := 4, frame := 0, gen := 0, asid := 0, pc := 0, engine := eng, cmd := cmd, barrier := false, scope := .clu, prio := 0, w1 := w1, w2 := w2, w3 := w3, rd0 := none, rd1 := none,
    wr := none, fctl := 0, shape := none, coll := none, sup := false, state := state, detail := 0, mark := 0, elig := none, chan := none, team := none, saved := [], flags := 0, released := [],
    peers := [], begun := false, fin := false, win := (0, 0), resume := false, spilled := false, ending := none }
/-- The cluster has one job; a footprint of no regions stands at offset 0x100; x4 to x7 hold a FILL of 8 bytes at 0x800. -/
def enq (cw : Word) : State :=
  let s := poke (regs 0x0000_0001_0000_0004 0 cw 0x100 0 0) [(0x600, 8, 0xA00)]
  s.mapC fun c => ((c.setX 5 0x0102).setX 6 0x800).setX 7 8
def jobs (j : Job) : State := (enq 1).mapClu 0 fun k => { k with jobs := [j] }
theorem witness_QueueInstructions :
    let s := enq 0x101
    let n : Fin 7 := 0
    s.c.cmdWord n 0 = 0x101 ∧ (0x101 : Word).toNat / 2 ^ 32 = 0
      ∧ okB (s.readNum (s.req 8) .clu 0x100 64) (fun r => decide (r.1 = 0) && okB (r.2.enqOperands 1 1 (r.2.c.cmdWord n 1) (r.2.c.cmdWord n 2) (r.2.c.cmdWord n 3)) (fun o => decide (o.1.1 = 0))
          && okB (r.2.enqOperands 1 2 0 0 0) (fun o => decide (o.1.1 ≠ 0))) = true
      ∧ (enq 5).c.cmdWord n 0 = 5 ∧ 4 < (5 : Word).toNat % 256 ∧ (s.clu 0).openJobs false < 64
      ∧ 64 ≤ ((s.mapClu 0 fun k => { k with jobs := List.replicate 64 (job 1 0 1 0 0 0) }).clu 0).openJobs false ∧ 64 * ((s.clu 0).openJobs true + 1) ≤ (0x3000, 64).2 ∧ (s.clu 0).ovf.2 < 64
      ∧ okB (({ s with fresh := s.fresh + 1 } : State).writeNum (s.req 12) .die 0x3000 64 (Config.spillEntry s.fresh).toNat) (fun _ => true) = true ∧ s.jobOf 4 = none
      ∧ (jobs (job 1 0 5 0 0 0)).jobOf 4 = some (job 1 0 5 0 0 0) ∧ (jobs (job 1 0 2 0 0 0)).jobOf 4 = some (job 1 0 2 0 0 0) ∧ (jobs (job 1 0 2 0 0 0)).jobOf 0x100000004 = none
      ∧ (jobs { job 1 0 2 0 0 0 with ending := some (8, 5) }).jobOf 4 = some { job 1 0 2 0 0 0 with ending := some (8, 5) } ∧ (jobs (job 1 0 2 0 0 0)).jobPosted (job 1 0 2 0 0 0) = false
      ∧ okB ((jobs (job 1 0 2 0 0 0)).publish 0 .clu []) (fun _ => true) = true := by decide +kernel
/-- A running job's state, with a test of it. -/
def runB (j : Job) (eng cmd : Nat) (p : State → Bool) : Bool :=
  let s := jobs j
  (s.clu 0).job 4 == some j && j.state == 2 && !j.fin && j.engine == eng && (if eng = 2 then j.cmd % 16 else j.cmd) == cmd && p s
/-- A shape of one axis of 4 elements of FP32 at 0x900. -/
def shape : Shape := { base := 0x900, dim := [4, 1, 1, 1, 1], stride := [1, 0, 0, 0, 0], ext := [4, 1, 1, 1, 1], fmt := 0 }
theorem witness_EngineJobs :
    let f := { job 1 1 2 0x0102 0x800 8 with }
    let g (cmd : Nat) : Job := { job 2 cmd 2 0x100 0x800 0 with shape := some shape }
    runB f 1 1 (fun s => s.windowHeld f && okB (s.engWrite 0 f false 0x800 8 [2, 1, 0, 0, 0, 0, 0, 0]) fun _ => true) = true
      ∧ runB (job 1 0 2 0x600 0x800 8) 1 0 (fun s => !(job 1 0 2 0x600 0x800 8).selfOverlap && okB (s.engRead 0 (job 1 0 2 0x600 0x800 8) false 0x600 8) fun r =>
          okB (r.2.engWrite 0 (job 1 0 2 0x600 0x800 8) false 0x800 8 r.1) fun _ => true) = true
      ∧ runB (g 0) 2 0 (fun s => okB (s.gatherElems 0 (g 0) shape [0, 1, 2, 3]) fun r => okB (r.2.engWrite 0 (g 0) false 0x800 16 (List.replicate 16 0)) fun _ => true) = true
      ∧ runB (g 1) 2 1 (fun s => s.windowHeld (g 1) && decide ((g 1).mark < shape.count) && (tensorElem shape 0 0).2.2 && okB (s.engRead 0 (g 1) false 0x800 4) fun r =>
          okB (r.2.engWrite 0 (g 1) false 0x900 4 [0, 0, 0, 0]) fun _ => true) = true
      ∧ (denseFmt 1).getD .t6 = .f32 ∧ (tensorElem { shape with ext := [5, 1, 1, 1, 1], dim := [4, 1, 1, 1, 1] } 0 4).2.2 = false
      ∧ (jobs { f with fin := true }).jobPosted f = false ∧ ((jobs { f with fin := true, ending := some (6, 0) }).clu 0).job 4 = some { f with fin := true, ending := some (6, 0) }
      ∧ okB ((jobs { f with fin := true, ending := some (6, 0) }).publish 0 .clu []) (fun u => (u.clu 0).jobs == [{ f with fin := true, ending := some (6, 0) }]) = true
      ∧ ((jobs { f with fin := true }).clu 0).job 4 = some { f with fin := true } ∧ okB ((jobs { f with fin := true }).publish 0 .clu []) (fun u => (u.clu 0).jobs == [{ f with fin := true }]) = true
      ∧ ((jobs (job 3 0 1 0 0 0)).clu 0).jobs = [job 3 0 1 0 0 0] ∧ ((jobs (job 3 0 1 0 0 0)).die (dieOf 0)).replay = [] := by decide +kernel
/-- A copy onto itself, a scatter of T6, and a job that may resume. -/
theorem witness_EngineJobs_more :
    let o : Job := { job 1 0 2 0x600 0x604 8 with saved := [] }
    let t6 : Shape := { base := 0x900, dim := [4, 1, 1, 1, 1], stride := [1, 0, 0, 0, 0], ext := [4, 1, 1, 1, 1], fmt := 6 }
    let g : Job := { job 2 1 2 0xA00 0x800 0 with shape := some t6 }
    let ns := ((List.range (g.group t6)).map (g.mark + ·)).filter (· < t6.count)
    runB o 1 0 (fun s => o.selfOverlap && okB (s.engRead 0 o false o.w1 o.total) fun r => r.1.length == 8) = true
      ∧ runB { o with saved := [1, 2, 3, 4, 5, 6, 7, 8] } 1 0 (fun s => okB (s.engWrite 0 o false 0x604 8 [1, 2, 3, 4, 5, 6, 7, 8]) fun _ => true) = true
      ∧ runB g 2 1 (fun s => s.windowHeld g && decide ((denseFmt g.cmd).getD .f32 = .f32) && okB (s.engRead 0 g false 0x800 (spanBytes .f32 ns.length)) fun r =>
          okB (r.2.scatterAll 0 t6 g (g.scatterWrites t6 (ns.zipIdx.map fun p => (p.1, convert t6.format .f32 0 (elemAt .f32 r.1 p.2))))) fun x => x.1.flags == g.flags) = true
      ∧ ((jobs { job 1 0 3 0 0 0 with resume := true }).clu 0).jobs.find? (fun j => j.resume && (j.state == 3 || j.state == 4)) = some { job 1 0 3 0 0 0 with resume := true }
      ∧ bitsOf (job 1 0 1 0 0 0).w3 47 0 = 0 ∧ bitsOf (job 1 0 1 0 0 8).w3 47 0 ≠ 0 ∧ (job 1 0 1 0 0 0).spilled = false ∧ ((jobs (job 1 0 1 0 0 0)).core 0).chans.length < 4
      ∧ (((jobs (job 1 0 1 0 0 0)).clu 0).jobs.filter (·.state == 2)).length < 4 ∧ (eligibleJobs [] ((jobs (job 1 0 1 0 0 0)).clu 0).jobs) = [job 1 0 1 0 0 0] := by decide +kernel
/-- A ring descriptor: data at 0x800, records of 16 bytes, 2 slots, cluster scope; the counts are res, pubf, tail and donef. -/
def ring (res pubf tl donef own : Nat) : State :=
  (poke (regs 0 0 0 0xA00 0xA08 0) [(0xA00, 8, 0x800), (0xA08, 4, 16), (0xA0C, 2, 0x0101), (0xA10, 4, res), (0xA14, 4, pubf), (0xA18, 4, tl), (0xA1C, 4, donef), (0xA30, 4, own)]).mapCore 0
    fun k => { k with role := 1 }
theorem witness_PostAndCollectives :
    let c : Coll := { group := 0, seq := 1, count := 1, nranks := 2, rank := 0, root := 0, fmt := 8, op := 0, peers := 0 }
    let p (r : Nat) : Peer := { rank := r, cmd := 0, group := 0, seq := 1, count := 1, nranks := 2, root := r, fmt := 8, op := 0, data := [7, 8], gone := false }
    let j (cmd : Nat) (c : Coll) : Job := { job 4 cmd 2 0x600 0x800 0 with begun := true, coll := some c }
    let io (cmd : Nat) (c : Coll) : Bool := runB (j cmd c) 4 cmd fun s => okB (s.engRead 0 (j cmd c) false 0x600 1) fun r => okB (r.2.engWrite 0 (j cmd c) false 0x800 0 r.1) fun _ => true
    let w (cmd : Nat) (c : Coll) : Bool := runB (j cmd c) 4 cmd fun s => okB (s.engWrite 0 (j cmd c) false 0x800 0 [9]) fun _ => true
    fmtBytes ((fmtNum 8).getD .f32) = 1 ∧ io 0 c = true ∧ io 1 c = true ∧ io 2 c = true ∧ io 3 c = true ∧ w 1 { c with rank := 1 } = true ∧ w 3 { c with root := 1 } = true
      ∧ 0 / c.count = c.rank ∧ 0 / c.count ≠ 1 ∧ peersFull c [p 1] = true ∧ (p 1).gone = false ∧ { p 1 with gone := true }.gone = true ∧ (p 0).root = c.root ∧ (p 1).root ≠ c.root
      ∧ (let r := ring 0 0 0 0 1
         let j := job 3 0 2 0xA00 1 2
         okB (r.readNum (j.req 0 12) .clu 0xA00 64) (fun d => Machine.fld d.1 48 4 == 1) && okB (r.ringAt (j.req 0 12) 0xA00 (fun x => (ringRes x).map (·.2))) (fun o =>
           ringRes o.1 == some (0, setFld o.1 16 4 1) && !ringBad o.1 && okB (o.2.engWriteVa (j.req 0 12) false 3 0x800 (bytesOf 8 1 ++ bytesOf 8 2)) fun w2 =>
             okB (w2.publish 0 .clu [(0, 0x20)]) fun w3 => okB (w3.ringAt (j.req 0 12) 0xA00 (fun x => ringPub x 0 0)) fun q => (ringPub q.1 0 0).isSome)) = true := by decide +kernel
theorem witness_RingInstructions :
    let lift (g : Nat → Option (Nat × Nat)) : Nat → Option Nat := fun r => (g r).map (·.2)
    let at_ (s : State) (f : Nat → Option Nat) (p : Nat → Bool) : Bool := okB (s.ringAt (s.req 12) 0xA00 f) fun r => !ringBad r.1 && p r.1
    let tm : RingTimer := { asid := 0, desc := 0xA00, pubf := 0, start := 0, owner := 1, raised := none, limit := 0x100000 }
    let h := { ring 2 0 0 0 1 with rings := [tm], time := 0x100000 }
    let word (s : State) : Nat := s.mem.read 0x30A00 64
    let dist (x y : Nat) := (x + 2 ^ 32 - y) % 2 ^ 32
    let w3 := word (ring 3 1 1 1 1)
    let full := word (ring 3 1 1 1 1)
    let s := ring 2 0 0 0 0
    dist (Machine.fld w3 16 4) (Machine.fld w3 28 4) = 2 ∧ 2 ^ Machine.fld full 12 1 ≤ 2 ∧ dist (Machine.fld (word (ring 2 1 1 1 1)) 16 4) (Machine.fld (word (ring 2 1 1 1 1)) 28 4) < 2 ^ Machine.fld (word (ring 2 1 1 1 1)) 12 1
      ∧ dist 2 (Machine.fld w3 20 4) < dist (Machine.fld w3 16 4) (Machine.fld w3 20 4) ∧ (Machine.fld w3 32 8).testBit 1 = false ∧ ¬(dist 3 (Machine.fld w3 20 4) < dist (Machine.fld w3 16 4) (Machine.fld w3 20 4))
      ∧ dist 1 (Machine.fld (word (ring 3 2 2 1 1)) 28 4) < dist (Machine.fld (word (ring 3 2 2 1 1)) 24 4) (Machine.fld (word (ring 3 2 2 1 1)) 28 4) ∧ (Machine.fld (word (ring 3 2 2 1 1)) 40 8).testBit 0 = false
      ∧ (s.c.getA 2).toNat % 64 = 0 ∧ (s.c.getA 3).toNat % 64 ≠ 0 ∧ at_ (ring 1 0 0 0 0) (lift ringRes) (fun r => decide (Machine.fld r 16 4 = 1)) = true
      ∧ at_ s (lift ringRes) (fun r => decide (Machine.fld r 16 4 = 2)) = true
      ∧ at_ (ring 2 1 0 0 0) (lift ringTake) (fun r => decide (Machine.fld r 24 4 ≠ Machine.fld r 20 4)) = true ∧ at_ (ring 2 1 1 0 0) (lift ringTake) (fun r => decide (Machine.fld r 24 4 = Machine.fld r 20 4)) = true
      ∧ at_ (ring 2 2 1 0 0) (fun r => ringDone r 0) (fun r => (ringDone r 0).isSome) = true ∧ at_ (ring 2 2 1 0 0) (fun r => ringDone r 1) (fun r => (ringDone r 1).isNone) = true
      ∧ s.c.unreleased 9 = false ∧ okB (s.releaseOf 0 .clu) (fun v => at_ v (fun r => ringPub r 1 0) (fun r => (ringPub r 1 0).isSome) && at_ v (fun r => ringPub r 2 0) fun r => (ringPub r 2 0).isNone) = true
      ∧ h.rings[0]? = some tm ∧ (h.ctx (ownerFrame 1)).live = true ∧ tm.limit.toNat ≤ (h.time - tm.start).toNat ∧ tm.limit ≠ 0 := by decide +kernel
theorem witness_Consolidation : (consolidate [{ key := 1, time := 2, mult := 1, value := 0 }, { key := 1, time := 2, mult := -1, value := 0 }, { key := 1, time := 0, mult := 5, value := 0 }]
    = some [{ key := 1, time := 0, mult := 5, value := 0 }]) ∧ consolidate [{ key := 1, time := 2, mult := 2147483647, value := 0 }, { key := 1, time := 2, mult := 1, value := 0 }] = none := by decide +kernel

/-- A delta queue at 0xC00 that the device serves: one free slot, records of times 3 and 5, an arrangement at arr. -/
def dq (entry : Word) (arr : Nat) (raw : List DRec) : DQ :=
  { asid := 0, desc := 0xC00, die := 0, entry := entry, arr := arr, buf := 0x2000, bufcap := 64, thresh := 2, ovf := 0, ovflen := 0, maxinv := 2, prio := 1, nslots := 2, lsblk := 1,
    front := [3, 4, 0, 0, 0, 0, 0, 0], link := [0, 0x5000, 0, 0, 0, 0, 0, 0], raw := raw, cons := [{ key := 1, time := 3, mult := 1, value := 0 }, { key := 1, time := 5, mult := 1, value := 0 }],
    counted := [] }
/-- The queue with a record at 0xD00 and an arrangement of 2 entries at 0xE00, the first of them used. -/
def dqs (q : DQ) (x2 x3 : Word) (time : Nat) (a3 : Word := 0xD00) : State :=
  { poke (regs x2 x3 0 0xC00 a3 0) [(0xD00, 8, 1), (0xD08, 4, time), (0xD0C, 4, 1), (0xE00, 8, 0xF00), (0xE08, 1, 1), (0xE0C, 4, 1), (0xF00, 8, 1), (0xF08, 4, 4), (0xF0C, 4, 2)] with dqs := [q] }
theorem witness_DeltaQueueInstructions_push :
    let q := dq 0 0 []
    let s := dqs q 0 6 4
    let rec_ (t : Nat) : DRec := { key := 1, time := t, mult := 1, value := 0 }
    (s.c.getA 2).toNat % 64 = 0 ∧ s.dqFind s.c.asid 0xC00 = some 0 ∧ s.dqs[0]? = some q ∧ (s.c.getA 3).toNat % 64 = 0
      ∧ okB (s.readMemNum s.self s.c.asid .clu 0xD00 64) (fun r => drecOf r.1 == rec_ 4 && decide (r.2.c = s.c ∧ r.2.self = s.self) && r.2.slotFront q 0 == some 3) = true
      ∧ okB ((dqs q 0 0 2).readMemNum 0 0 .clu 0xD00 64) (fun r => drecOf r.1 == rec_ 2) = true ∧ (s.c.getX 2).toNat < q.nslots ∧ q.nslots ≤ ((dqs q 2 0 4).c.getX 2).toNat
      ∧ q.records.length < q.bufcap ∧ (s.c.inv, s.c.kind) = (none, .control) ∧ (dq 8 0 []).entry ≠ 0 ∧ s.c.invTime 0 = none ∧ q.link.getD 0 0 = 0 ∧ q.link.getD 1 0 ≠ 0
      ∧ okB (s.writeNum (s.dqReq q 12) .die (0xC00 + 64) 4 6) (fun _ => true) = true ∧ s.fout 0 17 0xC00 = some 0
      ∧ { dqs (dq 0 0 []) 0 0 0 with dqs := [{ q with link := [0xC00, 0, 0, 0, 0, 0, 0, 0] }] }.fout 0 17 0xC00 = none
      ∧ (withC s fun c => { c with kind := .invocation, inv := some (0, 7) }).c.invTime 0 = some 7 := by decide +kernel
theorem witness_DeltaQueueInstructions_arrangement :
    let q := dq 0 0xE00 []
    let s (time : Nat) (a3 : Word) := dqs q 0 0 time a3
    let scan (time : Nat) (p : Option (Nat × DRec) × Option Nat → State → Bool) : Bool := okB ((s time 0xD00).arrHead q) fun h =>
      h.1 == (0xF00, 1, 1) && okB (State.arrFold (h.2.dqReq q 8) 0xF00 (arrMatch { key := 1, time := time, mult := 1, value := 0 }) 2 0 (none, none) h.2) fun r => p r.1 r.2
    let e : DRec := { key := 1, time := 4, mult := 2, value := 0 }
    let p := (s 4 0x8000000000000040).c.getA 3
    scan 4 (fun r t => r.1 == some (0, e) && okB (t.arrWrite q 0xF00 0 { e with mult := 3 } none) fun _ => true) = true
      ∧ scan 5 (fun r t => r.1.isNone && r.2 == some 1 && okB (t.arrWrite q 0xF00 1 { e with time := 5, mult := 1 } (some 2)) fun _ => true) = true
      ∧ si32 (2 + 1) = true ∧ si32 (2147483647 + 1) = false ∧ q.arr ≠ 0 ∧ (dq 0 0 []).arr = 0
      ∧ 2 ^ 63 ≤ p.toNat ∧ p.toNat % 64 = 0 ∧ p.toNat % 2 ^ 63 < 2 ^ 18 ∧ p.toNat % 2 ^ 63 + 4096 ≤ (s 4 0).c.window
      ∧ okB ((s 4 0).arrHead q) (fun h => okB (State.arrFold (h.2.dqReq q 8) 0xF00 (arrGather 1 9) 2 0 [] h.2) fun r => r.1.length == 1) = true := by decide +kernel
theorem witness_DeltaQueueInstructions_spill :
    let q := { dq 0 0 [] with bufcap := 2, ovf := 0x3000, ovflen := 64 }
    let s := dqs q 0 6 4
    let deep := { dqs (dq 0 0 []) 0 0 0 with dqs := [{ dq 0 0 [] with link := [0xC00, 0, 0, 0, 0, 0, 0, 0] }] }
    q.bufcap ≤ q.records.length ∧ 64 * (q.over + 1) ≤ q.ovflen ∧ { q with ovflen := 63 }.ovflen < 64 * ({ q with ovflen := 63 }.over + 1)
      ∧ okB (s.writeNum (s.dqReq q 12) .die q.ovf 64 1) (fun _ => true) = true ∧ s.deepAt 0 = false ∧ deep.deepAt 0 = true := by decide +kernel
theorem witness_DeltaQueueInstructions_bind :
    let s := poke (regs 0x2000 0 0 0xC00 0 0) [(0xC10, 8, 0x2000), (0xC18, 4, 64), (0xC1C, 4, 1), (0xC30, 4, 0x00020101)]
    let q := dq 8 0 []
    let t := { s with dqs := [q] }
    okB (s.readNum (s.req 8) .die 0xC00 160) (fun r => !dqBad r.1 && okB (r.2.writeNum (r.2.req 12) .die 0xC00 16 0x2000) fun _ => true) = true
      ∧ okB ((poke s [(0xC30, 1, 0)]).readNum (s.req 8) .die 0xC00 160) (fun r => dqBad r.1) = true ∧ s.dqs = []
      ∧ ({ q with counted := [3] } : DQ).counted ≠ [] ∧ t.dqs[0]? = some q ∧ q.entry ≠ 0 ∧ q.counted.length < q.maxinv ∧ (t.die 0).held false false < 512 ∧ (t.die 0).readyOvf.2 < 64 ∧ 3 ∈ q.cons.map (·.time) ∧ 3 ∉ q.counted
      ∧ (∀ r ∈ q.cons, r.time ∉ q.counted → 3 ≤ r.time) := by decide +kernel
theorem witness_Barriers :
    let s := pair 0 []
    let b := s.barOf .clu (s.barKey 0 .clu)
    let o := (s.putBar { b with parts := [0, 11], arrived := [11], gen := 5 })
    let x := (s.putBar { b with parts := [0, 11], arrived := [0], gen := 5 })
    b.arrived = [] ∧ (s.barParts 0 .clu) = [0, 11] ∧ 0 ∉ (o.barOf .clu (s.barKey 0 .clu)).arrived ∧ 0 ∈ (o.barOf .clu (s.barKey 0 .clu)).parts
      ∧ 0 ∈ (x.barOf .clu (s.barKey 0 .clu)).arrived ∧ s.c.unreleased s.nextId = false ∧ okB (s.releaseOf 0 .clu) (fun u => u.barParts u.self .clu == [0, 11] && u.self == 0) = true
      ∧ okB (s.acquire 0 .clu) (fun _ => true) = true ∧ (5 + 2 ^ 32 - 4) % 2 ^ 32 = 1 ∧ ((regs (2 ^ 32 + 4) 0 0 0 0 0).c.getX 2).toNat % 2 ^ 32 = 4 ∧ (∀ f ∈ [0, 11], f = 0 ∨ f ∈ [11]) ∧ s.c.wait = none
      ∧ (match s.arrive .clu with | some r => okB r fun v => v.1 == 0 && (v.2.barOf .clu (v.2.barKey 0 .clu)).gen == 0 | none => false) = true
      ∧ (match o.arrive .clu with | some r => okB r fun v => v.1 == 5 && (v.2.barOf .clu (v.2.barKey 0 .clu)).gen == 6 && okB (v.2.acquire 0 .clu) fun _ => true | none => false) = true := by decide +kernel
theorem witness_RecordingInstructions :
    let s (x2 : Word) := poke (regs x2 0 0 0x100 0 0) [(0x100, 8, 0x800), (0x108, 8, 64), (0x110, 4, 1), (0x114, 4, 1)]
    let g : RegionSt := { RegionSt.reset with base := 0x800, len := 64, thrmiss := 1, threvict := 1, state := 2, members := [0] }
    let t := (withC (s 3) fun c => { c with region := some 3 }).setRegion 0 3 g
    64 ≤ ((s 64).c.getX 2).toNat ∧ ((s 3).c.getX 2).toNat < 64 ∧ (s 3).c.st.recording = false ∧ (s 3).c.st.rpl = false ∧ ((s 3).c.getA 2).toNat % 64 = 0
      ∧ okB ((s 3).readNum ((s 3).req 8) .clu 0x100 64) (fun r => !regionBad r.1 && ((r.2.die 0).region 3).state == 0) = true
      ∧ okB (t.readNum (t.req 8) .clu 0x100 64) (fun r => let g := (r.2.die 0).region 3; g.state != 0 && g.asid == r.2.c.asid && g.holds r.1) = true
      ∧ okB ((poke (s 3) [(0x108, 8, 63)]).readNum ((s 3).req 8) .clu 0x100 64) (fun r => regionBad r.1) = true ∧ ((t.die 0).region 3).asid = t.c.asid ∧ ((t.die 0).region 3).rr = false
      ∧ ((t.die 0).region 3).state ≠ 0 ∧ ((t.die 0).region 3).state ≠ 1 ∧ t.c.region = some 3 ∧ (s 3).c.region ≠ some 3 ∧ ((s 3).die 0).region 3 = RegionSt.reset
      ∧ ((s 0x13F).c.getX 2).toNat < 512 ∧ ((s 0x13F).c.getX 2).toNat / 64 % 4 = 0 ∧ ((s 0x13F).c.getX 2).getLsbD 8 = true ∧ ((s 0x40).c.getX 2).toNat / 64 % 4 ≠ 0 := by decide +kernel
theorem witness_ReplayInstructions :
    let a := { access (.ld 8 false (.x 1)) 0x100 with held := true }
    let e : Replay := { slice := 2, entry := 1, frame := 0, owner := 0, unit_ := none, asid := 0, page := 0, va := 0x100, kind := 0, code := 0, aids := [7], pc := 0, wr := false, count := 0, gen := 3,
                        replaying := false, escalated := false, notice := none, mark := none }
    let s (e : Replay) := (withC (regs 0 0x03010800 0 0 0 0) fun c => { c with acc := [a] }).mapDie 0 fun d => { d with replay := [e] }
    let find (s : State) := (s.die 0).replay.find? fun e => e.is 2 1
    let r := s { e with replaying := true }
    ((s e).c.getX 3).toNat < 2 ^ 32 ∧ ((s e).c.getX 3).toNat % 16 = 0 ∧ ((s e).c.getX 3).toNat / 2 ^ 10 % 64 = 2 ∧ ((s e).c.getX 3).toNat / 2 ^ 16 % 256 = 1 ∧ ((s e).c.getX 3).toNat / 2 ^ 8 % 4 = 0
      ∧ e.gen.toNat = ((s e).c.getX 3).toNat / 2 ^ 24 % 256 ∧ find (s e) = some e ∧ e.asid = (s e).c.asid ∧ find base = none ∧ find r = some { e with replaying := true }
      ∧ base.c.unreleased base.nextId = false ∧ okB (base.releaseOf 0 .dev) (fun _ => true) = true ∧ (withC base fun c => { c with acc := [access (.st 8 1) 0] }).c.unreleased 8 = true
      ∧ e.escalated = false ∧ ({ e with aids := [], notice := some 1 } : Replay).aids = [] ∧ (r.ctx 0).accAll.find? (·.aid == 7) = some a
      ∧ (r.ctx 0).parkOf 7 = none ∧ okB ((r.uncached 0 0 0).performE 0 a) (fun _ => true) = true ∧ find (s { e with notice := some 1 }) = some { e with notice := some 1 } := by decide +kernel
theorem witness_BackgroundAgents :
    let p : Push := { clu := 1, asid := 0, line := 4, pa := 0x30100, data := 5, perms := 8, region := 0 }
    let l : L2Line := { die := 0, asid := 0, line := 4, pa := 0x30100, cb := 0, data := 5, mask := 0, ver := 0, ret := none, pin := [], img := false, poison := false, perms := 8, way := 0 }
    let s := { base.mapDie 0 (fun d => { d with pushes := [p] }) with l2 := [l] }
    let m : Move := { addr := 0x30400, copied := 0, pass := 0, frame := none, marked := [] }
    let mv (kind : Nat) := (poke base [(0x400, 8, 0x18000), (0x408, 8, 0x40000), (0x410, 1, kind)]).mapDie 0 fun d => { d with moves := [m] }
    let sane (s : State) (kind : Nat) : Bool := (s.die 0).moves == [m] && decide (Machine.fld (s.homeRead 0x30400 32) 16 1 = kind) && !moveBad (s.homeRead 0x30400 32) (s.homeRead 0x18000 8)
      && decide (s.homeRead 0x18000 8 % 2 ^ 48 = 0x30000) && [0x30400, 0x18000, 0x30000, 0x40000].all fun a => (s.tableFault a).isNone
    let shut := let s := (poke base [(0x400, 8, 0x18000), (0x408, 8, 0x10000000000), (0x410, 1, 1)]).mapDie 0 fun d => { d with moves := [m] }; { s with dev := { s.dev with refusedPorts := [0, 1, 2, 3] } }
    let logged (hd tl en : Nat) : State :=
      { base with mem := ((((((base.mem.write 8 8 0x50000).write 0x10 4 16).write 0x14 4 hd).write 0x18 4 tl).write 0x18008 8 0xC400000000040000).write 0x40000 8 en) }
    s.pushAt 0 = some (0, p) ∧ s.l1Find 1 0 4 = none ∧ s.l2Find 0 0 4 = some l ∧ s.l2Stale l = false ∧ sane (mv 0) 0 = true ∧ sane (mv 1) 1 = true ∧ m.copied < 1024
      ∧ ((mv 0).recallFrame 3).framePoisoned 3 = false ∧ ({ mv 0 with poison := [0xC00] }.recallFrame 3).framePoisoned 3 = true ∧ 4 ≤ ({ m with copied := 1024, pass := 4 } : Move).pass ∧ 64 < ({ m with marked := List.range 65 } : Move).marked.length
      ∧ (((s.setDie 0 { s.die 0 with pushes := [] }).roomL1 1 4).l2Find 0 0 4).isSome = true ∧ ({ s with l2 := [] } : State).pushAt 0 = some (0, p) ∧ l.img = false
      ∧ (shut.tableFault 0x30400).isNone = true ∧ (shut.tableFault 0x18000).isNone = true ∧ moveBad (shut.homeRead 0x30400 32) (shut.homeRead 0x18000 8) = false
      ∧ Machine.fld (shut.homeRead 0x30400 32) 8 8 = 0x10000000000 ∧ (shut.tableFault 0x10000000000).isSome = true ∧ Machine.fld (shut.homeRead 0x30400 32) 16 1 = 1
      ∧ (logged 1 0 0x8000000000000500).tailBlock 0 = some 0x40000 ∧ ((logged 1 0 0x8000000000000500).mapEntry 0x40000).nsec ≤ ((logged 1 0 0x8000000000000500).log 0).free
      ∧ (let t := logged 1 0 0x8000000000000500
         ((t.log 0).sectors (t.mapEntry 0x40000).sector (t.mapEntry 0x40000).nsec ++ (t.log 0).sectors ((t.log 0).base + 256 * (t.log 0).head) (t.mapEntry 0x40000).nsec).all fun a => (t.tableFault a).isNone) = true
      ∧ ((logged 1 0 0).mapsOf 0).isSome = true ∧ (logged 1 0 0).tailBlock 0 = none ∧ ((logged 1 0 0).log 0).len ≠ 0 ∧ ((logged 1 0 0).log 0).head ≠ ((logged 1 0 0).log 0).tail := by decide +kernel
/-- Cores 0 and 1 of a team; each waits in GFUSE of 2 where the argument says. -/
noncomputable def fuse (w0 w1 : Bool) : State :=
  let wt (b : Bool) : Option Wait := if b then some (waiting (.gfuse 1 2)) else none
  let s := pair 0 []
  (withC s fun c => { c.setX 2 2 with wait := wt w0 }).mapCtx 11 fun c => { c.setX 2 2 with wait := wt w1 }
theorem witness_ContextsAndGangs :
    let s := withC (regs 1 0 0 0 0x40 0) fun c => { c with team := some 1 }
    let h (live : Bool) := s.mapCtx 2 fun c => { c with kind := .helper, team := some 1, ids := { c.ids with ctx := 1 }, live := live }
    let x := { (h true).select 2 with agenda := [] }
    (s.c.kind = .control) ∧ s.helperFrame 1 = none ∧ (h false).helperFrame 1 = some 2 ∧ ((h false).ctx 2).live = false ∧ ((h true).ctx 2).live = true ∧ 2 ≠ s.self ∧ (s.c.getX 2).toNat ≠ 0
      ∧ (∀ i : Slot, x.c.sb[i] = if x.c.latch = some i then 1 else 0) ∧ x.c.kind = .helper ∧ x.c.st.gang = 0 ∧ x.c.region = none ∧ x.c.bound = []
      ∧ s.c.works = [] ∧ s.c.bound = [] ∧ s.c.region = none ∧ (∀ g ∈ s.helpersOn s.myCore s.c.team, (s.ctx g).live = false) ∧ (∀ i : Slot, s.c.sb[i] = if s.c.latch = some i then 1 else 0)
      ∧ 2 ∈ (h true).helpersOn 0 (some 1) ∧ (base.groupCtxs 0 2 none) = [some 0, none]
      ∧ (fuse true true).gangReady 0 2 (some 1) = some [0, 11] ∧ (fuse true true).controlOn 0 (some 1) = some (fuse true true).self ∧ ((fuse true true).fusing 0).any (·.2 == 2) = true
      ∧ (∀ g ∈ framesOf 0, g ≠ 0 → (fuse true true).fusing g = none) ∧ [0, 11].Nodup := by decide +kernel
theorem witness_ContextsAndGangs_gfuse :
    let s (b : Bool) := (fuse false b).mapC fun c => { c with cur := some (.gfuse 1 2) }
    let g := (pair 0 []).mapC fun c => { c with st := { c.st with gang := 1, lead := true } }
    (s true).c.kind = .control ∧ ((s true).c.getX 2).toNat = 2 ∧ (s true).c.st.gang = 0 ∧ none ∉ (s true).groupCtxs 0 2 (some 1) ∧ (s true).fusing 11 = some (1, 2) ∧ (s true).c.wait = none
      ∧ ((s true).stall true).gangReady 0 2 (some 1) = some [0, 11] ∧ ((s false).stall true).gangReady 0 2 (some 1) = none
      ∧ (∀ k ∈ coresOf (s true).myClu, ∀ g ∈ (s true).controlOn k (some 1), g ≠ 0 → ∀ q ∈ (s true).fuses g, q.2 = 2)
      ∧ { waiting (.gfuse 1 2) with arg := 5 }.arg % 2 = 1 ∧ (s true).c.fuseSize { waiting (.gfuse 1 2) with arg := 5 } 2 = 2 ∧ g.c.st.gang ≠ 0 ∧ (g.gangOf g.self).Nodup ∧ g.self ∈ g.gangOf g.self := by decide +kernel

/-- A task block at 0x100 in a state, one at 0x140 that has ended, and a table of 2 futures at 0x200 whose entry 1 is in a state; a launch card at 0x400. -/
def tasks (st fut free : Nat) : State :=
  poke (regs 1 0 0 0x100 0x200 0) [(0x110, 4, 1), (0x114, 1, st), (0x117, 1, 1), (0x154, 1, 4), (0x200, 8, 0x300), (0x208, 1, 1), (0x214, 4, free), (0x328, 1, fut),
    (0x410, 4, 0x00010000), (0x414, 4, 1), (0x418, 8, 0x0000000100000001), (0x420, 8, 0x0000000100000001), (0x428, 8, 0x0001000100010001)]
def roomB (s : State) : Bool := allDies.all fun die => decide ((s.die die).held false false ≤ 512)
theorem witness_LaunchesTasksFutures_tasks :
    let s := tasks 1 0 0
    let req := s.req 12
    let tcb (st : Nat) (p : Nat → State → Bool) : Bool := okB (tGet req 0x100 64 (tasks st 0 0)) fun r => p r.1 r.2
    (s.c.getA 2).toNat % 64 = 0 ∧ (s.c.getA 2).toNat < 2 ^ 46 ∧ ((withC s fun c => c.setA 2 0x104).c.getA 2).toNat % 64 ≠ 0
      ∧ tcb 0 (fun r s => !tcbBad r && decide (Machine.fld r 20 1 = 0) && okB (tPut req 0x100 64 (setFld r 20 1 1) s) fun v => roomB v.2) = true
      ∧ tcb 1 (fun r s => decide (Machine.fld r 20 1 = 1 ∧ Machine.fld r 23 1 % 2 = 1) && okB (tPut req 0x117 1 0 s) fun v => okB (tDec req 0x100 v.2) fun w => roomB w.2) = true
      ∧ tcb 3 (fun r s => decide (Machine.fld r 20 1 = 3) && !s.c.unreleased s.nextId && okB (s.releaseOf s.self .dev) fun v =>
          okB (tDone req 0x100 0x200 1 v) fun w => (match w.1 with | .ok _ => true | .fail _ => false) && roomB w.2) = true
      ∧ tcb 1 (fun _ s => okB (tGet req 0x140 64 s) fun e => decide (Machine.fld e.1 20 1 = 4) && roomB e.2) = true
      ∧ tcb 1 (fun _ s => okB (tGet req 0x180 64 s) fun e => decide (Machine.fld e.1 20 1 ≠ 4 ∧ Machine.fld e.1 22 1 < 6) && okB (tPut req 0x19C 5 4 e.2) fun w1 =>
          okB (tPut req 0x196 1 1 w1.2) fun w2 => okB (tPut req 0x110 4 2 w2.2) fun w => roomB w.2) = true
      ∧ okB (s.readNum (s.req 8) .clu 0x400 64) (fun r => !cardBad r.1 && decide (Machine.fld r.1 16 1 = 0) && ((launchOfCard r.2.nextId r.2.myDie r.2.c.asid r.1 0).refusal (Machine.fld r.1 22 1)).isNone
          && (r.2.die 0).queue.isEmpty) = true
      ∧ okB (s.readNum (s.req 8) .clu 0x440 64) (fun r => cardBad r.1) = true
      ∧ (let card := 0x480 + 2 ^ 128 + 2 ^ 160 -- of a deal launch whose job card at 0x480 is bad
         decide (0 < card ∧ card < 2 ^ 512 ∧ Machine.fld card 16 1 = 1) && !cardBad card && ((launchOfCard s.nextId s.myDie s.c.asid card 0).refusal (Machine.fld card 22 1)).isNone
           && (waitingFor (.launch 1 2) 0 card).arg == card && okB (s.readNum (s.req 8) .clu (Machine.fld card 0 8) 32) fun j => jobCardBad j.1) = true := by decide +kernel
/-- A launch and its team on cluster 0. -/
def lnch (deal migrate : Bool) : Launch :=
  { id := 9, die := 0, asid := 0, entry := 0, arg := 0, deal := deal, prio := 0, cpt := 1, helpers := 0, teams := 3, migrate := migrate, migratePod := false, cosched := false, lsb := 16,
    ext := [1, 1, 1, 1], tile := [1, 1, 1, 1], placed := 1, next := 0, remaining := 5, minchunk := 1 }
def team : Team := { id := 1, launch := 9, j := 0, clus := [0], block := 0, helpers := 0, frames := [0], ended := [] }
theorem witness_LaunchesTasksFutures_futures :
    let s (st : Nat) := tasks 1 st 0
    let req := (s 0).req 12
    let ent (st : Nat) (p : Nat → Nat → Nat → State → Bool) : Bool := okB (futEntry req 0x200 1 (s st)) fun r => match r.1 with | .ok x => p x.1 x.2.1 x.2.2 r.2 | .error _ => false
    let okN (r : TOut) : Bool := match r with | .ok _ => true | .fail _ => false
    let d := { withC (s 0) (fun c => { c with team := some 1 }) with teams := [team], launches := [lnch true false] }
    (d.launchOf d.c.team).bind (fun id => d.launches.find? fun l => l.id == id && l.deal) = some (lnch true false) ∧ ((s 0).launchOf (s 0).c.team).isNone = true
      ∧ okB (tGet req 0x200 64 (s 0)) (fun r => !futBad 0x200 r.1 && decide (Machine.fld r.1 20 4 = 0 ∧ Machine.fld r.1 16 4 = 0 ∧ 1 < 2 ^ Machine.fld r.1 8 1) && okB (tPut req 0x210 4 2 r.2) fun v =>
          okB (tGet req 0x320 32 v.2) fun e => okB (tPut req 0x328 1 1 e.2) fun w => roomB w.2) = true
      ∧ ent 3 (fun _ e _ u => decide (Machine.fld e 8 1 = 3) && okB (u.acquire u.myClu .dev) fun _ => true) = true
      ∧ ent 1 (fun q e _ u => decide (Machine.fld e 8 1 = 1) && okB (u.paOf req q) fun _ => true) = true ∧ ent 4 (fun _ e _ _ => decide (Machine.fld e 8 1 = 4)) = true
      ∧ ent 0 (fun _ e _ _ => decide (Machine.fld e 8 1 = 0)) = true
      ∧ ent 1 (fun q e _ u => okB (futSet req q e (some 7) u) (fun m => okN m.1) && okB ((s 1).releaseOf 0 .dev) fun w => okB (futEntry req 0x200 1 w) fun r => match r.1 with
          | .ok x => okB (futSet req x.1 x.2.1 (some 7) r.2) fun m => okN m.1 && roomB m.2
          | .error _ => false) = true
      ∧ ent 4 (fun q _ h u => okB (tPut req (q + 8) 2 256 u) fun v => okB (tPut req (q + 12) 4 (Machine.fld h 20 4) v.2) fun w => okB (tPut req 0x214 4 1 w.2) fun t => roomB t.2) = true
      ∧ (s 0).c.unreleased (s 0).nextId = false ∧ (0x200000001 : Word).toNat / 2 ^ 32 % 4 = 2 ∧ (0x200000001 : Word).toNat < 2 ^ 34 ∧ (0x300000001 : Word).toNat / 2 ^ 32 % 4 = 3 := by decide +kernel
theorem witness_ParkingAndDispatch :
    let s := withC (regs 0 5 0 0 0 0) fun c => { c with wait := some (waiting (.park 1 3)), parked := true }
    let e : DQEnt := { e := .launch 9, prio := 0, enq := 0, head := some 0, passed := some 0, spilled := false }
    let q (l : Launch) (now : BitVec 64) := { base.mapDie 0 (fun d => { d with queue := [e], adverts := tset d.adverts 2 4 }) with launches := [l], teams := [team], time := now }
    let full := (q (lnch true false) 5).mapClu 0 fun k => k
    let big : DQEnt := { e with e := .launch 8, passed := none }
    let e1 : DQEnt := { e := .task 0x100 0 0 0 1, prio := 0, enq := 1, head := some 0, passed := none, spilled := false }
    let two := { base.mapDie 0 (fun d => { d with queue := [big, e1] }) with launches := [{ lnch true false with id := 8, cpt := 17 }], time := 5 }
    (s.ctx 0).live = true ∧ (s.core (coreOf 0)).frozen = false ∧ (s.ctx 0).wait = some (waiting (.park 1 3)) ∧ (s.ctx 0).parked = true ∧ (s.ctx 0).wake = false
      ∧ ((s.ctx 0).getX 3).toNat = 5 ∧ 5 ≤ (({ s with time := 5 } : State).time - 0).toNat ∧ 2 ^ 32 ≤ ((regs (2 ^ 32) 0 0 0 0 0).c.getX 2).toNat ∧ base.c.wake = false ∧ base.c.wait = none
      ∧ base.referred 0 = none ∧ base.referred 1 = some 0 ∧ ((pair 0 []).referred 0x8001) = some 11 ∧ ((pair 0 []).ctx 11).parked = false ∧ 11 ≠ (pair 0 []).self
      ∧ (base.die 0).overdue 0 = none ∧ ((q (lnch true false) 65536).die 0).overdue 65536 = some e ∧ ((q (lnch true false) 5).die 0).overdue 5 = none
      ∧ ((two.die 0).heads 5).order 5 = [big, e1] ∧ ((two.die 0).heads 5).overdue 5 = none ∧ two.placeEntry 0 big = none ∧ (two.placeEntry 0 e1).any (·.2) = true
      ∧ ({ (base.die 0) with adverts := [(5, 1)] } : DieSt).hasRoom 5 1 = true ∧ (base.die 0).hasRoom 5 1 = false
      ∧ ((full.die 0).heads 5).order 5 = [e] ∧ ((q { lnch true false with placed := 3 } 5).placeEntry 0 e).isSome = true ∧ ((q { lnch true false with cpt := 17 } 5).placeEntry 0 e).isNone = true
      ∧ (let t := q (lnch true true) 5
         (t.teams.find? (·.id == 2)).isNone && (t.launches.find? (·.id == 9)).any (fun l => l.migrate && !l.cosched && decide (l.placed + 1 < l.teams ∧ l.die = 0)) && t.overloaded 0
          && (match t.teamFit (lnch true true) 2 with
            | some (cs, b) => okB (((t.placeTeam (lnch true true) cs b).retireEmpty 9).acquireAll .dev cs) fun _ => true
            | none => false)) = true
      ∧ (let t := (q (lnch true true) 5).mapCtx 0 fun c => { c with team := some 1, parked := true }
         (t.teams.find? (·.id == 1) == some team) && t.overloaded 0 && t.suspended team && (match t.teamFit (lnch true true) 2 with
           | some (cs, _) => t.grantsFit (t.pack team (lnch true true)) cs
           | none => false)) = true := by decide +kernel

/-- A full queue that spills and one whose area is exhausted, a waiting LAUNCH, a released FTGET, and a WAKE of a parked context. -/
theorem witness_spills :
    let q (n : Nat) (kind : DEntry) : List DQEnt := List.replicate n { e := kind, prio := 0, enq := 0, head := none, passed := none, spilled := false }
    let s := (tasks 1 0 0).mapDie 0 fun d => { d with queue := q 64 (.launch 9), launchOvf := (0x3000, 64) }
    let r := base.mapDie 0 fun d => { d with queue := q 512 (.inv 0 3), readyOvf := (0x3000, 64) }
    let p := (withC (pair 0 []) fun c => c.setX 2 0x8001).mapCtx 11 fun c => { c.setX 3 5 with parked := true, wait := some (waiting (.park 1 3)) }
    64 ≤ (s.die 0).held true false ∧ 64 * ((s.die 0).held true true + 1) ≤ (s.die 0).launchOvf.2 ∧ ((s.mapDie 0 fun d => { d with launchOvf := (0, 63) }).die 0).launchOvf.2 < 64
      ∧ okB (({ s with fresh := s.fresh + 1 } : State).writeNum (s.req 12) .die 0x3000 64 (Config.spillEntry s.fresh).toNat) (fun _ => true) = true
      ∧ 512 ≤ (r.die 0).held false false ∧ 64 * ((r.die 0).held false true + 1) ≤ (r.die 0).readyOvf.2
      ∧ okB (({ r with fresh := r.fresh + 1 } : State).writeNum { clu := 0, asid := 0, who := none, need := 12 } .die 0x3000 64 (Config.spillEntry r.fresh).toNat) (fun _ => true) = true
      ∧ (waitingFor (.ftget 1 2 1) 0 (2 ^ 64 + 1)).arg = 2 ^ 64 + 1 ∧ (waitingFor (.ftget 1 2 1) 0 8).arg = 7 + 1 ∧ okB (base.acquire 0 .dev) (fun _ => true) = true
      ∧ p.referred (p.c.getX 2) = some 11 ∧ (p.ctx 11).live = true ∧ (p.core 1).frozen = false ∧ ((p.ctx 11).getX 3).toNat < 2 ^ 32 ∧ (p.ctx 11).parked = true := by decide +kernel
/-- Heap 3 with a header at 0x1000 and two classes; a term at 0x1900, a match record at 0x1A00 with one rule at 0x1B00, a binding at 0x1C00. Its
hash-cons table stands at 0x4000; the key of operator 5 begins its search at entry 29. -/
def heapState (g : Heap → Heap) : State :=
  let s := poke (regs 1 2 1 0x1000 0x1900 0) [(0x1000, 8, 0x1200), (0x1008, 8, 0x1400), (0x1010, 8, 0x4000), (0x4000 + 32 * 29, 4, 0x01000005), (0x4000 + 32 * 29 + 16, 4, 1), (0x1018, 8, 0x1800), (0x1028, 4, 16), (0x102C, 2, 0x0908), (0x1040, 4, 3), (0x1048, 8, 2),
    (0x1050, 8, 1), (0x1058, 8, 0x1D00), (0x1060, 4, 16), (0x1200 + 16, 4, 5), (0x1200 + 32, 4, 6), (0x1420, 4, 1), (0x1440, 4, 2), (0x1900, 4, 5), (0x1A00, 8, 0x1B00), (0x1A08, 4, 1), (0x1B00, 1, 1),
    (0x1B42, 1, 1), (0x1B44, 4, 0xC0000005), (0x1C04, 4, 1)]
  let h : Heap := { asid := 0, num := 3, header := 0x1000, hdr := s.mem.read 0x31000 64, die := 0, broken := false, spoiled := false,
                    msgs := [], extr := none, queue := [], poolNext := 1 }
  { withC s (fun c => { c with cr := { c.cr with egheap := 0x13 } }) with heaps := [g h] }
/-- The heap bound, with a test of it. -/
def boundB (s : State) (p : Heap → Bool) : Bool :=
  match s.boundHeap with
  | .ok (0, h) => !h.spoiled && p h
  | _ => false
theorem witness_HeapInstructions :
    let s := heapState id
    let unbound := withC s fun c => { c with cr := { c.cr with egheap := 0 } }
    let okE {α : Type} (r : Except Nat α × State) : Bool := match r.1 with | .ok _ => true | .error _ => false
    boundB s (fun h => okB (hInsert 0 h true 5 s) (fun r => match r.1 with | .found 1 => true | _ => false) && okB (hInsert 0 h true (5 + 2 ^ 16 + 9 * 2 ^ 32) s) (fun r => match r.1 with | .fail 2 => true | _ => false)
        && okB (hInsert 0 h true 7 s) (fun r => match r.1 with | .made 3 => !((r.2.anchorServe 0).heaps[0]?.any fun h => h.inserting 3) | _ => false)
        && okB (hInsert 0 h true (7 + 2 ^ 16 + 2 ^ 32) s) (fun r => match r.1 with | .made 3 => (r.2.anchorServe 0).heaps[0]?.any fun h => h.inserting 3 | _ => false)
        && okB (hInsert 0 h false 7 s) (fun r => match r.1 with | .wait => true | _ => false) && s.anchorTurn h && !(s.anchorTurn { h with extr := some 11 } && (s.waiting 11).isSome)
        && { h with msgs := [⟨.append 3 1 1, .ins 3⟩] }.inserting 3 && !h.inserting 3 && (waitingFor (.egins 1 2) 0 3).arg != 0 && (waiting (.egins 1 2)).arg == 0
        && okB (hMerge 0 h true 1 2 s) okE && okB (hMerge 0 h true 0 2 s) (fun r => !okE r) && okB (hMerge 0 h false 1 2 s) (fun r => match r.1 with | .ok none => true | _ => false) && okB (hRootOf h 1 s) okE && okB (hRootOf h 3 s) (fun r => !okE r) && okB (hSame h 1 2 s) (fun r => !r.1)
        && okB (hNode h 1 s) (fun r => match r.1 with | .ok x => okB (r.2.writeMem 0 0 0x1900 (bytesOf 16 x.2)) fun _ => true | .error _ => false)
        && okB (hView h s) (fun v => decide (v.2.c = s.c ∧ v.1.n = 3)) && okB (hRoots h [1] s) (fun r => match r.1 with | .ok l => l == [1] | .error _ => false)) = true
      ∧ okB (s.readMemNum 0 0 .clu 0x1900 16) (fun r => !termBad r.1) = true ∧ (s.c.getA 3).toNat % 16 = 0 ∧ (s.c.getA 3).toNat % 64 = 0 ∧ (s.c.getA 3).toNat < 2 ^ 63
      ∧ (match unbound.boundHeap with | .error 1 => true | _ => false) = true ∧ (match (heapState fun h => { h with spoiled := true }).boundHeap with | .ok x => x.2.spoiled | _ => false) = true
      ∧ (s.heaps.find? fun h => h.asid == s.c.asid && h.num == 3).isSome = true ∧ (s.heaps.find? fun h => h.asid == s.c.asid && h.num == 4) = none
      ∧ okB (s.readNum (s.req 8) .dev 0x1000 256) (fun r => !headerBad 0x1000 r.1) = true
      ∧ boundB s (fun h => okB (hGet h (h.header + 72) 8 s) fun r => okB (hGet h (h.header + 80) 8 r.2) fun c => decide (c.2.c = s.c ∧ c.1 < r.1)) = true
:= by decide +kernel
/-- A weight block of zeros at 0x2000: a ranked match, the two model modes of EGCOST and EGEXTR, and a bad EGCOST. -/
theorem witness_HeapInstructions_model :
    let s := withC (heapState id) fun c => { c with cr := { c.cr with egmodel := 0x2000 } }
    okB (s.readMem 0 0 .clu s.c.cr.egmodel 1154) (fun w => w.1.length == 1154 && boundB s fun h => okB (hOpenMatch 0 h (0x1B00 + 2 ^ 64 + 2 ^ 129) [] (List.replicate 577 0) w.2) fun m => m.1.ranked) = true
      ∧ matchBad (0x1B00 + 2 ^ 64 + 2 ^ 129) = false ∧ (Machine.fld (0x1B00 + 2 ^ 64 + 2 ^ 129) 16 1).testBit 1 = true
      ∧ boundB s (fun h => okB (hPut h (h.header + 88) 8 0 s) fun a => okB (hPut h (h.header + 96) 4 0 a.2) fun b => okB (hPut h (h.header + 100) 1 1 b.2) fun t =>
          okB (hGet h (h.header + 88) 8 t.2) fun c => okB (hGet h (h.header + 96) 4 c.2) fun k => okB (hGet h (h.header + 100) 1 k.2) fun z => z.1 == 1 && z.2.anchorTurn h && h.msgs.isEmpty
            && okB (hView h (z.2.anchorHold 0)) fun v => okB (v.2.readMem 0 0 .clu 0x2000 1154) fun w => okB (w.2.writeDev 0x1908 [0, 0, 0, 0, 0, 0, 0, 0]) fun _ => true) = true
      ∧ (let h := { asid := 0, num := 3, header := 0x1000, hdr := 0, die := 0, broken := false, spoiled := false, msgs := [], extr := some (11, 9), queue := [], poolNext := 1 }
         (s.mapCtx 11 fun c => { c with live := true, wait := some { waiting (.egextr 1 2) with ticket := 9 } }).anchorTurn h) = false
      ∧ ((0x2002 : Word).toNat % 4 ≠ 0) ∧ 65536 < (65537 : Word).toNat := by decide +kernel
theorem witness_HeapInstructions_match :
    let s := heapState id
    okB (s.readMemNum 0 0 .clu 0x1A00 64) (fun r => !matchBad r.1 && !(Machine.fld r.1 16 1).testBit 1 && okB (r.2.readMem 0 0 .clu 0x1B00 64) fun hd => wordOfBytes hd.1 == 1
          && okB (hd.2.readMem 0 0 .clu 0x1B00 128) fun bs => match rulesOf bs.1 1 with
            | some rules => boundB s fun h => okB (hOpenMatch 0 h r.1 rules [] bs.2) fun _ => true
            | none => false) = true
      ∧ okB (s.readMemNum 0 0 .clu 0x1C00 64) (fun r => !bindingBad r.1 && decide (Machine.fld r.1 2 1 = 0 ∧ Machine.fld r.1 4 4 = 1) && okB (r.2.writeMem 0 0 0x1C00 (bytesOf 64 r.1)) fun _ => true) = true
      ∧ boundB s (fun h => okB (hPut h (h.header + 88) 8 0x1D00 s) fun a => okB (hPut h (h.header + 96) 4 16 a.2) fun b => okB (hPut h (h.header + 100) 1 0 b.2) fun _ => true) = true
      ∧ boundB s (fun h => okB (hNext h s) fun nx => okB (hGet h (h.header + 88) 8 nx.2) fun c => c.1 != 0 && okB (hGet h (h.header + 96) 4 c.2) fun k => okB (hGet h (h.header + 100) 1 k.2) fun z => z.1 == 0 && h.msgs.isEmpty
          && okB (z.2.tableCosts c.1 k.1 [5, 6]) fun own => okB (own.2.writeDev (0x1900 + 8) [0, 0, 0, 0, 0, 0, 0, 0]) fun _ => true) = true := by decide +kernel
/-- A match of one rule whose queue holds a binding. -/
def amatch (q : List Binding) (done : Bool) : Match :=
  { heap := 0, ranked := false, lo := 1, hi := 3, roots := none, rules := [{ rule := 0, nvars := 0, words := [0xC0000005] }], weights := [], last := none, batch := [], done := done, queue := q }
theorem witness_HeapAgents :
    let b : Binding := { pos := 0, rule := 0, nvars := 0, root := 1, vs := [], stamp := 0, ranked := false, score := 0, topOp := 5, depth := 1 }
    let m := withC (heapState id) fun c => { c with mtch := some (amatch [] false) }
    let msgs (l : List HMsg) := heapState fun h => { h with msgs := l.map fun x => ⟨x, .merge 2⟩ }
    let runs (x : HMsg) (act : Heap → HM Unit) : Bool :=
      let s := msgs [x]
      match s.heaps[0]? with
      | some h => !h.broken && h.msgs.contains ⟨x, .merge 2⟩ && okB (act h (s.mapHeap 0 fun h => { h with msgs := h.msgs.erase ⟨x, .merge 2⟩ })) fun r => okB (hClose 0 h r.2) fun _ => true
      | none => false
    runs (.union 1 2 1 2) (fun h => hUnion 0 h 1 2 1 2 (.merge 2)) = true ∧ runs (.adopt 2 1 1 2 1 0 0) (fun h => hAdopt 0 h 2 1 1 0 0 (.merge 2)) = true
      ∧ runs (.append 2 1 1) (fun h => hAppend 0 h 2 1 1 (.merge 2)) = true ∧ runs (.rehash 1 1 2) (fun h => hRehash 0 h 1 1 2 (.merge 2)) = true
      ∧ (match (msgs [.union 1 2 1 2]).heaps[0]? with
         | some h => (match hUnion 0 { h with asid := 7 } 1 2 1 2 (.merge 2) (msgs [.union 1 2 1 2]) with | .error e => e != .busy | .ok _ => false)
         | none => false) = true
      ∧ (m.ctx 0).mtch = some (amatch [] false) ∧ (match m.heaps[0]? with | some h => !h.broken && okB (hDeliver h (amatch [] false) m) (fun r => r.1 != amatch [] false) | none => false) = true
      ∧ (amatch [b] false).queue = [b] ∧ okB (m.writeMem 0 0 0x1900 (bytesOf 64 b.num)) (fun _ => true) = true ∧ (amatch [] true).done = true ∧ (amatch [] true).batch = [] := by decide +kernel

theorem witness_CounterReads :
    let s := base.mapDie 0 fun d => { d with heatctl := 0x200, heatbase := 0x50000, heat := [(3, 4)] }
    let t := { s with time := 2100 }
    (3, 4) ∈ (s.die 0).heat ∧ (s.die 0).heatctl.getLsbD 9 = true ∧ ((base.mapDie 0 fun d => { d with heat := [(3, 4)] }).die 0).heatctl.getLsbD 9 = false
      ∧ okB ((s.mapDie 0 fun d => { d with heat := [] }).recall 0x50000) (fun _ => true) = true ∧ tget 0 (t.die 0).sweeps 3 < t.time.toNat / (2100 * 2 ^ ((t.die 0).heatctl.toNat / 16 % 32))
      ∧ (t.die 0).sweepAt.find? (·.1 == 3) = none ∧ ({ (t.die 0) with sweepAt := [(3, 32)] } : DieSt).sweepAt.find? (·.1 == 3) = some (3, 32)
      ∧ 64 ≤ tget 0 ((base.mapCore 0 fun k => { k with lsPass := tset k.lsPass 2 64 }).core 0).lsPass 2
      ∧ (∀ n < 2, tget 0 ((base.mapCore 0 fun k => { k with lsPass := tset k.lsPass 2 64 }).core 0).lsPass n < 64) := by decide +kernel
theorem witness_UpcallsAndReturns :
    let u : Upcall := { code := 2, info := 0, addr := 0, token := 0, whence := 0, soft := false, park := none }
    let s := withC (regs 0x100 1 0x20 0 0 0) fun c => { c with pending := [u], cr := { c.cr with upcall := 0x40 } }
    let p : Park := { pc := 8, apc := none, win := [], works := [], wait := none, latch := none, acc := [], owes := [], counts := .replicate 16 3, owed := [], owedV := [] }
    let h := withC (regs 0x100 1 0 0 0 0) fun c => { c with st := { c.st with upc := true }, parks := [(1, p)], sb := .replicate 16 60 }
    let ldfe := { access (.ldfe true (.x 1)) 8 with slot := some 3 }
    let l := withC s fun c => { c with acc := [ldfe], sb := c.sb.set 3 1 }
    let w := withC h fun c => { c with st := { c.st with upc := false }, wait := some (waiting (.upret 3)) }
    let br : Passed := { id := 5, instr := .b 4 false 1, mods := Mods.none, pc := 4, npc := 8, next := 8, kind := .branch (.replicate 16 9), xs := [], ps := [], vs := [] }
    s.c.returning = false ∧ (s.c.win.find? Passed.unresolved).isNone = true ∧ s.c.works = [] ∧ s.c.acc = [] ∧ l.c.acc = [ldfe] ∧ ldfe.back = false ∧ ldfe.held = false
      ∧ w.c.returning = true ∧ [br].find? Passed.unresolved = some br ∧ base.c.win = [] ∧ base.c.works = [] ∧ base.c.apc = none
      ∧ base.c.takesBack (access (.st 8 1) 8) = false ∧ h.c.parks.find? (fun kp => kp.1 == 2) = none ∧ (∀ x ∈ p.acc ++ h.c.acc, x.back = false)
      ∧ (s.core 0).frozen = false ∧ (s.core 0).fenced = false ∧ s.c.pending = [u] ∧ s.c.st.upc = false ∧ s.c.live = true ∧ s.c.cr.upcall ≠ 0 ∧ base.c.cr.upcall = 0 ∧ s.c.freePark = some 0
      ∧ h.c.st.upc = true ∧ (h.c.getX 2).toNat < 512 ∧ (h.c.getX 2).toNat / 4 % 64 = 0 ∧ (h.c.getX 2).getLsbD 8 = true ∧ (h.c.getX 3).toNat < 4 ∧ h.c.latch = none
      ∧ h.c.parks.find? (fun kp => kp.1 == 1) = some (1, p) ∧ (∀ i : Slot, h.c.sb[i].toNat + p.counts[i].toNat ≤ 63)
      ∧ (∃ i : Slot, 63 < (withC h fun c => { c with sb := .replicate 16 61 }).c.sb[i].toNat + p.counts[i].toNat) ∧ base.c.wait = none ∧ base.c.latch = none ∧ base.c.freePark = some 0
      ∧ base.c.pending = [] ∧ (s.c.getX 3).toNat % 256 = 1 ∧ (s.c.getX 4).toNat % 256 = 0x20 ∧ (s.c.getX 4).toNat / 256 % 2 ^ 24 = 0 ∧ (h.c.getX 2).toNat / 256 % 2 ^ 24 ≠ 0 := by decide +kernel
theorem witness_WatchdogAndDebug :
    let w := { waiting (.ptry (.x 1) 1 1) with since := 0 }
    let s := { withC base (fun c => { c with wait := some w }) with time := 0x80000001 }
    let fz := s.mapCore 0 fun k => { k with frozen := true }
    let ended := withC base fun c => { c with live := false }
    let y : Work := { id := 8, wait := w, latch := none, x := .replicate 32 0, a := .replicate 16 0, p := .replicate 8 false, egheap := 0, asid := 0, back := false }
    let bw := withC s fun c => { c with wait := none, works := [y] }
    (bw.ctx 0).wait = none ∧ (bw.ctx 0).works = [y] ∧ (bw.core 0).wdlim ≠ y.wait.barked ∧ (bw.core 0).frozen = false ∧ (bw.ctx 0).live = true
      ∧ s.c.live = true ∧ (s.ctx 0).wait = some w ∧ (s.core 0).wdlim ≠ 0 ∧ (s.core 0).wdlim ≠ w.barked ∧ (s.core 0).wdlim.toNat < min (s.time - w.since).toNat (2 ^ 32 - 1)
      ∧ (fz.core 0).frozen = true ∧ (fz.core 0).fenced = false ∧ (s.core 0).frozen = false ∧ ¬(∀ f ∈ framesOf 0, (fz.ctx f).live = false) ∧ (∀ f ∈ framesOf 0, (ended.ctx f).live = false) ∧ (fz.core 0).dbgFrame = 0
      ∧ (s.core 0).dbgFrame ≤ 10 ∧ (∀ f ∈ framesOf 0, (s.ctx f).live = true → 5 ∉ (s.ctx f).groups) := by decide +kernel
theorem witness_WatchdogAndDebug_more :
    let h : Huddle := { id := 9, tag := 1, parts := [0, 1], opened := none, joined := [0], team := none }
    let s := { (base.mapCore 0 fun k => { k with mjobs := [mjob 4 (.joint 9)] }).mapClu 0 (fun k => { k with huddles := [h] }) with time := 0x80000001 }
    s.arrivalOf 0 = some (mjob 4 (.joint 9), 0x80000001) ∧ (s.core 0).wdlim.toNat < 0x80000001 ∧ (s.ctx 0).works = [] ∧ (s.ctx 0).wait = none ∧ (s.ctx 0).live = true
      ∧ ((coresOf 0).flatMap framesOf).find? (fun f => (vec.ctx f).live && (vec.ctx f).groups.contains 1) = some 0 ∧ (vec.core (coreOf 0)).frozen = false := by decide +kernel
theorem witness_WatchdogAndDebug_watched : ∀ i, (waiting (.ptry (.x 1) 1 1)).instr = some i → (∀ d a, i ≠ .park d a) ∧ ∀ d a p, i ≠ .ftget d a p := by
  intro i h; cases h; exact ⟨fun d a h => (nomatch h), fun d a p h => (nomatch h)⟩
theorem witness_PreemptionAndPower :
    let s := { base with dev := { base.dev with switchAt := some (5, 1) }, time := 5 }
    let off := { base with dev := { base.dev with rails := 0 } }
    s.dev.switchAt = some (5, 1) ∧ (5 : Word) ≤ s.time ∧ s.dev.halted = false ∧ base.time.toNat + 2048 ≤ (2048 : Word).toNat ∧ (2047 : Word).toNat < base.time.toNat + 2048
      ∧ (∀ d ∈ allDies, (s.die d).failedSlices = []) ∧ s.dies = [] ∧ 1 ≠ base.dev.partition ∧ base.dugouts = [] ∧ s.clus = [] ∧ CluSt.reset.lanesLost = []
      ∧ (DieImage.fresh 1).frames = []
      ∧ off.dev.rails ≠ 6 ∧ Memory.wf off.mem = true ∧ ({ base with dev := { base.dev with released := false } } : State).dev.released = false ∧ base.dev.stopped = false ∧ base.dev.rails = 6 ∧ base.dev.released = true := by decide +kernel
theorem test_image : -- the table of R378: x5 and a4 of frame 0, the execute stream's pc, and the second doubleword of core 1's local store
    let s := (withC base fun c => ((c.setX 5 7).setA 4 9)).mapCore 1 fun k => { k with ls := k.ls.write 8 8 11 }
    let im := s.dieImage 0 5
    im.word 0 (4096 + 16 + 40) = some 7 ∧ im.word 0 (4096 + 272 + 32) = some 9 ∧ im.word 0 (4096 + 16) = some s.c.pc ∧ im.word 0 4 = none
      ∧ im.word 0 ((22916 + 258) * 1024 + 8) = some 11 ∧ im.word 0 (4096 + 2048 * 1407 + 800) = some 0 := by decide +kernel
theorem witness_DeviceRegisters :
    let fz := base.mapCore 511 fun k => { k with frozen := true }
    (0x8011FF008 : Nat) = 0x801000000 + 0x1FF008 ∧ (0x8010001FF008 : BitVec 48).toNat = 0x801000000000 + 0x1000 * 511 + 8 ∧ (fz.core 511).frozen = true ∧ (base.core 511).frozen = false
      ∧ (10 : Word).toNat ≤ 10 ∧ (0x800300000200 : BitVec 48).toNat = 0x800000000200 + 0x100000000 * 3 := by decide +kernel
theorem witness_HostAndFabric :
    let s := { base with dies := [], l1 := [], l2 := [] }
    let a := { base with launches := [lnch true false], dev := { base.dev with away := [{ launch := 9, j := 2, cores := 1 }] } }
    a.launches.find? (·.id == (lnch true false).id) = some (lnch true false) ∧ (∃ x ∈ a.dev.away, x.launch = (lnch true false).id ∧ x.j = 2)
      ∧ ¬(∃ x ∈ base.dev.away, x.launch = 9 ∧ x.j = 2) ∧ base.homeRead 0x7FFFFFFFC0 8 = 0 % 2 ^ (8 * 8) ∧ base.homeRead 0x7FFFFFFFC0 8 ≠ 5 % 2 ^ (8 * 8)
      ∧ base.tableFault 0 = none ∧ base.tableFault 0x20000000000 = none ∧ base.rangeShut 0x7FFFFFFFC0 64 = false ∧ base.dev.stacksDown = [] ∧ 0x7FFFFFFFFF + 1 ≤ 2 ^ 39
      ∧ base.l1 = [] ∧ base.l2 = [] ∧ Memory.wf base.mem = true ∧ paClass 0 = .stack ∧ 0x7FFFFFFFC0 + 64 ≤ 2 ^ 39 ∧ paClass 0x7FFFFFFFC0 = .stack ∧ s.poison = []
      ∧ 5 ∈ ({ s with poison := [5] } : State).poison ∧ paClass 0x400000000000 = .host ∧ paClass 0x20000000000 = .pool ∧ base.paFault true 0x20000000000 = none
      ∧ ({ base with dev := { base.dev with planesDown := (List.range 16).erase 15 } } : State).dev.planesDown.length = 15 ∧ base.homes = [] ∧ base.dev.status.toNat < 256 := by decide +kernel

/-! The step. -/

theorem witness_EncodeDecode : let i : Instr := .add (.x 3) (.x 4) (.reg (.x 5))
    i.coded = true ∧ i.wellFormed = true ∧ i.modsOk Mods.none = true ∧ i.modsOk ⟨2, false, false, 0, 2⟩ = true ∧ (Instr.barw .clu 2).coded = true ∧ (Instr.barw .clu 2).wellFormed = true := by decide +kernel
theorem witness_StepRunsDecoded :
    let s := State.reset.withFetchWord 32 0x00510300
    let s0 := { s with time := s.time + 1, agenda := [] }
    let t := withC (State.reset.withFetchWord 64 0x00000402005103FE) fun c => c.setP 2 true
    let t0 := { t with time := t.time + 1, agenda := [] }
    let z := State.reset.withFetchWord 32 0
    let g := withC s fun c => { c with pc := 0 }
    let gx : State := { g with agenda := [.ahead 0], time := g.time + 1 }
    let ld := { (State.reset.withFetchWord 32 0x10288719).mapC (fun c => c.setA 2 0x100) with agenda := [] }
    let at_ (s : State) := s.mapCtx 0 fun c => { c with pc := 0, wait := none, latch := none, win := [] }
    let y : Work := { id := 8, wait := { waiting (.bara .core 1) with wrap := true, begun := false }, latch := none, x := .replicate 32 0, a := .replicate 16 0, p := .replicate 8 false, egheap := 0, asid := 0, back := false }
    let b := withC base fun c => { c with works := [y] }
    (s0.ctx 0).apc = none ∧ (s0.ctx 0).unissued = false ∧ (gx.ctx 0).win = [] ∧ accessStream (.add (.x 3) (.x 4) (.reg (.x 5))) = false ∧ halts (.add (.x 3) (.x 4) (.reg (.x 5))) = false
      ∧ halts (.trap 5) = true ∧ accessStream (.ld64 1 16 2 (.x 7)) = true ∧ together (.ld64 1 16 2 (.x 7)) = false ∧ besideDest (.ld64 1 16 2 (.x 7)) = none
      ∧ okB (ld.fetchAt 0 0) (fun r => r.1.1 == 0x10288719 && (r.2.ctx 0).transferred Mods.none (.ld64 1 16 2 (.x 7)) && (r.2.ctx 0).maskClear 0 && !(at_ r.2).blocked 0 Mods.none (.ld64 1 16 2 (.x 7))
          && nextB (exec (.ld64 1 16 2 (.x 7)) ((at_ r.2).issued 0 Mods.none (.ld64 1 16 2 (.x 7)) 4)) fun t => r.2.accepts t 0) = true
      ∧ (b.ctx 0).works.find? (·.id == 8) = some y ∧ b.canWork 0 y = true ∧ nextB (exec (.bara .core 1) (b.atWork 0 y)) (fun _ => true) = true
      ∧ s0.due = false ∧ outside .freezeSignal = true ∧ ({ s0 with dev := { s0.dev with switchAt := some (0, 1) } } : State).due = true
      ∧ s.dev.stopped = false ∧ s.dev.rails = 6 ∧ s.dev.released = true ∧ s.agenda = [.issue 0] ∧ s0.canIssue 0 = true ∧ (s0.ctx 0).wait = none ∧ (s0.ctx 0).st.gang = 0 ∧ (s0.ctx 0).pc.toNat % 4 = 0
      ∧ okB (s0.fetch 0) (fun r => r.1.1 == 0x00510300 && !r.2.blocked 0 Mods.none (.add (.x 3) (.x 4) (.reg (.x 5)))) = true
      ∧ okB (t0.fetch 0) (fun r => r.1 == (0x005103FE, 0x402, 0) && !r.2.blocked 0 ⟨2, false, false, 0, 2⟩ (.add (.x 3) (.x 4) (.reg (.x 5)))
          && nextB (exec (.longForm ⟨2, false, false, 0, 2⟩) (r.2.issued 0 ⟨2, false, false, 0, 2⟩ (.add (.x 3) (.x 4) (.reg (.x 5))) 8)) fun u => u.c.go) = true
      ∧ okB ({ z with time := z.time + 1, agenda := [] }.fetch 0) (fun r => r.1.1 == 0) = true ∧ s.dev.halted = false ∧ s.leads 0 = true := by decide +kernel
/-- A source of core 0's port that has been passed over 64 times; an access on its way of a context that has been killed; and slots that nothing has yet to set. -/
theorem witness_StepRunsDecoded_turns :
    let s := { (base.mapCore 0 fun k => { k with lsPass := tset k.lsPass 3 64 }) with agenda := [.event .bringUp] }
    let p := { (withC base fun c => { c with live := false, acc := [access (.stl 4 9) 8] }) with agenda := [.perform 0 7] }
    s.latePort = some (0, 3) ∧ base.latePort = none ∧ nextB (step p) (fun t => t.c.acc == [] && (t.core 0).ls.read 8 4 == 9) = true
      ∧ base.c.slotsDue &&& waitSlots ⟨0, false, false, 4, 0⟩ .nop = 0 := by decide +kernel
/-- R157, R284: a supervisor's job writes the base of the address-space table; the write is posted, and its turn performs it. -/
theorem witness_StepRunsDecoded_posted : devWrites 8 0x800000000100 8 0x4000 = [.posted 0x800000000100 0x4000]
    ∧ nextB (step { State.reset with agenda := [.posted 0x800000000100 0x4000] }) (fun t => t.dev.asidTable == 0x4000 && t.agenda == []) = true := by decide +kernel
theorem witness_MemoryCanonical : Memory.wf (State.reset.withFetchWord 32 0x00510300).mem = true ∧ nextB (step (State.reset.withFetchWord 32 0x00510300)) (fun t => t.c.pc == 4) = true := by decide +kernel

/-! One step each: expected values worked by hand from the rules named. -/

/-- R102: sums wrap modulo 2^64. -/
theorem test_add_wraps : nextB (exec (.add (.x 1) (.x 2) (.reg (.x 3))) (regs (BitVec.allOnes 64) 2 0 0 0 0)) (fun t => t.c.getX 1 == 1 && t.c.getX 2 == BitVec.allOnes 64) = true := by decide +kernel
/-- R102: the source may be the destination. -/
theorem test_sub_in_place : nextB (exec (.sub (.x 2) (.x 2) (.reg (.x 3))) (regs 5 7 0 0 0 0)) (fun t => t.c.getX 2 == BitVec.allOnes 64 - 1) = true := by decide +kernel
/-- R102: the upper half of a signed product. −2 times 3 is −6. -/
theorem test_mulh_signed : nextB (exec (.mulh (.x 1) (.x 2) (.reg (.x 3))) (regs (BitVec.allOnes 64 - 1) 3 0 0 0 0)) (fun t => t.c.getX 1 == BitVec.allOnes 64) = true := by decide +kernel
/-- R103: −7 divided by 2 is −3, remainder −1. -/
theorem test_div_truncates : nextB (exec (.div (.x 1) (.x 2) (.reg (.x 3))) (regs (.ofInt 64 (-7)) 2 0 0 0 0)) (fun t => t.c.getX 1 == .ofInt 64 (-3)) = true
    ∧ nextB (exec (.rem (.x 1) (.x 2) (.reg (.x 3))) (regs (.ofInt 64 (-7)) 2 0 0 0 0)) (fun t => t.c.getX 1 == .ofInt 64 (-1)) = true := by decide +kernel
/-- R122: 1 + 2 = 3, exact; 1 ÷ 3 rounds up in the last place of FP32, inexact. -/
theorem test_float : fAdd .f32 .rne 0x3F800000 0x40000000 = ⟨0x40400000, 0⟩ ∧ fDiv .f32 .rne 0x3F800000 0x40400000 = ⟨0x3EAAAAAB, Fl.nx⟩
    ∧ fDiv .f32 .rtz 0x3F800000 0x40400000 = ⟨0x3EAAAAAA, Fl.nx⟩ ∧ fMul .bf16 .rne 0x3FC0 0x3FC0 = ⟨0x4010, 0⟩ := by decide +kernel
/-- R113: CALL leaves the address after it and goes to its target. -/
theorem test_call : nextB (exec (.call 4) (withC base fun c => { c with pc := 0x20, npc := 0x24 })) (fun t => t.c.getA 14 == 0x24 && t.c.pc == 0x30) = true := by decide +kernel
/-- R117: TRAP freezes its core with the pc at the TRAP. -/
theorem test_trap : nextB (exec (.trap 5) (withC base fun c => { c with pc := 0x20, npc := 0x24 })) (fun t => (t.core 0).frozen && t.c.pc == 0x20) = true := by decide +kernel
/-- R151: a store's bytes are little-endian, and a load sign-extends what it reads. -/
theorem test_store_then_load :
    let ld (n : Nat) (sx : Bool) (ea v : Word) (t : State) : Bool := okB (((t.mapC fun c => { c with acc := [access (.ld n sx (.x 1)) ea] })).performE 0 (access (.ld n sx (.x 1)) ea)) fun u => u.c.getX 1 == v
    okB ((withC base fun c => { c with acc := [access (.st 4 0x11223380) 0x100] }).performE 0 (access (.st 4 0x11223380) 0x100)) (fun t =>
      ld 1 true 0x100 (.ofInt 64 (-128)) t && ld 1 false 0x103 0x11 t && ld 8 false 0x100 0x11223380 t) = true := by decide +kernel
/-- R186: the signed minimum of 32 bits, and a sum that wraps. -/
theorem test_amo_values : amoNew .min 4 5 0xFFFFFFFF = (0xFFFFFFFF, 0) ∧ amoNew .add 4 0xFFFFFFFF 2 = (1, 0) := by decide +kernel
/-- R147: the sum of 32 lanes of 1 in UI8 is 32. -/
theorem test_vred : nextB (exec (.vredAdd 0 .ui8 1 2) (vec.mapC fun c => c.setV 2 (BitVec.ofNat 8192 (2 ^ 8192 / (2 ^ 32 - 1))))) (fun t => t.c.getX 1 == 32) = true := by decide +kernel
/-- R281: a lone context's barrier completes at once. -/
theorem test_bar : nextB (exec (.bar .core) base) (fun t => t.c.wait.isNone && t.c.pc == base.c.npc) = true := by decide +kernel
/-- R64: the opcode table's numbering and the step agree: ADD x3, x4, x5, then its long form, then with a literal. -/
theorem test_table_word : decodeTableWord 32 0x00510300 = some (.add (.x 3) (.x 4) (.reg (.x 5))) ∧ decodeTableWord 64 0x00000402005103FE = some (.add (.x 3) (.x 4) (.reg (.x 5)))
    ∧ decodeTableWord 96 0x000186A000000000000103FF = some (.add (.x 3) (.x 4) (.lit 100000)) ∧ decodeTableWord 32 0 = none := by decide +kernel
theorem test_step_table_word : nextB (step (State.reset.withFetchWord 96 0x000186A000000000000103FF)) (fun t => t.c.getX 3 == 100000 && t.c.pc == 12) = true := by decide +kernel

end Sys2Proof.Tests
end

section
/-! Proofs about the scalar integer instructions: division and remainder (R103). -/

namespace Sys2Proof.Machine

open Sys2Proof Sys2Proof.Says

/-! The four instructions complete with the value of their two-source function. -/

theorem alu2_eq_sets (f : Word → Word → Word) (d a : Reg) (b : Src) (s : State) : alu2 f d a b s = sets s d (f (s.c.getReg a) (s.c.src b)) := rfl

theorem exec_div (d a : Reg) (b : Src) (s : State) : exec (.div d a b) s = sets s d (divS (s.c.getReg a) (s.c.src b)) := alu2_eq_sets divS d a b s
theorem exec_divu (d a : Reg) (b : Src) (s : State) : exec (.divu d a b) s = sets s d (divU (s.c.getReg a) (s.c.src b)) := alu2_eq_sets divU d a b s
theorem exec_rem (d a : Reg) (b : Src) (s : State) : exec (.rem d a b) s = sets s d (remS (s.c.getReg a) (s.c.src b)) := alu2_eq_sets remS d a b s
theorem exec_remu (d a : Reg) (b : Src) (s : State) : exec (.remu d a b) s = sets s d (remU (s.c.getReg a) (s.c.src b)) := alu2_eq_sets remU d a b s

/-! The first row of the table: b = 0. -/

theorem divS_zero (x : Word) : divS x 0 = BitVec.allOnes 64 := if_pos rfl
theorem divU_zero (x : Word) : divU x 0 = BitVec.allOnes 64 := if_pos rfl
theorem remS_zero (x : Word) : remS x 0 = x := if_pos rfl
theorem remU_zero (x : Word) : remU x 0 = x := if_pos rfl

/-! The second row: −2^63 by −1. The quotient 2^63 wraps to −2^63, and the remainder is 0. -/

theorem divS_overflow : divS 0x8000000000000000 (BitVec.allOnes 64) = 0x8000000000000000 := by decide
theorem remS_overflow : remS 0x8000000000000000 (BitVec.allOnes 64) = 0 := by decide

/-! The last row, with the remainder as a − b × quotient. -/

theorem divS_of_ne_zero {y : Word} (x : Word) (h : y ≠ 0) : divS x y = .ofInt 64 (x.toInt.tdiv y.toInt) := if_neg h

theorem divU_of_ne_zero {y : Word} (x : Word) (h : y ≠ 0) : divU x y = .ofNat 64 (x.toNat / y.toNat) := if_neg h

theorem remS_of_ne_zero {y : Word} (x : Word) (h : y ≠ 0) : remS x y = .ofInt 64 (x.toInt - y.toInt * x.toInt.tdiv y.toInt) := by
  rw [remS, if_neg h, Int.tmod_def]

theorem remU_of_ne_zero {y : Word} (x : Word) (h : y ≠ 0) : remU x y = .ofNat 64 (x.toNat - y.toNat * (x.toNat / y.toNat)) := by
  rw [remU, if_neg h, Nat.mod_def]

/-! The signed quotient and remainder keep their values in 64 bits, and the remainder has the dividend's sign or is zero. -/

/-- Only the quotient of the overflow leaves the range of a signed word: elsewhere it is the value of `BitVec.sdiv`. -/
theorem toInt_ofInt_tdiv {x y : Word} (h : ¬(x = 0x8000000000000000 ∧ y = BitVec.allOnes 64)) :
    (BitVec.ofInt 64 (x.toInt.tdiv y.toInt)).toInt = x.toInt.tdiv y.toInt := by
  have noOverflow : x ≠ BitVec.intMin 64 ∨ y ≠ -1#64 := not_and_or.mp h
  rw [← BitVec.toInt_sdiv_of_ne_or_ne x y noOverflow, BitVec.ofInt_toInt]

/-- The remainder always fits: it is the value of `BitVec.srem`. -/
theorem toInt_ofInt_sub_mul_tdiv (x y : Word) : (BitVec.ofInt 64 (x.toInt - y.toInt * x.toInt.tdiv y.toInt)).toInt = x.toInt - y.toInt * x.toInt.tdiv y.toInt := by
  rw [← Int.tmod_def, ← BitVec.toInt_srem, BitVec.ofInt_toInt]

theorem sub_mul_tdiv_nonneg {i : Int} (j : Int) (h : 0 ≤ i) : 0 ≤ i - j * i.tdiv j := Int.tmod_def i j ▸ Int.tmod_nonneg j h

theorem sub_mul_tdiv_nonpos {i : Int} (j : Int) (h : i ≤ 0) : i - j * i.tdiv j ≤ 0 := by
  have negated : 0 ≤ -i.tmod j := Int.neg_tmod i j ▸ Int.tmod_nonneg j (Int.neg_nonneg_of_nonpos h)
  rw [← Int.tmod_def]
  exact Int.neg_nonneg.mp negated

/-- Settles O2, row by row of R103's table: the divisor zero, the one signed overflow, and the ordinary signed and unsigned rules. -/
theorem divisionResults : Obligations.DivisionResults := by
  intro d a b s x y q r
  rw [exec_div, exec_divu, exec_rem, exec_remu]
  refine ⟨fun hy => ?byZero, fun _ hx hy => ?overflow, fun hy hxy => ?signed, fun hy => ?unsigned⟩
  case byZero =>
    rw [show s.c.src b = 0 from hy, divS_zero, divU_zero, remS_zero, remU_zero]
    exact ⟨rfl, rfl, rfl, rfl⟩
  case overflow =>
    rw [show s.c.getReg a = _ from hx, show s.c.src b = _ from hy, divS_overflow, remS_overflow]
    exact ⟨rfl, rfl⟩
  case signed =>
    rw [divS_of_ne_zero _ hy, remS_of_ne_zero _ hy]
    exact ⟨rfl, toInt_ofInt_tdiv hxy, rfl, toInt_ofInt_sub_mul_tdiv x y, sub_mul_tdiv_nonneg y.toInt, sub_mul_tdiv_nonpos y.toInt⟩
  case unsigned =>
    rw [divU_of_ne_zero _ hy, remU_of_ne_zero _ hy]
    exact ⟨rfl, rfl⟩

end Sys2Proof.Machine
end

section
/-! Proofs about the performance counters: the soft-error event of a die (R361, R362). -/

namespace Sys2Proof.Machine

open Sys2Proof Sys2Proof.Says

/-! What reading a die gives after a die is changed, and the frame of that change. -/

theorem State.die_mapDie_same (s : State) (n : Nat) (g : DieSt → DieSt) : (s.mapDie n g).die n = g (s.die n) := by
  rw [State.die_mapDie, if_pos rfl]

theorem State.die_mapDie_other (s : State) {n m : Nat} (g : DieSt → DieSt) (h : m ≠ n) : (s.mapDie n g).die m = s.die m := by
  rw [State.die_mapDie, if_neg h]

theorem State.mapDie_frame (s : State) (n : Nat) (g : DieSt → DieSt) : s.mapDie n g = { s with dies := (s.mapDie n g).dies } := rfl

/-! The event. -/

/-- R361, R362: one more corrected soft error, up to the 48 bits of the counter. -/
def DieSt.countSoftError (d : DieSt) : DieSt := { d with pSoft := min (d.pSoft + 1) (2 ^ 48 - 1) }

theorem exec_correctedSoftError (n : Nat) (s : State) : exec (.correctedSoftError n) s = .next (s.mapDie n DieSt.countSoftError) := rfl

/-- Settles O50: the event changes one die, by one count, so the rest of the device and every other die stand by the laws of that change. -/
theorem correctedSoftErrors : Obligations.CorrectedSoftErrors := by
  intro n s
  refine ⟨s.mapDie n DieSt.countSoftError, exec_correctedSoftError n s, ?frame, ?counted, ?others⟩
  case frame => exact State.mapDie_frame s n _
  case counted => exact State.die_mapDie_same s n _
  case others => exact fun m h => State.die_mapDie_other s _ h

end Sys2Proof.Machine
end
